-- ==== Sys2Proof/Word.lean ====
section
/-!
DEFINITION. The word types of the SV4 and their plainest readings. Every register of the spec is a bit
vector of the width the spec gives it; element and field extraction that a later test could show wrong
stands in Sys2Proof/Machine/.
-/

namespace Sys2Proof

/-- A doubleword: S registers, addresses, special registers (spec/02, R52). -/
abbrev W64 := BitVec 64
/-- A 32-bit word: B registers, PCs, link words (spec/02, R52; spec/05, R118). -/
abbrev W32 := BitVec 32
/-- One byte of memory (spec/00, R7). -/
abbrev Byte := BitVec 8
/-- One V register: bit 32i + k is bit k of lane i, and element j of width w is bits [wj+w-1 : wj]
(spec/03, R75). -/
abbrev Lanes := BitVec 2048
/-- One instruction word (spec/05, R128). -/
abbrev Word96 := BitVec 96
/-- One tensor identifier entry of 32 bytes, little-endian (spec/02, R62). -/
abbrev TidEntry := BitVec 256
/-- One 64-byte code line, little-endian (spec/05, R118). -/
abbrev Line := BitVec 512

end Sys2Proof
end

