-- ==== Sys2Proof/Syntax.lean ====
section
/-!
DEFINITION. The instructions of Aqlas version 3 and the device's own steps as ONE inductive, one
constructor per row of spec/opcode_table.json. A constructor of an instruction word holds every operand the
word carries, its guard and STALL count included (spec/05, R128); a constructor of an operation or event
holds what the outside world or an unarchitected choice supplies to that step
(spec/95_what_each_step_holds.md).
-/

namespace Sys2Proof

/-- Element types, with the ETYPE codes 0 to 13 in this order (spec/02, R62). -/
inductive ETy
  | f32 | bf16 | f16 | e4m3 | e5m2 | i8 | n8 | i16 | n16 | i32 | n32 | i64 | n64 | b4
  deriving DecidableEq, Repr

/-- Rounding modes, codes 0 to 3 (spec/03, R80). -/
inductive Rm
  | rne | rtz | rdn | rup
  deriving DecidableEq, Repr

/-- Conditions, codes 0 to 11 in this order (spec/05, R135). -/
inductive Cond
  | eq | ne | lt | ge | le | gt | ltn | gen | len | gtn | un | ord
  deriving DecidableEq, Repr

/-- Predicate-pair modes .N, .U, .OR (spec/05, R134). -/
inductive PMode
  | n | u | o
  deriving DecidableEq, Repr

/-- Scopes .ST, .TL, .DI, .PK, .SY (spec/05, R138). -/
inductive Scope
  | st | tl | di | pk | sy
  deriving DecidableEq, Repr

/-- Semantics completers of an access: none, .ACQ, .REL (spec/05, R138). -/
inductive Sem
  | plain | acq | rel
  deriving DecidableEq, Repr

/-- B4 code meanings UNI, E2M1, POW, HYB (spec/03, R87). -/
inductive B4Ty
  | uni | e2m1 | pow | hyb
  deriving DecidableEq, Repr

/-- Operations of VRED and VSCAN (spec/07, R199). -/
inductive RedOp
  | sum | min | max | and | or | xor
  deriving DecidableEq, Repr

/-- Operations of VARED (spec/08, R216). -/
inductive VaOp
  | add | max | min | and | or | xor
  deriving DecidableEq, Repr

/-- Operations of CRED (spec/10, R260). -/
inductive CrOp
  | sum | max | min
  deriving DecidableEq, Repr

/-- Directions of CPY: .MM, .MS, .SM, .SS (spec/09, R245). -/
inductive CpyDir
  | mm | ms | sm | ss
  deriving DecidableEq, Repr

/-- Note scopes of CPY: none, .TL, .PK, .SY (spec/09, R245). -/
inductive NoteSc
  | off | tl | pk | sy
  deriving DecidableEq, Repr

/-- WAITA forms: 64-bit memory word, 32-bit memory word (.W), 64-bit scratchpad word (.L)
(spec/08, R218). -/
inductive WForm
  | d | w | l
  deriving DecidableEq, Repr

abbrev SReg := Fin 64
abbrev QReg := Fin 16
abbrev VReg := Fin 64
abbrev MReg := Fin 16
abbrev CReg := Fin 8
abbrev BReg := Fin 8
abbrev AcReg := Fin 8
abbrev XReg := Fin 16
/-- A guard selector: 0 to 15 names Q, 16 to 31 names M (spec/05, R129). -/
abbrev GSel := Fin 32

/-- The guard and stall fields every sequencer word carries (spec/05, R128). -/
structure Hdr where
  tt : BitVec 8
  ga : GSel
  gb : GSel
  gc : GSel
  stall : Fin 16
  deriving DecidableEq, Repr

/-- The token, sequence and .AT fields of an engine command (spec/05, R139). -/
structure EnH where
  k0 : Fin 64
  k1 : Fin 64
  k2 : Fin 64
  sq : SReg
  at_ : SReg
  deriving DecidableEq, Repr

/-- A V or C operand (spec/07, R176). -/
inductive OpVC
  | v (n : VReg)
  | c (n : CReg)
  deriving DecidableEq, Repr

/-- A V or S operand. -/
inductive OpVS
  | v (n : VReg)
  | s (n : SReg)
  deriving DecidableEq, Repr

/-- A V, S or C operand. -/
inductive OpVSC
  | v (n : VReg)
  | s (n : SReg)
  | c (n : CReg)
  deriving DecidableEq, Repr

/-- The selector operand of VSEL: M, V or C (spec/07, R193). -/
inductive OpSel
  | m (n : MReg)
  | v (n : VReg)
  | c (n : CReg)
  deriving DecidableEq, Repr

/-- The link destination of XFER.L: S or B (spec/06, R154). -/
inductive OpLink
  | s (n : SReg)
  | b (n : BReg)
  deriving DecidableEq, Repr

/-- Where an admission places one strand: package tile, slot and the tile offset of its scratchpad window.
The choice is not architected (spec/01, R41; spec/15, R378), so the step that admits takes it as data. -/
structure Place where
  tile : Nat
  slot : Nat
  win : Nat
  deriving DecidableEq, Repr

/-- The kind of a collective message from a partner slice (spec/10, R278 to R281). -/
inductive CollKind
  | cred (op : CrOp) (ty : ETy) (n : Nat)
  | cgth
  | csnd
  | written
  | barrier (n : Fin 32) (e : Nat)
  deriving DecidableEq, Repr

/-- Data of one call of a slice: the gang (its identifier and start time, spec/14, R372), the slice that sends and,
for a CSND and its answer, the slice it is for, the tag, the ordinal among the calls of that kind and tag
(R278), and the bytes (for a CRED: the 4-byte elements that are present). `written` is the answer of a receiver
that it has written or discarded the payload of a CSND (spec/10, R281). `barrier` is an arrival of a strand (`dst` its
index) at the generation `ord` of a .SY barrier with its count E (spec/08, R219, R220; spec/14, R373). -/
structure CollMsg where
  gang : W64
  start : W64
  src : Nat
  dst : Nat
  tag : BitVec 16
  ord : Nat
  kind : CollKind
  data : List Byte
  deriving DecidableEq, Repr

/-- DevLoad values of pool responses, the highest of an interval (spec/15, R389). -/
inductive DevLoad
  | none | light | optimal | moderate | severe
  deriving DecidableEq, Repr

/-- What a read of a DRAM atom found (spec/15, R385). -/
inductive EccResult
  | clean | correctable | uncorrectable
  deriving DecidableEq, Repr

/-- Every row of spec/opcode_table.json, in the table's order. -/
inductive Instr
  -- family 0: scalar arithmetic and logic (spec/06, R146 to R148)
  | add (h : Hdr) (d a b : SReg)
  | addi (h : Hdr) (d a : SReg) (imm : W32)
  | sub (h : Hdr) (d a b : SReg)
  | mul (h : Hdr) (d a b : SReg)
  | mulh (h : Hdr) (d a b : SReg)
  | mulhn (h : Hdr) (d a b : SReg)
  | div (h : Hdr) (d a b : SReg)
  | divn (h : Hdr) (d a b : SReg)
  | rem (h : Hdr) (d a b : SReg)
  | remn (h : Hdr) (d a b : SReg)
  | and (h : Hdr) (d a b : SReg)
  | andi (h : Hdr) (d a : SReg) (imm : W32)
  | or (h : Hdr) (d a b : SReg)
  | ori (h : Hdr) (d a : SReg) (imm : W32)
  | xor (h : Hdr) (d a b : SReg)
  | xori (h : Hdr) (d a : SReg) (imm : W32)
  | andn (h : Hdr) (d a b : SReg)
  | shl (h : Hdr) (d a b : SReg)
  | shlI (h : Hdr) (d a : SReg) (n : Fin 64)
  | shr (h : Hdr) (d a b : SReg)
  | shrI (h : Hdr) (d a : SReg) (n : Fin 64)
  | sar (h : Hdr) (d a b : SReg)
  | sarI (h : Hdr) (d a : SReg) (n : Fin 64)
  | rol (h : Hdr) (d a b : SReg)
  | rolI (h : Hdr) (d a : SReg) (n : Fin 64)
  | clz (h : Hdr) (d a : SReg)
  | ctz (h : Hdr) (d a : SReg)
  | popc (h : Hdr) (d a : SReg)
  | min (h : Hdr) (d a b : SReg)
  | max (h : Hdr) (d a b : SReg)
  | minn (h : Hdr) (d a b : SReg)
  | maxn (h : Hdr) (d a b : SReg)
  | sel (h : Hdr) (d a b : SReg) (c : QReg)
  | movi (h : Hdr) (d : SReg) (imm : BitVec 48)
  | movih (h : Hdr) (d : SReg) (imm : BitVec 16)
  | mov (h : Hdr) (d a : SReg)
  | lea (h : Hdr) (d a : SReg) (imm : W32)
  | bfx (h : Hdr) (d a : SReg) (pos : BitVec 6) (wid : BitVec 7)
  | bfi (h : Hdr) (d a : SReg) (pos : BitVec 6) (wid : BitVec 7)
  -- family 1: compares, predicates and control (spec/06, R149 to R163)
  | cmp (h : Hdr) (pt pf : QReg) (a : SReg) (c : Cond) (m : PMode) (b : SReg)
  | cmpi (h : Hdr) (pt pf : QReg) (a : SReg) (c : Cond) (m : PMode) (imm : BitVec 28)
  | tstb (h : Hdr) (pt pf : QReg) (a : SReg) (m : PMode) (bit : Fin 64)
  | plop (h : Hdr) (pt pf p1 p2 p3 : QReg) (ft : BitVec 8) (m : PMode)
  | prep (h : Hdr) (bt : BReg) (tgt : W32)
  | prepReg (h : Hdr) (bt : BReg) (a : SReg)
  | xfer (h : Hdr) (bt : BReg) (dly : Fin 4)
  | xferL (h : Hdr) (lnk : OpLink) (bt : BReg) (dly : Fin 4)
  | loop (h : Hdr) (cnt : SReg) (len : BitVec 12) (st : BitVec 4)
  | lbrk (h : Hdr)
  | vany (h : Hdr) (pt pf : QReg) (a : MReg) (m : PMode)
  | vall (h : Hdr) (pt pf : QReg) (a : MReg) (m : PMode)
  -- family 2: system (spec/06, R164 to R174)
  | mfsr (h : Hdr) (d : SReg) (n : Fin 21)
  | mtsr (h : Hdr) (n : Fin 21) (a : SReg)
  | trap (h : Hdr) (n : Byte)
  | rft (h : Hdr)
  | cswYield (h : Hdr)
  | cswParkt (h : Hdr) (a : SReg)
  | cswParka (h : Hdr) (a : SReg)
  | halt (h : Hdr)
  | waitt (h : Hdr) (a : SReg)
  | live (h : Hdr) (a b : SReg)
  | liveP (h : Hdr) (imm : W32)
  | liveVl (h : Hdr) (imm : W32)
  | liveVh (h : Hdr) (imm : W32)
  | phase (h : Hdr)
  | nop (h : Hdr)
  | bkpt (h : Hdr)
  -- family 3: lane integer, logic and movement (spec/07)
  | viadd (h : Hdr) (d a : VReg) (b : OpVS) (ty : ETy) (sat z : Bool)
  | visub (h : Hdr) (d a : VReg) (b : OpVS) (ty : ETy) (sat z : Bool)
  | vimul (h : Hdr) (d a : VReg) (b : OpVS) (ty : ETy) (sat z : Bool)
  | vimad (h : Hdr) (d a : VReg) (b c : OpVS) (ty : ETy) (sat z : Bool)
  | vand (h : Hdr) (d a : VReg) (b : OpVS) (ty : ETy) (z : Bool)
  | vor (h : Hdr) (d a : VReg) (b : OpVS) (ty : ETy) (z : Bool)
  | vxor (h : Hdr) (d a : VReg) (b : OpVS) (ty : ETy) (z : Bool)
  | vshl (h : Hdr) (d a : VReg) (b : OpVS) (ty : ETy) (z : Bool)
  | vshlI (h : Hdr) (d a : VReg) (n : Fin 64) (ty : ETy) (z : Bool)
  | vshr (h : Hdr) (d a : VReg) (b : OpVS) (ty : ETy) (z : Bool)
  | vshrI (h : Hdr) (d a : VReg) (n : Fin 64) (ty : ETy) (z : Bool)
  | vsar (h : Hdr) (d a : VReg) (b : OpVS) (ty : ETy) (z : Bool)
  | vsarI (h : Hdr) (d a : VReg) (n : Fin 64) (ty : ETy) (z : Bool)
  | vmov (h : Hdr) (d a : OpVC) (z : Bool)
  | vbcast (h : Hdr) (d : VReg) (a : SReg) (ty : ETy) (z : Bool)
  | vbcastI (h : Hdr) (d a : VReg) (k : BitVec 12) (ty : ETy) (z : Bool)
  | vextr (h : Hdr) (d : SReg) (a : VReg) (b : SReg) (ty : ETy)
  | vextrI (h : Hdr) (d : SReg) (a : VReg) (k : BitVec 12) (ty : ETy)
  | viota (h : Hdr) (d : VReg) (a : SReg) (stp : BitVec 12) (ty : ETy) (z : Bool)
  | vperm (h : Hdr) (d a b : VReg) (ty : ETy) (z : Bool)
  | vrot (h : Hdr) (d a : VReg) (b : SReg) (ty : ETy) (z : Bool)
  | vrotI (h : Hdr) (d a : VReg) (k : BitVec 12) (ty : ETy) (z : Bool)
  | vcomp (h : Hdr) (d a : VReg) (c : MReg) (ty : ETy) (z : Bool)
  | vbtst (h : Hdr) (mt mf : MReg) (b : VReg) (c : OpVS) (m : PMode)
  | mlop (h : Hdr) (mt mf a b c : MReg) (ft : Byte) (m : PMode)
  | mcnt (h : Hdr) (d : SReg) (a : MReg)
  | mfirst (h : Hdr) (d : SReg) (a : MReg)
  | mfirstM (h : Hdr) (d a : MReg) (z : Bool)
  -- family 4: lane floating point, conversion, compare and reduction (spec/07)
  | vadd (h : Hdr) (d a : OpVC) (b : OpVSC) (ty : ETy) (rm : Rm) (z : Bool)
  | vsub (h : Hdr) (d a : OpVC) (b : OpVSC) (ty : ETy) (rm : Rm) (z : Bool)
  | vmul (h : Hdr) (d a : OpVC) (b : OpVSC) (ty : ETy) (rm : Rm) (z : Bool)
  | vfma (h : Hdr) (d a : OpVC) (b c : OpVSC) (ty : ETy) (rm : Rm) (z : Bool)
  | vfms (h : Hdr) (d a : OpVC) (b c : OpVSC) (ty : ETy) (rm : Rm) (z : Bool)
  | vabs (h : Hdr) (d a : OpVC) (ty : ETy) (z : Bool)
  | vneg (h : Hdr) (d a : OpVC) (ty : ETy) (z : Bool)
  | vmin (h : Hdr) (d a : OpVC) (b : OpVSC) (ty : ETy) (k z : Bool)
  | vmax (h : Hdr) (d a : OpVC) (b : OpVSC) (ty : ETy) (k z : Bool)
  | vdiv (h : Hdr) (d a : OpVC) (b : OpVSC) (ty : ETy) (rm : Rm) (z : Bool)
  | vsqrt (h : Hdr) (d a : OpVC) (ty : ETy) (rm : Rm) (z : Bool)
  | vrcp (h : Hdr) (d a : OpVC) (ty : ETy) (rm : Rm) (z : Bool)
  | vrsq (h : Hdr) (d a : OpVC) (ty : ETy) (rm : Rm) (z : Bool)
  | vexp2 (h : Hdr) (d a : OpVC) (ty : ETy) (rm : Rm) (z : Bool)
  | vlog2 (h : Hdr) (d a : OpVC) (ty : ETy) (rm : Rm) (z : Bool)
  | vcvt (h : Hdr) (d a : VReg) (dst src : ETy) (p : BitVec 3) (rm : Rm) (sat nan z : Bool)
  | vqnt (h : Hdr) (d : VReg) (sc : SReg) (a : VReg) (q : B4Ty) (src : ETy) (p : BitVec 3) (z : Bool)
  | vdqt (h : Hdr) (d a : VReg) (b : SReg) (dst : ETy) (p : BitVec 3) (rm : Rm) (nan z : Bool)
  | vcmp (h : Hdr) (mt mf : MReg) (b : OpVC) (c : OpVSC) (cc : Cond) (ty : ETy) (m : PMode) (k : Bool)
  | vthr (h : Hdr) (mt mf : MReg) (b : OpVC) (c : OpVS) (cc : Cond) (m : PMode) (k : Bool)
  | vsel (h : Hdr) (d : VReg) (a b : OpVS) (c : OpSel) (k z : Bool)
  | vred (h : Hdr) (d : SReg) (a : VReg) (c : MReg) (op : RedOp) (ty : ETy) (rm : Rm) (sat : Bool)
  | vscan (h : Hdr) (d a : VReg) (c : MReg) (op : RedOp) (ty : ETy) (rm : Rm) (sat z : Bool)
  | chainFull (sid : Nat) (c : CReg)
  -- family 5: memory, atomics, synchronisation, TID entries (spec/08)
  | ld (h : Hdr) (d a : SReg) (off : BitVec 24) (ty : ETy) (sem : Sem) (sc : Scope)
  | st (h : Hdr) (d a : SReg) (off : BitVec 24) (ty : ETy) (sem : Sem) (sc : Scope)
  | ldv (h : Hdr) (d : VReg) (a : SReg) (off : BitVec 24) (sem : Sem) (sc : Scope) (z : Bool)
  | stv (h : Hdr) (d : VReg) (a : SReg) (off : BitVec 24) (sem : Sem) (sc : Scope)
  | ldg (h : Hdr) (d : VReg) (a : SReg) (off : BitVec 24) (b : VReg) (ty : ETy) (z : Bool)
  | stg (h : Hdr) (d : VReg) (a : SReg) (off : BitVec 24) (b : VReg) (ty : ETy)
  | ldl (h : Hdr) (d a : SReg) (off : BitVec 24) (ty : ETy)
  | stl (h : Hdr) (d a : SReg) (off : BitVec 24) (ty : ETy)
  | vldl (h : Hdr) (d : VReg) (a : SReg) (off : BitVec 24) (z : Bool)
  | vstl (h : Hdr) (d : VReg) (a : SReg) (off : BitVec 24)
  | memoryAccessComplete (sid : Nat)
  | sideLogDrain (k : Nat)
  | aadd (h : Hdr) (d a : SReg) (off : BitVec 24) (b : SReg) (ty : ETy) (sem : Sem) (sc : Scope) (ret : Bool)
  | amax (h : Hdr) (d a : SReg) (off : BitVec 24) (b : SReg) (ty : ETy) (sem : Sem) (sc : Scope) (ret : Bool)
  | amin (h : Hdr) (d a : SReg) (off : BitVec 24) (b : SReg) (ty : ETy) (sem : Sem) (sc : Scope) (ret : Bool)
  | aand (h : Hdr) (d a : SReg) (off : BitVec 24) (b : SReg) (ty : ETy) (sem : Sem) (sc : Scope) (ret : Bool)
  | aor (h : Hdr) (d a : SReg) (off : BitVec 24) (b : SReg) (ty : ETy) (sem : Sem) (sc : Scope) (ret : Bool)
  | axor (h : Hdr) (d a : SReg) (off : BitVec 24) (b : SReg) (ty : ETy) (sem : Sem) (sc : Scope) (ret : Bool)
  | axchg (h : Hdr) (d a : SReg) (off : BitVec 24) (b : SReg) (ty : ETy) (sem : Sem) (sc : Scope) (ret : Bool)
  | acas (h : Hdr) (d a : SReg) (off : BitVec 24) (b : SReg) (ty : ETy) (sem : Sem) (sc : Scope)
  | vared (h : Hdr) (d : VReg) (a : SReg) (off : BitVec 21) (b : VReg) (op : VaOp) (ty : ETy) (sc : Scope)
  | fenceAcq (h : Hdr) (sc : Scope)
  | fenceRel (h : Hdr) (sc : Scope)
  | fenceFull (h : Hdr) (sc : Scope)
  | waita (h : Hdr) (d a b : SReg) (cc : Cond) (form : WForm) (sc : Scope) (bound : BitVec 6)
  | waitaSatisfied (sid : Nat)
  | barSync (h : Hdr) (n : Fin 32) (b : SReg) (sc : Scope) (bound : BitVec 6)
  | barArv (h : Hdr) (n : Fin 32) (b : SReg) (sc : Scope)
  | barWait (h : Hdr) (n : Fin 32) (sc : Scope) (bound : BitVec 6)
  | cinv (h : Hdr) (a : SReg) (off : BitVec 24) (sc : Scope)
  | cwb (h : Hdr) (a : SReg) (off : BitVec 24) (sc : Scope)
  | pref (h : Hdr) (a : SReg) (off : BitVec 24) (sc : Scope)
  | tidset (h : Hdr) (t : Byte) (a : SReg)
  | tidsetReg (h : Hdr) (b a : SReg)
  | tidget (h : Hdr) (d : SReg) (t : Byte)
  | tidgetReg (h : Hdr) (d b : SReg)
  -- family 6: engine commands (spec/09 and spec/10)
  | mma (h : Hdr) (e : EnH) (ac : AcReg) (tida tidb : Byte) (sco : SReg) (acct sat : Bool)
  | mmas (h : Hdr) (e : EnH) (ac : AcReg) (tida : Byte) (sco : SReg) (acct sat : Bool)
  | mmat (h : Hdr) (e : EnH) (ac : AcReg) (tida tidb : Byte) (sco : SReg) (fill : Bool)
  | aclr (h : Hdr) (e : EnH) (mask : Byte)
  | acvt (h : Hdr) (e : EnH) (tidd : Byte) (ac : AcReg) (sco : SReg) (acct sat : Bool) (rm : Rm) (nan : Bool)
  | amov (h : Hdr) (e : EnH) (ac acs : AcReg)
  | amovTid (h : Hdr) (e : EnH) (ac : AcReg) (tid : Byte) (sco : SReg)
  | cpy (h : Hdr) (e : EnH) (sb : SReg) (dir : CpyDir) (nsc : NoteSc) (d2 : Bool) (noff : BitVec 19)
  | gthr (h : Hdr) (e : EnH) (tidd tids : Byte) (sb : SReg)
  | gidx (h : Hdr) (e : EnH) (tidp : Byte) (sb : SReg)
  | xrun (h : Hdr) (e : EnH) (sb : SReg) (entry : BitVec 23)
  | xpost (h : Hdr) (e : EnH) (ev : Fin 4)
  | xwait (h : Hdr) (e : EnH) (sc : SReg) (bound : BitVec 6) (ev : Fin 4)
  | waitk (h : Hdr) (e : EnH) (bound : BitVec 6)
  | kvh (h : Hdr) (e : EnH) (sb : SReg)
  | kvlk (h : Hdr) (e : EnH) (sb : SReg)
  | kvins (h : Hdr) (e : EnH) (sb : SReg)
  | kvpin (h : Hdr) (e : EnH) (sb : SReg)
  | kvunp (h : Hdr) (e : EnH) (sb : SReg)
  | kvmap (h : Hdr) (e : EnH) (sb : SReg)
  | kvmapRel (h : Hdr) (e : EnH) (sb : SReg)
  | kvpub (h : Hdr) (e : EnH) (sb : SReg)
  | attn (h : Hdr) (e : EnH) (tidq tido : Byte) (sb : SReg) (kb4 vb4 : Bool)
  | cred (h : Hdr) (e : EnH) (sb : SReg) (op : CrOp) (ty : ETy) (tag : BitVec 16)
  | cgth (h : Hdr) (e : EnH) (sb : SReg) (tag : BitVec 16)
  | csnd (h : Hdr) (e : EnH) (sb : SReg) (peer : Fin 8) (tag : BitVec 16)
  | crcv (h : Hdr) (e : EnH) (sb : SReg) (peer : Fin 8) (tag : BitVec 16)
  | launch (h : Hdr) (e : EnH) (sb : SReg)
  | atTimeReached (sid : Nat) (seq : W32)
  | commandStart (sid : Nat) (seq : W32)
  | engineMicroStep (sid : Nat) (seq : W32)
  | engineCommandComplete (sid : Nat) (seq : W32)
  | collectiveMessage (m : CollMsg)
  -- family 7: the transform stream (spec/09, R253 to R258)
  | xld (xd xa : XReg) (imm : W32)
  | xst (xa xb : XReg) (imm : W32)
  | xmov (xd : XReg) (imm : W32)
  | xmovA (xd xa : XReg) (imm : W32)
  | xmovR (xd xa xb : XReg)
  | xmovH (xd : XReg) (imm : W32)
  | xdec (xd xa : XReg) (n : BitVec 22) (p : BitVec 10)
  | xenc (xd xa : XReg) (n : BitVec 22) (p : BitVec 10)
  | xqnt (xd xa xb : XReg) (src : ETy) (q : B4Ty) (n : W32)
  | xbp (xd xa xb : XReg) (ty : ETy) (kt : W32)
  | xloop (xa : XReg) (len : BitVec 12)
  | xsXpost (ev : Fin 4)
  | xsXwait (ev : Fin 4) (xc : XReg) (bound : BitVec 6)
  | xend
  -- waits and timers (spec/12, spec/14)
  | stallBound (sid : Nat)
  | timedWaitExpiry (sid : Nat)
  | parkaWake (sid : Nat)
  -- supervisor commands, posted by writing the opcode to CMD of command page pg (spec/16, R394, R395)
  | regionLoad (pg : Fin 16)
  | regionUnload (pg : Fin 16)
  | create (pg : Fin 16)
  | destroy (pg : Fin 16)
  | kill (pg : Fin 16)
  | swapout (pg : Fin 16)
  | setwake (pg : Fin 16)
  | faultReply (pg : Fin 16)
  | debugStop (pg : Fin 16)
  | debugResume (pg : Fin 16)
  | setasgen (pg : Fin 16)
  | objBind (pg : Fin 16)
  | objUnbind (pg : Fin 16)
  | pswap (pg : Fin 16)
  | checkpoint (pg : Fin 16)
  | checkpointComplete
  | restore (pg : Fin 16)
  | fenceUnit (pg : Fin 16)
  | lcChange (pg : Fin 16)
  | attest (pg : Fin 16)
  | badcmd (pg : Fin 16) (op : BitVec 16)
  | supervisorCommandComplete (pg : Fin 16)
  -- register writes with behaviour of their own (port 0 window, spec/16, R392)
  | retctlWrite (die : Fin 4) (n : Fin 8) (v : W64)
  | l1cfgWrite (tile : Fin 256) (v : W64)
  | ephctlWrite (v : W64)
  | almcapWrite (die : Fin 4) (v : W64)
  | mctlWrite (v : W64)
  | mepochWrite (v : W64)
  | mslewWrite (v : W64)
  | scrctlWrite (v : W64)
  | missWrite (r : Fin 277) (v : W64)
  | rowLogWrite (die : Fin 4) (e : Fin 64) (v : W64)
  | plimWrite (port : Fin 12) (d : Fin 8) (v : W64)
  | dlimWrite (port : Fin 12) (d : Fin 8) (v : W64)
  | qbaseWrite (q : Fin 5) (v : W64)
  | qlogWrite (q : Fin 5) (v : W64)
  | qheadWrite (q : Fin 5) (v : W64)
  | pkgnumWrite (v : W64)
  | pcapWrite (v : W64)
  | registerWrite (off : BitVec 26) (v : W64)
  -- resets, time, failures and links
  | coldReset
  | reset
  | wipeComplete
  | ppsEdge
  | todFrame (f : BitVec 96)
  | referenceMeasurement (ofs : W64) (rate : W64)
  | holdover
  | ucieFailure
  | thermal (die : Fin 4) (temp : BitVec 12)
  | thermalTrip (die : Fin 4) (temp : BitVec 12)
  | unitFailure (kind idx : W64)
  | ualinkLinkReset (u : Fin 8)
  | dcExtentRelease (base len : W64)
  | extentReleaseResponse (base : W64)
  | devloadInterval (port : Fin 12) (d : Fin 8) (l : DevLoad)
  | hostMemoryRequest (write : Bool) (pa : W64) (n : Fin 65) (data : Line)
  -- the scheduler (spec/14)
  | tailRead (qid : BitVec 15)
  | queueCandidate (qid : BitVec 15)
  | admissionDecision (pl : List Place)
  | strandSaveComplete (sid : Nat)
  | notbeforeReached (ctx : Nat)
  | quantumExpiry (tile : Fin 256)
  | launchComplete (ctx : Nat)
  -- residency, scrubbing and platform
  | ephemerisPromotion (ctx : Nat)
  | silence (ctx : Nat)
  | silenceWritebackComplete (ctx : Nat)
  | scrubAtom (pa : W64) (r : EccResult) (bank : BitVec 5) (row : BitVec 18)
  | ppsTimeout
  | linkUp (ual : Bool) (n : Fin 13) (cmp : Bool) (width : BitVec 5) (speed : BitVec 3)
  | hostWriteRejected (pa : W64)
  | moveCommit (o : W64)
  deriving DecidableEq, Repr

end Sys2Proof
end

