-- ==== Sys2Proof/WellFormed.lean ====
section
/-!
DEFINITION. Which instructions are well formed: the operand classes, types, completers and immediates that
spec/05 (R127 to R143) and the instruction chapters accept. An instruction word whose fields break one of
these raises ILLEGAL at decode (R132); the device's own steps are always well formed.
-/

namespace Sys2Proof

/-- Element width in bits (spec/03, R75). -/
def ETy.width : ETy → Nat
  | .f32 => 32 | .bf16 => 16 | .f16 => 16 | .e4m3 => 8 | .e5m2 => 8 | .i8 => 8 | .n8 => 8
  | .i16 => 16 | .n16 => 16 | .i32 => 32 | .n32 => 32 | .i64 => 64 | .n64 => 64 | .b4 => 4

/-- Floating-point formats of R76. -/
def ETy.isFloat : ETy → Bool
  | .f32 | .bf16 | .f16 | .e4m3 | .e5m2 => true
  | .i8 | .n8 | .i16 | .n16 | .i32 | .n32 | .i64 | .n64 | .b4 => false

/-- Signed integer types (spec/03, R78). -/
def ETy.isSigned : ETy → Bool
  | .i8 | .i16 | .i32 | .i64 => true
  | .f32 | .bf16 | .f16 | .e4m3 | .e5m2 | .n8 | .n16 | .n32 | .n64 | .b4 => false

/-- Integer types of widths 8 to 64. -/
def ETy.isInt : ETy → Bool
  | .i8 | .n8 | .i16 | .n16 | .i32 | .n32 | .i64 | .n64 => true
  | .f32 | .bf16 | .f16 | .e4m3 | .e5m2 | .b4 => false

/-- "int 8 to 32" of R179. -/
def ETy.isInt32 (t : ETy) : Bool := t.isInt && t.width ≤ 32

/-- "fl" of R179: F32, BF16 or F16. -/
def ETy.isFl : ETy → Bool
  | .f32 | .bf16 | .f16 => true
  | .e4m3 | .e5m2 | .i8 | .n8 | .i16 | .n16 | .i32 | .n32 | .i64 | .n64 | .b4 => false

/-- Elements of a 2,048-bit register (spec/07, R175). -/
def ETy.count (t : ETy) : Nat := 2048 / t.width

/-- COND codes accepted for integer operands (spec/05, R135). -/
def Cond.isInt : Cond → Bool
  | .un | .ord => false
  | .eq | .ne | .lt | .ge | .le | .gt | .ltn | .gen | .len | .gtn => true

/-- COND codes accepted for floating operands (spec/05, R135). -/
def Cond.isFloat : Cond → Bool
  | .eq | .ne | .lt | .ge | .le | .gt | .un | .ord => true
  | .ltn | .gen | .len | .gtn => false

def OpVC.chain : OpVC → Option CReg
  | .v _ => none
  | .c n => some n

def OpVSC.chain : OpVSC → Option CReg
  | .v _ => none
  | .s _ => none
  | .c n => some n

def OpSel.chain : OpSel → Option CReg
  | .m _ => none
  | .v _ => none
  | .c n => some n

/-- A predicate pair: the two must differ unless they are register 0 (spec/05, R134; spec/07, R179). -/
def pairOk (a b : Fin 16) : Bool := a != b || a == 0

/-- A PC that an immediate may name: bits [31:23] zero and a slot below 5 (spec/05, R134). -/
def pcOk (p : W32) : Bool := p.extractLsb' 23 9 == 0 && p.extractLsb' 0 3 < 5#3

/-- R106 and R178 for a streaming instruction: chain operands need F32, the destination's own register is no
source, and .Z needs a V destination. -/
def streamOk (d : OpVC) (srcs : List (Option CReg)) (ty : ETy) (z : Bool) : Bool :=
  (ty == .f32 || (d.chain == none && srcs.all (· == none))) &&
  (match d.chain with | none => true | some n => srcs.all (· != some n) && !z)

/-- R106, R110 and R178 for VMIN and VMAX: a producer with a C destination, a deciding consumer of at most
one chain source with a V destination; .K needs a deciding read. -/
def minmaxOk (d a : OpVC) (b : OpVSC) (ty : ETy) (k z : Bool) : Bool :=
  (ty.isFl || ty.isInt32) && streamOk d [a.chain, b.chain] ty z &&
  (match d.chain with
   | some _ => !k
   | none => (a.chain == none || b.chain == none) && (!k || a.chain != none || b.chain != none))

/-- R200 and R178 for VRED and VSCAN: RM only on a floating SUM, .SAT only on an integer SUM, the bitwise
operations only on integer types (R199). -/
def redOk (op : RedOp) (ty : ETy) (rm : Rm) (sat : Bool) : Bool :=
  (ty.isFl || ty.isInt32) &&
  (match op with
   | .sum => true
   | .min | .max => rm == .rne && !sat
   | .and | .or | .xor => ty.isInt32 && rm == .rne && !sat) &&
  (rm == .rne || ty.isFl) && (!sat || ty.isInt32)

/-- The part number of a conversion between widths (spec/07, R184). -/
def cvtParts (dst src : ETy) : Nat := Nat.max dst.width src.width / Nat.min dst.width src.width

/-- Types 0 to 12 of R205. -/
def ETy.isMem (t : ETy) : Bool := t != .b4

/-- Types 9 to 12 of R205: the atomics' types. -/
def ETy.isAtomic : ETy → Bool
  | .i32 | .n32 | .i64 | .n64 => true
  | .f32 | .bf16 | .f16 | .e4m3 | .e5m2 | .i8 | .n8 | .i16 | .n16 | .b4 => false

/-- SEM and SCOPE of a load: none with .ST, or ACQ with any scope (R205). -/
def loadSemOk (m : Sem) (sc : Scope) : Bool :=
  match m with | .plain => sc == .st | .acq => true | .rel => false

/-- SEM and SCOPE of a store (R205). -/
def storeSemOk (m : Sem) (sc : Scope) : Bool :=
  match m with | .plain => sc == .st | .rel => true | .acq => false

/-- Fields of the scalar atomics (R205): ACQ needs RET 1, and D is 0 without RET. -/
def atomicOk (d : SReg) (ty : ETy) (m : Sem) (ret : Bool) : Bool :=
  ty.isAtomic && (m != .acq || ret) && (ret || d == 0)

/-- S register in a range (the SB and SCO columns of R238, R245, R260). -/
def inS (r : SReg) (lo hi : Nat) : Bool := lo ≤ r.val && r.val ≤ hi

/-- A scalar-guarded word names only Q selectors (spec/05, R129). -/
def Hdr.scalarOk (h : Hdr) : Bool := h.ga.val < 16 && h.gb.val < 16 && h.gc.val < 16

/-- The guard and stall fields of an instruction word of families 0 to 6; none for a transform word and for
a step of the device. -/
def Instr.hdr : Instr → Option Hdr
  | .add h _ _ _ => some h
  | .addi h _ _ _ => some h
  | .sub h _ _ _ => some h
  | .mul h _ _ _ => some h
  | .mulh h _ _ _ => some h
  | .mulhn h _ _ _ => some h
  | .div h _ _ _ => some h
  | .divn h _ _ _ => some h
  | .rem h _ _ _ => some h
  | .remn h _ _ _ => some h
  | .and h _ _ _ => some h
  | .andi h _ _ _ => some h
  | .or h _ _ _ => some h
  | .ori h _ _ _ => some h
  | .xor h _ _ _ => some h
  | .xori h _ _ _ => some h
  | .andn h _ _ _ => some h
  | .shl h _ _ _ => some h
  | .shlI h _ _ _ => some h
  | .shr h _ _ _ => some h
  | .shrI h _ _ _ => some h
  | .sar h _ _ _ => some h
  | .sarI h _ _ _ => some h
  | .rol h _ _ _ => some h
  | .rolI h _ _ _ => some h
  | .clz h _ _ => some h
  | .ctz h _ _ => some h
  | .popc h _ _ => some h
  | .min h _ _ _ => some h
  | .max h _ _ _ => some h
  | .minn h _ _ _ => some h
  | .maxn h _ _ _ => some h
  | .sel h _ _ _ _ => some h
  | .movi h _ _ => some h
  | .movih h _ _ => some h
  | .mov h _ _ => some h
  | .lea h _ _ _ => some h
  | .bfx h _ _ _ _ => some h
  | .bfi h _ _ _ _ => some h
  | .cmp h _ _ _ _ _ _ => some h
  | .cmpi h _ _ _ _ _ _ => some h
  | .tstb h _ _ _ _ _ => some h
  | .plop h _ _ _ _ _ _ _ => some h
  | .prep h _ _ => some h
  | .prepReg h _ _ => some h
  | .xfer h _ _ => some h
  | .xferL h _ _ _ => some h
  | .loop h _ _ _ => some h
  | .lbrk h => some h
  | .vany h _ _ _ _ => some h
  | .vall h _ _ _ _ => some h
  | .mfsr h _ _ => some h
  | .mtsr h _ _ => some h
  | .trap h _ => some h
  | .rft h => some h
  | .cswYield h => some h
  | .cswParkt h _ => some h
  | .cswParka h _ => some h
  | .halt h => some h
  | .waitt h _ => some h
  | .live h _ _ => some h
  | .liveP h _ => some h
  | .liveVl h _ => some h
  | .liveVh h _ => some h
  | .phase h => some h
  | .nop h => some h
  | .bkpt h => some h
  | .viadd h _ _ _ _ _ _ => some h
  | .visub h _ _ _ _ _ _ => some h
  | .vimul h _ _ _ _ _ _ => some h
  | .vimad h _ _ _ _ _ _ _ => some h
  | .vand h _ _ _ _ _ => some h
  | .vor h _ _ _ _ _ => some h
  | .vxor h _ _ _ _ _ => some h
  | .vshl h _ _ _ _ _ => some h
  | .vshlI h _ _ _ _ _ => some h
  | .vshr h _ _ _ _ _ => some h
  | .vshrI h _ _ _ _ _ => some h
  | .vsar h _ _ _ _ _ => some h
  | .vsarI h _ _ _ _ _ => some h
  | .vmov h _ _ _ => some h
  | .vbcast h _ _ _ _ => some h
  | .vbcastI h _ _ _ _ _ => some h
  | .vextr h _ _ _ _ => some h
  | .vextrI h _ _ _ _ => some h
  | .viota h _ _ _ _ _ => some h
  | .vperm h _ _ _ _ _ => some h
  | .vrot h _ _ _ _ _ => some h
  | .vrotI h _ _ _ _ _ => some h
  | .vcomp h _ _ _ _ _ => some h
  | .vbtst h _ _ _ _ _ => some h
  | .mlop h _ _ _ _ _ _ _ => some h
  | .mcnt h _ _ => some h
  | .mfirst h _ _ => some h
  | .mfirstM h _ _ _ => some h
  | .vadd h _ _ _ _ _ _ => some h
  | .vsub h _ _ _ _ _ _ => some h
  | .vmul h _ _ _ _ _ _ => some h
  | .vfma h _ _ _ _ _ _ _ => some h
  | .vfms h _ _ _ _ _ _ _ => some h
  | .vabs h _ _ _ _ => some h
  | .vneg h _ _ _ _ => some h
  | .vmin h _ _ _ _ _ _ => some h
  | .vmax h _ _ _ _ _ _ => some h
  | .vdiv h _ _ _ _ _ _ => some h
  | .vsqrt h _ _ _ _ _ => some h
  | .vrcp h _ _ _ _ _ => some h
  | .vrsq h _ _ _ _ _ => some h
  | .vexp2 h _ _ _ _ _ => some h
  | .vlog2 h _ _ _ _ _ => some h
  | .vcvt h _ _ _ _ _ _ _ _ _ => some h
  | .vqnt h _ _ _ _ _ _ _ => some h
  | .vdqt h _ _ _ _ _ _ _ _ => some h
  | .vcmp h _ _ _ _ _ _ _ _ => some h
  | .vthr h _ _ _ _ _ _ _ => some h
  | .vsel h _ _ _ _ _ _ => some h
  | .vred h _ _ _ _ _ _ _ => some h
  | .vscan h _ _ _ _ _ _ _ _ => some h
  | .chainFull _ _ => none
  | .ld h _ _ _ _ _ _ => some h
  | .st h _ _ _ _ _ _ => some h
  | .ldv h _ _ _ _ _ _ => some h
  | .stv h _ _ _ _ _ => some h
  | .ldg h _ _ _ _ _ _ => some h
  | .stg h _ _ _ _ _ => some h
  | .ldl h _ _ _ _ => some h
  | .stl h _ _ _ _ => some h
  | .vldl h _ _ _ _ => some h
  | .vstl h _ _ _ => some h
  | .memoryAccessComplete _ => none
  | .sideLogDrain _ => none
  | .aadd h _ _ _ _ _ _ _ _ => some h
  | .amax h _ _ _ _ _ _ _ _ => some h
  | .amin h _ _ _ _ _ _ _ _ => some h
  | .aand h _ _ _ _ _ _ _ _ => some h
  | .aor h _ _ _ _ _ _ _ _ => some h
  | .axor h _ _ _ _ _ _ _ _ => some h
  | .axchg h _ _ _ _ _ _ _ _ => some h
  | .acas h _ _ _ _ _ _ _ => some h
  | .vared h _ _ _ _ _ _ _ => some h
  | .fenceAcq h _ => some h
  | .fenceRel h _ => some h
  | .fenceFull h _ => some h
  | .waita h _ _ _ _ _ _ _ => some h
  | .waitaSatisfied _ => none
  | .barSync h _ _ _ _ => some h
  | .barArv h _ _ _ => some h
  | .barWait h _ _ _ => some h
  | .cinv h _ _ _ => some h
  | .cwb h _ _ _ => some h
  | .pref h _ _ _ => some h
  | .tidset h _ _ => some h
  | .tidsetReg h _ _ => some h
  | .tidget h _ _ => some h
  | .tidgetReg h _ _ => some h
  | .mma h _ _ _ _ _ _ _ => some h
  | .mmas h _ _ _ _ _ _ => some h
  | .mmat h _ _ _ _ _ _ => some h
  | .aclr h _ _ => some h
  | .acvt h _ _ _ _ _ _ _ _ => some h
  | .amov h _ _ _ => some h
  | .amovTid h _ _ _ _ => some h
  | .cpy h _ _ _ _ _ _ => some h
  | .gthr h _ _ _ _ => some h
  | .gidx h _ _ _ => some h
  | .xrun h _ _ _ => some h
  | .xpost h _ _ => some h
  | .xwait h _ _ _ _ => some h
  | .waitk h _ _ => some h
  | .kvh h _ _ => some h
  | .kvlk h _ _ => some h
  | .kvins h _ _ => some h
  | .kvpin h _ _ => some h
  | .kvunp h _ _ => some h
  | .kvmap h _ _ => some h
  | .kvmapRel h _ _ => some h
  | .kvpub h _ _ => some h
  | .attn h _ _ _ _ _ _ => some h
  | .cred h _ _ _ _ _ => some h
  | .cgth h _ _ _ => some h
  | .csnd h _ _ _ _ => some h
  | .crcv h _ _ _ _ => some h
  | .launch h _ _ => some h
  | .atTimeReached _ _ => none
  | .commandStart _ _ => none
  | .engineMicroStep _ _ => none
  | .engineCommandComplete _ _ => none
  | .collectiveMessage _ => none
  | .xld _ _ _ => none
  | .xst _ _ _ => none
  | .xmov _ _ => none
  | .xmovA _ _ _ => none
  | .xmovR _ _ _ => none
  | .xmovH _ _ => none
  | .xdec _ _ _ _ => none
  | .xenc _ _ _ _ => none
  | .xqnt _ _ _ _ _ _ => none
  | .xbp _ _ _ _ _ => none
  | .xloop _ _ => none
  | .xsXpost _ => none
  | .xsXwait _ _ _ => none
  | .xend => none
  | .stallBound _ => none
  | .timedWaitExpiry _ => none
  | .parkaWake _ => none
  | .regionLoad _ => none
  | .regionUnload _ => none
  | .create _ => none
  | .destroy _ => none
  | .kill _ => none
  | .swapout _ => none
  | .setwake _ => none
  | .faultReply _ => none
  | .debugStop _ => none
  | .debugResume _ => none
  | .setasgen _ => none
  | .objBind _ => none
  | .objUnbind _ => none
  | .pswap _ => none
  | .checkpoint _ => none
  | .checkpointComplete => none
  | .restore _ => none
  | .fenceUnit _ => none
  | .lcChange _ => none
  | .attest _ => none
  | .badcmd _ _ => none
  | .supervisorCommandComplete _ => none
  | .retctlWrite _ _ _ => none
  | .l1cfgWrite _ _ => none
  | .ephctlWrite _ => none
  | .almcapWrite _ _ => none
  | .mctlWrite _ => none
  | .mepochWrite _ => none
  | .mslewWrite _ => none
  | .scrctlWrite _ => none
  | .missWrite _ _ => none
  | .rowLogWrite _ _ _ => none
  | .plimWrite _ _ _ => none
  | .dlimWrite _ _ _ => none
  | .qbaseWrite _ _ => none
  | .qlogWrite _ _ => none
  | .qheadWrite _ _ => none
  | .pkgnumWrite _ => none
  | .pcapWrite _ => none
  | .registerWrite _ _ => none
  | .coldReset => none
  | .reset => none
  | .wipeComplete => none
  | .ppsEdge => none
  | .todFrame _ => none
  | .referenceMeasurement _ _ => none
  | .holdover => none
  | .ucieFailure => none
  | .thermal _ _ => none
  | .thermalTrip _ _ => none
  | .unitFailure _ _ => none
  | .ualinkLinkReset _ => none
  | .dcExtentRelease _ _ => none
  | .extentReleaseResponse _ => none
  | .devloadInterval _ _ _ => none
  | .hostMemoryRequest _ _ _ _ => none
  | .tailRead _ => none
  | .queueCandidate _ => none
  | .admissionDecision _ => none
  | .strandSaveComplete _ => none
  | .notbeforeReached _ => none
  | .quantumExpiry _ => none
  | .launchComplete _ => none
  | .ephemerisPromotion _ => none
  | .silence _ => none
  | .silenceWritebackComplete _ => none
  | .scrubAtom _ _ _ _ => none
  | .ppsTimeout => none
  | .linkUp _ _ _ _ _ => none
  | .hostWriteRejected _ => none
  | .moveCommit _ => none

/-- The lane-guarded instructions of R129: families 3 and 4, VANY and VALL, and the lane forms of family 5. -/
def Instr.laneGuarded : Instr → Bool
  | .vany .. | .vall .. | .ldv .. | .stv .. | .ldg .. | .stg .. | .vldl .. | .vstl .. | .vared ..
  | .viadd .. | .visub .. | .vimul .. | .vimad .. | .vand .. | .vor .. | .vxor .. | .vshl .. | .vshlI ..
  | .vshr .. | .vshrI .. | .vsar .. | .vsarI .. | .vmov .. | .vbcast .. | .vbcastI .. | .vextr ..
  | .vextrI .. | .viota .. | .vperm .. | .vrot .. | .vrotI .. | .vcomp .. | .vbtst .. | .mlop ..
  | .mcnt .. | .mfirst .. | .mfirstM .. | .vadd .. | .vsub .. | .vmul .. | .vfma .. | .vfms ..
  | .vabs .. | .vneg .. | .vmin .. | .vmax .. | .vdiv .. | .vsqrt .. | .vrcp .. | .vrsq .. | .vexp2 ..
  | .vlog2 .. | .vcvt .. | .vqnt .. | .vdqt .. | .vcmp .. | .vthr .. | .vsel .. | .vred .. | .vscan .. => true
  | _ => false

/-- The operand conditions of each instruction beyond the classes its constructor's types already fix. -/
def Instr.operandsOk : Instr → Bool
  | .bfx _ _ _ pos wid => 1 ≤ wid.toNat && pos.toNat + wid.toNat ≤ 64
  | .bfi _ _ _ pos wid => 1 ≤ wid.toNat && pos.toNat + wid.toNat ≤ 64
  | .cmp _ pt pf _ c _ _ => pairOk pt pf && c.isInt
  | .cmpi _ pt pf _ c _ _ => pairOk pt pf && c.isInt
  | .tstb _ pt pf _ _ _ => pairOk pt pf
  | .plop _ pt pf _ _ _ _ _ => pairOk pt pf
  | .prep _ _ tgt => pcOk tgt
  | .loop _ _ len ns => 1 ≤ len.toNat && 1 ≤ ns.toNat && ns.toNat ≤ 8
  | .vany _ pt pf _ _ => pairOk pt pf
  | .vall _ pt pf _ _ => pairOk pt pf
  | .mtsr _ n _ => (10 ≤ n.val && n.val ≤ 14) || n.val == 20
  | .viadd _ _ _ _ ty _ _ => ty.isInt
  | .visub _ _ _ _ ty _ _ => ty.isInt
  | .vimul _ _ _ _ ty _ _ => ty.isInt32
  | .vimad _ _ _ _ _ ty _ _ => ty.isInt32
  | .vand _ _ _ _ ty _ => ty.isInt
  | .vor _ _ _ _ ty _ => ty.isInt
  | .vxor _ _ _ _ ty _ => ty.isInt
  | .vshl _ _ _ _ ty _ => ty.isInt
  | .vshlI _ _ _ n ty _ => ty.isInt && n.val < ty.width
  | .vshr _ _ _ _ ty _ => ty.isInt
  | .vshrI _ _ _ n ty _ => ty.isInt && n.val < ty.width
  | .vsar _ _ _ _ ty _ => ty.isInt
  | .vsarI _ _ _ n ty _ => ty.isInt && n.val < ty.width
  | .vmov _ d a z => (d.chain == none || (a.chain == none && !z))
  | .vbcast _ _ _ ty _ => ty != .b4
  | .vbcastI _ _ _ k ty _ => ty != .b4 && k.toNat < ty.count
  | .vextr _ _ _ _ ty => ty != .b4
  | .vextrI _ _ _ k ty => ty != .b4 && k.toNat < ty.count
  | .viota _ _ _ _ ty _ => ty.isInt
  | .vperm _ _ _ _ ty _ => 8 ≤ ty.width && ty.width ≤ 32
  | .vrot _ _ _ _ ty _ => 8 ≤ ty.width && ty.width ≤ 32
  | .vrotI _ _ _ k ty _ => 8 ≤ ty.width && ty.width ≤ 32 && k.toNat < ty.count
  | .vcomp _ _ _ _ ty _ => ty == .f32 || ty == .i32 || ty == .n32
  | .vbtst _ mt mf _ _ _ => pairOk mt mf
  | .mlop _ mt mf _ _ _ _ _ => pairOk mt mf
  | .vadd _ d a b ty _ z => ty.isFl && streamOk d [a.chain, b.chain] ty z
  | .vsub _ d a b ty _ z => ty.isFl && streamOk d [a.chain, b.chain] ty z
  | .vmul _ d a b ty _ z => ty.isFl && streamOk d [a.chain, b.chain] ty z
  | .vfma _ d a b c ty _ z => ty.isFl && streamOk d [a.chain, b.chain, c.chain] ty z
  | .vfms _ d a b c ty _ z => ty.isFl && streamOk d [a.chain, b.chain, c.chain] ty z
  | .vabs _ d a ty z => ty.isFl && streamOk d [a.chain] ty z
  | .vneg _ d a ty z => ty.isFl && streamOk d [a.chain] ty z
  | .vmin _ d a b ty k z => minmaxOk d a b ty k z
  | .vmax _ d a b ty k z => minmaxOk d a b ty k z
  | .vdiv _ d a b ty _ z => ty.isFl && streamOk d [a.chain, b.chain] ty z
  | .vsqrt _ d a ty _ z => ty.isFl && streamOk d [a.chain] ty z
  | .vrcp _ d a ty _ z => ty.isFl && streamOk d [a.chain] ty z
  | .vrsq _ d a ty _ z => ty.isFl && streamOk d [a.chain] ty z
  | .vexp2 _ d a ty _ z => ty.isFl && streamOk d [a.chain] ty z
  | .vlog2 _ d a ty _ z => ty.isFl && streamOk d [a.chain] ty z
  | .vcvt _ _ _ dst src p rm sat nan _ =>
      dst != .b4 && src != .b4 && p.toNat < cvtParts dst src &&
      (rm == .rne || dst.isFloat || src.isFloat) && (!sat || (dst.isInt && src.isInt)) && (!nan || dst == .e4m3)
  | .vqnt _ _ _ _ _ src p _ => src.isFl && p.toNat < 16 / (src.count / 32)
  | .vdqt _ _ _ _ dst p _ nan _ =>
      (dst.isFl || dst == .e4m3 || dst == .e5m2) && p.toNat < 16 / (dst.count / 32) && (!nan || dst == .e4m3)
  | .vcmp _ mt mf b c cc ty _ k =>
      pairOk mt mf && (ty == .f32 || ty == .i32 || ty == .n32) &&
      (if ty == .f32 then cc.isFloat else cc.isInt) &&
      (ty == .f32 || (b.chain == none && c.chain == none)) &&
      (b.chain == none || c.chain == none) && (!k || b.chain != none || c.chain != none)
  | .vthr _ mt mf b _ cc _ k => pairOk mt mf && cc.isFloat && (!k || b.chain != none)
  | .vsel _ _ _ _ c k _ => !k || c.chain != none
  | .vred _ _ _ _ op ty rm sat => redOk op ty rm sat
  | .vscan _ _ _ _ op ty rm sat _ => redOk op ty rm sat
  | .ld _ _ _ _ ty m sc => ty.isMem && loadSemOk m sc
  | .st _ _ _ _ ty m sc => ty.isMem && storeSemOk m sc
  | .ldv _ _ _ _ m sc _ => loadSemOk m sc
  | .stv _ _ _ _ m sc => storeSemOk m sc
  | .ldg _ _ _ _ _ ty _ => ty.isMem && ty.width ≤ 32
  | .stg _ _ _ _ _ ty => ty.isMem && ty.width ≤ 32
  | .ldl _ _ _ _ ty => ty.isMem
  | .stl _ _ _ _ ty => ty.isMem
  | .aadd _ d _ _ _ ty m _ ret => atomicOk d ty m ret
  | .amax _ d _ _ _ ty m _ ret => atomicOk d ty m ret
  | .amin _ d _ _ _ ty m _ ret => atomicOk d ty m ret
  | .aand _ d _ _ _ ty m _ ret => atomicOk d ty m ret
  | .aor _ d _ _ _ ty m _ ret => atomicOk d ty m ret
  | .axor _ d _ _ _ ty m _ ret => atomicOk d ty m ret
  | .axchg _ d _ _ _ ty m _ ret => atomicOk d ty m ret
  | .acas _ d _ _ _ ty m _ => atomicOk d ty m true
  | .vared _ _ _ _ _ op ty _ =>
      (ty == .f32 && (op == .add || op == .max || op == .min)) || ty == .i32 || ty == .n32
  | .waita _ _ _ _ cc form sc _ => cc.isInt && (form != .l || sc == .st)
  | .barSync _ _ _ sc _ => sc != .st
  | .barArv _ _ _ sc => sc != .st
  | .barWait _ _ sc _ => sc != .st
  | .cinv _ _ _ sc => sc != .st
  | .cwb _ _ _ sc => sc != .st
  | .pref _ _ _ sc => sc != .st
  | .tidset _ _ a => a.val ≤ 60
  | .tidsetReg _ _ a => a.val ≤ 60
  | .tidget _ d _ => inS d 1 60
  | .tidgetReg _ d _ => inS d 1 60
  | .mma _ e _ _ _ sco _ _ => e.at_ == 0 && inS sco 1 62
  | .mmas _ e _ _ sco _ _ => e.at_ == 0 && inS sco 1 61
  | .mmat _ e _ _ _ sco _ => e.at_ == 0 && inS sco 1 61
  | .aclr _ e mask => e.at_ == 0 && mask != 0
  | .acvt _ e _ _ sco _ _ _ _ => e.at_ == 0 && inS sco 1 63
  | .amov _ e _ _ => e.at_ == 0
  | .amovTid _ e _ _ sco => e.at_ == 0 && inS sco 1 63
  | .cpy _ _ sb _ nsc d2 noff => inS sb 1 60 && (nsc == .off || !d2) && (nsc != .off || noff == 0)
  | .gthr _ _ _ _ sb => inS sb 1 62
  | .gidx _ e _ sb => e.at_ == 0 && inS sb 1 62
  | .xrun _ _ sb entry => inS sb 1 60 && entry.extractLsb' 0 3 < 5#3
  | .xpost _ e _ => e.at_ == 0
  | .xwait _ e _ _ _ => e.at_ == 0
  | .waitk _ e _ => e.at_ == 0 && (e.k0 != 0 || e.k1 != 0 || e.k2 != 0)
  | .kvh _ e sb => e.at_ == 0 && inS sb 1 61
  | .kvlk _ e sb => e.at_ == 0 && inS sb 1 62
  | .kvins _ e sb => e.at_ == 0 && inS sb 1 62
  | .kvpin _ e sb => e.at_ == 0 && inS sb 1 62
  | .kvunp _ e sb => e.at_ == 0 && inS sb 1 62
  | .kvmap _ e sb => e.at_ == 0 && inS sb 1 62
  | .kvmapRel _ e sb => e.at_ == 0 && inS sb 1 62
  | .kvpub _ e sb => e.at_ == 0 && inS sb 1 60
  | .attn _ _ _ _ sb _ _ => inS sb 1 61
  | .cred _ _ sb _ ty _ => inS sb 1 61 && (ty == .f32 || ty == .i32 || ty == .n32)
  | .cgth _ _ sb _ => inS sb 1 60
  | .csnd _ _ sb _ _ => inS sb 1 62
  | .crcv _ _ sb _ _ => inS sb 1 61
  | .launch _ _ sb => inS sb 1 62
  | .xdec _ _ n p => 1 ≤ n.toNat && p.toNat % 32 == 0 && 64 ≤ p.toNat && p.toNat ≤ 576
  | .xenc _ _ n p => 1 ≤ n.toNat && p.toNat % 32 == 0 && 64 ≤ p.toNat && p.toNat ≤ 576
  | .xqnt _ _ _ src _ n => src.isFl && n != 0
  | .xbp _ _ _ ty kt => (ty.width == 4 || ty.width == 8 || ty.width == 16) && kt != 0
  | .xloop _ len => len != 0
  | .xsXwait _ _ b => b != 63
  | _ => true

/-- A well-formed instruction: its guard selectors suit its kind (R129) and its operands are accepted
(R132). -/
def Instr.wf (i : Instr) : Bool :=
  (match i.hdr with | none => true | some h => i.laneGuarded || h.scalarOk) && i.operandsOk

/-- The instruction names a chain register or carries the K bit, which version 1 does not define (R127). -/
def Instr.usesChain : Instr → Bool
  | .vmov _ d a _ => d.chain != none || a.chain != none
  | .vadd _ d a b _ _ _ | .vsub _ d a b _ _ _ | .vmul _ d a b _ _ _ | .vdiv _ d a b _ _ _ =>
      d.chain != none || a.chain != none || b.chain != none
  | .vfma _ d a b c _ _ _ | .vfms _ d a b c _ _ _ =>
      d.chain != none || a.chain != none || b.chain != none || c.chain != none
  | .vabs _ d a _ _ | .vneg _ d a _ _ => d.chain != none || a.chain != none
  | .vmin _ d a b _ k _ | .vmax _ d a b _ k _ => d.chain != none || a.chain != none || b.chain != none || k
  | .vsqrt _ d a _ _ _ | .vrcp _ d a _ _ _ | .vrsq _ d a _ _ _ | .vexp2 _ d a _ _ _ | .vlog2 _ d a _ _ _ =>
      d.chain != none || a.chain != none
  | .vcmp _ _ _ b c _ _ _ k => b.chain != none || c.chain != none || k
  | .vthr _ _ _ b _ _ _ k => b.chain != none || k
  | .vsel _ _ _ _ c k _ => c.chain != none || k
  | _ => false

/-- The operand values a strand must be privileged to use: RW-S special registers STEP and HBMGANG (R59) and
a bound of 63 (R138, R252, R260). Check 6 of R143 raises PRIV for them. -/
def Instr.needsPriv : Instr → Bool
  | .mtsr _ n _ => n.val == 11 || n.val == 20
  | .waita _ _ _ _ _ _ _ b => b == 63
  | .barSync _ _ _ _ b => b == 63
  | .barWait _ _ _ b => b == 63
  | .xwait _ _ _ b _ => b == 63
  | .waitk _ _ b => b == 63
  | _ => false

end Sys2Proof
end

