-- ==== Sys2Proof/Decode.lean ====
section
/-!
DEFINITION. The decoder and, after it, the encoder of instruction words (spec/05, R127 to R143), and the code
line fields of R118. Decoding is total: a word is an instruction, or it is rejected by the name of the first
check of R143 it fails. The two directions are written separately from the format tables of spec/05.
-/

namespace Sys2Proof

/-! ## Codes of the enumerations -/

def ETy.code : ETy → BitVec 4
  | .f32 => 0 | .bf16 => 1 | .f16 => 2 | .e4m3 => 3 | .e5m2 => 4 | .i8 => 5 | .n8 => 6 | .i16 => 7
  | .n16 => 8 | .i32 => 9 | .n32 => 10 | .i64 => 11 | .n64 => 12 | .b4 => 13

def ETy.ofCode (c : BitVec 4) : Option ETy :=
  match c.toNat with
  | 0 => some .f32 | 1 => some .bf16 | 2 => some .f16 | 3 => some .e4m3 | 4 => some .e5m2 | 5 => some .i8
  | 6 => some .n8 | 7 => some .i16 | 8 => some .n16 | 9 => some .i32 | 10 => some .n32 | 11 => some .i64
  | 12 => some .n64 | 13 => some .b4 | _ => none

def Rm.code : Rm → BitVec 2
  | .rne => 0 | .rtz => 1 | .rdn => 2 | .rup => 3

def Rm.ofCode (c : BitVec 2) : Rm :=
  match c.toNat with | 0 => .rne | 1 => .rtz | 2 => .rdn | _ => .rup

def Cond.code : Cond → BitVec 4
  | .eq => 0 | .ne => 1 | .lt => 2 | .ge => 3 | .le => 4 | .gt => 5 | .ltn => 6 | .gen => 7 | .len => 8
  | .gtn => 9 | .un => 10 | .ord => 11

def Cond.ofCode (c : BitVec 4) : Option Cond :=
  match c.toNat with
  | 0 => some .eq | 1 => some .ne | 2 => some .lt | 3 => some .ge | 4 => some .le | 5 => some .gt
  | 6 => some .ltn | 7 => some .gen | 8 => some .len | 9 => some .gtn | 10 => some .un | 11 => some .ord
  | _ => none

def PMode.code : PMode → BitVec 2
  | .n => 0 | .u => 1 | .o => 2

def PMode.ofCode (c : BitVec 2) : Option PMode :=
  match c.toNat with | 0 => some .n | 1 => some .u | 2 => some .o | _ => none

def Scope.code : Scope → BitVec 3
  | .st => 0 | .tl => 1 | .di => 2 | .pk => 3 | .sy => 4

def Scope.ofCode (c : BitVec 3) : Option Scope :=
  match c.toNat with
  | 0 => some .st | 1 => some .tl | 2 => some .di | 3 => some .pk | 4 => some .sy | _ => none

def Sem.code : Sem → BitVec 2
  | .plain => 0 | .acq => 1 | .rel => 2

def Sem.ofCode (c : BitVec 2) : Option Sem :=
  match c.toNat with | 0 => some .plain | 1 => some .acq | 2 => some .rel | _ => none

def B4Ty.code : B4Ty → BitVec 2
  | .uni => 0 | .e2m1 => 1 | .pow => 2 | .hyb => 3

def B4Ty.ofCode (c : BitVec 2) : B4Ty :=
  match c.toNat with | 0 => .uni | 1 => .e2m1 | 2 => .pow | _ => .hyb

def RedOp.code : RedOp → BitVec 4
  | .sum => 0 | .min => 1 | .max => 2 | .and => 3 | .or => 4 | .xor => 5

def RedOp.ofCode (c : BitVec 4) : Option RedOp :=
  match c.toNat with
  | 0 => some .sum | 1 => some .min | 2 => some .max | 3 => some .and | 4 => some .or | 5 => some .xor
  | _ => none

def VaOp.code : VaOp → BitVec 3
  | .add => 0 | .max => 1 | .min => 2 | .and => 3 | .or => 4 | .xor => 5

def VaOp.ofCode (c : BitVec 3) : Option VaOp :=
  match c.toNat with
  | 0 => some .add | 1 => some .max | 2 => some .min | 3 => some .and | 4 => some .or | 5 => some .xor
  | _ => none

def CrOp.code : CrOp → BitVec 4
  | .sum => 0 | .max => 1 | .min => 2

def CrOp.ofCode (c : BitVec 4) : Option CrOp :=
  match c.toNat with | 0 => some .sum | 1 => some .max | 2 => some .min | _ => none

def CpyDir.code : CpyDir → BitVec 2
  | .mm => 0 | .ms => 1 | .sm => 2 | .ss => 3

def CpyDir.ofCode (c : BitVec 2) : CpyDir :=
  match c.toNat with | 0 => .mm | 1 => .ms | 2 => .sm | _ => .ss

def NoteSc.code : NoteSc → BitVec 2
  | .off => 0 | .tl => 1 | .pk => 2 | .sy => 3

def NoteSc.ofCode (c : BitVec 2) : NoteSc :=
  match c.toNat with | 0 => .off | 1 => .tl | 2 => .pk | _ => .sy

def WForm.code : WForm → BitVec 2
  | .d => 0 | .w => 1 | .l => 2

def WForm.ofCode (c : BitVec 2) : Option WForm :=
  match c.toNat with | 0 => some .d | 1 => some .w | 2 => some .l | _ => none

/-! ## Fields of a word -/

/-- Field [lo+n-1 : lo] of a word (spec/00, R8). -/
def fld (w : Word96) (lo n : Nat) : BitVec n := w.extractLsb' lo n

/-- A field as a number below 2^n. -/
def fin (w : Word96) (lo n : Nat) : Fin (2 ^ n) := (fld w lo n).toFin

/-- One bit as a completer. -/
def flag (w : Word96) (lo : Nat) : Bool := fld w lo 1 == 1#1

/-- Every field of the list, given as low bit and width, is 0 (R132). -/
def zeros (w : Word96) (l : List (Nat × Nat)) : Bool := l.all fun p => fld w p.1 p.2 == 0

/-- A register specifier of a class whose registers begin at code `base` (R131). -/
def regOf (base n : Nat) (x : BitVec 8) : Option (Fin n) :=
  if h : base ≤ x.toNat ∧ x.toNat - base < n then some ⟨x.toNat - base, h.2⟩ else none

def regS (x : BitVec 8) : Option SReg := regOf 0 64 x
def regV (x : BitVec 8) : Option VReg := regOf 64 64 x
def regC (x : BitVec 8) : Option CReg := regOf 128 8 x
def regQ (x : BitVec 8) : Option QReg := regOf 192 16 x
def regM (x : BitVec 8) : Option MReg := regOf 208 16 x
def regB (x : BitVec 8) : Option BReg := regOf 224 8 x

def opVC (x : BitVec 8) : Option OpVC :=
  match regV x with | some n => some (.v n) | none => (regC x).map .c

def opVS (x : BitVec 8) : Option OpVS :=
  match regV x with | some n => some (.v n) | none => (regS x).map .s

def opVSC (x : BitVec 8) : Option OpVSC :=
  match regV x with
  | some n => some (.v n)
  | none => match regS x with | some n => some (.s n) | none => (regC x).map .c

def opSel (x : BitVec 8) : Option OpSel :=
  match regM x with
  | some n => some (.m n)
  | none => match regV x with | some n => some (.v n) | none => (regC x).map .c

def opLink (x : BitVec 8) : Option OpLink :=
  match regS x with | some n => some (.s n) | none => (regB x).map .b

/-- The guard and stall fields (R128). -/
def hdrOf (w : Word96) : Hdr :=
  { tt := fld w 88 8, ga := fin w 83 5, gb := fin w 78 5, gc := fin w 73 5, stall := fin w 69 4 }

/-- Fields D, A, B and C stand at the same place in every format that has them (R133 to R138). -/
def fD (w : Word96) : BitVec 8 := fld w 52 8
def fA (w : Word96) : BitVec 8 := fld w 44 8
def fB (w : Word96) : BitVec 8 := fld w 36 8
def fC (w : Word96) : BitVec 8 := fld w 28 8

/-- An accepted form, or nothing. -/
def need {α : Type} (b : Bool) (x : Option α) : Option α := if b then x else none

/-! ## Family 0 (R133, R147) -/

/-- Format TO with D, A and B. -/
def decTo3 (w : Word96) (mk : Hdr → SReg → SReg → SReg → Instr) : Option Instr :=
  need (zeros w [(0, 36)]) do some (mk (hdrOf w) (← regS (fD w)) (← regS (fA w)) (← regS (fB w)))

/-- Format TO with D and A. -/
def decTo2 (w : Word96) (mk : Hdr → SReg → SReg → Instr) : Option Instr :=
  need (zeros w [(0, 44)]) do some (mk (hdrOf w) (← regS (fD w)) (← regS (fA w)))

/-- Format TO of the shifts, whose bit I selects an immediate amount. -/
def decShift (w : Word96) (r : Hdr → SReg → SReg → SReg → Instr) (im : Hdr → SReg → SReg → Fin 64 → Instr) :
    Option Instr :=
  need (zeros w [(0, 23), (24, 12)]) do
    let d ← regS (fD w)
    let a ← regS (fA w)
    let b ← regS (fB w)
    some (if flag w 23 then im (hdrOf w) d a b else r (hdrOf w) d a b)

/-- Format IM. -/
def decIm (w : Word96) (mk : Hdr → SReg → SReg → W32 → Instr) : Option Instr :=
  need (zeros w [(0, 12)]) do some (mk (hdrOf w) (← regS (fD w)) (← regS (fA w)) (fld w 12 32))

/-- Format BF. -/
def decBf (w : Word96) (mk : Hdr → SReg → SReg → BitVec 6 → BitVec 7 → Instr) : Option Instr :=
  need (zeros w [(0, 31)]) do
    some (mk (hdrOf w) (← regS (fD w)) (← regS (fA w)) (fld w 38 6) (fld w 31 7))

def decFam0 (op : Nat) (w : Word96) : Option Instr :=
  match op with
  | 0x00 => decTo3 w .add
  | 0x01 => decIm w .addi
  | 0x02 => decTo3 w .sub
  | 0x03 => decTo3 w .mul
  | 0x04 => decTo3 w .mulh
  | 0x05 => decTo3 w .mulhn
  | 0x08 => decTo3 w .div
  | 0x09 => decTo3 w .divn
  | 0x0A => decTo3 w .rem
  | 0x0B => decTo3 w .remn
  | 0x10 => decTo3 w .and
  | 0x11 => decIm w .andi
  | 0x12 => decTo3 w .or
  | 0x13 => decIm w .ori
  | 0x14 => decTo3 w .xor
  | 0x15 => decIm w .xori
  | 0x16 => decTo3 w .andn
  | 0x18 => decShift w .shl .shlI
  | 0x19 => decShift w .shr .shrI
  | 0x1A => decShift w .sar .sarI
  | 0x1B => decShift w .rol .rolI
  | 0x1C => decTo2 w .clz
  | 0x1D => decTo2 w .ctz
  | 0x1E => decTo2 w .popc
  | 0x20 => decTo3 w .min
  | 0x21 => decTo3 w .max
  | 0x22 => decTo3 w .minn
  | 0x23 => decTo3 w .maxn
  | 0x24 => need (zeros w [(0, 28)]) do
      some (.sel (hdrOf w) (← regS (fD w)) (← regS (fA w)) (← regS (fB w)) (← regQ (fC w)))
  | 0x28 => need (zeros w [(48, 4)]) do some (.movi (hdrOf w) (← regS (fD w)) (fld w 0 48))
  | 0x29 => need (zeros w [(16, 36)]) do some (.movih (hdrOf w) (← regS (fD w)) (fld w 0 16))
  | 0x2A => decTo2 w .mov
  | 0x2B => decIm w .lea
  | 0x30 => decBf w .bfx
  | 0x31 => decBf w .bfi
  | _ => none

/-! ## Family 1 (R134, R149 to R161) -/

def decFam1 (op : Nat) (w : Word96) : Option Instr :=
  match op with
  | 0x00 => need (zeros w [(0, 20), (28, 2)]) do
      some (.cmp (hdrOf w) (← regQ (fD w)) (← regQ (fA w)) (← regS (fB w)) (← Cond.ofCode (fld w 32 4))
        (← PMode.ofCode (fld w 30 2)) (← regS (fld w 20 8)))
  | 0x01 => need (zeros w [(28, 2)]) do
      some (.cmpi (hdrOf w) (← regQ (fD w)) (← regQ (fA w)) (← regS (fB w)) (← Cond.ofCode (fld w 32 4))
        (← PMode.ofCode (fld w 30 2)) (fld w 0 28))
  | 0x02 => need (zeros w [(0, 22), (28, 2), (32, 4)]) do
      some (.tstb (hdrOf w) (← regQ (fD w)) (← regQ (fA w)) (← regS (fB w)) (← PMode.ofCode (fld w 30 2))
        (fin w 22 6))
  | 0x03 => need (zeros w [(0, 10)]) do
      some (.plop (hdrOf w) (← regQ (fD w)) (← regQ (fA w)) (← regQ (fB w)) (← regQ (fC w))
        (← regQ (fld w 20 8)) (fld w 12 8) (← PMode.ofCode (fld w 10 2)))
  | 0x08 => need (zeros w [(32, 4), (44, 7)]) do
      let b ← regB (fD w)
      if flag w 51 then need (zeros w [(0, 32)]) do some (.prepReg (hdrOf w) b (← regS (fB w)))
      else need (zeros w [(36, 8)]) (some (.prep (hdrOf w) b (fld w 0 32)))
  | 0x09 => need (zeros w [(0, 40), (48, 1)]) do
      let b ← regB (fD w)
      if flag w 49 then some (.xferL (hdrOf w) (← opLink (fld w 40 8)) b (fin w 50 2))
      else need (zeros w [(40, 8)]) (some (.xfer (hdrOf w) b (fin w 50 2)))
  | 0x0A => need (zeros w [(0, 36)]) do
      some (.loop (hdrOf w) (← regS (fD w)) (fld w 40 12) (fld w 36 4))
  | 0x0B => need (zeros w [(0, 60)]) (some (.lbrk (hdrOf w)))
  | 0x10 => need (zeros w [(0, 28), (28, 2), (32, 4)]) do
      some (.vany (hdrOf w) (← regQ (fD w)) (← regQ (fA w)) (← regM (fB w)) (← PMode.ofCode (fld w 30 2)))
  | 0x11 => need (zeros w [(0, 28), (28, 2), (32, 4)]) do
      some (.vall (hdrOf w) (← regQ (fD w)) (← regQ (fA w)) (← regM (fB w)) (← PMode.ofCode (fld w 30 2)))
  | _ => none

/-! ## Family 2 (R136, R164 to R174) -/

/-- A special register number, 0 to 20; 21 to 63 are reserved (R59). -/
def sprOf (w : Word96) : Option (Fin 21) :=
  let n := (fld w 0 6).toNat
  if h : n < 21 then some ⟨n, h⟩ else none

def decFam2 (op : Nat) (w : Word96) : Option Instr :=
  match op with
  | 0x00 => need (zeros w [(6, 46)]) do some (.mfsr (hdrOf w) (← regS (fD w)) (← sprOf w))
  | 0x01 => need (zeros w [(6, 38), (52, 8)]) do some (.mtsr (hdrOf w) (← sprOf w) (← regS (fA w)))
  | 0x02 => need (zeros w [(8, 52)]) (some (.trap (hdrOf w) (fld w 0 8)))
  | 0x03 => need (zeros w [(0, 60)]) (some (.rft (hdrOf w)))
  | 0x04 => need (zeros w [(0, 34), (36, 8), (52, 8)]) do
      match (fld w 34 2).toNat with
      | 0 => need (zeros w [(44, 8)]) (some (.cswYield (hdrOf w)))
      | 1 => some (.cswParkt (hdrOf w) (← regS (fA w)))
      | 2 => some (.cswParka (hdrOf w) (← regS (fA w)))
      | _ => none
  | 0x05 => need (zeros w [(0, 60)]) (some (.halt (hdrOf w)))
  | 0x06 => need (zeros w [(0, 44), (52, 8)]) do some (.waitt (hdrOf w) (← regS (fA w)))
  | 0x08 => need (zeros w [(32, 2), (52, 8)]) do
      match (fld w 34 2).toNat with
      | 0 => need (zeros w [(0, 32)]) do some (.live (hdrOf w) (← regS (fA w)) (← regS (fB w)))
      | 1 => need (zeros w [(36, 16)]) (some (.liveP (hdrOf w) (fld w 0 32)))
      | 2 => need (zeros w [(36, 16)]) (some (.liveVl (hdrOf w) (fld w 0 32)))
      | _ => need (zeros w [(36, 16)]) (some (.liveVh (hdrOf w) (fld w 0 32)))
  | 0x09 => need (zeros w [(0, 60)]) (some (.phase (hdrOf w)))
  | 0x0A => need (zeros w [(0, 60)]) (some (.nop (hdrOf w)))
  | 0x0B => need (zeros w [(0, 60)]) (some (.bkpt (hdrOf w)))
  | _ => none

/-! ## Families 3 and 4 (R137, R179): format LN -/

def lnTy (w : Word96) : Option ETy := ETy.ofCode (fld w 24 4)
def lnRm (w : Word96) : Rm := Rm.ofCode (fld w 22 2)
def lnZ (w : Word96) : Bool := flag w 21
def lnSat (w : Word96) : Bool := flag w 20
def lnK (w : Word96) : Bool := flag w 19
def lnNan (w : Word96) : Bool := flag w 18

/-- The fields of LN an instruction does not use, which must be 0. -/
def lnC : Nat × Nat := (28, 8)
def lnTY : Nat × Nat := (24, 4)
def lnRM : Nat × Nat := (22, 2)
def lnZB : Nat × Nat := (21, 1)
def lnSATB : Nat × Nat := (20, 1)
def lnKB : Nat × Nat := (19, 1)
def lnNANB : Nat × Nat := (18, 1)
def lnFN : Nat × Nat := (12, 6)
def lnIMM : Nat × Nat := (0, 12)

def decViArith (w : Word96) (mk : Hdr → VReg → VReg → OpVS → ETy → Bool → Bool → Instr) : Option Instr :=
  need (zeros w [lnC, lnRM, lnKB, lnNANB, lnFN, lnIMM]) do
    some (mk (hdrOf w) (← regV (fD w)) (← regV (fA w)) (← opVS (fB w)) (← lnTy w) (lnSat w) (lnZ w))

def decVLogic (w : Word96) (mk : Hdr → VReg → VReg → OpVS → ETy → Bool → Instr) : Option Instr :=
  need (zeros w [lnC, lnRM, lnSATB, lnKB, lnNANB, lnFN, lnIMM]) do
    some (mk (hdrOf w) (← regV (fD w)) (← regV (fA w)) (← opVS (fB w)) (← lnTy w) (lnZ w))

def decVShift (w : Word96) (r : Hdr → VReg → VReg → OpVS → ETy → Bool → Instr)
    (im : Hdr → VReg → VReg → Fin 64 → ETy → Bool → Instr) : Option Instr :=
  need (zeros w [lnC, lnRM, lnSATB, lnKB, lnNANB, (13, 5), (6, 6)]) do
    let d ← regV (fD w)
    let a ← regV (fA w)
    let ty ← lnTy w
    if flag w 12 then need (zeros w [(36, 8)]) (some (im (hdrOf w) d a (fin w 0 6) ty (lnZ w)))
    else need (zeros w [(0, 6)]) do some (r (hdrOf w) d a (← opVS (fB w)) ty (lnZ w))

def decFam3 (op : Nat) (w : Word96) : Option Instr :=
  match op with
  | 0x00 => decViArith w .viadd
  | 0x01 => decViArith w .visub
  | 0x02 => decViArith w .vimul
  | 0x03 => need (zeros w [lnRM, lnKB, lnNANB, lnFN, lnIMM]) do
      some (.vimad (hdrOf w) (← regV (fD w)) (← regV (fA w)) (← opVS (fB w)) (← opVS (fC w)) (← lnTy w)
        (lnSat w) (lnZ w))
  | 0x08 => decVLogic w .vand
  | 0x09 => decVLogic w .vor
  | 0x0A => decVLogic w .vxor
  | 0x0B => decVShift w .vshl .vshlI
  | 0x0C => decVShift w .vshr .vshrI
  | 0x0D => decVShift w .vsar .vsarI
  | 0x10 => need (zeros w [(36, 8), lnC, lnTY, lnRM, lnSATB, lnKB, lnNANB, lnFN, lnIMM]) do
      some (.vmov (hdrOf w) (← opVC (fD w)) (← opVC (fA w)) (lnZ w))
  | 0x11 => need (zeros w [(36, 8), lnC, lnRM, lnSATB, lnKB, lnNANB, (13, 5)]) do
      let d ← regV (fD w)
      let ty ← lnTy w
      if flag w 12 then some (.vbcastI (hdrOf w) d (← regV (fA w)) (fld w 0 12) ty (lnZ w))
      else need (zeros w [lnIMM]) do some (.vbcast (hdrOf w) d (← regS (fA w)) ty (lnZ w))
  | 0x12 => need (zeros w [lnC, lnRM, lnZB, lnSATB, lnKB, lnNANB, (13, 5)]) do
      let d ← regS (fD w)
      let a ← regV (fA w)
      let ty ← lnTy w
      if flag w 12 then need (zeros w [(36, 8)]) (some (.vextrI (hdrOf w) d a (fld w 0 12) ty))
      else need (zeros w [lnIMM]) do some (.vextr (hdrOf w) d a (← regS (fB w)) ty)
  | 0x13 => need (zeros w [(36, 8), lnC, lnRM, lnSATB, lnKB, lnNANB, lnFN]) do
      some (.viota (hdrOf w) (← regV (fD w)) (← regS (fA w)) (fld w 0 12) (← lnTy w) (lnZ w))
  | 0x14 => need (zeros w [lnC, lnRM, lnSATB, lnKB, lnNANB, lnFN, lnIMM]) do
      some (.vperm (hdrOf w) (← regV (fD w)) (← regV (fA w)) (← regV (fB w)) (← lnTy w) (lnZ w))
  | 0x15 => need (zeros w [lnC, lnRM, lnSATB, lnKB, lnNANB, (13, 5)]) do
      let d ← regV (fD w)
      let a ← regV (fA w)
      let ty ← lnTy w
      if flag w 12 then need (zeros w [(36, 8)]) (some (.vrotI (hdrOf w) d a (fld w 0 12) ty (lnZ w)))
      else need (zeros w [lnIMM]) do some (.vrot (hdrOf w) d a (← regS (fB w)) ty (lnZ w))
  | 0x18 => need (zeros w [(36, 8), lnRM, lnSATB, lnKB, lnNANB, lnFN, lnIMM]) do
      some (.vcomp (hdrOf w) (← regV (fD w)) (← regV (fA w)) (← regM (fC w)) (← lnTy w) (lnZ w))
  | 0x19 => need (zeros w [lnRM, lnZB, lnSATB, lnKB, lnNANB, (12, 4), lnIMM] && fld w 24 4 == 10#4) do
      some (.vbtst (hdrOf w) (← regM (fD w)) (← regM (fA w)) (← regV (fB w)) (← opVS (fC w))
        (← PMode.ofCode (fld w 16 2)))
  | 0x20 => need (zeros w [lnTY, lnRM, lnZB, lnSATB, lnKB, lnNANB, (12, 4)]) do
      some (.mlop (hdrOf w) (← regM (fD w)) (← regM (fA w)) (← regM (fB w)) (← regM (fC w)) (fin w 0 4)
        (fld w 4 8) (← PMode.ofCode (fld w 16 2)))
  | 0x21 => need (zeros w [(0, 44)]) do some (.mcnt (hdrOf w) (← regS (fD w)) (← regM (fA w)))
  | 0x22 => need (zeros w [(36, 8), lnC, lnTY, lnRM, lnSATB, lnKB, lnNANB, (13, 5), lnIMM]) do
      let a ← regM (fA w)
      if flag w 12 then some (.mfirstM (hdrOf w) (← regM (fD w)) a (lnZ w))
      else need (zeros w [lnZB]) do some (.mfirst (hdrOf w) (← regS (fD w)) a)
  | _ => none

def decF2 (w : Word96) (mk : Hdr → OpVC → OpVC → OpVSC → ETy → Rm → Bool → Instr) : Option Instr :=
  need (zeros w [lnC, lnSATB, lnKB, lnNANB, lnFN, lnIMM]) do
    some (mk (hdrOf w) (← opVC (fD w)) (← opVC (fA w)) (← opVSC (fB w)) (← lnTy w) (lnRm w) (lnZ w))

def decF3 (w : Word96) (mk : Hdr → OpVC → OpVC → OpVSC → OpVSC → ETy → Rm → Bool → Instr) : Option Instr :=
  need (zeros w [lnSATB, lnKB, lnNANB, lnFN, lnIMM]) do
    some (mk (hdrOf w) (← opVC (fD w)) (← opVC (fA w)) (← opVSC (fB w)) (← opVSC (fC w)) (← lnTy w) (lnRm w)
      (lnZ w))

def decF1 (w : Word96) (mk : Hdr → OpVC → OpVC → ETy → Rm → Bool → Instr) : Option Instr :=
  need (zeros w [(36, 8), lnC, lnSATB, lnKB, lnNANB, lnFN, lnIMM]) do
    some (mk (hdrOf w) (← opVC (fD w)) (← opVC (fA w)) (← lnTy w) (lnRm w) (lnZ w))

def decSign (w : Word96) (mk : Hdr → OpVC → OpVC → ETy → Bool → Instr) : Option Instr :=
  need (zeros w [(36, 8), lnC, lnRM, lnSATB, lnKB, lnNANB, lnFN, lnIMM]) do
    some (mk (hdrOf w) (← opVC (fD w)) (← opVC (fA w)) (← lnTy w) (lnZ w))

def decMinmax (w : Word96) (mk : Hdr → OpVC → OpVC → OpVSC → ETy → Bool → Bool → Instr) : Option Instr :=
  need (zeros w [lnC, lnRM, lnSATB, lnNANB, lnFN, lnIMM]) do
    some (mk (hdrOf w) (← opVC (fD w)) (← opVC (fA w)) (← opVSC (fB w)) (← lnTy w) (lnK w) (lnZ w))

def decFam4 (op : Nat) (w : Word96) : Option Instr :=
  match op with
  | 0x00 => decF2 w .vadd
  | 0x01 => decF2 w .vsub
  | 0x02 => decF2 w .vmul
  | 0x03 => decF3 w .vfma
  | 0x04 => decF3 w .vfms
  | 0x08 => decSign w .vabs
  | 0x09 => decSign w .vneg
  | 0x0A => decMinmax w .vmin
  | 0x0B => decMinmax w .vmax
  | 0x10 => decF2 w .vdiv
  | 0x11 => decF1 w .vsqrt
  | 0x12 => decF1 w .vrcp
  | 0x13 => decF1 w .vrsq
  | 0x14 => decF1 w .vexp2
  | 0x15 => decF1 w .vlog2
  | 0x18 => need (zeros w [(36, 8), lnC, lnKB, (16, 2), (3, 9)]) do
      some (.vcvt (hdrOf w) (← regV (fD w)) (← regV (fA w)) (← lnTy w) (← ETy.ofCode (fld w 12 4)) (fld w 0 3)
        (lnRm w) (lnSat w) (lnNan w) (lnZ w))
  | 0x19 => need (zeros w [(36, 8), lnRM, lnSATB, lnKB, lnNANB, (3, 9)] && fld w 24 4 == 13#4) do
      some (.vqnt (hdrOf w) (← regV (fD w)) (← regS (fC w)) (← regV (fA w)) (B4Ty.ofCode (fld w 16 2))
        (← ETy.ofCode (fld w 12 4)) (fld w 0 3) (lnZ w))
  | 0x1A => need (zeros w [lnC, lnSATB, lnKB, lnFN, (3, 9)]) do
      some (.vdqt (hdrOf w) (← regV (fD w)) (← regV (fA w)) (← regS (fB w)) (← lnTy w) (fld w 0 3) (lnRm w)
        (lnNan w) (lnZ w))
  | 0x20 => need (zeros w [lnRM, lnZB, lnSATB, lnNANB, lnIMM]) do
      some (.vcmp (hdrOf w) (← regM (fD w)) (← regM (fA w)) (← opVC (fB w)) (← opVSC (fC w))
        (← Cond.ofCode (fld w 12 4)) (← lnTy w) (← PMode.ofCode (fld w 16 2)) (lnK w))
  | 0x21 => need (zeros w [lnTY, lnRM, lnZB, lnSATB, lnNANB, lnIMM]) do
      some (.vthr (hdrOf w) (← regM (fD w)) (← regM (fA w)) (← opVC (fB w)) (← opVS (fC w))
        (← Cond.ofCode (fld w 12 4)) (← PMode.ofCode (fld w 16 2)) (lnK w))
  | 0x22 => need (zeros w [lnTY, lnRM, lnSATB, lnNANB, lnFN, lnIMM]) do
      some (.vsel (hdrOf w) (← regV (fD w)) (← opVS (fA w)) (← opVS (fB w)) (← opSel (fC w)) (lnK w) (lnZ w))
  | 0x28 => need (zeros w [(36, 8), lnZB, lnKB, lnNANB, (16, 2), lnIMM]) do
      some (.vred (hdrOf w) (← regS (fD w)) (← regV (fA w)) (← regM (fC w)) (← RedOp.ofCode (fld w 12 4))
        (← lnTy w) (lnRm w) (lnSat w))
  | 0x29 => need (zeros w [(36, 8), lnKB, lnNANB, (16, 2), lnIMM]) do
      some (.vscan (hdrOf w) (← regV (fD w)) (← regV (fA w)) (← regM (fC w)) (← RedOp.ofCode (fld w 12 4))
        (← lnTy w) (lnRm w) (lnSat w) (lnZ w))
  | _ => none

/-! ## Family 5 (R138, R205 to R222): formats MM, MW and MT -/

def mmOff (w : Word96) : BitVec 24 := fld w 12 24
def mmTy (w : Word96) : Option ETy := ETy.ofCode (fld w 8 4)
def mmSc (w : Word96) : Option Scope := Scope.ofCode (fld w 5 3)
def mmSem (w : Word96) : Option Sem := Sem.ofCode (fld w 3 2)

def decAtomic (w : Word96)
    (mk : Hdr → SReg → SReg → BitVec 24 → SReg → ETy → Sem → Scope → Bool → Instr) : Option Instr :=
  need (zeros w [(0, 1), (2, 1)]) do
    some (mk (hdrOf w) (← regS (fD w)) (← regS (fA w)) (mmOff w) (← regS (fB w)) (← mmTy w) (← mmSem w)
      (← mmSc w) (flag w 1))

def decCache (w : Word96) (mk : Hdr → SReg → BitVec 24 → Scope → Instr) : Option Instr :=
  need (zeros w [(0, 5), (8, 4), (36, 8), (52, 8)]) do
    some (mk (hdrOf w) (← regS (fA w)) (mmOff w) (← mmSc w))

def decFam5 (op : Nat) (w : Word96) : Option Instr :=
  match op with
  | 0x00 => need (zeros w [(0, 3), (36, 8)]) do
      some (.ld (hdrOf w) (← regS (fD w)) (← regS (fA w)) (mmOff w) (← mmTy w) (← mmSem w) (← mmSc w))
  | 0x01 => need (zeros w [(0, 3), (36, 8)]) do
      some (.st (hdrOf w) (← regS (fD w)) (← regS (fA w)) (mmOff w) (← mmTy w) (← mmSem w) (← mmSc w))
  | 0x02 => need (zeros w [(0, 2), (8, 4), (36, 8)]) do
      some (.ldv (hdrOf w) (← regV (fD w)) (← regS (fA w)) (mmOff w) (← mmSem w) (← mmSc w) (flag w 2))
  | 0x03 => need (zeros w [(0, 3), (8, 4), (36, 8)]) do
      some (.stv (hdrOf w) (← regV (fD w)) (← regS (fA w)) (mmOff w) (← mmSem w) (← mmSc w))
  | 0x04 => need (zeros w [(0, 2), (3, 5)]) do
      some (.ldg (hdrOf w) (← regV (fD w)) (← regS (fA w)) (mmOff w) (← regV (fB w)) (← mmTy w) (flag w 2))
  | 0x05 => need (zeros w [(0, 8)]) do
      some (.stg (hdrOf w) (← regV (fD w)) (← regS (fA w)) (mmOff w) (← regV (fB w)) (← mmTy w))
  | 0x08 => need (zeros w [(0, 8), (36, 8)]) do
      some (.ldl (hdrOf w) (← regS (fD w)) (← regS (fA w)) (mmOff w) (← mmTy w))
  | 0x09 => need (zeros w [(0, 8), (36, 8)]) do
      some (.stl (hdrOf w) (← regS (fD w)) (← regS (fA w)) (mmOff w) (← mmTy w))
  | 0x0A => need (zeros w [(0, 2), (3, 9), (36, 8)]) do
      some (.vldl (hdrOf w) (← regV (fD w)) (← regS (fA w)) (mmOff w) (flag w 2))
  | 0x0B => need (zeros w [(0, 12), (36, 8)]) do
      some (.vstl (hdrOf w) (← regV (fD w)) (← regS (fA w)) (mmOff w))
  | 0x10 => decAtomic w .aadd
  | 0x11 => decAtomic w .amax
  | 0x12 => decAtomic w .amin
  | 0x13 => decAtomic w .aand
  | 0x14 => decAtomic w .aor
  | 0x15 => decAtomic w .axor
  | 0x16 => decAtomic w .axchg
  | 0x17 => need (zeros w [(0, 1), (2, 1)] && flag w 1) do
      some (.acas (hdrOf w) (← regS (fD w)) (← regS (fA w)) (mmOff w) (← regS (fB w)) (← mmTy w) (← mmSem w)
        (← mmSc w))
  | 0x18 => need (zeros w [(0, 5)]) do
      some (.vared (hdrOf w) (← regV (fD w)) (← regS (fA w)) (fld w 12 21) (← regV (fB w))
        (← VaOp.ofCode (fld w 33 3)) (← mmTy w) (← mmSc w))
  | 0x20 => need (zeros w [(0, 3), (8, 52)]) do
      let sc ← mmSc w
      match (fld w 3 2).toNat with
      | 1 => some (.fenceAcq (hdrOf w) sc)
      | 2 => some (.fenceRel (hdrOf w) sc)
      | 3 => some (.fenceFull (hdrOf w) sc)
      | _ => none
  | 0x21 => need (zeros w [(0, 16), (21, 5)]) do
      some (.waita (hdrOf w) (← regS (fD w)) (← regS (fA w)) (← regS (fB w)) (← Cond.ofCode (fld w 26 4))
        (← WForm.ofCode (fld w 19 2)) (← Scope.ofCode (fld w 16 3)) (fld w 30 6))
  | 0x22 => need (zeros w [(0, 16), (26, 4), (44, 16)]) do
      let sc ← Scope.ofCode (fld w 16 3)
      match (fld w 19 2).toNat with
      | 0 => some (.barSync (hdrOf w) (fin w 21 5) (← regS (fB w)) sc (fld w 30 6))
      | 1 => need (zeros w [(30, 6)]) do some (.barArv (hdrOf w) (fin w 21 5) (← regS (fB w)) sc)
      | 2 => need (zeros w [(36, 8)]) (some (.barWait (hdrOf w) (fin w 21 5) sc (fld w 30 6)))
      | _ => none
  | 0x28 => decCache w .cinv
  | 0x29 => decCache w .cwb
  | 0x2A => decCache w .pref
  | 0x30 => need (zeros w [(0, 27), (52, 8)]) do
      let a ← regS (fA w)
      if flag w 27 then need (zeros w [(28, 8)]) do some (.tidsetReg (hdrOf w) (← regS (fB w)) a)
      else need (zeros w [(36, 8)]) (some (.tidset (hdrOf w) (fld w 28 8) a))
  | 0x31 => need (zeros w [(0, 27), (44, 8)]) do
      let d ← regS (fD w)
      if flag w 27 then need (zeros w [(28, 8)]) do some (.tidgetReg (hdrOf w) d (← regS (fB w)))
      else need (zeros w [(36, 8)]) (some (.tidget (hdrOf w) d (fld w 28 8)))
  | _ => none

/-! ## Family 6 (R139, R238 to R252, R260): format EN -/

def enOf (w : Word96) : EnH :=
  { k0 := fin w 54 6, k1 := fin w 48 6, k2 := fin w 42 6, sq := fin w 36 6, at_ := fin w 30 6 }

/-- Commands whose CMD holds only SB in [29:24]. -/
def decSb (w : Word96) (mk : Hdr → EnH → SReg → Instr) : Option Instr :=
  need (zeros w [(0, 24)]) (some (mk (hdrOf w) (enOf w) (fin w 24 6)))

def decFam6 (op : Nat) (w : Word96) : Option Instr :=
  let h := hdrOf w
  let e := enOf w
  match op with
  | 0x00 => need (zeros w [(0, 3)])
      (some (.mma h e (fin w 11 3) (fld w 22 8) (fld w 14 8) (fin w 5 6) (flag w 4) (flag w 3)))
  | 0x01 => need (zeros w [(0, 3), (14, 8)])
      (some (.mmas h e (fin w 11 3) (fld w 22 8) (fin w 5 6) (flag w 4) (flag w 3)))
  | 0x02 => need (zeros w [(0, 2), (3, 2)])
      (some (.mmat h e (fin w 11 3) (fld w 22 8) (fld w 14 8) (fin w 5 6) (flag w 2)))
  | 0x03 => need (zeros w [(8, 22)]) (some (.aclr h e (fld w 0 8)))
  | 0x04 => need (zeros w [(14, 8)])
      (some (.acvt h e (fld w 22 8) (fin w 11 3) (fin w 5 6) (flag w 4) (flag w 3) (Rm.ofCode (fld w 1 2))
        (flag w 0)))
  | 0x05 => need (zeros w [(0, 5), (17, 4)])
      (if flag w 21 then need (zeros w [(14, 3)]) (some (.amovTid h e (fin w 11 3) (fld w 22 8) (fin w 5 6)))
       else need (zeros w [(5, 6), (22, 8)]) (some (.amov h e (fin w 11 3) (fin w 14 3))))
  | 0x08 => some (.cpy h e (fin w 24 6) (CpyDir.ofCode (fld w 22 2)) (NoteSc.ofCode (fld w 20 2)) (flag w 19)
      (fld w 0 19))
  | 0x09 => need (zeros w [(0, 8)]) (some (.gthr h e (fld w 22 8) (fld w 14 8) (fin w 8 6)))
  | 0x0A => need (zeros w [(0, 8), (14, 8)]) (some (.gidx h e (fld w 22 8) (fin w 8 6)))
  | 0x10 => need (zeros w [(23, 1)]) (some (.xrun h e (fin w 24 6) (fld w 0 23)))
  | 0x11 => need (zeros w [(2, 28)]) (some (.xpost h e (fin w 0 2)))
  | 0x12 => need (zeros w [(8, 16)]) (some (.xwait h e (fin w 24 6) (fld w 2 6) (fin w 0 2)))
  | 0x13 => need (zeros w [(0, 2), (8, 22)]) (some (.waitk h e (fld w 2 6)))
  | 0x18 => decSb w .kvh
  | 0x19 => decSb w .kvlk
  | 0x1A => decSb w .kvins
  | 0x1B => decSb w .kvpin
  | 0x1C => decSb w .kvunp
  | 0x1D => need (zeros w [(0, 23)])
      (some (if flag w 23 then .kvmapRel h e (fin w 24 6) else .kvmap h e (fin w 24 6)))
  | 0x1E => decSb w .kvpub
  | 0x20 => need (zeros w [(0, 6)])
      (some (.attn h e (fld w 22 8) (fld w 14 8) (fin w 8 6) (flag w 7) (flag w 6)))
  | 0x28 => do some (.cred h e (fin w 24 6) (← CrOp.ofCode (fld w 20 4)) (← ETy.ofCode (fld w 16 4)) (fld w 0 16))
  | 0x29 => need (zeros w [(16, 8)]) (some (.cgth h e (fin w 24 6) (fld w 0 16)))
  | 0x2A => need (zeros w [(16, 5)]) (some (.csnd h e (fin w 24 6) (fin w 21 3) (fld w 0 16)))
  | 0x2B => need (zeros w [(16, 5)]) (some (.crcv h e (fin w 24 6) (fin w 21 3) (fld w 0 16)))
  | 0x30 => decSb w .launch
  | _ => none

/-! ## Family 7 (R140, R254): format XT -/

def xD (w : Word96) : XReg := fin w 56 4
def xA (w : Word96) : XReg := fin w 52 4
def xB (w : Word96) : XReg := fin w 48 4
def xC (w : Word96) : XReg := fin w 44 4
def xI (w : Word96) : W32 := fld w 0 32

def decFam7 (op : Nat) (w : Word96) : Option Instr :=
  match op with
  | 0x00 => need (zeros w [(32, 20)]) (some (.xld (xD w) (xA w) (xI w)))
  | 0x01 => need (zeros w [(32, 16), (56, 4)]) (some (.xst (xA w) (xB w) (xI w)))
  | 0x02 => need (zeros w [(40, 8)])
      (match (fld w 32 8).toNat with
       | 0 => need (zeros w [(48, 8)]) (some (.xmov (xD w) (xI w)))
       | 1 => need (zeros w [(48, 4)]) (some (.xmovA (xD w) (xA w) (xI w)))
       | 2 => need (zeros w [(0, 32)]) (some (.xmovR (xD w) (xA w) (xB w)))
       | 3 => need (zeros w [(48, 8)]) (some (.xmovH (xD w) (xI w)))
       | _ => none)
  | 0x08 => need (zeros w [(32, 20)]) (some (.xdec (xD w) (xA w) (fld w 10 22) (fld w 0 10)))
  | 0x09 => need (zeros w [(32, 20)]) (some (.xenc (xD w) (xA w) (fld w 10 22) (fld w 0 10)))
  | 0x0A => need (zeros w [(34, 6), (44, 4)]) do
      some (.xqnt (xD w) (xA w) (xB w) (← ETy.ofCode (fld w 40 4)) (B4Ty.ofCode (fld w 32 2)) (xI w))
  | 0x0B => need (zeros w [(32, 8), (44, 4)]) do
      some (.xbp (xD w) (xA w) (xB w) (← ETy.ofCode (fld w 40 4)) (xI w))
  | 0x10 => need (zeros w [(12, 40), (56, 4)]) (some (.xloop (xA w) (fld w 0 12)))
  | 0x11 => need (zeros w [(2, 58)]) (some (.xsXpost (fin w 0 2)))
  | 0x12 => need (zeros w [(8, 36), (48, 12)]) (some (.xsXwait (fin w 0 2) (xC w) (fld w 2 6)))
  | 0x13 => need (zeros w [(0, 60)]) (some .xend)
  | _ => none

/-! ## The decoder (R143) -/

/-- Why a word is no instruction: the check of R143 it fails first. Each raises ILLEGAL. -/
inductive Reject
  /-- Check 1: a family 7 word in an owner-0 line, or a word of families 0 to 6 in an owner-1 line (R141). -/
  | family
  /-- Check 2: the OPC cell is undefined, in the image's version (R127, R142). -/
  | cell
  /-- Check 3: a reserved word bit, or a guard or stall field of an owner-1 word that breaks R140. -/
  | reserved
  /-- Check 4: an M selector on a scalar-guarded word (R129). -/
  | selector
  /-- Check 5: a specifier, field, completer or immediate that is not accepted (R106, R131, R132). -/
  | operand
  deriving DecidableEq, Repr

/-- The defined cells of each family (R142), as OPC[5:0]. -/
def cells : Nat → List Nat
  | 0 => [0x00, 0x01, 0x02, 0x03, 0x04, 0x05, 0x08, 0x09, 0x0A, 0x0B, 0x10, 0x11, 0x12, 0x13, 0x14, 0x15, 0x16,
          0x18, 0x19, 0x1A, 0x1B, 0x1C, 0x1D, 0x1E, 0x20, 0x21, 0x22, 0x23, 0x24, 0x28, 0x29, 0x2A, 0x2B, 0x30,
          0x31]
  | 1 => [0x00, 0x01, 0x02, 0x03, 0x08, 0x09, 0x0A, 0x0B, 0x10, 0x11]
  | 2 => [0x00, 0x01, 0x02, 0x03, 0x04, 0x05, 0x06, 0x08, 0x09, 0x0A, 0x0B]
  | 3 => [0x00, 0x01, 0x02, 0x03, 0x08, 0x09, 0x0A, 0x0B, 0x0C, 0x0D, 0x10, 0x11, 0x12, 0x13, 0x14, 0x15, 0x18,
          0x19, 0x20, 0x21, 0x22]
  | 4 => [0x00, 0x01, 0x02, 0x03, 0x04, 0x08, 0x09, 0x0A, 0x0B, 0x10, 0x11, 0x12, 0x13, 0x14, 0x15, 0x18, 0x19,
          0x1A, 0x20, 0x21, 0x22, 0x28, 0x29]
  | 5 => [0x00, 0x01, 0x02, 0x03, 0x04, 0x05, 0x08, 0x09, 0x0A, 0x0B, 0x10, 0x11, 0x12, 0x13, 0x14, 0x15, 0x16,
          0x17, 0x18, 0x20, 0x21, 0x22, 0x28, 0x29, 0x2A, 0x30, 0x31]
  | 6 => [0x00, 0x01, 0x02, 0x03, 0x04, 0x05, 0x08, 0x09, 0x0A, 0x10, 0x11, 0x12, 0x13, 0x18, 0x19, 0x1A, 0x1B,
          0x1C, 0x1D, 0x1E, 0x20, 0x28, 0x29, 0x2A, 0x2B, 0x30]
  | 7 => [0x00, 0x01, 0x02, 0x08, 0x09, 0x0A, 0x0B, 0x10, 0x11, 0x12, 0x13]
  | _ => []

/-- Cells that versions 1 and 2 do not define: MMAT, KVH, KVLK, KVINS, KVPIN, KVUNP (R127). -/
def v3Cells : List Nat := [0x02, 0x18, 0x19, 0x1A, 0x1B, 0x1C]

/-- The operand fields of a word of one family. -/
def decFam (fam op : Nat) (w : Word96) : Option Instr :=
  match fam with
  | 0 => decFam0 op w
  | 1 => decFam1 op w
  | 2 => decFam2 op w
  | 3 => decFam3 op w
  | 4 => decFam4 op w
  | 5 => decFam5 op w
  | 6 => decFam6 op w
  | 7 => decFam7 op w
  | _ => none

/-- The lane-guarded cells of families 1 and 5 (R129); all of families 3 and 4 are lane-guarded. -/
def laneCell (fam op : Nat) : Bool :=
  fam == 3 || fam == 4 || (fam == 1 && (op == 0x10 || op == 0x11)) ||
  (fam == 5 && [0x02, 0x03, 0x04, 0x05, 0x0A, 0x0B, 0x18].contains op)

/-- Decode one word of a line with the given owner (0 sequencer, 1 transform) in an image of the given
encoding version, in the check order of R143 (its check 6, privilege, is `Instr.needsPriv`). -/
def decode (ver owner : Nat) (w : Word96) : Except Reject Instr :=
  let fam := (fld w 66 3).toNat
  let op := (fld w 60 6).toNat
  if (fam == 7) != (owner == 1) then .error .family
  else if !(cells fam).contains op || (ver < 3 && fam == 6 && v3Cells.contains op) then .error .cell
  else if ver == 1 && flag w 72 then .error .reserved
  else if fam == 7 && !(fld w 88 8 == 0xFF#8 && zeros w [(69, 19)]) then .error .reserved
  else if fam != 7 && !laneCell fam op && !(hdrOf w).scalarOk then .error .selector
  else
    match decFam fam op w with
    | none => .error .operand
    | some i => if i.wf && !(ver == 1 && i.usesChain) then .ok i else .error .operand

/-! ## The encoder -/

/-- A field placed at its low bit. -/
def put (lo : Nat) {n : Nat} (x : BitVec n) : Word96 := (x.setWidth 96) <<< lo

def putN (lo n : Nat) (x : Nat) : Word96 := put lo (BitVec.ofNat n x)

def putB (lo : Nat) (b : Bool) : Word96 := putN lo 1 b.toNat

def codeS (r : SReg) : BitVec 8 := BitVec.ofNat 8 r.val
def codeV (r : VReg) : BitVec 8 := BitVec.ofNat 8 (64 + r.val)
def codeC (r : CReg) : BitVec 8 := BitVec.ofNat 8 (128 + r.val)
def codeQ (r : QReg) : BitVec 8 := BitVec.ofNat 8 (192 + r.val)
def codeM (r : MReg) : BitVec 8 := BitVec.ofNat 8 (208 + r.val)
def codeB (r : BReg) : BitVec 8 := BitVec.ofNat 8 (224 + r.val)

def OpVC.code8 : OpVC → BitVec 8 | .v n => codeV n | .c n => codeC n
def OpVS.code8 : OpVS → BitVec 8 | .v n => codeV n | .s n => codeS n
def OpVSC.code8 : OpVSC → BitVec 8 | .v n => codeV n | .s n => codeS n | .c n => codeC n
def OpSel.code8 : OpSel → BitVec 8 | .m n => codeM n | .v n => codeV n | .c n => codeC n
def OpLink.code8 : OpLink → BitVec 8 | .s n => codeS n | .b n => codeB n

/-- The word of a sequencer instruction: guard, stall, opcode and body (R128, R142). -/
def seqWord (h : Hdr) (opc : Nat) (body : Word96) : Word96 :=
  put 88 h.tt ||| putN 83 5 h.ga.val ||| putN 78 5 h.gb.val ||| putN 73 5 h.gc.val ||| putN 69 4 h.stall.val |||
  putN 60 9 opc ||| body

/-- The word of a transform instruction, always guarded and without stall (R140). -/
def xsWord (opc : Nat) (body : Word96) : Word96 := putN 88 8 0xFF ||| putN 60 9 opc ||| body

def bTo (d a b : SReg) : Word96 := put 52 (codeS d) ||| put 44 (codeS a) ||| put 36 (codeS b)
def bTo2 (d a : SReg) : Word96 := put 52 (codeS d) ||| put 44 (codeS a)
def bToI (d a : SReg) (n : Fin 64) : Word96 := bTo2 d a ||| putN 36 8 n.val ||| putN 23 1 1
def bIm (d a : SReg) (imm : W32) : Word96 := bTo2 d a ||| put 12 imm
def bBf (d a : SReg) (pos : BitVec 6) (wid : BitVec 7) : Word96 := bTo2 d a ||| put 38 pos ||| put 31 wid
def bCp (pt pf : QReg) (m : PMode) : Word96 := put 52 (codeQ pt) ||| put 44 (codeQ pf) ||| put 30 m.code

/-- Format LN with its operand codes and the completers. -/
def bLn (d a b c : BitVec 8) (ty : ETy) (rm : Rm) (z sat k nan : Bool) : Word96 :=
  put 52 d ||| put 44 a ||| put 36 b ||| put 28 c ||| put 24 ty.code ||| put 22 rm.code ||| putB 21 z |||
  putB 20 sat ||| putB 19 k ||| putB 18 nan

def bMm (d a b : BitVec 8) (off : BitVec 24) (ty : ETy) (sc : Scope) (sem : Sem) (z ret : Bool) : Word96 :=
  put 52 d ||| put 44 a ||| put 36 b ||| put 12 off ||| put 8 ty.code ||| put 5 sc.code ||| put 3 sem.code |||
  putB 2 z ||| putB 1 ret

def bMw (d a b : BitVec 8) (bound : BitVec 6) (barn form : Nat) (sc : Scope) : Word96 :=
  put 52 d ||| put 44 a ||| put 36 b ||| put 30 bound ||| putN 21 5 barn ||| putN 19 2 form ||| put 16 sc.code

def bEn (e : EnH) (cmd : Word96) : Word96 :=
  putN 54 6 e.k0.val ||| putN 48 6 e.k1.val ||| putN 42 6 e.k2.val ||| putN 36 6 e.sq.val |||
  putN 30 6 e.at_.val ||| cmd

def bSb (e : EnH) (sb : SReg) : Word96 := bEn e (putN 24 6 sb.val)

def bX (d a b : Nat) (imm : W32) : Word96 := putN 56 4 d ||| putN 52 4 a ||| putN 48 4 b ||| put 0 imm

/-- The word of an instruction; 0 for a step of the device, which has no word. -/
def encode : Instr → Word96
  | .add h d a b => seqWord h 0x000 (bTo d a b)
  | .addi h d a i => seqWord h 0x001 (bIm d a i)
  | .sub h d a b => seqWord h 0x002 (bTo d a b)
  | .mul h d a b => seqWord h 0x003 (bTo d a b)
  | .mulh h d a b => seqWord h 0x004 (bTo d a b)
  | .mulhn h d a b => seqWord h 0x005 (bTo d a b)
  | .div h d a b => seqWord h 0x008 (bTo d a b)
  | .divn h d a b => seqWord h 0x009 (bTo d a b)
  | .rem h d a b => seqWord h 0x00A (bTo d a b)
  | .remn h d a b => seqWord h 0x00B (bTo d a b)
  | .and h d a b => seqWord h 0x010 (bTo d a b)
  | .andi h d a i => seqWord h 0x011 (bIm d a i)
  | .or h d a b => seqWord h 0x012 (bTo d a b)
  | .ori h d a i => seqWord h 0x013 (bIm d a i)
  | .xor h d a b => seqWord h 0x014 (bTo d a b)
  | .xori h d a i => seqWord h 0x015 (bIm d a i)
  | .andn h d a b => seqWord h 0x016 (bTo d a b)
  | .shl h d a b => seqWord h 0x018 (bTo d a b)
  | .shlI h d a n => seqWord h 0x018 (bToI d a n)
  | .shr h d a b => seqWord h 0x019 (bTo d a b)
  | .shrI h d a n => seqWord h 0x019 (bToI d a n)
  | .sar h d a b => seqWord h 0x01A (bTo d a b)
  | .sarI h d a n => seqWord h 0x01A (bToI d a n)
  | .rol h d a b => seqWord h 0x01B (bTo d a b)
  | .rolI h d a n => seqWord h 0x01B (bToI d a n)
  | .clz h d a => seqWord h 0x01C (bTo2 d a)
  | .ctz h d a => seqWord h 0x01D (bTo2 d a)
  | .popc h d a => seqWord h 0x01E (bTo2 d a)
  | .min h d a b => seqWord h 0x020 (bTo d a b)
  | .max h d a b => seqWord h 0x021 (bTo d a b)
  | .minn h d a b => seqWord h 0x022 (bTo d a b)
  | .maxn h d a b => seqWord h 0x023 (bTo d a b)
  | .sel h d a b c => seqWord h 0x024 (bTo d a b ||| put 28 (codeQ c))
  | .movi h d i => seqWord h 0x028 (put 52 (codeS d) ||| put 0 i)
  | .movih h d i => seqWord h 0x029 (put 52 (codeS d) ||| put 0 i)
  | .mov h d a => seqWord h 0x02A (bTo2 d a)
  | .lea h d a i => seqWord h 0x02B (bIm d a i)
  | .bfx h d a p w => seqWord h 0x030 (bBf d a p w)
  | .bfi h d a p w => seqWord h 0x031 (bBf d a p w)
  | .cmp h pt pf a c m b =>
      seqWord h 0x040 (bCp pt pf m ||| put 36 (codeS a) ||| put 32 c.code ||| put 20 (codeS b))
  | .cmpi h pt pf a c m i => seqWord h 0x041 (bCp pt pf m ||| put 36 (codeS a) ||| put 32 c.code ||| put 0 i)
  | .tstb h pt pf a m bit => seqWord h 0x042 (bCp pt pf m ||| put 36 (codeS a) ||| putN 22 6 bit.val)
  | .plop h pt pf p1 p2 p3 ft m =>
      seqWord h 0x043 (put 52 (codeQ pt) ||| put 44 (codeQ pf) ||| put 36 (codeQ p1) ||| put 28 (codeQ p2) |||
        put 20 (codeQ p3) ||| put 12 ft ||| put 10 m.code)
  | .prep h bt t => seqWord h 0x048 (put 52 (codeB bt) ||| put 0 t)
  | .prepReg h bt a => seqWord h 0x048 (put 52 (codeB bt) ||| putN 51 1 1 ||| put 36 (codeS a))
  | .xfer h bt d => seqWord h 0x049 (put 52 (codeB bt) ||| putN 50 2 d.val)
  | .xferL h l bt d =>
      seqWord h 0x049 (put 52 (codeB bt) ||| putN 50 2 d.val ||| putN 49 1 1 ||| put 40 l.code8)
  | .loop h c len ns => seqWord h 0x04A (put 52 (codeS c) ||| put 40 len ||| put 36 ns)
  | .lbrk h => seqWord h 0x04B 0
  | .vany h pt pf a m => seqWord h 0x050 (bCp pt pf m ||| put 36 (codeM a))
  | .vall h pt pf a m => seqWord h 0x051 (bCp pt pf m ||| put 36 (codeM a))
  | .mfsr h d n => seqWord h 0x080 (put 52 (codeS d) ||| putN 0 6 n.val)
  | .mtsr h n a => seqWord h 0x081 (put 44 (codeS a) ||| putN 0 6 n.val)
  | .trap h n => seqWord h 0x082 (put 0 n)
  | .rft h => seqWord h 0x083 0
  | .cswYield h => seqWord h 0x084 0
  | .cswParkt h a => seqWord h 0x084 (putN 34 2 1 ||| put 44 (codeS a))
  | .cswParka h a => seqWord h 0x084 (putN 34 2 2 ||| put 44 (codeS a))
  | .halt h => seqWord h 0x085 0
  | .waitt h a => seqWord h 0x086 (put 44 (codeS a))
  | .live h a b => seqWord h 0x088 (put 44 (codeS a) ||| put 36 (codeS b))
  | .liveP h i => seqWord h 0x088 (putN 34 2 1 ||| put 0 i)
  | .liveVl h i => seqWord h 0x088 (putN 34 2 2 ||| put 0 i)
  | .liveVh h i => seqWord h 0x088 (putN 34 2 3 ||| put 0 i)
  | .phase h => seqWord h 0x089 0
  | .nop h => seqWord h 0x08A 0
  | .bkpt h => seqWord h 0x08B 0
  | .viadd h d a b ty s z => seqWord h 0x0C0 (bLn (codeV d) (codeV a) b.code8 0 ty .rne z s false false)
  | .visub h d a b ty s z => seqWord h 0x0C1 (bLn (codeV d) (codeV a) b.code8 0 ty .rne z s false false)
  | .vimul h d a b ty s z => seqWord h 0x0C2 (bLn (codeV d) (codeV a) b.code8 0 ty .rne z s false false)
  | .vimad h d a b c ty s z =>
      seqWord h 0x0C3 (bLn (codeV d) (codeV a) b.code8 c.code8 ty .rne z s false false)
  | .vand h d a b ty z => seqWord h 0x0C8 (bLn (codeV d) (codeV a) b.code8 0 ty .rne z false false false)
  | .vor h d a b ty z => seqWord h 0x0C9 (bLn (codeV d) (codeV a) b.code8 0 ty .rne z false false false)
  | .vxor h d a b ty z => seqWord h 0x0CA (bLn (codeV d) (codeV a) b.code8 0 ty .rne z false false false)
  | .vshl h d a b ty z => seqWord h 0x0CB (bLn (codeV d) (codeV a) b.code8 0 ty .rne z false false false)
  | .vshlI h d a n ty z =>
      seqWord h 0x0CB (bLn (codeV d) (codeV a) 0 0 ty .rne z false false false ||| putN 12 1 1 ||| putN 0 6 n.val)
  | .vshr h d a b ty z => seqWord h 0x0CC (bLn (codeV d) (codeV a) b.code8 0 ty .rne z false false false)
  | .vshrI h d a n ty z =>
      seqWord h 0x0CC (bLn (codeV d) (codeV a) 0 0 ty .rne z false false false ||| putN 12 1 1 ||| putN 0 6 n.val)
  | .vsar h d a b ty z => seqWord h 0x0CD (bLn (codeV d) (codeV a) b.code8 0 ty .rne z false false false)
  | .vsarI h d a n ty z =>
      seqWord h 0x0CD (bLn (codeV d) (codeV a) 0 0 ty .rne z false false false ||| putN 12 1 1 ||| putN 0 6 n.val)
  | .vmov h d a z => seqWord h 0x0D0 (bLn d.code8 a.code8 0 0 .f32 .rne z false false false)
  | .vbcast h d a ty z => seqWord h 0x0D1 (bLn (codeV d) (codeS a) 0 0 ty .rne z false false false)
  | .vbcastI h d a k ty z =>
      seqWord h 0x0D1 (bLn (codeV d) (codeV a) 0 0 ty .rne z false false false ||| putN 12 1 1 ||| put 0 k)
  | .vextr h d a b ty => seqWord h 0x0D2 (bLn (codeS d) (codeV a) (codeS b) 0 ty .rne false false false false)
  | .vextrI h d a k ty =>
      seqWord h 0x0D2 (bLn (codeS d) (codeV a) 0 0 ty .rne false false false false ||| putN 12 1 1 ||| put 0 k)
  | .viota h d a s ty z => seqWord h 0x0D3 (bLn (codeV d) (codeS a) 0 0 ty .rne z false false false ||| put 0 s)
  | .vperm h d a b ty z => seqWord h 0x0D4 (bLn (codeV d) (codeV a) (codeV b) 0 ty .rne z false false false)
  | .vrot h d a b ty z => seqWord h 0x0D5 (bLn (codeV d) (codeV a) (codeS b) 0 ty .rne z false false false)
  | .vrotI h d a k ty z =>
      seqWord h 0x0D5 (bLn (codeV d) (codeV a) 0 0 ty .rne z false false false ||| putN 12 1 1 ||| put 0 k)
  | .vcomp h d a c ty z => seqWord h 0x0D8 (bLn (codeV d) (codeV a) 0 (codeM c) ty .rne z false false false)
  | .vbtst h mt mf b c m =>
      seqWord h 0x0D9 (bLn (codeM mt) (codeM mf) (codeV b) c.code8 .n32 .rne false false false false |||
        put 16 m.code)
  | .mlop h mt mf a b c ft m =>
      seqWord h 0x0E0 (bLn (codeM mt) (codeM mf) (codeM a) (codeM b) .f32 .rne false false false false |||
        put 16 m.code ||| put 4 ft ||| putN 0 4 c.val)
  | .mcnt h d a => seqWord h 0x0E1 (bLn (codeS d) (codeM a) 0 0 .f32 .rne false false false false)
  | .mfirst h d a => seqWord h 0x0E2 (bLn (codeS d) (codeM a) 0 0 .f32 .rne false false false false)
  | .mfirstM h d a z =>
      seqWord h 0x0E2 (bLn (codeM d) (codeM a) 0 0 .f32 .rne z false false false ||| putN 12 1 1)
  | .vadd h d a b ty r z => seqWord h 0x100 (bLn d.code8 a.code8 b.code8 0 ty r z false false false)
  | .vsub h d a b ty r z => seqWord h 0x101 (bLn d.code8 a.code8 b.code8 0 ty r z false false false)
  | .vmul h d a b ty r z => seqWord h 0x102 (bLn d.code8 a.code8 b.code8 0 ty r z false false false)
  | .vfma h d a b c ty r z => seqWord h 0x103 (bLn d.code8 a.code8 b.code8 c.code8 ty r z false false false)
  | .vfms h d a b c ty r z => seqWord h 0x104 (bLn d.code8 a.code8 b.code8 c.code8 ty r z false false false)
  | .vabs h d a ty z => seqWord h 0x108 (bLn d.code8 a.code8 0 0 ty .rne z false false false)
  | .vneg h d a ty z => seqWord h 0x109 (bLn d.code8 a.code8 0 0 ty .rne z false false false)
  | .vmin h d a b ty k z => seqWord h 0x10A (bLn d.code8 a.code8 b.code8 0 ty .rne z false k false)
  | .vmax h d a b ty k z => seqWord h 0x10B (bLn d.code8 a.code8 b.code8 0 ty .rne z false k false)
  | .vdiv h d a b ty r z => seqWord h 0x110 (bLn d.code8 a.code8 b.code8 0 ty r z false false false)
  | .vsqrt h d a ty r z => seqWord h 0x111 (bLn d.code8 a.code8 0 0 ty r z false false false)
  | .vrcp h d a ty r z => seqWord h 0x112 (bLn d.code8 a.code8 0 0 ty r z false false false)
  | .vrsq h d a ty r z => seqWord h 0x113 (bLn d.code8 a.code8 0 0 ty r z false false false)
  | .vexp2 h d a ty r z => seqWord h 0x114 (bLn d.code8 a.code8 0 0 ty r z false false false)
  | .vlog2 h d a ty r z => seqWord h 0x115 (bLn d.code8 a.code8 0 0 ty r z false false false)
  | .vcvt h d a dst src p r s n z =>
      seqWord h 0x118 (bLn (codeV d) (codeV a) 0 0 dst r z s false n ||| put 12 src.code ||| put 0 p)
  | .vqnt h d sc a q src p z =>
      seqWord h 0x119 (bLn (codeV d) (codeV a) 0 (codeS sc) .b4 .rne z false false false ||| put 16 q.code |||
        put 12 src.code ||| put 0 p)
  | .vdqt h d a b dst p r n z =>
      seqWord h 0x11A (bLn (codeV d) (codeV a) (codeS b) 0 dst r z false false n ||| put 0 p)
  | .vcmp h mt mf b c cc ty m k =>
      seqWord h 0x120 (bLn (codeM mt) (codeM mf) b.code8 c.code8 ty .rne false false k false ||| put 16 m.code |||
        put 12 cc.code)
  | .vthr h mt mf b c cc m k =>
      seqWord h 0x121 (bLn (codeM mt) (codeM mf) b.code8 c.code8 .f32 .rne false false k false |||
        put 16 m.code ||| put 12 cc.code)
  | .vsel h d a b c k z => seqWord h 0x122 (bLn (codeV d) a.code8 b.code8 c.code8 .f32 .rne z false k false)
  | .vred h d a c op ty r s =>
      seqWord h 0x128 (bLn (codeS d) (codeV a) 0 (codeM c) ty r false s false false ||| put 12 op.code)
  | .vscan h d a c op ty r s z =>
      seqWord h 0x129 (bLn (codeV d) (codeV a) 0 (codeM c) ty r z s false false ||| put 12 op.code)
  | .chainFull .. => 0
  | .ld h d a o ty m s => seqWord h 0x140 (bMm (codeS d) (codeS a) 0 o ty s m false false)
  | .st h d a o ty m s => seqWord h 0x141 (bMm (codeS d) (codeS a) 0 o ty s m false false)
  | .ldv h d a o m s z => seqWord h 0x142 (bMm (codeV d) (codeS a) 0 o .f32 s m z false)
  | .stv h d a o m s => seqWord h 0x143 (bMm (codeV d) (codeS a) 0 o .f32 s m false false)
  | .ldg h d a o b ty z => seqWord h 0x144 (bMm (codeV d) (codeS a) (codeV b) o ty .st .plain z false)
  | .stg h d a o b ty => seqWord h 0x145 (bMm (codeV d) (codeS a) (codeV b) o ty .st .plain false false)
  | .ldl h d a o ty => seqWord h 0x148 (bMm (codeS d) (codeS a) 0 o ty .st .plain false false)
  | .stl h d a o ty => seqWord h 0x149 (bMm (codeS d) (codeS a) 0 o ty .st .plain false false)
  | .vldl h d a o z => seqWord h 0x14A (bMm (codeV d) (codeS a) 0 o .f32 .st .plain z false)
  | .vstl h d a o => seqWord h 0x14B (bMm (codeV d) (codeS a) 0 o .f32 .st .plain false false)
  | .memoryAccessComplete .. => 0
  | .sideLogDrain .. => 0
  | .aadd h d a o b ty m s r => seqWord h 0x150 (bMm (codeS d) (codeS a) (codeS b) o ty s m false r)
  | .amax h d a o b ty m s r => seqWord h 0x151 (bMm (codeS d) (codeS a) (codeS b) o ty s m false r)
  | .amin h d a o b ty m s r => seqWord h 0x152 (bMm (codeS d) (codeS a) (codeS b) o ty s m false r)
  | .aand h d a o b ty m s r => seqWord h 0x153 (bMm (codeS d) (codeS a) (codeS b) o ty s m false r)
  | .aor h d a o b ty m s r => seqWord h 0x154 (bMm (codeS d) (codeS a) (codeS b) o ty s m false r)
  | .axor h d a o b ty m s r => seqWord h 0x155 (bMm (codeS d) (codeS a) (codeS b) o ty s m false r)
  | .axchg h d a o b ty m s r => seqWord h 0x156 (bMm (codeS d) (codeS a) (codeS b) o ty s m false r)
  | .acas h d a o b ty m s => seqWord h 0x157 (bMm (codeS d) (codeS a) (codeS b) o ty s m false true)
  | .vared h d a o b op ty s =>
      seqWord h 0x158 (bMm (codeV d) (codeS a) (codeV b) (op.code ++ o) ty s .plain false false)
  | .fenceAcq h s => seqWord h 0x160 (put 5 s.code ||| putN 3 2 1)
  | .fenceRel h s => seqWord h 0x160 (put 5 s.code ||| putN 3 2 2)
  | .fenceFull h s => seqWord h 0x160 (put 5 s.code ||| putN 3 2 3)
  | .waita h d a b cc f s bd =>
      seqWord h 0x161 (bMw (codeS d) (codeS a) (codeS b) bd 0 f.code.toNat s ||| put 26 cc.code)
  | .waitaSatisfied .. => 0
  | .barSync h n b s bd => seqWord h 0x162 (bMw 0 0 (codeS b) bd n.val 0 s)
  | .barArv h n b s => seqWord h 0x162 (bMw 0 0 (codeS b) 0 n.val 1 s)
  | .barWait h n s bd => seqWord h 0x162 (bMw 0 0 0 bd n.val 2 s)
  | .cinv h a o s => seqWord h 0x168 (bMm 0 (codeS a) 0 o .f32 s .plain false false)
  | .cwb h a o s => seqWord h 0x169 (bMm 0 (codeS a) 0 o .f32 s .plain false false)
  | .pref h a o s => seqWord h 0x16A (bMm 0 (codeS a) 0 o .f32 s .plain false false)
  | .tidset h t a => seqWord h 0x170 (put 44 (codeS a) ||| put 28 t)
  | .tidsetReg h b a => seqWord h 0x170 (put 44 (codeS a) ||| put 36 (codeS b) ||| putN 27 1 1)
  | .tidget h d t => seqWord h 0x171 (put 52 (codeS d) ||| put 28 t)
  | .tidgetReg h d b => seqWord h 0x171 (put 52 (codeS d) ||| put 36 (codeS b) ||| putN 27 1 1)
  | .mma h e ac ta tb sc i s =>
      seqWord h 0x180 (bEn e (put 22 ta ||| put 14 tb ||| putN 11 3 ac.val ||| putN 5 6 sc.val ||| putB 4 i |||
        putB 3 s))
  | .mmas h e ac ta sc i s =>
      seqWord h 0x181 (bEn e (put 22 ta ||| putN 11 3 ac.val ||| putN 5 6 sc.val ||| putB 4 i ||| putB 3 s))
  | .mmat h e ac ta tb sc f =>
      seqWord h 0x182 (bEn e (put 22 ta ||| put 14 tb ||| putN 11 3 ac.val ||| putN 5 6 sc.val ||| putB 2 f))
  | .aclr h e m => seqWord h 0x183 (bEn e (put 0 m))
  | .acvt h e td ac sc i s r n =>
      seqWord h 0x184 (bEn e (put 22 td ||| putN 11 3 ac.val ||| putN 5 6 sc.val ||| putB 4 i ||| putB 3 s |||
        put 1 r.code ||| putB 0 n))
  | .amov h e ac acs => seqWord h 0x185 (bEn e (putN 14 3 acs.val ||| putN 11 3 ac.val))
  | .amovTid h e ac t sc =>
      seqWord h 0x185 (bEn e (put 22 t ||| putN 21 1 1 ||| putN 11 3 ac.val ||| putN 5 6 sc.val))
  | .cpy h e sb dir nsc d2 noff =>
      seqWord h 0x188 (bEn e (putN 24 6 sb.val ||| put 22 dir.code ||| put 20 nsc.code ||| putB 19 d2 |||
        put 0 noff))
  | .gthr h e td ts sb => seqWord h 0x189 (bEn e (put 22 td ||| put 14 ts ||| putN 8 6 sb.val))
  | .gidx h e tp sb => seqWord h 0x18A (bEn e (put 22 tp ||| putN 8 6 sb.val))
  | .xrun h e sb en => seqWord h 0x190 (bEn e (putN 24 6 sb.val ||| put 0 en))
  | .xpost h e ev => seqWord h 0x191 (bEn e (putN 0 2 ev.val))
  | .xwait h e sc bd ev => seqWord h 0x192 (bEn e (putN 24 6 sc.val ||| put 2 bd ||| putN 0 2 ev.val))
  | .waitk h e bd => seqWord h 0x193 (bEn e (put 2 bd))
  | .kvh h e sb => seqWord h 0x198 (bSb e sb)
  | .kvlk h e sb => seqWord h 0x199 (bSb e sb)
  | .kvins h e sb => seqWord h 0x19A (bSb e sb)
  | .kvpin h e sb => seqWord h 0x19B (bSb e sb)
  | .kvunp h e sb => seqWord h 0x19C (bSb e sb)
  | .kvmap h e sb => seqWord h 0x19D (bSb e sb)
  | .kvmapRel h e sb => seqWord h 0x19D (bSb e sb ||| putN 23 1 1)
  | .kvpub h e sb => seqWord h 0x19E (bSb e sb)
  | .attn h e tq td sb kb vb =>
      seqWord h 0x1A0 (bEn e (put 22 tq ||| put 14 td ||| putN 8 6 sb.val ||| putB 7 kb ||| putB 6 vb))
  | .cred h e sb op ty tag =>
      seqWord h 0x1A8 (bSb e sb ||| put 20 op.code ||| put 16 ty.code ||| put 0 tag)
  | .cgth h e sb tag => seqWord h 0x1A9 (bSb e sb ||| put 0 tag)
  | .csnd h e sb p tag => seqWord h 0x1AA (bSb e sb ||| putN 21 3 p.val ||| put 0 tag)
  | .crcv h e sb p tag => seqWord h 0x1AB (bSb e sb ||| putN 21 3 p.val ||| put 0 tag)
  | .launch h e sb => seqWord h 0x1B0 (bSb e sb)
  | .xld xd xa i => xsWord 0x1C0 (bX xd.val xa.val 0 i)
  | .xst xa xb i => xsWord 0x1C1 (bX 0 xa.val xb.val i)
  | .xmov xd i => xsWord 0x1C2 (bX xd.val 0 0 i)
  | .xmovA xd xa i => xsWord 0x1C2 (bX xd.val xa.val 0 i ||| putN 32 8 1)
  | .xmovR xd xa xb => xsWord 0x1C2 (bX xd.val xa.val xb.val 0 ||| putN 32 8 2)
  | .xmovH xd i => xsWord 0x1C2 (bX xd.val 0 0 i ||| putN 32 8 3)
  | .xdec xd xa n p => xsWord 0x1C8 (bX xd.val xa.val 0 (n ++ p))
  | .xenc xd xa n p => xsWord 0x1C9 (bX xd.val xa.val 0 (n ++ p))
  | .xqnt xd xa xb src q n =>
      xsWord 0x1CA (bX xd.val xa.val xb.val n ||| put 40 src.code ||| put 32 q.code)
  | .xbp xd xa xb ty kt => xsWord 0x1CB (bX xd.val xa.val xb.val kt ||| put 40 ty.code)
  | .xloop xa len => xsWord 0x1D0 (putN 52 4 xa.val ||| put 0 len)
  | .xsXpost e => xsWord 0x1D1 (putN 0 2 e.val)
  | .xsXwait e xc b => xsWord 0x1D2 (putN 44 4 xc.val ||| put 2 b ||| putN 0 2 e.val)
  | .xend => xsWord 0x1D3 0
  | .atTimeReached .. => 0
  | .commandStart .. => 0
  | .engineMicroStep .. => 0
  | .engineCommandComplete .. => 0
  | .collectiveMessage .. => 0
  | .stallBound .. => 0
  | .timedWaitExpiry .. => 0
  | .parkaWake .. => 0
  | .regionLoad .. => 0
  | .regionUnload .. => 0
  | .create .. => 0
  | .destroy .. => 0
  | .kill .. => 0
  | .swapout .. => 0
  | .setwake .. => 0
  | .faultReply .. => 0
  | .debugStop .. => 0
  | .debugResume .. => 0
  | .setasgen .. => 0
  | .objBind .. => 0
  | .objUnbind .. => 0
  | .pswap .. => 0
  | .checkpoint .. => 0
  | .checkpointComplete => 0
  | .restore .. => 0
  | .fenceUnit .. => 0
  | .lcChange .. => 0
  | .attest .. => 0
  | .badcmd .. => 0
  | .supervisorCommandComplete .. => 0
  | .retctlWrite .. => 0
  | .l1cfgWrite .. => 0
  | .ephctlWrite .. => 0
  | .almcapWrite .. => 0
  | .mctlWrite .. => 0
  | .mepochWrite .. => 0
  | .mslewWrite .. => 0
  | .scrctlWrite .. => 0
  | .missWrite .. => 0
  | .rowLogWrite .. => 0
  | .plimWrite .. => 0
  | .dlimWrite .. => 0
  | .qbaseWrite .. => 0
  | .qlogWrite .. => 0
  | .qheadWrite .. => 0
  | .pkgnumWrite .. => 0
  | .pcapWrite .. => 0
  | .registerWrite .. => 0
  | .coldReset => 0
  | .reset => 0
  | .wipeComplete => 0
  | .ppsEdge => 0
  | .todFrame .. => 0
  | .referenceMeasurement .. => 0
  | .holdover => 0
  | .ucieFailure => 0
  | .thermal .. => 0
  | .thermalTrip .. => 0
  | .unitFailure .. => 0
  | .ualinkLinkReset .. => 0
  | .dcExtentRelease .. => 0
  | .extentReleaseResponse .. => 0
  | .devloadInterval .. => 0
  | .hostMemoryRequest .. => 0
  | .tailRead .. => 0
  | .queueCandidate .. => 0
  | .admissionDecision .. => 0
  | .strandSaveComplete .. => 0
  | .notbeforeReached .. => 0
  | .quantumExpiry .. => 0
  | .launchComplete .. => 0
  | .ephemerisPromotion .. => 0
  | .silence .. => 0
  | .silenceWritebackComplete .. => 0
  | .scrubAtom .. => 0
  | .ppsTimeout => 0
  | .linkUp .. => 0
  | .hostWriteRejected .. => 0
  | .moveCommit .. => 0

/-! ## Code lines (R118) and instructions of the opcode table -/

/-- The link word: bytes 0 to 3 of a line. -/
def lineLink (l : Line) : W32 := l.extractLsb' 0 32

/-- Word i of a line, at byte 4 + 12i. -/
def lineWord (l : Line) (i : Nat) : Word96 := l.extractLsb' (32 + 96 * i) 96

def linkOwner (k : W32) : Nat := (k.extractLsb' 28 4).toNat
def linkNext (k : W32) : BitVec 20 := k.extractLsb' 8 20
def linkNslot (k : W32) : Nat := (k.extractLsb' 5 3).toNat
def linkLast (k : W32) : Bool := k.getLsbD 4
def linkRsv (k : W32) : BitVec 4 := k.extractLsb' 0 4

/-- The word an opcode-table number stands for: its bits above nbits are 0. -/
def tableWord (nbits w : Nat) : Word96 := BitVec.ofNat 96 (w % 2 ^ nbits)

/-- The instruction the decoder reads from a word of the opcode table: a family 7 word as a word of an
owner-1 line, every other as a word of an owner-0 line of a version 3 image. -/
def decodeTableWord (nbits w : Nat) : Option Instr :=
  let x := tableWord nbits w
  match decode 3 (if (fld x 66 3).toNat == 7 then 1 else 0) x with
  | .ok i => some i
  | .error _ => none

end Sys2Proof
end

