-- ==== Sys2Proof/Config.lean ====
section
/-!
DEFINITION. What the spec leaves open, as free constants without a body: nothing in Lean can evaluate them,
so a claim that mentions one holds for every value it could have. The fixed capacities of the part stand here
too. Each free constant is named in notes/assumptions/.
-/

namespace Sys2Proof.Config

/-- IDENT.IMPL of the part (spec/16, R393). DESIGN CHOICE: free constant (log 8). -/
opaque impl : BitVec 16
/-- IDENT.STEPPING of the part (spec/16, R393; log 8). -/
opaque stepping : BitVec 16
/-- SERIAL of the package (spec/16, R393; log 8). -/
opaque serialNumber : W64
/-- Which launches of which context are privileged: the spec names SUP but not who sets it
(spec/02, R59; log 13). Arguments: context handle, launch serial. -/
opaque privileged : W32 → W32 → Bool
/-- PNDIG of a trap record: an implementation-specific count (spec/04, R116; log 14). The argument is the
state's counter of free values. -/
opaque pndig : Nat → BitVec 8
/-- NDIG, DIG and RES bytes of a chain resume record (spec/02, R70; log 14). Arguments: counter of free
values, byte offset in the record. -/
opaque digits : Nat → Nat → Byte
/-- Bytes of a checkpoint image's section of the context table and queue state (spec/16, R405; log 15). Arguments:
counter of free values, MTIME. -/
opaque ckptSection : Nat → W64 → Nat
/-- Where the copy of an object lies in the object cache area (spec/13, R347; log 79). The argument is the counter of
free values. -/
opaque copyFrame : Nat → Nat
/-- TEMP.MAXT (spec/16, R406; log 11), with the same arguments. -/
opaque maxTemp : Nat → W64 → BitVec 12
/-- PWR.WATTS (spec/16, R406; log 11), with the same arguments. -/
opaque power : Nat → W64 → BitVec 12
/-- A byte of a checkpoint image whose layout the spec does not give (spec/16, R405; log 15). Arguments:
counter of free values, offset in the image. -/
opaque imageByte : Nat → Nat → Byte
/-- Bytes of an XRUN's destination after a program that broke R259 (spec/09, R259; log 16). -/
opaque xformByte : Nat → Nat → Byte
/-- The vendor public key in boot ROM (spec/16, R403; log 17). -/
opaque vendorKey : List (BitVec 8)
/-- The signature by the device key (spec/16, R404; log 17): the message bytes. -/
opaque deviceSign : List (BitVec 8) → List (BitVec 8)
/-- Whether a boot image verified at a reset (spec/16, R403; log 17). The argument counts the resets. -/
opaque bootVerified : Nat → Bool

/-- Tile bank groups, strand slots and side-log entries (spec/00, R4; spec/08, R212). -/
def slogEntries : Nat := 64
/-- Journal entries of a strand (spec/09, R223). -/
def journalEntries : Nat := 256
/-- OPEN fault entries per context and per package (spec/12, R315). -/
def faultsPerCtx : Nat := 512
def faultsPerPkg : Nat := 4096
/-- Objects of the page directory (spec/13, R344). -/
def maxObjects : Nat := 16777216
/-- Context-table entries of a die (spec/01, R26). -/
def ctxPerDie : Nat := 8192
/-- Active barriers of a tile (spec/08, R219). -/
def barriersPerTile : Nat := 32
/-- Cycles of the issue quantum (spec/12, R320). -/
def quantum : Nat := 4096
/-- MTIME units in a microsecond (spec/14, R367: 1/16 ns). -/
def usec : Nat := 16000

end Sys2Proof.Config
end

