-- ==== Sys2Proof/Machine/State.lean ====
section
/-!
DEFINITION. The state of one SV4 package as plain data: every register, table, queue and memory that the spec
gives the machine, the two kinds of stop, and the state after reset. INVENTORY.md lists each field with its
rule; a field marked OWN is the model's and not the spec's.
-/

namespace Sys2Proof.Machine

/-- Physical memory: bytes by address, addresses strictly rising, no byte equal to 0 (what an unlisted address
reads as: spec/16, R405 for HBM4E; DESIGN CHOICE for pool and host memory, log 5). -/
abbrev Memory := List Host.Cell

/-- A table by number in the same canonical form: keys strictly rising, no entry equal to the table's default. -/
abbrev Tbl (α : Type) := List (Nat × α)

/-- The causes of R305, in code order 1 to 22. -/
inductive Cause
  | pageAbsent | pageAbsentStore | preempt | prot | noncanon | align | illegal | priv | chainSpent
  | stallBound | stallCheck | gatherIndex | compressOverflow | poison | extentRevoked | unitFenced
  | lineOwner | endOfChain | pteInvalid | step | bkpt | trap
  deriving DecidableEq, Repr

/-! ### The strand -/

/-- Status of a chain register (spec/02, R54). -/
inductive ChStat
  | empty | filling | full | spent
  deriving DecidableEq, Repr

/-- A chain register with its resume record (spec/02, R54, R69): the value the producer defines, its word, its
lane mask and its operand values. -/
structure Chain where
  stat : ChStat
  val : Lanes
  pword : Word96
  pmask : W64
  opa : Lanes
  opb : Lanes
  opc : Lanes
  deriving DecidableEq, Repr

/-- A register a word writes. -/
inductive Dest
  | s (n : SReg) | q (n : QReg) | v (n : VReg) | m (n : MReg) | b (n : BReg)
  deriving DecidableEq, Repr

/-- A register write not yet in its register (spec/04, R104; spec/02, R72): destination, lanes written, value,
the tick it is due, whether it is interlocked (always due), and the tick of the word that made it. -/
structure PWrite where
  dest : Dest
  mask : W64
  val : Lanes
  due : Nat
  il : Bool
  word : Nat
  deriving DecidableEq, Repr

/-- One hardware loop level (spec/02, R57, R68). `pos` is OWN: the position of the word at PC in the body, from
1 (spec/06, R158; log 4); 0 where a save is due in place of an iteration start (R163). -/
structure Level where
  count : W64
  start : W32
  len : BitVec 12
  st : BitVec 4
  act : Bool
  drain : Bool
  pos : Nat
  deriving DecidableEq, Repr

/-- The pending transfer (spec/02, R58). -/
structure Xfer where
  valid : Bool
  tgt : W32
  rem : BitVec 2
  deriving DecidableEq, Repr

/-- STATE of a journal entry (spec/02, R71). -/
inductive JState
  | queued | stopped | complete | null
  deriving DecidableEq, Repr

/-- A journal entry (spec/02, R71; spec/09, R223, R225): command, sequence number, micro-PC, engine that holds
it, once-only bit, state, captured operands, captured tensor entries (R64) and .AT time. `atWait`: a .AT time
holds its start. `xrun`: for XPOST and XWAIT the XRUN they act on (R251). `ord`: ordinal of a collective call
(R278); for an XRUN, 1 when an interrupted run of it broke R259. `hold`: 0, or 1 while
it waits for an absent page, or 2 while it waits for a free fault-record entry (R227, R315). `ready`: the cycle in which
it became startable, once that is settled (R231, R250). `cap`: what MMAT and ATTN read when they start (R240, R274). -/
structure JEntry where
  seq : W32
  cmd : Instr
  upc : W64
  eng : Nat
  once : Bool
  st : JState
  opv : List W64
  tids : List TidEntry
  atWait : Bool
  xrun : W32
  ord : Nat
  hold : Nat
  ready : Option Nat
  cap : List Byte
  deriving DecidableEq, Repr

/-- Event counters of one XRUN (spec/09, R251): EVD0 to EVD3 and EVU0 to EVU3. -/
structure XEvents where
  seq : W32
  down : List W32
  up : List W32
  deriving DecidableEq, Repr

/-- Why a strand in its slot does not issue (spec/12, R319), beside halting. -/
inductive Wait
  | none
  /-- CSW.PARKT and CSW.PARKA (R168): WKIND, WVAL and WOLD hold the rest. -/
  | csw
  /-- WAITT until a time (R170). -/
  | waitt (t : W64)
  /-- WAITA (R218), with what it compares and writes. -/
  | waita (d : SReg) (a cmp : W64) (cc : Cond) (form : WForm) (bound : BitVec 6)
  /-- The wait form of BAR for a generation (R220). -/
  | bar (n : Fin 32) (sc : Scope) (bound : BitVec 6)
  /-- BAR that needs a 33rd active barrier (R219). -/
  | barSlot (n : Fin 32) (sc : Scope) (bound : BitVec 6)
  /-- WAITK after journaling (R284). -/
  | waitk (seq : W32) (bound : BitVec 6)
  /-- XWAIT of family 6 after journaling (R252). -/
  | xwait (seq : W32) (ev : Fin 4) (bound : BitVec 6)
  /-- PHASE (R172). -/
  | phase
  /-- A full journal (R223). -/
  | journalFull
  /-- No room in the side log for this many entries (R213), or no fault-record entry where one is needed (R315). -/
  | slogRoom (n : Nat) (entry : Bool)
  /-- A release drain (R214). -/
  | relDrain
  /-- The drain of the strand's own entries (R212): of these pages, and for an SO access of every page that is
  absent or SO. -/
  | ownDrain (pages : List Nat) (so : Bool)
  /-- No free fault-record entry (R315). -/
  | faultEntry
  /-- Parked on absent pages (R211). -/
  | fault
  /-- The step stop of LAUNCH, until its record is enqueued or refused (R330); whether it lay in a delay window. -/
  | stepLaunch (seq : W32) (inWin : Bool)
  deriving DecidableEq, Repr

/-- Why a save of the strand was requested: WHY of R67. -/
inductive Why
  | preempt | swap | checkpoint
  deriving DecidableEq, Repr

/-- The trap record of R73. -/
structure TrapRec where
  pc : W32
  engv : Bool
  valid : Bool
  attgt : Bool
  indly : Bool
  cause : BitVec 16
  lmask : W64
  addr : W64
  seq : W32
  engine : BitVec 4
  upc : W64
  wname : W64
  pndig : BitVec 8
  pvld : Bool
  pchn : BitVec 3
  tmtime : W64
  deriving DecidableEq, Repr

/-- A strand's record of one barrier (spec/08, R220): number, scope, generation of its last arrival, whether
that generation is still unreleased, and the resume mark. -/
structure BarRec where
  n : Fin 32
  sc : Scope
  gen : Nat
  open_ : Bool
  mark : Bool
  deriving DecidableEq, Repr

/-- One strand: its slot state, or what the device keeps of it while its image is saved (spec/02, R52 to R74).
`id` is OWN: a key of the strand, 0 for no strand (log 1). OWN are `wstall`, the STALL count of
a word whose wait retires it later, and `wretired`, that the waiting word retired before the wait (a CSW that was
saved, R168), and `wpc`, the PC of a WAITK or XWAIT that the strand waits in, or of the CSW that retired at a save,
and `wwin`, that the WAITK or XWAIT lay in an open delay window (spec/12, R309). `atPhase`: PHASE executed since the last release; `phaseGo`: that boundary was released while the
strand did not wait in it; `phaseHalt`: it halted in an earlier phase; `phaseAt`: the cycle it reached the
boundary or halted (01, R42, R43). -/
structure Strand where
  id : Nat
  sRegs : Vector W64 64
  qRegs : Vector Bool 16
  vRegs : Vector Lanes 64
  mRegs : Vector W64 16
  cRegs : Vector Chain 8
  bRegs : Vector W32 8
  pc : W32
  link : W32
  attgt : Bool
  l0 : Level
  l1 : Level
  xfer : Xfer
  tick : Nat
  pend : List PWrite
  stallchk : Bool
  step : Bool
  traph : W32
  plive : W32
  vlive : W64
  jhead : W32
  jdone : W32
  journal : List JEntry
  njour : Nat
  hrpc : W32
  tnum : Byte
  hvalid : Bool
  drpc : W32
  dptgt : W32
  dvalid : Bool
  dpval : Bool
  dpdly : BitVec 2
  trap : TrapRec
  wkind : BitVec 2
  wval : W64
  wold : W64
  wtrans : Option Nat
  wait : Wait
  wretired : Bool
  wpc : W32
  wwin : Bool
  debug : Bool
  stopReq : Bool
  stallcnt : W64
  stleft : BitVec 4
  wstall : Fin 16
  winBase : Nat
  winSize : Nat
  bars : List BarRec
  evs : List XEvents
  index : Nat
  group : Nat
  tile : Nat
  slot : Nat
  inSlot : Bool
  halted : Bool
  phase : W32
  atPhase : Bool
  phaseGo : Bool
  phaseHalt : Bool
  phaseAt : Nat
  ctx : Nat
  serial : W32
  sup : Bool
  saveReq : Option Why
  saved : Bool
  saveT : W64
  deriving DecidableEq, Repr

/-! ### Launches, contexts and regions -/

/-- Completion statuses of R47. -/
inductive LStatus
  | ok | fault | faultDomain | version | badrec | staleHandle | budget | killed | discarded | tidtable
  deriving DecidableEq, Repr

/-- How a launch is ending (spec/01, R44 to R50): status, cause, first faulting strand and its PC; whether it
discards its side-log entries (KILL and DESTROY, R37). -/
structure Ending where
  status : LStatus
  cause : BitVec 16
  fstrand : W32
  fpc : W32
  discard : Bool
  deriving DecidableEq, Repr

/-- A launch record of R38. -/
structure LRec where
  code : W64
  entry : W32
  ctxh : W32
  npkg : Nat
  varcnt : Nat
  ngrp : Nat
  diepol : Nat
  pertile : Nat
  nstr : Nat
  rsvZero : Bool
  notbefore : W64
  compl : W64
  vars : List (List Nat)
  tag : W64
  params : List W64
  deriving DecidableEq, Repr

/-- The current launch of a context (spec/01, R31, R41; spec/05, R124; spec/14, R374). -/
structure Launch where
  serial : W32
  rec_ : LRec
  version : Nat
  entry : W32
  xentry : W32
  spneed : Nat
  matrix : Bool
  xform : Bool
  variant : BitVec 2
  phaseT0 : Nat
  qid : Nat
  base : Nat
  ending : Option Ending
  started : Bool
  startT : W64
  slipT : W64
  disp : Bool
  slipped : Bool
  admOrd : Nat
  collOrd : List (Nat × Nat)
  deriving DecidableEq, Repr

/-- Context states of R30. -/
inductive CState
  | free | ready | running | parked | swapped
  deriving DecidableEq, Repr

/-- An entry of the context table (spec/01, R26 to R33; spec/12, R313; spec/13, R349 to R352). `demotable`: a SWAPOUT
found it READY (R32); `wokeFor`: the wake time that Ephemeris last acted on (spec/13, R347). -/
structure Ctx where
  state : CState
  gen : BitVec 16
  region : Nat
  asid : BitVec 16
  root : BitVec 40
  tidbase : W64
  frec : W64
  wake : W64
  save : W64
  almen : Bool
  almsz : BitVec 31
  tids : Vector TidEntry 256
  nraised : W64
  nreplied : W64
  lastSerial : W32
  cur : Option Launch
  imagesSaved : Bool
  readyAt : W64
  silFrom : W64
  silent : Bool
  wback : Option W64
  demotable : Bool
  wokeFor : W64
  deriving DecidableEq, Repr

/-- One slot of a prefix directory (spec/10, R265). -/
structure DirSlot where
  valid : Bool
  tag : BitVec 128
  value : W64
  pin : BitVec 16
  deriving DecidableEq, Repr

/-- The candidate of a queue that work was displaced for (spec/14, R364): the entry of an index, or a saved launch by its
context handle and serial. -/
inductive Displaced
  | entry (i : W64)
  | restore (ctxh serial : W32)
  deriving DecidableEq, Repr

/-- A loaded region node (spec/01, R21 to R25; spec/14, R355 to R361; spec/10, R265). `discarded` are the indices
that a DESTROY has marked (R431); `disp` the candidate of the queue that work was last displaced for (R374); `waitFrom` when
an entry of the queue began to wait, and `restFrom` when the launch to restore in its place became READY (R361, R365). -/
structure Region where
  addr : Nat
  parent : Nat
  ovr : BitVec 16
  slots : Nat
  sram : Nat
  hbm : Nat
  poolsh : Nat
  pdsz : Nat
  prio : Nat
  age : Nat
  fdom : Nat
  slip : Nat
  lead : Nat
  silence : Nat
  qen : Bool
  ring : Nat
  qid : Nat
  logn : Nat
  admlead : Nat
  qon : Bool
  head : W64
  tail : W64
  discarded : List Nat
  disp : Option Displaced
  waitFrom : Option W64
  restFrom : Option W64
  dir : Tbl DirSlot
  deriving DecidableEq, Repr

/-! ### Package tables -/

/-- Atomic operations of R215 and R216 as the side log and memory perform them. -/
inductive Rmw
  | add | max | min | and | or | xor | xchg
  | cas (exp : W64)
  deriving DecidableEq, Repr

/-- One recorded part of a side-log entry (spec/08, R212): a store, or an atomic operation with its type, scope and
operand. -/
inductive LogAct
  | store (va : Nat) (bs : List Byte)
  | rmw (va : Nat) (ty : ETy) (op : Rmw) (v : W64) (sc : Scope)
  deriving DecidableEq, Repr

/-- A side-log entry (spec/08, R212): the strand that made it, its launch, the tile whose log holds it, the
page [56:12], and the parts in order. `jmark` is OWN: the strand's JHEAD when it was made (spec/10, R273). -/
structure SlogEntry where
  sid : Nat
  ctx : Nat
  serial : W32
  tile : Nat
  page : Nat
  jmark : W32
  acts : List LogAct
  deriving DecidableEq, Repr

/-- The open generation of a named barrier (spec/08, R219): launch, number, scope, instance of the domain,
generation number, expected count (0 while no arrival is open) and arrivals. -/
structure Barrier where
  ctx : Nat
  serial : W32
  n : Fin 32
  sc : Scope
  inst : Nat
  gen : Nat
  e : Nat
  arrivals : Nat
  deriving DecidableEq, Repr

/-- An XLOOP level (spec/09, R255). -/
structure XLevel where
  count : W64
  start : W32
  len : Nat
  pos : Nat
  deriving DecidableEq, Repr

/-- The XRUN that the transform sequencer of a tile runs (spec/09, R250 to R256). OWN, for R259: `srcs`, the bytes
it has read before writing them, `wrote`, the bytes it has written, and `broke`, that it wrote one of `srcs`. -/
structure XRunning where
  sid : Nat
  seq : W32
  pc : W32
  x : Vector W64 16
  imem : List (Nat × Line)
  levels : List XLevel
  posts : List W32
  waiting : Option (Fin 4 × W64 × BitVec 6)
  stallcnt : W64
  srcs : List Nat
  wrote : List Nat
  broke : Bool
  deriving DecidableEq, Repr

/-- An OPEN entry of a fault record (spec/12, R312, R313). `waited`: a strand instruction or engine command
waits on it (R33). `addr` is OWN: the byte it was raised for (R314). -/
structure FaultEntry where
  ctx : Nat
  idx : Nat
  slot : Nat
  ftag : W32
  page : Nat
  serial : W32
  strand : Nat
  pc : W32
  kind : Nat
  rtime : W64
  waited : Bool
  addr : Nat
  deriving DecidableEq, Repr

/-- A page object (spec/13, R344). `moveTo`: the tier a promotion in progress moves it to, and `moveWake` the wake
time it is for (R345, R347). `frame`: the HBM4E address of its copy in the object cache area (R347; log 79). -/
structure PObj where
  addr : Nat
  size : Nat
  backing : Nat
  ctx : Nat
  tier : Nat
  whint : BitVec 2
  alm : Bool
  moveTo : Option Nat
  moveWake : Option W64
  frame : Nat
  deriving DecidableEq, Repr

/-- The 32-byte ring entries a queue has not written yet, and its registers (spec/16, R396). -/
structure EvQueue where
  qbase : W64
  qlog : W64
  qhead : W64
  qtail : W64
  lost : W64
  held : List (List W64)
  deriving DecidableEq, Repr

/-- A command page (spec/16, R394): registers, and the command being executed with its captured arguments. -/
structure CmdPage where
  args : List W64
  result : W64
  pendOp : Option (BitVec 16)
  pendArgs : List W64
  pendRes : BitVec 16
  ovr : Bool
  code : BitVec 16
  deriving DecidableEq, Repr

/-- The Meridian block and what its state machine keeps (spec/14, R367 to R370; spec/16, R402). `peerGm`: another package
on the fabric has GM set. `label` is the ToD label for the next edge, `ptm` the seconds that PTM supplies for it, and
`curLabel` the seconds of the last edge. -/
structure Meridian where
  stepen : Bool
  gm : Bool
  src : BitVec 4
  peerGm : Bool
  todv : Bool
  pps : Bool
  state : BitVec 2
  epoch : BitVec 48
  ofs : W64
  ppm : BitVec 9
  mhold : W64
  good : Nat
  lastMeas : W64
  lastEdge : Option W64
  label : Option (BitVec 48)
  ptm : Option (BitVec 48)
  curLabel : Option (BitVec 48)
  rate : W64
  deriving DecidableEq, Repr

/-- The Ephemeris block (spec/13, R346). -/
structure Ephem where
  ocbase : BitVec 36
  oclim : BitVec 36
  en : Bool
  refused : Bool
  promoted : W64
  demoted : W64
  late : W64
  almcap : List (BitVec 16)
  silent : W64
  silmax : W64
  deriving DecidableEq, Repr

/-- A row-log entry (spec/15, R386). -/
structure RowEnt where
  valid : Bool
  addr : BitVec 47
  pc : BitVec 9
  bank : BitVec 5
  row : BitVec 18
  count : BitVec 16
  last : W64
  deriving DecidableEq, Repr

/-- The HBM block (spec/15, R382 to R386). `scrpos`: how many atoms of 32 bytes the pass has done, and `scrubbed` which
of them, by address over 32. -/
structure Hbm where
  hgbase : List (BitVec 23)
  hglim : List (BitVec 23)
  hdly : List (BitVec 48)
  hclass : BitVec 2
  scren : Bool
  period : BitVec 5
  scrpass : W64
  scrpos : W64
  scrubbed : Tbl Bool
  cethr : W32
  miss : Tbl W64
  cecnt : Tbl W32
  rows : Tbl RowEnt
  deriving DecidableEq, Repr

/-- A pool limiter (spec/15, R389). -/
structure Plim where
  step : BitVec 8
  cur : BitVec 8
  max : BitVec 8
  min : BitVec 8
  deriving DecidableEq, Repr

/-- A retention range of a die (spec/11, R287). -/
structure Reten where
  base : W64
  lim : W64
  ctl : W64
  cnt : W64
  deriving DecidableEq, Repr

/-- The TSRAM block of a tile (spec/15, R376). -/
structure Tsram where
  g : BitVec 3
  refused : Bool
  srce : W64
  srue : W64
  deriving DecidableEq, Repr

/-- A decoder of a CXL port (spec/16, R399). -/
structure Decoder where
  base : BitVec 24
  lim : BitVec 24
  en : Bool
  deriving DecidableEq, Repr

/-- Status of a CXL port (spec/16, R399). -/
structure CxlPort where
  up : Bool
  width : BitVec 5
  speed : BitVec 3
  deriving DecidableEq, Repr

/-- A compression stream of a UALink port: peer, direction, dictionary and pointer (spec/16, R401). -/
structure CStream where
  peer : Nat
  out : Bool
  d : List W64
  ptr : Nat
  deriving DecidableEq, Repr

/-- A UALink port (spec/16, R400, R401). `sent`: the collective messages it has sent and that are not acknowledged, each
with its peer package, oldest first (R401). -/
structure UalPort where
  up : Bool
  cmp : Bool
  resets : W32
  retry : W64
  streams : List CStream
  sent : List (Nat × CollMsg)
  deriving DecidableEq, Repr

/-- Identity, topology and platform registers, and the identity state behind them (spec/16, R393, R403 to
R406). `tested`: the tiles that passed at test, TILEEN of the part (R393). `cxlMem`: port 0 runs CXL, and not CXL.io
functions only (R398). -/
structure Plat where
  form : BitVec 16
  pkgnum : BitVec 16
  tileen : List W64
  tested : List W64
  cxlMem : Bool
  pcen : List W64
  cxlen : BitVec 13
  ualen : BitVec 8
  fencegen : W32
  ready : Bool
  lcs : BitVec 2
  pcap : BitVec 12
  measen : Bool
  lccnt : W32
  ownerHash : List Byte
  deviceKey : Bool
  resets : Nat
  cold : Bool
  deriving DecidableEq, Repr

/-- One entry of the measurement log (spec/16, R404). -/
structure Meas where
  digest : List Byte
  ctxh : W32
  code : W64
  mtime : W64
  deriving DecidableEq, Repr

/-- A checkpoint being written: the page that asked, its target list, the bytes its image needs, and whether a fence fell
in it (spec/15, R391; spec/16, R408). -/
structure Ckpt where
  page : Nat
  list : List (Nat × Nat)
  need : Nat
  fenced : Bool
  deriving DecidableEq, Repr

/-- OWN: what stands for the sections of a checkpoint image whose layout the spec does not give (spec/16, R405; log 15):
its target list, the bytes of its header and of its section of the context table and queue state, and what that section
records. Strand images, tile SRAM and HBM4E are bytes of the image itself. `copies` are the objects' copies, which the
model keys apart from HBM4E. -/
structure CkptImage where
  list : List (Nat × Nat)
  head : List Byte
  topo : List W64
  strands : List Strand
  ctxs : Tbl Ctx
  regions : List Region
  slog : List SlogEntry
  barriers : List Barrier
  faults : List FaultEntry
  faultSeq : Tbl (BitVec 20)
  objs : List PObj
  asgens : Tbl (BitVec 48)
  sramPoison : Tbl Bool
  copies : Memory
  hbmPoison : Tbl Bool
  linePoison : Tbl Bool
  events : EvQueue
  faultQs : Vector EvQueue 4
  inbox : List CollMsg
  outbox : List CollMsg
  gone : List (W64 × W64 × Nat)
  nextId : Nat
  admCount : Nat
  lastServed : Option Nat
  deriving DecidableEq, Repr

/-- A dynamic-capacity extent in release or revoked (spec/15, R390). -/
structure Extent where
  base : Nat
  len : Nat
  answered : Bool
  deriving DecidableEq, Repr

/-- A write of the host that is held until a checkpoint is done (spec/15, R391): address and bytes. -/
structure HeldWrite where
  pa : Nat
  bs : List Byte
  deriving DecidableEq, Repr

/-- What reaches the package from outside it, or from its own error checks, and that no row of the opcode table names
(log 80). -/
inductive Input
  /-- A single-bit error of a tile's SRAM is corrected on a read (spec/15, R378). -/
  | sramCorrected (tile : Fin 256)
  /-- A double-bit error of the word at an offset of a tile's SRAM (R378); in a group used as L1, of the line that holds a
  physical address there, if the word holds one (R377). -/
  | sramDouble (tile : Fin 256) (off : Nat) (held : Option W64)
  /-- A double-bit error of the word of an LLC line (R380). -/
  | llcDouble (pa : Nat)
  /-- What ECC finds when a demand read reaches an atom of HBM4E (R385). -/
  | readError (pa : Nat) (r : EccResult) (bank : BitVec 5) (row : BitVec 18)
  /-- The host will complete the device's reads of an address with an error, or no longer does (spec/16, R398). -/
  | hostRead (pa : Nat) (bad : Bool)
  /-- Another package on the fabric has GM set, or none has (spec/14, R370). -/
  | peerGm (on : Bool)
  /-- A retention range of a die has retained an allocation (spec/11, R287). -/
  | retained (die : Fin 4) (n : Fin 8)
  /-- A request of requester r misses its deadline in HBM4E (R384). -/
  | miss (r : Fin 277)
  /-- A UALink port replays a flit (spec/16, R400). -/
  | replay (u : Fin 8)
  /-- Port 0 negotiates CXL, or PCIe with CXL.io functions only (R398). -/
  | cxlMode (on : Bool)
  /-- The link of a CXL port goes down (R399, R408). -/
  | linkDown (n : Fin 13)
  /-- PTM supplies the TAI seconds of the next 1PPS edge (R402). -/
  | ptm (sec : BitVec 48)
  /-- A port sends a payload to a peer package, or receives one (R401). -/
  | fabricSend (u : Fin 8) (peer : Nat) (payload : List Byte)
  | fabricRecv (u : Fin 8) (peer len : Nat) (bytes : List Byte)
  /-- A port sends the collective message of a place in the outbox to a peer package; the peer has acknowledged it; a
  message of a peer's collective engine arrives, with its header and the bytes of its payload (R400, R401). -/
  | collSend (u : Fin 8) (peer n : Nat)
  | collAck (u : Fin 8) (peer : Nat) (x : CollMsg)
  | collRecv (u : Fin 8) (peer len : Nat) (head : CollMsg) (bytes : List Byte)
  /-- The host writes `size` bytes at an offset of the window (R392). -/
  | windowWrite (off : BitVec 26) (size : Nat) (v : W64)
  /-- An agent that takes no part in coherence writes memory of a pool device (spec/11, R304). -/
  | outsideWrite (pa : W64) (n : Fin 65) (data : Line)
  deriving DecidableEq, Repr

/-- OWN: which agent moves next. A step takes the head, or what R35 puts before it: the strand named issues a word, the
transform sequencer of a tile issues a word, a step of the device happens, an input arrives, or time passes (MTIME units
and tile cycles). -/
inductive Action
  | issue (sid : Nat)
  | xs (tile : Nat)
  | event (i : Instr)
  | input (x : Input)
  | time (units cycles : Nat)
  deriving DecidableEq, Repr

/-- OWN: the issue selector's state of one tile (spec/12, R320): the slot that issues and for how many cycles. -/
structure TileSel where
  slot : Nat
  cycles : Nat
  deriving DecidableEq, Repr

/-- The whole machine. -/
structure State where
  /-- The strand in focus: the one whose word an exec arm executes. OWN as a choice; a slot of R41. -/
  me : Strand
  /-- Every other strand of a current launch, in a slot or saved. -/
  others : List Strand
  nextId : Nat
  agenda : List Action
  sels : Tbl TileSel
  cycles : Nat
  fresh : Nat
  mem : Memory
  poison : Tbl Bool
  sram : Memory
  sramPoison : Tbl Bool
  ctxs : Tbl Ctx
  regions : List Region
  slog : List SlogEntry
  barriers : List Barrier
  xs : Tbl (Option XRunning)
  asgens : Tbl (BitVec 48)
  faults : List FaultEntry
  faultSeq : Tbl (BitVec 20)
  objs : List PObj
  mtime : W64
  lastServed : Option Nat
  admCount : Nat
  hbmgang : BitVec 16
  measLog : List Meas
  logHash : List Byte
  fatal : Bool
  ckpt : Option Ckpt
  images : List CkptImage
  hostHeld : List HeldWrite
  inbox : List CollMsg
  outbox : List CollMsg
  extents : List Extent
  pages : Vector CmdPage 16
  events : EvQueue
  faultQs : Vector EvQueue 4
  mer : Meridian
  eph : Ephem
  hbm : Hbm
  plims : Tbl Plim
  reten : Tbl Reten
  tsram : Tbl Tsram
  cxl : Vector CxlPort 13
  decs : Tbl Decoder
  ual : Vector UalPort 8
  plat : Plat
  /-- OWN: host addresses whose next device write the host rejects (spec/16, R398). -/
  hostRejects : List Nat
  /-- OWN: host addresses whose device reads the host completes with an error (spec/16, R398). -/
  hostBad : List Nat
  /-- Words of L1 and LLC lines marked poisoned, by address over 8 (spec/15, R378, R380). -/
  linePoison : Tbl Bool
  /-- OWN: gangs of several packages whose slice here has ended: identifier, start and slice (spec/10, R281). -/
  gone : List (W64 × W64 × Nat)
  /-- OWN: bytes that agents outside coherence have written to pool devices and that no device read sees yet, oldest first
  (spec/08, R221; spec/11, R304). -/
  foreign : List (Nat × Byte)
  deriving DecidableEq, Repr

/-- Stops in a fault: there is none. Every cause of the spec is taken as an exception, ends a launch, or is an event. -/
inductive Fault
  deriving DecidableEq, Repr

/-- Stops in a refusal. -/
inductive Refusal
  /-- Raised by a row that has no meaning yet, with its mnemonic. Safe: nothing is claimed of that row. -/
  | notModelled (mnemonic : String)
  deriving DecidableEq, Repr

/-! ### Reset -/

/-- A level that is not active; an image holds 0 in its fields (DESIGN CHOICE, log 82). -/
def Level.idle : Level := ⟨0, 0, 0, 0, false, false, 0⟩
def Xfer.none : Xfer := ⟨false, 0, 0⟩
def Chain.empty : Chain := ⟨.empty, 0, 0, 0, 0, 0, 0⟩
def TrapRec.zero : TrapRec := ⟨0, false, false, false, false, 0, 0, 0, 0, 0, 0, 0, 0, false, 0, 0⟩

/-- A slot whose register files are wiped (spec/16, R405), with the constants and initial values of R52 and
R59. -/
def Strand.blank : Strand where
  id := 0
  sRegs := Vector.replicate 64 0
  qRegs := (Vector.replicate 16 false).set 0 true
  vRegs := Vector.replicate 64 0
  mRegs := (Vector.replicate 16 0).set 0 (BitVec.allOnes 64)
  cRegs := Vector.replicate 8 Chain.empty
  bRegs := Vector.replicate 8 0
  pc := 0
  link := 0
  attgt := false
  l0 := Level.idle
  l1 := Level.idle
  xfer := Xfer.none
  tick := 0
  pend := []
  stallchk := false
  step := false
  traph := 0
  plive := BitVec.allOnes 32
  vlive := BitVec.allOnes 64
  jhead := 0
  jdone := 0
  journal := []
  njour := 0
  hrpc := 0
  tnum := 0
  hvalid := false
  drpc := 0
  dptgt := 0
  dvalid := false
  dpval := false
  dpdly := 0
  trap := TrapRec.zero
  wkind := 0
  wval := 0
  wold := 0
  wtrans := .none
  wait := .none
  wretired := false
  wpc := 0
  wwin := false
  debug := false
  stopReq := false
  stallcnt := 0
  stleft := 0
  wstall := 0
  winBase := 0
  winSize := 0
  bars := []
  evs := []
  index := 0
  group := 0
  tile := 0
  slot := 0
  inSlot := false
  halted := false
  phase := 0
  atPhase := false
  phaseGo := false
  phaseHalt := false
  phaseAt := 0
  ctx := 0
  serial := 0
  sup := false
  saveReq := .none
  saved := false
  saveT := 0

/-- A free context-table entry; GEN starts at 1 (spec/01, R26). -/
def Ctx.blank : Ctx where
  state := .free
  gen := 1
  region := 0
  asid := 0
  root := 0
  tidbase := 0
  frec := 0
  wake := 0
  save := 0
  almen := false
  almsz := 0
  tids := Vector.replicate 256 0
  nraised := 0
  nreplied := 0
  lastSerial := 0
  cur := none
  imagesSaved := false
  readyAt := 0
  silFrom := 0
  silent := false
  wback := none
  demotable := false
  wokeFor := 0

def EvQueue.blank : EvQueue := ⟨0, 0, 0, 0, 0, []⟩
def CmdPage.blank : CmdPage := ⟨[0, 0, 0, 0, 0], 0, none, [], 0, false, 0⟩
def Meridian.blank : Meridian :=
  { stepen := true, gm := false, src := 0, peerGm := false, todv := false, pps := false, state := 0, epoch := 0,
    ofs := 0, ppm := 100, mhold := 0, good := 0, lastMeas := 0, lastEdge := none, label := none,
    ptm := none, curLabel := none, rate := 0 }
def Ephem.blank : Ephem :=
  { ocbase := 0, oclim := 0, en := false, refused := false, promoted := 0, demoted := 0, late := 0,
    almcap := [256, 256, 256, 256], silent := 0, silmax := 0 }
def RowEnt.blank : RowEnt := ⟨false, 0, 0, 0, 0, 0, 0⟩
def Hbm.blank : Hbm :=
  { hgbase := List.replicate 16 0, hglim := List.replicate 16 0,
    hdly := [16000000, 1600000, 160000, 32000], hclass := 2, scren := true, period := 24, scrpass := 0,
    scrpos := 0, scrubbed := [], cethr := 0, miss := [], cecnt := [], rows := [] }
def Plim.blank : Plim := ⟨4, 128, 128, 8⟩
def Reten.blank : Reten := ⟨0, 0, 0, 0⟩
def Tsram.blank : Tsram := ⟨2, false, 0, 0⟩
def Decoder.blank : Decoder := ⟨0, 0, false⟩
def CxlPort.blank : CxlPort := ⟨false, 0, 0⟩
def UalPort.blank : UalPort := ⟨false, false, 0, 0, [], []⟩
/-- Part values (SV4-P256, every tile enabled: log 9), OPERATIONAL (log 7), READY 0 (spec/16, R406). -/
def Plat.blank : Plat :=
  { form := 1, pkgnum := 0, tileen := List.replicate 4 (BitVec.allOnes 64),
    tested := List.replicate 4 (BitVec.allOnes 64), cxlMem := true,
    pcen := List.replicate 8 (BitVec.allOnes 64), cxlen := BitVec.allOnes 13, ualen := BitVec.allOnes 8,
    fencegen := 0, ready := false, lcs := 2, pcap := 2400, measen := true, lccnt := 0,
    ownerHash := List.replicate 32 0, deviceKey := true, resets := 0, cold := true }

/-- The package right after a cold reset (spec/16, R405): register files, tile SRAM, context table and queues
wiped, registers at their reset values, READY 0 until the wipe ends, HBM4E zero; nothing is loaded, and no
agent has been asked to move. -/
def State.reset : State where
  me := Strand.blank
  others := []
  nextId := 1
  agenda := []
  sels := []
  cycles := 0
  fresh := 0
  mem := []
  poison := []
  sram := []
  sramPoison := []
  ctxs := []
  regions := []
  slog := []
  barriers := []
  xs := []
  asgens := []
  faults := []
  faultSeq := []
  objs := []
  mtime := 0
  lastServed := none
  admCount := 0
  hbmgang := 0
  measLog := []
  logHash := List.replicate 64 0
  fatal := false
  ckpt := none
  images := []
  hostHeld := []
  inbox := []
  outbox := []
  extents := []
  pages := Vector.replicate 16 CmdPage.blank
  events := EvQueue.blank
  faultQs := Vector.replicate 4 EvQueue.blank
  mer := Meridian.blank
  eph := Ephem.blank
  hbm := Hbm.blank
  plims := []
  reten := []
  tsram := []
  cxl := Vector.replicate 13 CxlPort.blank
  decs := []
  ual := Vector.replicate 8 UalPort.blank
  plat := Plat.blank
  hostRejects := []
  hostBad := []
  linePoison := []
  gone := []
  foreign := []

end Sys2Proof.Machine
end

