-- ==== Sys2Proof/Machine/Bits.lean ====
section
/-!
DEFINITION. The bit, byte and table helpers of the machine: canonical tables, little-endian bytes (spec/00,
R7), elements and lanes of a vector register (spec/03, R75), sign extension and the integer readings of R14.
-/

namespace Sys2Proof.Machine

/-! ### Canonical tables -/

/-- The entry of key `n`, or the default. -/
def tget {α : Type} (d : α) : Tbl α → Nat → α
  | [], _ => d
  | (k, v) :: t, n => if n = k then v else tget d t n

/-- The table with key `n` set to `v`, in canonical form. -/
def tset {α : Type} [DecidableEq α] (d : α) : Tbl α → Nat → α → Tbl α
  | [], n, v => if v = d then [] else [(n, v)]
  | (k, w) :: t, n, v =>
    if n < k then (if v = d then (k, w) :: t else (n, v) :: (k, w) :: t)
    else if n = k then (if v = d then t else (n, v) :: t)
    else (k, w) :: tset d t n v

/-- Canonical form: keys strictly rising from `lo`, no entry equal to the default. -/
def tblWfFrom {α : Type} [DecidableEq α] (d : α) : Nat → Tbl α → Bool
  | _, [] => true
  | lo, (k, v) :: t => decide (lo ≤ k) && decide (v ≠ d) && tblWfFrom d (k + 1) t

/-- The canonical form of a memory. -/
def Memory.wf (m : Memory) : Bool := tblWfFrom (0 : Byte) 0 m

/-- One byte of a memory. -/
def Memory.byte (m : Memory) (a : Nat) : Byte := tget (0 : Byte) m a

/-- Write one byte. -/
def Memory.put (m : Memory) (a : Nat) (b : Byte) : Memory := tset (0 : Byte) m a b

/-- `n` bytes from address `a` upward. -/
def Memory.read (m : Memory) (a : Nat) : Nat → List Byte
  | 0 => []
  | n + 1 => m.byte a :: m.read (a + 1) n

/-- Write bytes from address `a` upward. -/
def Memory.write (m : Memory) (a : Nat) : List Byte → Memory
  | [] => m
  | b :: bs => (m.put a b).write (a + 1) bs

/-- Insertion sort by `le`; equal elements keep their order. -/
def sortBy {α : Type} (le : α → α → Bool) (l : List α) : List α :=
  l.foldr (fun x t => t.takeWhile (fun y => !le x y) ++ x :: t.dropWhile (fun y => !le x y)) []

/-! ### Bytes -/

/-- The number little-endian bytes hold. -/
def natOf : List Byte → Nat
  | [] => 0
  | b :: bs => b.toNat + 256 * natOf bs

/-- The low `n` bytes of a number, little-endian. -/
def bytesOf : Nat → Nat → List Byte
  | 0, _ => []
  | n + 1, x => BitVec.ofNat 8 x :: bytesOf n (x / 256)

def bytes64 (x : W64) : List Byte := bytesOf 8 x.toNat
def bytes32 (x : W32) : List Byte := bytesOf 4 x.toNat

/-- Bits [lo + n - 1 : lo] of a number. -/
def bitsAt (x lo n : Nat) : Nat := x / 2 ^ lo % 2 ^ n

def bitAt (x i : Nat) : Bool := x / 2 ^ i % 2 == 1

def b2n (b : Bool) : Nat := if b then 1 else 0

/-- The signed reading of the low `w` bits. -/
def sgn (w : Nat) (x : Nat) : Int :=
  if x % 2 ^ w < 2 ^ (w - 1) then (x % 2 ^ w : Nat) else (x % 2 ^ w : Nat) - (2 ^ w : Nat)

/-- The low `w` bits of an integer. -/
def wrapI (w : Nat) (x : Int) : Nat := (x % (2 ^ w : Nat)).toNat

/-- `n` bits from `lo` of a bit vector as a number. -/
def fieldN {w : Nat} (x : BitVec w) (lo n : Nat) : Nat := (x.extractLsb' lo n).toNat

/-! ### Lanes and elements -/

/-- The number whose element `j` of width `w` is `f j`, for j below `n`. -/
def packN (w : Nat) (f : Nat → Nat) : Nat → Nat
  | 0 => 0
  | n + 1 => packN w f n + (f n % 2 ^ w) * 2 ^ (w * n)

/-- A vector register from its elements of width `w`. -/
def ofElems (w : Nat) (f : Nat → Nat) : Lanes := BitVec.ofNat 2048 (packN w f (2048 / w))

/-- Element `j` of width `w`. -/
def elemAt (w : Nat) (v : Lanes) (j : Nat) : Nat := v.toNat / 2 ^ (w * j) % 2 ^ w

/-- Lane `i` of a register. -/
def laneAt (v : Lanes) (i : Nat) : Nat := elemAt 32 v i

/-- The register mask with all 32 bits of each lane of a 64-bit lane mask. -/
def laneMask (m : W64) : Lanes := ofElems 32 fun i => if m.getLsbD i then 2 ^ 32 - 1 else 0

/-- Lanes of `new` where the mask is 1, lanes of `old` elsewhere. -/
def mergeLanes (m : W64) (new old : Lanes) : Lanes :=
  (new &&& laneMask m) ||| (old &&& ~~~ (laneMask m))

def allLanes : W64 := BitVec.allOnes 64

/-- A 64-bit mask from its bits. -/
def maskOf (f : Nat → Bool) : W64 := BitVec.ofNat 64 (packN 1 (fun i => b2n (f i)) 64)

/-- The numbers below `n` in increasing order. -/
def upto (n : Nat) : List Nat := List.range n

/-- Index of the lowest one bit of a mask. -/
def lowestOne (m : W64) : Option Nat := (upto 64).find? fun i => m.getLsbD i

def popcount (m : W64) : Nat := ((upto 64).filter fun i => m.getLsbD i).length

end Sys2Proof.Machine
end

