-- ==== Sys2Proof/Machine/Operands.lean ====
section
/-!
DEFINITION. Registers of a strand and the operand forms of its words: reading and writing a register, the
writes that are not yet due (spec/04, R102 to R105), the guard (spec/05, R129), lane operands and chain
registers (spec/04, R106 to R112).
-/

namespace Sys2Proof.Machine

/-! ### Register files -/

/-- ReadS: S0 reads 0 (spec/02, R52). -/
def Strand.readS (m : Strand) (n : SReg) : W64 := if n = 0 then 0 else m.sRegs[n]
/-- Q0 reads 1. -/
def Strand.readQ (m : Strand) (n : QReg) : Bool := if n = 0 then true else m.qRegs[n]
def Strand.readV (m : Strand) (n : VReg) : Lanes := m.vRegs[n]
/-- M0 reads all ones. -/
def Strand.readM (m : Strand) (n : MReg) : W64 := if n = 0 then allLanes else m.mRegs[n]
def Strand.readB (m : Strand) (n : BReg) : W32 := m.bRegs[n]

/-- The constant registers S0, Q0 and M0, whose writes are discarded (spec/02, R52). -/
def Dest.const : Dest → Bool
  | .s n => n = 0
  | .q n => n = 0
  | .m n => n = 0
  | .v _ => false
  | .b _ => false

/-- Put a value into a register in the lanes of the mask. A scalar takes bit 0 of the mask; an M register takes
bit i where the mask has bit i. -/
def Strand.store (m : Strand) (d : Dest) (mask : W64) (val : Lanes) : Strand :=
  match d with
  | .s n => if n = 0 || !mask.getLsbD 0 then m else { m with sRegs := m.sRegs.set n.val (val.setWidth 64) n.isLt }
  | .q n => if n = 0 || !mask.getLsbD 0 then m else { m with qRegs := m.qRegs.set n.val (val.getLsbD 0) n.isLt }
  | .v n => { m with vRegs := m.vRegs.set n.val (mergeLanes mask val m.vRegs[n]) n.isLt }
  | .m n =>
    if n = 0 then m
    else { m with mRegs := m.mRegs.set n.val ((val.setWidth 64 &&& mask) ||| (m.mRegs[n] &&& ~~~ mask)) n.isLt }
  | .b n => if !mask.getLsbD 0 then m else { m with bRegs := m.bRegs.set n.val (val.setWidth 32) n.isLt }

/-! ### Writes not yet due -/

/-- A write is due for a word of tick `t` (R104); an interlocked one always is. -/
def PWrite.dueAt (w : PWrite) (t : Nat) : Bool := w.il || decide (w.due ≤ t)

/-- The pending writes with the lanes `mask` of `d` taken out: an older write still pending in a lane when a
younger one becomes due is discarded (R104). -/
def dropLanes (d : Dest) (mask : W64) (l : List PWrite) : List PWrite :=
  (l.map fun w => if w.dest = d then { w with mask := w.mask &&& ~~~ mask } else w).filter fun w => w.mask != 0

/-- Take the writes in program order: the due ones go into the registers, the others stay. `keep` holds the
older ones that stay. -/
def commitFrom (t : Nat) : List PWrite → List PWrite → Strand → Strand
  | [], keep, m => { m with pend := keep }
  | w :: ws, keep, m =>
    if w.dueAt t then commitFrom t ws (dropLanes w.dest w.mask keep) (m.store w.dest w.mask w.val)
    else commitFrom t ws (keep ++ [w]) m

/-- The register files as a word of the strand's current tick finds them (R104). -/
def Strand.settle (m : Strand) : Strand := commitFrom m.tick m.pend [] m

/-- The oldest interlocked write gets its data (R101). -/
def Strand.land (m : Strand) : Strand :=
  match m.pend.findIdx? (fun w => w.il) with
  | none => m
  | some i =>
    match m.pend[i]? with
    | none => m
    | some w =>
      { m.store w.dest w.mask w.val with pend := dropLanes w.dest w.mask (m.pend.take i) ++ m.pend.drop (i + 1) }

/-- The number of the word that issues now: odd, by its tick. The words of restored records have even numbers (spec/02,
R72), so that no two words share one. -/
def Strand.wordNo (m : Strand) : Nat := 2 * m.tick + 1

/-- A write with full-result latency `l` by the word at the current tick (R104); writes to constant registers
are discarded. -/
def Strand.writeAt (m : Strand) (l : Nat) (d : Dest) (mask : W64) (val : Lanes) : Strand :=
  if d.const || mask = 0 then m
  else { m with pend := m.pend ++ [⟨d, mask, val, m.tick + l, false, m.wordNo⟩] }

/-- An interlocked write (R101, R104). -/
def Strand.writeIl (m : Strand) (d : Dest) (mask : W64) (val : Lanes) : Strand :=
  if d.const || mask = 0 then m
  else { m with pend := m.pend ++ [⟨d, mask, val, m.tick, true, m.wordNo⟩] }

/-- WriteS of a result with latency `l`. -/
def Strand.setS (m : Strand) (l : Nat) (n : SReg) (v : W64) : Strand := m.writeAt l (.s n) 1 (v.setWidth 2048)
/-- WriteQ of a result with latency `l`. -/
def Strand.setQ (m : Strand) (l : Nat) (n : QReg) (v : Bool) : Strand :=
  m.writeAt l (.q n) 1 (BitVec.ofNat 2048 (b2n v))
def Strand.setB (m : Strand) (l : Nat) (n : BReg) (v : W32) : Strand := m.writeAt l (.b n) 1 (v.setWidth 2048)
def Strand.setV (m : Strand) (l : Nat) (n : VReg) (mask : W64) (v : Lanes) : Strand := m.writeAt l (.v n) mask v
def Strand.setM (m : Strand) (l : Nat) (n : MReg) (mask v : W64) : Strand :=
  m.writeAt l (.m n) mask (v.setWidth 2048)

/-- After settling, a register has a write that is not yet due in some lane: the STALL-CHECK condition of a
reader (R105). -/
def Strand.exposed (m : Strand) (d : Dest) : Bool := m.pend.any fun w => w.dest = d

/-! ### Guards -/

/-- The register a guard selector names (R129). -/
def gselDest (g : GSel) : Dest :=
  if h : g.val < 16 then .q ⟨g.val, h⟩ else .m ⟨g.val - 16, by omega⟩

/-- The value of a guard selector in lane `i`. -/
def Strand.gval (m : Strand) (g : GSel) (i : Nat) : Bool :=
  if h : g.val < 16 then m.readQ ⟨g.val, h⟩ else (m.readM ⟨g.val - 16, by omega⟩).getLsbD i

/-- TT[4a + 2b + c] (R129). -/
def ttBit (tt : BitVec 8) (a b c : Bool) : Bool := tt.getLsbD (4 * b2n a + 2 * b2n b + b2n c)

/-- The guard of lane `i`; the scalar guard is that of lane 0. -/
def Strand.guardAt (m : Strand) (h : Hdr) (i : Nat) : Bool :=
  ttBit h.tt (m.gval h.ga i) (m.gval h.gb i) (m.gval h.gc i)

def Strand.guard (m : Strand) (h : Hdr) : Bool := m.guardAt h 0

/-- The lane guard (R129). -/
def Strand.laneGuard (m : Strand) (h : Hdr) : W64 := maskOf fun i => m.guardAt h i

/-- Guard registers of a word. -/
def hdrReads (h : Hdr) : List Dest := [gselDest h.ga, gselDest h.gb, gselDest h.gc]

/-! ### Lane operands -/

/-- Lowest bits of the specifiers that a word's instruction reads, in the order of its operands (spec/05, R133 to R138; the
entries of R147 to R222). Engine commands and transform words hold no specifier (R139, R140). -/
def sourceFields (w : Word96) (fam op : Nat) : List Nat :=
  let is (l : List Nat) : Bool := l.contains op
  match fam with
  | 0 =>
    if is [0x01, 0x11, 0x13, 0x15, 0x2B, 0x1C, 0x1D, 0x1E, 0x2A, 0x30] then [44]
    else if is [0x18, 0x19, 0x1A, 0x1B] && w.getLsbD 23 then [44]
    else if op = 0x24 then [44, 36, 28]
    else if op = 0x28 then []
    else if op = 0x29 then [52]
    else if op = 0x31 then [44, 52]
    else [44, 36]
  | 1 =>
    if op = 0x00 then [36, 20]
    else if is [0x01, 0x02, 0x10, 0x11] then [36]
    else if op = 0x03 then [36, 28, 20]
    else if op = 0x08 then (if w.getLsbD 51 then [36] else [])
    else if is [0x09, 0x0A] then [52]
    else []
  | 2 =>
    if is [0x01, 0x06] then [44]
    else if op = 0x04 then (if (fld w 34 2).toNat = 0 then [] else [44])
    else if op = 0x08 then (if (fld w 34 2).toNat = 0 then [44, 36] else [])
    else []
  | 3 =>
    if is [0x03] then [44, 36, 28]
    else if is [0x10, 0x11, 0x13, 0x21, 0x22] then [44]
    else if is [0x0B, 0x0C, 0x0D, 0x12, 0x15] && w.getLsbD 12 then [44]
    else if op = 0x18 then [44, 28]
    else if is [0x19, 0x20] then [36, 28]
    else [44, 36]
  | 4 =>
    if is [0x03, 0x04, 0x22] then [44, 36, 28]
    else if is [0x08, 0x09, 0x11, 0x12, 0x13, 0x14, 0x15, 0x18, 0x19] then [44]
    else if is [0x20, 0x21] then [36, 28]
    else if is [0x28, 0x29] then [44, 28]
    else [44, 36]
  | 5 =>
    if is [0x00, 0x02, 0x08, 0x0A, 0x28, 0x29, 0x2A] then [44]
    else if is [0x01, 0x03, 0x09, 0x0B] then [44, 52]
    else if is [0x05, 0x17, 0x18] then [44, 36, 52]
    else if op = 0x20 then []
    else if op = 0x22 then (if (fld w 19 2).toNat = 2 then [] else [36])
    else if op = 0x30 then (if w.getLsbD 27 then [44, 36] else [44])
    else if op = 0x31 then (if w.getLsbD 27 then [36] else [])
    else [44, 36]
  | _ => []

/-- The first chain register that a word names among its sources (R116), whether or not the word is accepted (R106). -/
def wordChain (w : Word96) : Option CReg :=
  let fam := (fld w 66 3).toNat
  let op := (fld w 60 6).toNat
  if (cells fam).contains op then (sourceFields w fam op).findSome? fun p => regC (fld w p 8) else none

/-- The value of a chain register to a consumer: EMPTY gives +0, every other status but SPENT the value
(R108). -/
def Strand.chainVal (m : Strand) (n : CReg) : Lanes :=
  match m.cRegs[n].stat with
  | .empty => 0
  | .filling | .full | .spent => m.cRegs[n].val

def Strand.spent (m : Strand) (n : CReg) : Bool := m.cRegs[n].stat = .spent

/-- A scalar spread over every element of the type (R176). -/
def spread (w : Nat) (x : W64) : Lanes := ofElems w fun _ => x.toNat

def vcRead (m : Strand) : OpVC → Lanes
  | .v n => m.readV n
  | .c n => m.chainVal n
def vsRead (m : Strand) (w : Nat) : OpVS → Lanes
  | .v n => m.readV n
  | .s n => spread w (m.readS n)
def vscRead (m : Strand) (w : Nat) : OpVSC → Lanes
  | .v n => m.readV n
  | .s n => spread w (m.readS n)
  | .c n => m.chainVal n

def vcReads : OpVC → List Dest
  | .v n => [.v n]
  | .c _ => []
def vsReads : OpVS → List Dest
  | .v n => [.v n]
  | .s n => [.s n]
def vscReads : OpVSC → List Dest
  | .v n => [.v n]
  | .s n => [.s n]
  | .c _ => []
def selReads : OpSel → List Dest
  | .m n => [.m n]
  | .v n => [.v n]
  | .c _ => []

def Strand.setC (m : Strand) (n : CReg) (c : Chain) : Strand := { m with cRegs := m.cRegs.set n.val c n.isLt }

/-- A chain register that is read has its digits, or waits for them: the model lets its producer end there
(R108, R112; log 19). -/
def Strand.fill (m : Strand) (n : CReg) : Strand :=
  match m.cRegs[n].stat with
  | .filling => m.setC n { m.cRegs[n] with stat := .full }
  | .empty | .full | .spent => m

/-- A producer resets its destination (R107): FILLING, lanes not enabled hold +0. -/
def Strand.produce (m : Strand) (n : CReg) (w : Word96) (mask : W64) (val a b c : Lanes) : Strand :=
  m.setC n ⟨.filling, val &&& laneMask mask, w, mask, a, b, c⟩

/-- A .K consumer makes its chain source SPENT (R110). -/
def Strand.spend (m : Strand) (n : CReg) : Strand := m.setC n { m.cRegs[n] with stat := .spent }

end Sys2Proof.Machine
end

