-- ==== Sys2Proof/Machine/Mem.lean ====
section
/-!
DEFINITION. Physical memory, page objects, translation and the checks of an access: spec/13 (R332 to R345),
spec/15 (R381, R382, R385, R388, R390), spec/16 (R398, R399, R408), spec/08 (R203, R204, R210). The model
walks the tables at every access and caches no translation (allowed by R343).
-/

namespace Sys2Proof.Machine

/-! ### Physical places -/

/-- First address of the object window: bit 51 (spec/13, R344). -/
def objWindow : Nat := 2 ^ 51
/-- End of HBM4E (spec/15, R381). -/
def hbmEnd : Nat := 2 ^ 39

/-- The bound object that holds a physical address (R344). -/
def State.objAt (s : State) (pa : Nat) : Option PObj :=
  s.objs.find? fun o => decide (o.addr ≤ pa) && decide (pa < o.addr + o.size)

/-- Where the current copy of a physical byte lies: an object of tier 0 in its backing frame, an object of a
higher tier in its copy, which the model keys by the object's own address (R344, R345). -/
def State.place (s : State) (pa : Nat) : Nat :=
  if pa < objWindow then pa
  else match s.objAt pa with
    | none => pa
    | some o => if o.tier = 0 then o.backing + (pa - o.addr) else pa

def State.physByte (s : State) (pa : Nat) : Byte := s.mem.byte (s.place pa)

/-- `n` physical bytes from `pa`. -/
def State.physRead (s : State) (pa : Nat) : Nat → List Byte
  | 0 => []
  | n + 1 => s.physByte pa :: s.physRead (pa + 1) n

/-! ### Units -/

/-- The physical address whose unit serves a place: a copy lies in its frame of the object cache area (R347). -/
def State.unitOf (s : State) (p : Nat) : Nat :=
  if p < objWindow then p
  else match s.objAt p with
    | none => p
    | some o => o.frame + (p - o.addr)

/-- Channel of a HBM4E line (spec/15, R381). -/
def hbmChannel (pa : Nat) : Nat :=
  bitsAt pa 6 8 ^^^ bitsAt pa 14 8 ^^^ bitsAt pa 22 8 ^^^ bitsAt pa 30 8

/-- The line lies in a ganged region (spec/15, R382). -/
def State.ganged (s : State) (pa : Nat) : Bool :=
  s.hbmgang != 0 && (upto 16).any fun k =>
    s.hbmgang.getLsbD k &&
    match s.hbm.hgbase[k]?, s.hbm.hglim[k]? with
    | some b, some l => decide (b ≤ l) && decide (b.toNat ≤ pa / 65536) && decide (pa / 65536 ≤ l.toNat)
    | _, _ => false

/-- Pseudo-channel `q` is enabled (spec/16, R393). -/
def State.pcOn (s : State) (q : Nat) : Bool := (s.plat.pcen.getD (q / 64) 0).getLsbD (q % 64)

/-- Decoder key of port n and decoder d. -/
def decKey (port d : Nat) : Nat := 8 * port + d

/-- The enabled decoder of ports 1 to 12 whose range holds an address (spec/16, R399). -/
def State.decoderOf (s : State) (pa : Nat) : Option (Nat × Nat) :=
  (upto 96).findSome? fun i =>
    let port := 1 + i / 8
    let d := i % 8
    let c := tget Decoder.blank s.decs (decKey port d)
    if c.en && decide (c.base.toNat ≤ pa / 2 ^ 28) && decide (pa / 2 ^ 28 ≤ c.lim.toNat) then some (port, d) else none

/-- The unit that serves a physical address is fenced (spec/12, R306; spec/15, R382; spec/16, R408). -/
def State.fencedAt (s : State) (pa : Nat) : Bool :=
  let a := s.unitOf (s.place pa)
  if a < hbmEnd then
    let p := hbmChannel a
    if s.ganged a then !(s.pcOn (2 * p)) || !(s.pcOn (2 * p + 1))
    else !(s.pcOn (2 * p + bitsAt a 5 1))
  else match s.decoderOf a with
    | none => false
    | some (port, _) => !s.plat.cxlen.getLsbD port

/-- The address lies in an extent in release or revoked (spec/15, R390); an object counts only when its
backing is reached (spec/13, R345). -/
def State.revokedAt (s : State) (pa : Nat) : Bool :=
  let a := s.place pa
  s.extents.any fun e => decide (e.base ≤ a) && decide (a < e.base + e.len)

/-- Host memory: neither HBM4E nor the range of an enabled decoder nor the object window (spec/16, R398). -/
def State.isHost (s : State) (a : Nat) : Bool :=
  decide (hbmEnd ≤ a) && decide (a < objWindow) && (s.decoderOf a).isNone

/-! ### Poison marks -/

/-- A read of a place raises POISON: its atom or the word of its cached line is marked (spec/15, R378, R380, R385), or the host completes the
read with an error (spec/16, R398), as every read of host memory is taken to end while port 0 runs without CXL
(DESIGN CHOICE, log 87). -/
def State.badPlace (s : State) (p : Nat) : Bool :=
  tget false s.poison (p / 32) || tget false s.linePoison (p / 8) ||
  (s.isHost p && (s.hostBad.contains p || !s.plat.cxlMem))

/-- The lowest poisoned byte of `n` bytes at `pa`. -/
def State.poisonAt (s : State) (pa n : Nat) : Option Nat := (upto n).find? fun i => s.badPlace (s.place (pa + i))

/-- Units of `w` bytes, by number, that the bytes of some ranges (place and length) cover wholly. -/
def coveredUnits (w : Nat) (l : List (Nat × Nat)) : List Nat :=
  let has (b : Nat) : Bool := l.any fun p => decide (p.1 ≤ b) && decide (b < p.1 + p.2)
  (l.flatMap fun p => (upto (p.2 / w + 2)).map fun i => p.1 / w + i).filter fun k => (upto w).all fun i => has (w * k + i)

/-- The other half of a 64-byte line, as atoms of 32 bytes. -/
def pairAtom (k : Nat) : Nat := if k % 2 = 0 then k + 1 else k - 1

/-- Bytes written one after the other. -/
def Memory.putAll (m : Memory) (l : List (Nat × Byte)) : Memory := l.foldl (fun m c => m.write c.1 [c.2]) m

/-- A range (place and length) holds a place. -/
def inRange (p : Nat) (r : Nat × Nat) : Bool := decide (r.1 ≤ p) && decide (p < r.1 + r.2)

/-- Writes of one instruction, or of one device write, clear the marks of the atoms (spec/15, R382, R385) and of the LLC
words (R380) that they cover whole; in a ganged region an atom is 64 bytes. They come after what agents outside coherence
have written to the bytes (spec/11, R304; DESIGN CHOICE, log 109). -/
def State.clearMarks (s : State) (l : List (Nat × Nat)) : State :=
  let atoms := coveredUnits 32 l
  { s with
    poison := (atoms.filter fun k => !s.ganged (s.unitOf (32 * k)) || atoms.contains (pairAtom k)).foldl
      (fun p k => tset false p k false) s.poison
    linePoison := (coveredUnits 8 l).foldl (fun p k => tset false p k false) s.linePoison
    foreign := s.foreign.filter fun c => !l.any (inRange c.1) }

/-! ### Event queues and physical writes -/

/-- A write of bytes at a place of physical memory: the bytes change, and what it covers whole loses its mark (R385). -/
def State.rawWrite (s : State) (a : Nat) (bs : List Byte) : State :=
  ({ s with mem := s.mem.write a bs } : State).clearMarks [(a, bs.length)]

/-- Entries of a ring: 2^QLOG (spec/16, R396). -/
def EvQueue.size (q : EvQueue) : Nat := 2 ^ q.qlog.toNat

def EvQueue.room (q : EvQueue) : Bool := q.qlog != 0 && decide (q.qtail.toNat - q.qhead.toNat < q.size)

/-- PASS of the entry of count QTAIL (R396). -/
def EvQueue.pass (q : EvQueue) : Nat := if q.qtail.toNat / q.size % 2 = 0 then 1 else 0

/-- Write the held entries while the ring has room. The doubleword list of an entry gives its four doublewords
with PASS 0; `bit` is the place of PASS, in doubleword `dw`. -/
def flushQueue (dw bit : Nat) : Nat → State → EvQueue → State × EvQueue
  | 0, s, q => (s, q)
  | f + 1, s, q =>
    match q.held with
    | [] => (s, q)
    | e :: es =>
      if q.room then
        let e' := e.mapIdx fun i x => if i = dw then x ||| BitVec.ofNat 64 (q.pass * 2 ^ bit) else x
        let s' := s.rawWrite (q.qbase.toNat + 32 * (q.qtail.toNat % q.size)) (e'.flatMap bytes64)
        flushQueue dw bit f s' { q with held := es, qtail := q.qtail + 1 }
      else (s, q)

def State.flushEvents (s : State) : State :=
  let r := flushQueue 0 16 s.events.held.length s s.events
  { r.1 with events := r.2 }

def State.flushFaults (s : State) (die : Fin 4) : State :=
  let q := s.faultQs[die]
  let r := flushQueue 2 0 q.held.length s q
  { r.1 with faultQs := r.1.faultQs.set die.val r.2 die.isLt }

/-- Append an event to the host event queue: held up to 64 when the ring has no room, then dropped with LOST
(R396). -/
def State.pushEvent (s : State) (code : Nat) (ctxh : W32) (a b : W64) : State :=
  let q := s.events
  let e : List W64 := [BitVec.ofNat 64 (code + ctxh.toNat * 2 ^ 32), a, b, s.mtime]
  if q.held.length < 64 || q.room then
    ({ s with events := { q with held := q.held ++ [e] } } : State).flushEvents
  else { s with events := { q with lost := q.lost + 1 } }

/-- Append a fault notification to a die's fault queue; it is held while the ring has no room (R314). -/
def State.pushFault (s : State) (die : Fin 4) (e : List W64) : State :=
  let q := s.faultQs[die]
  ({ s with faultQs := s.faultQs.set die.val { q with held := q.held ++ [e] } die.isLt } : State).flushFaults die

/-- The address at which the host rejects a device write of `n` bytes (R398): every write to host memory is taken to be
rejected while port 0 runs without CXL (DESIGN CHOICE, log 87). -/
def State.rejected (s : State) (a n : Nat) : Option Nat :=
  match s.hostRejects.find? fun r => inRange r (a, n) && s.isHost r with
  | some r => some r
  | none => if s.isHost a && !s.plat.cxlMem then some a else none

/-- A device write of bytes at a place. One that the host rejects is lost and raises UE (R398). -/
def State.placeWrite (s : State) (a : Nat) (bs : List Byte) : State :=
  match s.rejected a bs.length with
  | some r => ({ s with hostRejects := s.hostRejects.erase r } : State).pushEvent 3 0 (BitVec.ofNat 64 r) 0
  | none => s.rawWrite a bs

/-- A physical write within one page; none is issued to an extent in release or revoked (R390). -/
def State.physWrite (s : State) (pa : Nat) (bs : List Byte) : State :=
  if (upto bs.length).any fun i => s.revokedAt (pa + i) then s else s.placeWrite (s.place pa) bs

/-! ### Translation -/

/-- The rights an access needs of its leaf (spec/13, R337). `drain` is the side-log drain of an atomic operation: W alone,
and its data are read. -/
inductive Acc
  | r | w | rw | drain | x | none
  deriving DecidableEq, Repr

def Acc.permits (k : Acc) (e : W64) : Bool :=
  match k with
  | .r => e.getLsbD 2
  | .w => e.getLsbD 3
  | .rw => e.getLsbD 2 && e.getLsbD 3
  | .drain => e.getLsbD 3
  | .x => e.getLsbD 4
  | .none => true

/-- Lowest VA bit of a level (R332). -/
def lvlLo : Nat → Nat
  | 0 => 12 | 1 => 16 | 2 => 21 | 3 => 30 | 4 => 39 | _ => 48

/-- Index bits of a level (R332). -/
def lvlBits : Nat → Nat
  | 0 => 4 | 1 => 5 | _ => 9

/-- log2 of the size of the table below a level, and of a leaf page. -/
def lvlTable : Nat → Nat
  | 0 => 7 | 1 => 8 | _ => 12

def pteAddr (e : W64) : Nat := fieldN e 7 45 * 128
def pteOrd (e : W64) : Nat := fieldN e 5 2
def pteTier (e : W64) : Nat := fieldN e 52 2
def ptePin (e : W64) : Bool := e.getLsbD 55
def pteKv (e : W64) : Bool := e.getLsbD 54

/-- ADDR of a leaf names a bound object (R336). -/
def State.bound (s : State) (pa : Nat) : Bool := (s.objAt pa).isSome

/-- A present entry is malformed at level `l` (R336). -/
def State.malformed (s : State) (e : W64) (l : Nat) : Bool :=
  let leaf := e.getLsbD 1
  let a := pteAddr e
  (leaf && decide (4 ≤ l)) || (!leaf && l = 0) ||
  (!leaf && (ptePin e || pteKv e || pteTier e != 0 || fieldN e 2 5 != 0 || a % 2 ^ lvlTable (l - 1) != 0)) ||
  (leaf && (a % 2 ^ lvlLo l != 0 || pteOrd e == 3 || pteTier e == 3 ||
    (!pteKv e && (pteTier e != 0 || decide (objWindow ≤ a))) ||
    (pteKv e && (decide (a < objWindow) || l == 3 || l == 2 || !s.bound a))))

/-- A walk's result: a physical address with its leaf entry, or a cause. -/
abbrev Walk := Except Cause (Nat × W64)

/-- One level of the walk (R334, R335): `l` levels lie below the table at `a`. -/
def State.walkFrom (s : State) (va : Nat) (k : Acc) : Nat → Nat → Walk
  | fuel, a =>
    let l := fuel
    let ea := a + 8 * bitsAt va (lvlLo l) (lvlBits l)
    if objWindow ≤ ea then .error .pteInvalid
    else if s.revokedAt ea then .error .extentRevoked
    else if s.fencedAt ea then .error .unitFenced
    else if (s.poisonAt ea 8).isSome then .error .poison
    else
      let e : W64 := BitVec.ofNat 64 (natOf (s.physRead ea 8))
      if !e.getLsbD 0 then .error .pageAbsent
      else if s.malformed e l then .error .pteInvalid
      else if e.getLsbD 1 then
        if k.permits e then .ok (pteAddr e + va % 2 ^ lvlLo l, e) else .error .prot
      else match fuel with
        | 0 => .error .pteInvalid
        | f + 1 => s.walkFrom va k f (pteAddr e)

/-- Translation through a context's page table (R334). -/
def State.walk (s : State) (c : Ctx) (va : Nat) (k : Acc) : Walk := s.walkFrom va k 5 (c.root.toNat * 4096)

/-- The canonical rule: bits [63:57] equal bit 56 (spec/08, R203). -/
def canonical (a : Nat) : Bool := decide (a < 2 ^ 56) || (decide (2 ^ 64 - 2 ^ 56 ≤ a) && decide (a < 2 ^ 64))

/-- The page of an address: bits [56:12] (spec/12, R312). -/
def pageOf (va : Nat) : Nat := bitsAt va 12 45

/-! ### Accesses -/

/-- One part of an access: bytes within one 4 KiB page (spec/08, R204). -/
structure Part where
  va : Nat
  n : Nat
  deriving DecidableEq, Repr

/-- The parts of `n` bytes at `va`, at most `fuel` of them. -/
def splitParts : Nat → Nat → Nat → List Part
  | 0, _, _ => []
  | f + 1, va, n =>
    if n = 0 then []
    else
      let k := Nat.min n (4096 - va % 4096)
      ⟨va, k⟩ :: splitParts f (va + k) (n - k)

def partsOf (va n : Nat) : List Part := splitParts (n / 4096 + 2) va n

/-- What a part meets: its physical address and leaf, or a cause with the lowest faulting byte. -/
abbrev PartRes := Except (Cause × Nat) (Nat × W64)

/-- Data are read by an access of this kind. -/
def Acc.reads (k : Acc) : Bool :=
  match k with
  | .r => true
  | .w => false
  | .rw => true
  | .drain => true
  | .x => true
  | .none => false

/-- A byte of the object window that no object holds, as a leaf larger than its object may name (log 20). -/
def State.unboundAt (s : State) (pa : Nat) : Bool := decide (objWindow ≤ pa) && !s.bound pa

/-- The checks of one part in the order of R210: translation, EXTENT-REVOKED, UNIT-FENCED (R306), POISON on
data read. -/
def State.checkPart (s : State) (c : Ctx) (k : Acc) (p : Part) : PartRes :=
  match s.walk c p.va k with
  | .error x => .error (x, p.va)
  | .ok (pa, e) =>
    let at_ (f : Nat → Bool) : Option Nat := (upto p.n).find? fun i => f (pa + i)
    match at_ s.unboundAt, at_ s.revokedAt, at_ s.fencedAt, (if k.reads then s.poisonAt pa p.n else none) with
    | some i, _, _, _ => .error (.pteInvalid, p.va + i)
    | none, some i, _, _ => .error (.extentRevoked, p.va + i)
    | none, none, some i, _ => .error (.unitFenced, p.va + i)
    | none, none, none, some i => .error (.poison, p.va + i)
    | none, none, none, none => .ok (pa, e)

/-- NONCANON of an access of `n` bytes at `ea` (R203): the lowest byte that breaks the rule, or `ea` when the
access passes the top of the space (log 21). -/
def noncanonAt (ea n : Nat) : Option Nat :=
  if 2 ^ 64 ≤ ea + n - 1 then some ea
  else if !canonical ea then some ea
  else if !canonical (ea + n - 1) then some (2 ^ 56)
  else none

/-- One access of an instruction: its lane (none for a scalar access), address, length, and the alignment it
requires (1 where it requires none). -/
structure Access where
  lane : Option Nat
  ea : Nat
  n : Nat
  al : Nat
  deriving DecidableEq, Repr

/-- The first launch-ending cause of one access: ALIGN, NONCANON, then part by part (R210). -/
def State.accessCause (s : State) (c : Ctx) (k : Acc) (a : Access) : Option (Cause × Nat) :=
  if a.ea % a.al != 0 then some (.align, a.ea)
  else match noncanonAt a.ea a.n with
  | some x => some (.noncanon, x)
  | none => (partsOf a.ea a.n).findSome? fun p =>
      match s.checkPart c k p with
      | .ok _ => none
      | .error (.pageAbsent, _) => none
      | .error x => some x

/-- What the accesses of an instruction meet together (R210, R211): a launch-ending cause with LMASK and ADDR,
or the absent parts, in access order. -/
inductive AccRes
  | ends (cause : Cause) (lmask : W64) (addr : Nat)
  | absent (parts : List (Option Nat × Part))
  | fine
  deriving DecidableEq, Repr

def laneBit (l : Option Nat) : W64 :=
  match l with
  | none => allLanes
  | some i => BitVec.ofNat 64 (2 ^ i)

def State.checkAll (s : State) (c : Ctx) (k : Acc) (l : List Access) : AccRes :=
  match l.findSome? (fun a => s.accessCause c k a) with
  | some (x, addr) =>
    .ends x (l.foldl (fun m a =>
      match s.accessCause c k a with
      | some (y, _) => if y = x then m ||| laneBit a.lane else m
      | none => m) 0) addr
  | none =>
    let ab := l.flatMap fun a => (partsOf a.ea a.n).filterMap fun p =>
      match s.checkPart c k p with
      | .error (.pageAbsent, _) => some (a.lane, p)
      | _ => none
    if ab.isEmpty then .fine else .absent ab

/-- The present parts of some accesses: physical address, length and leaf entry. -/
def State.reached (s : State) (c : Ctx) (k : Acc) (l : List Access) : List (Nat × Nat × W64) :=
  l.flatMap fun a => (partsOf a.ea a.n).filterMap fun p =>
    match s.walk c p.va k with
    | .ok (pa, e) => some (pa, p.n, e)
    | .error _ => none

/-- Leaf entries of the present parts of an access. -/
def State.leaves (s : State) (c : Ctx) (k : Acc) (l : List Access) : List W64 := (s.reached c k l).map fun r => r.2.2

/-- Bytes of a part whose checks passed. -/
def State.readPart (s : State) (c : Ctx) (p : Part) : List Byte :=
  match s.walk c p.va .none with
  | .ok (pa, _) => s.physRead pa p.n
  | .error _ => List.replicate p.n 0

/-- `n` bytes at a virtual address whose checks passed. -/
def State.readVa (s : State) (c : Ctx) (va n : Nat) : List Byte :=
  (partsOf va n).flatMap fun p => s.readPart c p

/-- Write bytes at a virtual address, part by part; a part whose translation fails is not made. -/
def State.writeParts (s : State) (c : Ctx) : List Part → List Byte → State
  | [], _ => s
  | p :: ps, bs =>
    match s.walk c p.va .none with
    | .ok (pa, _) => (s.physWrite pa (bs.take p.n)).writeParts c ps (bs.drop p.n)
    | .error _ => s.writeParts c ps (bs.drop p.n)

def State.writeVa (s : State) (c : Ctx) (va : Nat) (bs : List Byte) : State :=
  s.writeParts c (partsOf va bs.length) bs

/-- Some byte of `n` bytes at `a` lies in the object. -/
def PObj.meets (o : PObj) (a n : Nat) : Bool := decide (o.addr < a + n) && decide (a < o.addr + o.size)

/-- An access through a leaf with TIER 1 or 2 starts the promotion of the object it reaches unless PIN prevents a move; a
promotion under way to a lower tier goes on to this one (R345). -/
def State.touch (s : State) (r : Nat × Nat × W64) : State :=
  let t := pteTier r.2.2
  if pteKv r.2.2 && t != 0 && !ptePin r.2.2 then
    { s with objs := s.objs.map fun o =>
        if o.meets r.1 r.2.1 && decide (o.tier < t) && decide (o.moveTo.getD 0 < t) then { o with moveTo := some t } else o }
  else s

def State.touchAll (s : State) (c : Ctx) (k : Acc) (l : List Access) : State :=
  (s.reached c k l).foldl State.touch s

/-- One access of `n` bytes promotes the objects it reaches (R345). -/
def State.touchVa (s : State) (c : Ctx) (k : Acc) (va n : Nat) : State := s.touchAll c k [⟨none, va, n, 1⟩]

/-! ### A device write that must not fail silently -/

/-- Read `n` bytes through a context's translation for the device itself: the bytes or the cause. -/
def State.devRead (s : State) (c : Ctx) (k : Acc) (va n : Nat) : Except (Cause × Nat) (List Byte) :=
  match s.checkAll c k [⟨none, va, n, 1⟩] with
  | .ends x _ a => .error (x, a)
  | .absent ps => .error (.pageAbsent, (ps.head?.map fun p => p.2.va).getD va)
  | .fine => .ok (s.readVa c va n)

/-- Write bytes through a context's translation for the device itself, or the cause that a part meets. -/
def State.devWrite (s : State) (c : Ctx) (va : Nat) (bs : List Byte) : Except (Cause × Nat) State :=
  match s.checkAll c .w [⟨none, va, bs.length, 1⟩] with
  | .ends x _ a => .error (x, a)
  | .absent ps => .error (.pageAbsent, (ps.head?.map fun p => p.2.va).getD va)
  | .fine => .ok ((s.touchVa c .w va bs.length).writeVa c va bs)

/-- Every page of a range is pinned (spec/02, R66). -/
def State.pinned (s : State) (c : Ctx) (va n : Nat) : Bool :=
  (partsOf va n).all fun p =>
    match s.walk c p.va .none with
    | .ok (_, e) => ptePin e
    | .error _ => false

/-- A single write of the save area: every part translates, is writable and pinned (R66, R74). -/
def State.saveWrite (s : State) (c : Ctx) (va : Nat) (bs : List Byte) : Option State :=
  if s.pinned c va bs.length then
    match s.devWrite c va bs with
    | .ok s' => some s'
    | .error _ => none
  else none

end Sys2Proof.Machine
end

