-- ==== Sys2Proof/Machine/Ops.lean ====
section
/-!
DEFINITION. The shared operations of the machine: contexts, launches and regions; fault entries and parking
(spec/12, R312 to R316); taking a trap, as one operation (spec/12, R305 to R311; spec/02, R73, R74) and the
return from one (spec/06, R167); the chain order of words (spec/05, R118 to R121, R429); retirement with its
delay windows and loops (spec/06, R154 to R163).
-/

namespace Sys2Proof.Machine

/-! ### Strands and contexts -/

/-- Every strand of a current launch. -/
def State.strands (s : State) : List Strand := (s.me :: s.others).filter fun m => m.id != 0

def State.strand (s : State) (sid : Nat) : Option Strand := s.strands.find? fun m => m.id = sid

/-- Strands by increasing index (spec/12, R308, R312). -/
def byIndex (l : List Strand) : List Strand := sortBy (fun a b => decide (a.index ≤ b.index)) l

def State.mapStrands (s : State) (f : Strand → Strand) : State :=
  { s with me := f s.me, others := s.others.map f }

def State.updStrand (s : State) (sid : Nat) (f : Strand → Strand) : State :=
  s.mapStrands fun m => if m.id = sid then f m else m

def State.setMe (s : State) (m : Strand) : State := { s with me := m }

/-- Bring a strand into focus. -/
def State.focus (s : State) (sid : Nat) : State :=
  if s.me.id = sid then s
  else match s.others.find? fun m => m.id = sid with
    | none => s
    | some m => { s with me := m, others := s.me :: s.others.filter fun x => x.id != sid }

def State.ctx (s : State) (k : Nat) : Ctx := tget Ctx.blank s.ctxs k

def State.setCtx (s : State) (k : Nat) (c : Ctx) : State := { s with ctxs := tset Ctx.blank s.ctxs k c }

def State.updCtx (s : State) (k : Nat) (f : Ctx → Ctx) : State := s.setCtx k (f (s.ctx k))

/-- The handle of a context-table entry: GEN above home die and index (spec/01, R26). -/
def State.handle (s : State) (k : Nat) : W32 := BitVec.ofNat 32 ((s.ctx k).gen.toNat * 2 ^ 15 + k % 2 ^ 15)

/-- The entry a handle names. -/
def hKey (h : W32) : Nat := fieldN h 0 15
/-- The handle is current: bit 31 is 0, its GEN is the entry's, and the entry is not FREE (R26, R27; log 22). -/
def State.current (s : State) (h : W32) : Bool :=
  !h.getLsbD 31 && decide (fieldN h 15 16 = (s.ctx (hKey h)).gen.toNat) && (s.ctx (hKey h)).state != .free

/-- Home die of a context-table entry. -/
def homeDie (k : Nat) : Fin 4 := ⟨k / 2 ^ 13 % 4, Nat.mod_lt _ (by decide)⟩

def State.ctxStrands (s : State) (k : Nat) : List Strand := s.strands.filter fun m => m.ctx = k

/-- The launch of a strand. -/
def State.launchOf (s : State) (m : Strand) : Option Launch := (s.ctx m.ctx).cur

def State.updLaunch (s : State) (k : Nat) (f : Launch → Launch) : State :=
  s.updCtx k fun c => { c with cur := c.cur.map f }

/-! ### Regions -/

def State.region (s : State) (a : Nat) : Option Region := s.regions.find? fun r => r.addr = a

def State.updRegion (s : State) (a : Nat) (f : Region → Region) : State :=
  { s with regions := s.regions.map fun r => if r.addr = a then f r else r }

/-- The path of a node to the root, at most 8 levels (spec/01, R23). -/
def State.pathFrom (s : State) : Nat → Nat → List Region
  | 0, _ => []
  | f + 1, a =>
    match s.region a with
    | none => []
    | some r => if r.parent = 0 then [r] else r :: s.pathFrom f r.parent

def State.path (s : State) (a : Nat) : List Region := s.pathFrom 8 a

/-- Effective value of a field: the nearest node whose OVR bit is 1 (R22). -/
def State.effAt (s : State) (a bit : Nat) (f : Region → Nat) : Nat :=
  match (s.path a).find? fun r => r.ovr.getLsbD bit with
  | some r => f r
  | none => 0

/-- The nearest node at or above `a` that sets an OVR bit. -/
def State.owner (s : State) (a bit : Nat) : Option Region := (s.path a).find? fun r => r.ovr.getLsbD bit

/-- A context lies under a node. -/
def State.under (s : State) (k : Nat) (a : Nat) : Bool := (s.path (s.ctx k).region).any fun r => r.addr = a

/-- Keys of the live contexts. -/
def State.liveCtxs (s : State) : List Nat := (s.ctxs.filter fun p => p.2.state != .free).map fun p => p.1

/-! ### Causes and the trap record -/

/-- The 16-bit code of a cause (R305). -/
def Cause.code : Cause → Nat
  | .pageAbsent => 1 | .pageAbsentStore => 2 | .preempt => 3 | .prot => 4 | .noncanon => 5 | .align => 6
  | .illegal => 7 | .priv => 8 | .chainSpent => 9 | .stallBound => 10 | .stallCheck => 11 | .gatherIndex => 12
  | .compressOverflow => 13 | .poison => 14 | .extentRevoked => 15 | .unitFenced => 16 | .lineOwner => 17
  | .endOfChain => 18 | .pteInvalid => 19 | .step => 20 | .bkpt => 21 | .trap => 22

/-- Pack fields (place, value) into one number. -/
def pack (l : List (Nat × Nat)) : Nat := l.foldl (fun a p => a + p.2 * 2 ^ p.1) 0

/-- The 64 bytes of the trap record (R73). -/
def TrapRec.bytes (r : TrapRec) : List Byte :=
  bytesOf 8 (pack [(0, r.cause.toNat), (16, b2n r.indly), (17, b2n r.attgt), (18, b2n r.valid), (19, b2n r.engv),
    (32, r.pc.toNat)]) ++
  bytes64 r.lmask ++ bytes64 r.addr ++ bytesOf 8 (pack [(0, r.engine.toNat), (32, r.seq.toNat)]) ++
  bytes64 r.upc ++ bytes64 r.wname ++
  bytesOf 8 (pack [(0, r.pchn.toNat), (3, b2n r.pvld), (8, r.pndig.toNat)]) ++ bytes64 r.tmtime

/-- The handler block and the debug block after it (spec/06, R166). -/
def Strand.blockBytes (m : Strand) : List Byte :=
  bytes32 m.hrpc ++ bytesOf 4 (pack [(0, m.tnum.toNat), (8, b2n m.hvalid)]) ++
  bytes32 m.drpc ++ bytes32 m.dptgt ++
  bytesOf 4 (pack [(0, m.dpdly.toNat), (2, b2n m.dpval), (3, b2n m.dvalid)]) ++ List.replicate 44 0

/-- Base of a strand's save image (spec/02, R65). -/
def State.imageBase (s : State) (m : Strand) : Nat := ((s.ctx m.ctx).save.toNat + 0x10000 * m.index) % 2 ^ 64

/-- Write a strand's trap record and blocks to its image (R74); none when the write fails. -/
def State.writeTrapRec (s : State) (m : Strand) : Option State :=
  s.saveWrite (s.ctx m.ctx) (s.imageBase m + 0x400) (m.trap.bytes ++ m.blockBytes)

/-- The strand is in an open delay window (spec/06, R154, R309 INDLY). -/
def Strand.inWindow (m : Strand) : Bool := m.xfer.valid

/-! ### Ending a launch -/

/-- Mark a context's launch as ending; a launch that already has a cause keeps it (R308). -/
def State.markEnd (s : State) (k : Nat) (e : Ending) : State :=
  s.updLaunch k fun l => match l.ending with
    | some _ => l
    | none => { l with ending := some e }

/-- The current launch of a context already has a cause. -/
def State.ended (s : State) (k : Nat) : Bool :=
  match (s.ctx k).cur with
  | some l => l.ending.isSome
  | none => false

/-- The launch of context `k` ends; under an effective FDOM of 1 a fault ends every current launch under the
node that sets it (spec/01, R48 to R50). A later cause of a launch that has one, or of a context without a
launch, is dropped and ends nothing (R49, R308). -/
def State.endLaunch (s : State) (k : Nat) (e : Ending) : State :=
  if s.ended k || (s.ctx k).cur.isNone then s
  else
    let s' := s.markEnd k e
    let a := (s.ctx k).region
    if e.status = .fault && s.effAt a 7 Region.fdom = 1 then
      match s.owner a 7 with
      | none => s'
      | some r =>
        (s.liveCtxs.filter fun j => j != k && s.under j r.addr).foldl
          (fun t j => t.markEnd j ⟨.faultDomain, e.cause, BitVec.allOnes 32, 0, false⟩) s'
    else s'

/-- What a trap of a strand reports beside its cause (R309). `inWin`: whether the reported word lies in an open delay
window, where the strand has moved on from it. -/
structure TrapInfo where
  pc : W32
  lmask : W64 := allLanes
  addr : W64 := 0
  attgt : Bool := false
  eng : Option (BitVec 4 × W32 × W64) := none
  wname : W64 := 0
  chn : Option CReg := none
  inWin : Option Bool := none

/-- The trap record of a cause (R309, R116). PNDIG is a free value (log 14). -/
def State.mkRec (s : State) (m : Strand) (c : Cause) (t : TrapInfo) : TrapRec where
  pc := t.pc
  engv := t.eng.isSome
  valid := true
  attgt := t.attgt
  indly := t.inWin.getD m.inWindow
  cause := BitVec.ofNat 16 c.code
  lmask := t.lmask
  addr := t.addr
  seq := match t.eng with | some e => e.2.1 | none => 0
  engine := match t.eng with | some e => e.1 | none => 0
  upc := match t.eng with | some e => e.2.2 | none => 0
  wname := t.wname
  pndig := if t.chn.isSome then Config.pndig s.fresh else 0
  pvld := t.chn.isSome
  pchn := match t.chn with | some n => BitVec.ofNat 3 n.val | none => 0
  tmtime := s.mtime

/-- A launch-ending cause of the strand `m` (R305): its record is written, and the launch ends. A launch that
already has a cause writes no record (R308). -/
def State.endTrap (s : State) (m : Strand) (c : Cause) (t : TrapInfo) : State :=
  if s.ended m.ctx then s
  else
    let r := s.mkRec m c t
    let s1 := { s with fresh := s.fresh + 1 }.updStrand m.id fun x => { x with trap := r }
    let s2 := (s1.writeTrapRec { m with trap := r }).getD s1
    s2.endLaunch m.ctx ⟨.fault, r.cause, BitVec.ofNat 32 m.index, t.pc, false⟩

/-- A park, a debug stop or the entry to a handler writes the record first; when the write fails, the launch
ends with PROT and the event does not take place (R74). -/
def State.recordThen (s : State) (m : Strand) (c : Cause) (t : TrapInfo) (k : State → State) : State :=
  let r := s.mkRec m c t
  match s.writeTrapRec { m with trap := r } with
  | some s1 => k (s1.updStrand m.id fun x => { x with trap := r })
  | none => s.endTrap m .prot t

/-! ### Fault entries -/

/-- OPEN entries of a context. -/
def State.openOf (s : State) (k : Nat) : List FaultEntry := s.faults.filter fun f => f.ctx = k

/-- OUTCUR: OPEN entries of the current launch on which something waits (R33, R313). -/
def State.outcur (s : State) (k : Nat) : Nat :=
  match (s.ctx k).cur with
  | none => 0
  | some l => ((s.openOf k).filter fun f => f.serial = l.serial && f.waited).length

/-- Write the header of a context's fault record (R313). -/
def State.writeFHeader (s : State) (k : Nat) : Option State :=
  let c := s.ctx k
  match s.devWrite c c.frec.toNat (bytesOf 8 (s.outcur k + (s.openOf k).length * 2 ^ 32) ++ bytes64 c.nraised ++
      bytes64 c.nreplied) with
  | .ok s' => some s'
  | .error _ => none

/-- The 32 bytes of a fault-record entry (R313). -/
def FaultEntry.bytes (f : FaultEntry) (st : Nat) : List Byte :=
  bytesOf 8 ((if bitAt f.page 44 then 2 ^ 52 - 2 ^ 45 + f.page else f.page) * 4096) ++
  bytesOf 8 (f.ftag.toNat + f.serial.toNat * 2 ^ 32) ++
  bytesOf 8 (pack [(0, st), (8, f.kind), (16, f.strand), (32, f.pc.toNat)]) ++ bytes64 f.rtime

def State.writeFEntry (s : State) (f : FaultEntry) (st : Nat) : Option State :=
  let c := s.ctx f.ctx
  match s.devWrite c (c.frec.toNat + 0x40 + 32 * f.idx) (f.bytes st) with
  | .ok s' => some s'
  | .error _ => none

/-- Result of asking for a fault entry. -/
inductive FaultRes
  | ok (s : State)
  | noEntry
  | recFail

/-- A page of the current launch of context `k` is absent for a waiter or a side-log entry (R312 to R315): join
the OPEN entry of the page, or allocate the lowest entry and package fault slot, write the record and notify. -/
def State.faultPage (s : State) (k : Nat) (addr kind strand : Nat) (pc : W32) (waits : Bool) : FaultRes :=
  let c := s.ctx k
  let serial := match c.cur with | some l => l.serial | none => 0
  let page := pageOf addr
  match s.faults.find? fun f => f.ctx = k && f.serial = serial && f.page = page with
  | some f =>
    if f.waited || !waits then .ok s
    else
      let s1 := { s with faults := s.faults.map fun g => if g = f then { g with waited := true } else g }
      match s1.writeFHeader k with
      | some s2 => .ok s2
      | none => .recFail
  | none =>
    if (s.openOf k).length ≥ Config.faultsPerCtx || s.faults.length ≥ Config.faultsPerPkg then .noEntry
    else
      let idx := ((upto Config.faultsPerCtx).find? fun i => (s.openOf k).all fun f => f.idx != i).getD 0
      let slot := ((upto Config.faultsPerPkg).find? fun i => s.faults.all fun f => f.slot != i).getD 0
      let seq := tget 0 s.faultSeq slot
      let f : FaultEntry := ⟨k, idx, slot, BitVec.ofNat 32 (seq.toNat * 4096 + slot), page, serial, strand, pc,
        kind, s.mtime, waits, addr⟩
      let s1 := ({ s with faults := s.faults ++ [f], faultSeq := tset 0 s.faultSeq slot (seq + 1) } : State).updCtx k
        fun c => { c with nraised := c.nraised + 1 }
      match s1.writeFEntry f 1 with
      | none => .recFail
      | some s2 =>
        match s2.writeFHeader k with
        | none => .recFail
        | some s3 =>
          .ok (s3.pushFault (homeDie k)
            [BitVec.ofNat 64 (f.ftag.toNat + (s.handle k).toNat * 2 ^ 32), BitVec.ofNat 64 addr,
             BitVec.ofNat 64 (kind * 256 + c.asid.toNat * 2 ^ 48), s.mtime])

/-- Distinct absent pages in increasing page order, each with its first faulting byte (R312). -/
def absentPages (l : List Nat) : List Nat :=
  l.foldl (fun acc a =>
    if acc.any (fun b => pageOf b = pageOf a) then acc
    else acc.takeWhile (fun b => pageOf b < pageOf a) ++ a :: acc.dropWhile (fun b => pageOf b < pageOf a)) []

/-- Raise the faults of several pages; says whether every page has an entry. When the write of a record fails, the entries,
records and notifications of the earlier pages are not made (DESIGN CHOICE, log 118). -/
def State.faultPages (s : State) (k kind strand : Nat) (pc : W32) (waits : Bool) : List Nat → Option (State × Bool)
  | [] => some (s, true)
  | a :: as =>
    match s.faultPage k a kind strand pc waits with
    | .recFail => none
    | .noEntry => (s.faultPages k kind strand pc waits as).map fun r => (r.1, false)
    | .ok s1 => s1.faultPages k kind strand pc waits as

/-! ### Waits and context states -/

/-- The strand is stopped on an open wait of its own (spec/01, R33). -/
def Strand.openWait (m : Strand) : Bool :=
  m.debug ||
  match m.wait with
  | .csw | .slogRoom _ _ | .relDrain | .ownDrain _ _ | .faultEntry => true
  | .none | .waitt _ | .waita .. | .bar .. | .barSlot .. | .waitk .. | .xwait .. | .phase | .journalFull | .fault
  | .stepLaunch _ _ => false

def State.slogOf (s : State) (sid : Nat) : List SlogEntry := s.slog.filter fun e => e.sid = sid

def State.tileLog (s : State) (tile : Nat) : Nat := (s.slog.filter fun e => e.tile = tile).length

/-- An entry of the side log holds an SO access: its page is absent or translates with ORD SO (R212). -/
def State.slogHoldsSo (s : State) (e : SlogEntry) : Bool :=
  match s.walk (s.ctx e.ctx) (e.page * 4096) .none with
  | .ok (_, leaf) => pteOrd leaf = 1
  | .error _ => true

/-- A barrier of scope `sc` and instance `inst` has tile `t` in its domain (spec/08, R219). -/
def inDomain (sc : Scope) (inst t : Nat) : Bool :=
  match sc with
  | .st => false
  | .tl => decide (t = inst)
  | .di => decide (t / 64 = inst)
  | .pk => true
  | .sy => true

/-- The instance of a barrier's domain for a tile. -/
def domInst (sc : Scope) (tile : Nat) : Nat :=
  match sc with
  | .st => 0
  | .tl => tile
  | .di => tile / 64
  | .pk => 0
  | .sy => 0

/-- One more active barrier fits on every tile of the domain (R219). -/
def State.barRoom (s : State) (sc : Scope) (tile : Nat) : Bool :=
  (upto 256).all fun t => !inDomain sc (domInst sc tile) t ||
    decide ((s.barriers.filter fun b => 0 < b.arrivals && inDomain b.sc b.inst t).length < Config.barriersPerTile)

/-- An entry of the context's fault record and of the package is free (R315). -/
def State.entryFree (s : State) (k : Nat) : Bool :=
  decide ((s.openOf k).length < Config.faultsPerCtx) && decide (s.faults.length < Config.faultsPerPkg)

/-- The wait of a strand that only re-executes its word is over (R212 to R214, R315). -/
def State.waitOver (s : State) (m : Strand) : Bool :=
  match m.wait with
  | .slogRoom n entry =>
    decide (s.tileLog m.tile + n ≤ Config.slogEntries) && (!entry || s.entryFree m.ctx)
  | .relDrain => (s.slogOf m.id).isEmpty
  | .ownDrain pages so =>
    (s.slogOf m.id).all fun e => !pages.contains e.page && !(so && s.slogHoldsSo e)
  | .faultEntry => s.entryFree m.ctx
  | .fault => s.outcur m.ctx = 0
  | .barSlot _ sc _ => s.barRoom sc m.tile
  | .none | .csw | .waitt _ | .waita .. | .bar .. | .waitk .. | .xwait .. | .phase | .journalFull
  | .stepLaunch _ _ => false

/-- A journal entry of the context waits for a free fault-record entry (R315). -/
def State.engineHeld (s : State) (k : Nat) : Bool :=
  (s.ctxStrands k).any fun m => m.journal.any fun e => e.hold = 2

/-- A save of some strand of the context is in progress (spec/01, R35). -/
def State.saving (s : State) (k : Nat) : Bool :=
  (s.ctxStrands k).any fun m => m.saveReq.isSome && m.inSlot && !m.halted

/-- A context's state follows its open waits (spec/01, R30, R32, R33; log 23). A wait that ends during a save takes
effect when the save ends (R35). -/
def State.reconsider (s : State) (k : Nat) : State :=
  let c := s.ctx k
  let ws := s.ctxStrands k
  let live := ws.filter fun m => !m.halted
  let blocked := s.outcur k != 0 || s.engineHeld k
  match c.state with
  | .running | .parked =>
    let parked := !live.isEmpty && (blocked || live.all Strand.openWait)
    s.setCtx k { c with state := if parked || (c.state = .parked && s.saving k) then .parked else .running }
  | .swapped =>
    if blocked || live.any Strand.openWait then s
    else s.setCtx k { c with state := .ready, readyAt := s.mtime }
  | .free | .ready => s

/-- What an engine command that stopped waits for is over: its pages have been answered (R227), or an entry is free
(R315). -/
def State.holdOver (s : State) (k : Nat) (e : JEntry) : Bool :=
  (e.hold = 1 && s.outcur k = 0) || (e.hold = 2 && s.entryFree k)

/-- Engine commands that stopped for a page or an entry go on once what they wait for is over. -/
def State.releaseHeld (s : State) (m : Strand) : Strand :=
  if m.journal.any (s.holdOver m.ctx) then
    { m with journal := m.journal.map fun e => if s.holdOver m.ctx e then { e with hold := 0 } else e }
  else m

/-- A wait that has ended. One for a barrier slot counts on when the arrival loses the slot to another (spec/08, R219; R326). -/
def Strand.leaveWait (m : Strand) : Strand :=
  { m with wait := .none, stallcnt := match m.wait with | .barSlot .. => m.stallcnt | _ => 0 }

/-- Every wait that has ended is taken off, and every context's state follows; a context that is being saved keeps
its waits until the save ends (spec/01, R35). -/
def State.refresh (s : State) : State :=
  let s1 := s.mapStrands fun m =>
    if m.id != 0 && s.waitOver m && !s.saving m.ctx then m.leaveWait else m
  let s2 := s1.mapStrands fun m => if s1.saving m.ctx then m else s1.releaseHeld m
  s2.liveCtxs.foldl State.reconsider s2

/-- The strand stops in a wait; its word executes again or retires when the wait ends. Its stall counter is 0 since
the last word retired, or STALLCNT after a restore; a park resets it (R326). -/
def State.waitFor (s : State) (m : Strand) (w : Wait) : State :=
  (s.updStrand m.id fun x =>
    { x with wait := w, stallcnt := if w = .fault || w = .faultEntry then 0 else x.stallcnt }).reconsider m.ctx

/-- The strand parks on absent pages (R211, R312, R315). `addrs` are the absent bytes. A fault record
that cannot be written ends the launch with the fields of the park, its absent byte and its lanes (DESIGN CHOICE, log
75; R313). -/
def State.park (s : State) (m : Strand) (kind : Nat) (addrs : List Nat) (t : TrapInfo) : State :=
  if s.ended m.ctx then s
  else s.recordThen m .pageAbsent t fun s1 =>
    match s1.faultPages m.ctx kind m.index t.pc true (absentPages addrs) with
    | none => s1.endTrap m .prot t
    | some (s2, true) => s2.waitFor m .fault
    | some (s2, false) => s2.waitFor m .faultEntry

/-- A debug stop (spec/06, R174; spec/12, R329, R330): the debug block is set, then the record written. -/
def State.debugStop (s : State) (m : Strand) (c : Cause) (pc drpc : W32) (inWin : Bool) : State :=
  if s.ended m.ctx then s
  else
    let m' := { m with drpc := drpc, dptgt := m.xfer.tgt, dpval := m.xfer.valid, dpdly := m.xfer.rem,
                       dvalid := true, wkind := 3, debug := true, pc := drpc }
    (s.updStrand m.id fun _ => m').recordThen m' c { pc := pc, inWin := some inWin } fun s1 => s1.reconsider m.ctx

/-! ### Chain order -/

/-- The base of a strand's code image (spec/01, R38). -/
def State.codeBase (s : State) (m : Strand) : Nat :=
  match s.launchOf m with
  | some l => l.rec_.code.toNat
  | none => 0

/-- One line fetch: the 64 bytes of line `n`, or its cause and address (spec/05, R121). It reads the line as memory holds
it now, of a line that was rewritten too, where R122 leaves the version open (DESIGN CHOICE, log 84). -/
def State.fetchLine (s : State) (m : Strand) (n : Nat) : Except (Cause × Nat) Line :=
  let a := (s.codeBase m + 64 * n) % 2 ^ 64
  match s.devRead (s.ctx m.ctx) .x a 64 with
  | .ok bs => .ok (BitVec.ofNat 512 (natOf bs))
  | .error e => .error e

/-- The fetch of a line promotes the object it lies in (spec/13, R345). -/
def State.touchLine (s : State) (m : Strand) (n : Nat) : State :=
  s.touchVa (s.ctx m.ctx) .x ((s.codeBase m + 64 * n) % 2 ^ 64) 64

/-- The checks of R119 on a link word for the sequencer. -/
def seqLinkOk (k : W32) : Bool :=
  linkOwner k = 0 && decide (1 ≤ linkNslot k) && decide (linkNslot k ≤ 5) && linkRsv k = 0

/-- The link word of line `n`, checked (R119, R429). -/
def State.fetchLink (s : State) (m : Strand) (n : Nat) : Except (Cause × Nat) W32 :=
  match s.fetchLine m n with
  | .error e => .error e
  | .ok l => if seqLinkOk (lineLink l) then .ok (lineLink l) else .error (.lineOwner, 0)

/-- The next PC in chain order inside or after the line whose link word is `k`; none after a LAST line's last
slot (R120). -/
def chainNext (pc k : W32) : Option W32 :=
  if fieldN pc 0 3 + 1 < linkNslot k then some (pc + 1)
  else if linkLast k then none
  else some (BitVec.ofNat 32 ((linkNext k).toNat * 8))

/-- Seq(p, n) of R429, with the link word of p's line; 0 when the chain ends first. -/
def State.seqFrom (s : State) (m : Strand) : Nat → W32 → W32 → Except (Cause × Nat) W32
  | 0, pc, _ => .ok pc
  | n + 1, pc, k =>
    match chainNext pc k with
    | none => .ok 0
    | some p =>
      if fieldN pc 0 3 + 1 < linkNslot k then s.seqFrom m n p k
      else match s.fetchLink m (p.toNat / 8) with
        | .error e => .error e
        | .ok k' => s.seqFrom m n p k'

def State.seq (s : State) (m : Strand) (n : Nat) : Except (Cause × Nat) W32 := s.seqFrom m n m.pc m.link

/-- The line fetches of Seq(PC, n) promote what they reach (spec/13, R345). -/
def State.seqTouch (s : State) (m : Strand) : Nat → W32 → W32 → State
  | 0, _, _ => s
  | n + 1, pc, k =>
    match chainNext pc k with
    | none => s
    | some p =>
      if fieldN pc 0 3 + 1 < linkNslot k then s.seqTouch m n p k
      else match s.fetchLink m (p.toNat / 8) with
        | .error _ => s
        | .ok k' => (s.touchLine m (p.toNat / 8)).seqTouch m n p k'

/-! ### Hardware loops and retirement -/

/-- Stage predicates of level 0: Q8 to Q(7+ST) (R158, R162). -/
def Level.stages (l : Level) : List QReg :=
  if l.act && decide (1 < l.st.toNat) then
    (upto (Nat.min l.st.toNat 8)).map fun k => ⟨(8 + k) % 16, Nat.mod_lt _ (by decide)⟩
  else []

/-- A pipelined level 0 at its start with every stage predicate 0, as the next word would find them (R159, R163). -/
def Strand.emptyStart (m : Strand) : Bool :=
  m.l0.act && decide (1 < m.l0.st.toNat) && m.pc == m.l0.start && m.l0.stages.all fun q => !m.settle.readQ q

/-- The drained point of R163: an iteration start that would leave every stage predicate 0 has not taken place, which
position 0 marks. An iteration whose predicates are all 0 is none. -/
def Strand.drained (m : Strand) : Bool := m.l0.act && decide (1 < m.l0.st.toNat) && decide (m.l0.pos = 0)

/-- IterStart of R159 for level 0 at the tick of the next word. While draining (R163) Q8 is 0 and COUNT held;
the start that would leave every stage predicate 0 does not take place when a save is requested, and is an
ordinary one otherwise. -/
def Strand.iterStart (m0 : Strand) : Strand :=
  let m := m0.settle
  let l := m.l0
  if l.st.toNat ≤ 1 then { m with l0 := { l with count := l.count - 1, pos := 1 }, pc := l.start }
  else
    let qs := l.stages
    let prev : List Bool := qs.map m.readQ
    let drain := l.drain || m.saveReq.isSome
    let shifted : List Bool := prev.take (qs.length - 1)
    let first := decide (l.st.toNat ≤ l.count.toNat)
    let write (x : Strand) (b : Bool) : Strand :=
      (qs.zip (b :: shifted)).foldl (fun y p => y.setQ 0 p.1 p.2) x
    if drain && !(shifted.any (fun b => b)) then
      if m.saveReq.isSome then
        { (write m false) with l0 := { l with drain := false, pos := 0 }, pc := l.start }
      else
        { (write m first) with l0 := { l with drain := false, count := l.count - 1, pos := 1 }, pc := l.start }
    else if drain then { (write m false) with l0 := { l with drain := true, pos := 1 }, pc := l.start }
    else { (write m first) with l0 := { l with count := l.count - 1, pos := 1 }, pc := l.start }

/-- Where the PC goes after a word: a strand, or the end of the chain. -/
inductive Adv
  | to (m : Strand)
  | chainEnd (m : Strand)

/-- The PC takes the next word in chain order; the position in level 0 moves with it. -/
def Strand.chainStep (m : Strand) : Adv :=
  match chainNext m.pc m.link with
  | none => .chainEnd m
  | some p => .to { m with pc := p, l0 := if m.l0.act then { m.l0 with pos := m.l0.pos + 1 } else m.l0 }

/-- The closing rule of R160 at the last word of level 0's body, with its cascade through at most `fuel` levels:
a level with COUNT above 0 starts its next iteration (second component true), the others close. -/
def Strand.bodyEnd (m : Strand) : Nat → Strand × Bool
  | 0 => (m, false)
  | f + 1 =>
    if 0 < m.l0.count.toNat then (m.iterStart, true)
    else
      let m' := { m with l0 := m.l1, l1 := Level.idle }
      if m'.l0.act && m'.l0.pos = m'.l0.len.toNat then m'.bodyEnd f else (m', false)

/-- EndOfBody of R160 after the word at PC. -/
def Strand.endOfBody (m : Strand) : Adv :=
  let r := m.bodyEnd 2
  if r.2 then .to r.1 else r.1.chainStep

/-- The PC after the word at PC has retired (R120, R154, R160). -/
def Strand.advance (m : Strand) : Adv :=
  if m.xfer.valid then
    if m.xfer.rem.toNat ≤ 1 then .to { m with pc := m.xfer.tgt, attgt := true, xfer := Xfer.none }
    else match chainNext m.pc m.link with
      | none => .chainEnd m
      | some p => .to { m with pc := p, xfer := { m.xfer with rem := m.xfer.rem - 1 } }
  else if m.l0.act && m.l0.pos = m.l0.len.toNat then m.endOfBody
  else m.chainStep

/-- The exposure clock passes a word (R102). -/
def Strand.clock (m : Strand) (stall : Fin 16) : Strand :=
  { m with tick := m.tick + 1 + stall.val, stleft := BitVec.ofNat 4 stall.val, wait := .none, stallcnt := 0 }

/-- The strand's next word to issue, which the record of an engine's cause names (R227, R309): the word after a CSW that
waits (R168), the target of a transfer that owes no word, and otherwise the word at PC. Of a strand that has halted, and has
no next word, it is the PC of its HALT (DESIGN CHOICE, log 95). -/
def Strand.nextIssue (m : Strand) : W32 :=
  let x := if m.wait = .csw && !m.wretired && !m.debug then
      match (m.clock m.wstall).advance with
      | .to y => y
      | .chainEnd y => y
    else m
  if x.xfer.valid && x.xfer.rem = 0 then x.xfer.tgt else x.pc

/-- The end of a retirement: the strand where it continues, or END-OF-CHAIN (R120); then the STEP stop (R174,
R330). `pc` is the PC of the word that retired, `inWin` says that it lay in a delay window (R309), and `chn` is the
chain source it names (R116). -/
def State.land (s : State) (pc : W32) (inWin stp : Bool) (a : Adv) (chn : Option CReg := none) : State :=
  match a with
  | .chainEnd m => (s.setMe m).endTrap m .endOfChain { pc := pc, chn := chn }
  | .to m => if stp then (s.setMe m).debugStop m .step pc m.pc inWin else s.setMe m

/-- The word in focus retires. -/
def State.retire (s : State) (stall : Fin 16) (stp : Bool) (chn : Option CReg := none) : State :=
  s.land s.me.pc s.me.inWindow stp (s.me.clock stall).advance chn

/-- Do something with a strand in focus, and then bring the old strand back. -/
def State.onStrand (s : State) (sid : Nat) (f : State → State) : State :=
  if s.me.id = sid then f s
  else if s.others.any fun m => m.id = sid then (f (s.focus sid)).focus s.me.id
  else s

/-- The word in focus retires at the end of its wait. -/
def State.retireWait (s : State) : State := s.retire s.me.wstall s.me.step

/-! ### One word -/

/-- What the body of a word does. -/
inductive Eff
  /-- It retires. -/
  | ok (s : State)
  /-- It does not retire here: it waits, parks, stops or ends its launch. -/
  | stay (s : State)
  /-- It retires and sets the PC itself: `f` acts after the exposure clock has passed the word. -/
  | goto (s : State) (f : Strand → Strand)
  /-- It raises a launch-ending cause. -/
  | trap (s : State) (c : Cause) (lmask : W64) (addr : Nat)
  /-- It meets absent bytes: a fault KIND of R313, the lanes, the bytes. -/
  | absent (s : State) (kind : Nat) (lmask : W64) (addrs : List Nat)

/-- Trap of a scalar cause without an address. -/
def Eff.raise (s : State) (c : Cause) : Eff := .trap s c allLanes 0

/-- An Except cause of a fetch made by an instruction (R429): PAGE-ABSENT parks with KIND 3. -/
def Eff.ofFetch (s : State) (e : Cause × Nat) : Eff :=
  if e.1 = .pageAbsent then .absent s 3 allLanes [e.2] else .trap s e.1 allLanes e.2

/-- A word that names Seq(PC, n) reads it before it does anything else (R429). -/
def State.withSeq (s : State) (n : Nat) (go : State → W32 → Eff) : Eff :=
  match s.seq s.me n with
  | .error e => .ofFetch s e
  | .ok p => go (s.seqTouch s.me n s.me.pc s.me.link) p

/-- The lowest of some addresses. -/
def lowest : List Nat → Nat
  | [] => 0
  | a :: as => as.foldl Nat.min a

/-- What follows from a body (R307, R309): retirement, or the trap the body raised. `pc` is the word's PC. -/
def State.finish (pc : W32) (stall : Fin 16) (stp : Bool) (chn : Option CReg) : Eff → State
  | .ok s => s.retire stall stp chn
  | .stay s => s
  | .goto s f => s.land pc s.me.inWindow stp (.to (f (s.me.clock stall)))
  | .trap s c lm a => s.endTrap s.me c { pc := pc, lmask := lm, addr := BitVec.ofNat 64 a, chn := chn }
  | .absent s kind lm as => s.park s.me kind as { pc := pc, lmask := lm, addr := BitVec.ofNat 64 (as.headD 0) }

abbrev Out := Host.Outcome State Fault Refusal

/-- The STALL-CHECK condition over the registers a word reads (R105). -/
def Strand.early (m : Strand) (ds : List Dest) : Bool := m.stallchk && ds.any m.exposed

/-- A scalar-guarded word (R129, R130, R307): the registers settle, the guard is read, a false guard suppresses,
an early read traps, and the body runs. -/
def seqWord (h : Hdr) (reads : List Dest) (body : State → Eff) (s : State) : Out :=
  let s1 := s.setMe s.me.settle
  let stp := s1.me.step
  .next (State.finish s1.me.pc h.stall stp none
    (if s1.me.early (hdrReads h) then .raise s1 .stallCheck
     else if s1.me.guard h then
       if s1.me.early reads then .raise s1 .stallCheck else body s1
     else .ok s1))

/-- A lane-guarded word (R129, R177): its body gets the 64-bit lane guard; a spent chain source raises
CHAIN-SPENT (R108). `chains` are the chain sources in operand order. -/
def laneWord (h : Hdr) (reads : List Dest) (chains : List CReg) (body : W64 → State → Eff) (s : State) : Out :=
  let s1 := s.setMe s.me.settle
  let stp := s1.me.step
  let g := s1.me.laneGuard h
  .next (State.finish s1.me.pc h.stall stp chains.head?
    (if s1.me.early (hdrReads h) then .raise s1 .stallCheck
     else if g = 0 then .ok s1
     else if s1.me.early reads then .raise s1 .stallCheck
     else if chains.any s1.me.spent then .raise s1 .chainSpent
     else body g s1))

/-! ### Handlers -/

/-- Entry to the TRAPH handler for the strand in focus (R165, R311): the handler block is set, the record written,
and the PC takes TRAPH as a taken transfer. `ret` is Seq(PC, 1). -/
def State.enterHandler (s : State) (n : Byte) (ret : W32) : Eff :=
  let m := { s.me with hrpc := ret, tnum := n, hvalid := true }
  let r := s.mkRec m .trap { pc := m.pc }
  match s.writeTrapRec { m with trap := r } with
  | some s1 => .goto (s1.setMe { m with trap := r }) fun x => { x with pc := x.traph, attgt := true }
  | none => .stay (s.endTrap m .prot { pc := m.pc })

/-- Return from the handler (R167). -/
def Strand.leaveHandler (m : Strand) : Strand := { m with hvalid := false, pc := m.hrpc, attgt := true }

/-! ### Journaled commands at a save -/

def JEntry.live (e : JEntry) : Bool := e.st = .queued || e.st = .stopped

/-- Commands that restart from the beginning (spec/09, R225, R262). -/
def restarts (i : Instr) : Bool :=
  match i with
  | .mmat .. => true
  | .xrun .. => true
  | .attn .. => true
  | _ => false

/-- The transform sequencer of a tile stops the XRUN of a strand; whether that run broke R259. -/
def State.stopXs (s : State) (m : Strand) : State × Bool :=
  match tget none s.xs m.tile with
  | some r => if r.sid = m.id then ({ s with xs := tset none s.xs m.tile none }, r.broke) else (s, false)
  | none => (s, false)

/-- A live entry as the save records it: stopped at a micro-PC boundary, or restarting from the beginning (R71,
R226). -/
def JEntry.atSave (e : JEntry) (broke : Bool) : JEntry :=
  if !e.live then e
  else if restarts e.cmd then
    { e with st := .queued, upc := if e.eng = 0 then e.upc else 0, ord := if broke && e.eng != 0 then 1 else e.ord,
             ready := none, cap := [] }
  else if e.eng != 0 then { e with st := .stopped, ready := none }
  else e

end Sys2Proof.Machine
end

