-- ==== Sys2Proof/Machine/Flags.lean ====
section
/-!
DEFINITION. Conditions and the predicates they set: the integer conditions of R135, the predicate-pair modes of
R149 and their lane form (spec/07, R189), and the stage predicates that a word may not write (R162).
-/

namespace Sys2Proof.Machine

/-- An integer condition on two `w`-bit values (R135): LT, GE, LE and GT signed, the N codes unsigned. -/
def condInt (c : Cond) (w a b : Nat) : Bool :=
  match c with
  | .eq => decide (a % 2 ^ w = b % 2 ^ w)
  | .ne => decide (a % 2 ^ w ≠ b % 2 ^ w)
  | .lt => decide (sgn w a < sgn w b)
  | .ge => decide (sgn w b ≤ sgn w a)
  | .le => decide (sgn w a ≤ sgn w b)
  | .gt => decide (sgn w b < sgn w a)
  | .ltn => decide (a % 2 ^ w < b % 2 ^ w)
  | .gen => decide (b % 2 ^ w ≤ a % 2 ^ w)
  | .len => decide (a % 2 ^ w ≤ b % 2 ^ w)
  | .gtn => decide (b % 2 ^ w < a % 2 ^ w)
  | .un => false
  | .ord => false

/-- The stage predicates of an active pipelined level 0 among some destinations (R162). -/
def stageClash (m : Strand) (qs : List QReg) : Bool := qs.any fun q => q != 0 && m.l0.stages.contains q

/-- The predicate pair of R149 under guard `g` and condition `c`, with latency `l`. -/
def writePair (m : Strand) (l : Nat) (pt pf : QReg) (mode : PMode) (g c : Bool) : Strand :=
  match mode with
  | .n => if g then (m.setQ l pt c).setQ l pf (!c) else m
  | .u => (m.setQ l pt (g && c)).setQ l pf (g && !c)
  | .o =>
    let m1 := if g && c then m.setQ l pt true else m
    if g && !c then m1.setQ l pf true else m1

/-- The lane form of the predicate pair (spec/07, R189): lanes of `g` and `c`. `put` makes one write. -/
def writeMPair (put : Strand → MReg → W64 → W64 → Strand) (m : Strand) (mt mf : MReg) (mode : PMode)
    (g c : W64) : Strand :=
  match mode with
  | .n => put (put m mt g c) mf g (~~~ c)
  | .u => put (put m mt allLanes (g &&& c)) mf allLanes (g &&& ~~~ c)
  | .o => put (put m mt (g &&& c) allLanes) mf (g &&& ~~~ c) allLanes

/-- A word that writes a predicate pair (R149): under .U a false guard is an operand and nothing is
suppressed. -/
def pairWord (h : Hdr) (pt pf : QReg) (mode : PMode) (reads : List Dest) (l : Nat) (c : Strand → Bool)
    (s : State) : Out :=
  let s1 := s.setMe s.me.settle
  let stp := s1.me.step
  let g := s1.me.guard h
  .next (State.finish s1.me.pc h.stall stp none
    (if s1.me.early (hdrReads h) then .raise s1 .stallCheck
     else if !g && mode != .u then .ok s1
     else if s1.me.early reads then .raise s1 .stallCheck
     else if stageClash s1.me [pt, pf] then .raise s1 .illegal
     else .ok (s1.setMe (writePair s1.me l pt pf mode g (c s1.me)))))

end Sys2Proof.Machine
end

