-- ==== Sys2Proof/Machine/Fp.lean ====
section
/-!
DEFINITION. Number formats and rounding (spec/03): exact values, one rounding per result, the special values of
R84 and R85, conversions (R86), the B4 block family (R87 to R91) and the functions of spec/07, R181. Exact values
are dyadic or rational numbers, so that every rounding is one decision on exact integers.
-/

namespace Sys2Proof.Machine

/-! ### Exact values -/

/-- A dyadic number m × 2^e. -/
structure Dy where
  m : Int
  e : Int
  deriving DecidableEq, Repr

/-- The value of a floating-point pattern; a finite value is (−1)^neg × m × 2^e. -/
inductive FV
  | nan
  | inf (neg : Bool)
  | fin (neg : Bool) (m : Nat) (e : Int)
  deriving DecidableEq, Repr

/-- Exponent width, mantissa width and bias (R76). -/
def fmtOf (t : ETy) : Nat × Nat × Nat :=
  match t with
  | .f32 => (8, 23, 127)
  | .bf16 => (8, 7, 127)
  | .f16 => (5, 10, 15)
  | .e4m3 => (4, 3, 7)
  | .e5m2 => (5, 2, 15)
  | _ => (8, 23, 127)

/-- The canonical NaN (R76). -/
def canonNan (t : ETy) : Nat :=
  match t with
  | .f32 => 0x7FC00000
  | .bf16 => 0x7FC0
  | .f16 => 0x7E00
  | .e4m3 => 0x7F
  | .e5m2 => 0x7E
  | _ => 0x7FC00000

/-- The largest finite pattern without sign (R76). -/
def maxFin (t : ETy) : Nat :=
  match t with
  | .f32 => 0x7F7FFFFF
  | .bf16 => 0x7F7F
  | .f16 => 0x7BFF
  | .e4m3 => 0x7E
  | .e5m2 => 0x7B
  | _ => 0x7F7FFFFF

/-- The value of a pattern (R76, R77). -/
def fdec (t : ETy) (x : Nat) : FV :=
  let (ew, mw, bias) := fmtOf t
  let neg := bitAt x (ew + mw)
  let e := bitsAt x mw ew
  let m := bitsAt x 0 mw
  if t = .e4m3 then
    if e = 15 && m = 7 then .nan
    else if e = 0 then .fin neg m (1 - bias - mw) else .fin neg (2 ^ mw + m) (e - bias - mw)
  else if e = 2 ^ ew - 1 then (if m = 0 then .inf neg else .nan)
  else if e = 0 then .fin neg m (1 - bias - mw)
  else .fin neg (2 ^ mw + m) (e - bias - mw)

def signBit (t : ETy) (neg : Bool) : Nat := if neg then 2 ^ (t.width - 1) else 0

/-- ±∞; E4M3 has none and takes ±448, or NaN under .NAN (R82). -/
def finf (t : ETy) (nan neg : Bool) : Nat :=
  if t = .e4m3 then (if nan then 0x7F else signBit t neg + maxFin t) else signBit t neg + maxFin t + 1

def fzero (t : ETy) (neg : Bool) : Nat := signBit t neg

/-! ### Rounding -/

/-- num / den rounded to an integer under the mode, for a value of the given sign (R80). -/
def roundQ (rm : Rm) (neg : Bool) (num den : Nat) : Nat :=
  let q := num / den
  let r := num % den
  let up := match rm with
    | .rne => decide (den < 2 * r) || (decide (2 * r = den) && q % 2 == 1)
    | .rtz => false
    | .rdn => neg && r != 0
    | .rup => !neg && r != 0
  if up then q + 1 else q

/-- ⌊log2 (num / den)⌋ for nonzero num and den. -/
def ilog2 (num den : Nat) : Int :=
  let l : Int := (Nat.log2 num : Int) - (Nat.log2 den : Int)
  let lt := if 0 ≤ l then decide (num < den * 2 ^ l.toNat) else decide (num * 2 ^ (-l).toNat < den)
  if lt then l - 1 else l

/-- (num × 2^e / den) as a fraction of naturals. -/
def scale2 (num den : Nat) (e : Int) : Nat × Nat :=
  if 0 ≤ e then (num * 2 ^ e.toNat, den) else (num, den * 2 ^ (-e).toNat)

/-- The overflow of R82. -/
def foverflow (t : ETy) (rm : Rm) (nan neg : Bool) : Nat :=
  let toInf := match rm with
    | .rne => true
    | .rtz => false
    | .rdn => neg
    | .rup => !neg
  if t = .e4m3 then (if nan && toInf then 0x7F else signBit t neg + maxFin t)
  else if toInf then finf t nan neg else signBit t neg + maxFin t

/-- Round (−1)^neg × (num / den) × 2^e once to the format (R80 to R83); num and den nonzero. -/
def fround (t : ETy) (rm : Rm) (nan neg : Bool) (num den : Nat) (e : Int) : Nat :=
  let (_, mw, bias) := fmtOf t
  let emin : Int := 1 - bias
  let ev := ilog2 num den + e
  let qe := (if ev < emin then emin else ev) - mw
  let (n, d) := scale2 num den (e - qe)
  let k := roundQ rm neg n d
  -- k × 2^qe: a carry to 2^(mw+1) moves to the next binade
  let (k, qe) := if 2 ^ (mw + 1) ≤ k then (k / 2, qe + 1) else (k, qe)
  let mag := if k < 2 ^ mw then k else ((qe + mw + bias).toNat) * 2 ^ mw + (k - 2 ^ mw)
  if maxFin t < mag then foverflow t rm nan neg else signBit t neg + mag

/-- Round an exact finite value; zero keeps the given sign. -/
def froundFin (t : ETy) (rm : Rm) (nan neg : Bool) (m : Nat) (e : Int) : Nat :=
  if m = 0 then fzero t neg else fround t rm nan neg m 1 e

/-- Round an exact dyadic number; an exact zero takes the sign `zneg`. -/
def froundDy (t : ETy) (rm : Rm) (zneg : Bool) (x : Dy) : Nat :=
  if x.m = 0 then fzero t zneg else fround t rm false (decide (x.m < 0)) x.m.natAbs 1 x.e

/-! ### Dyadic arithmetic -/

def Dy.add (a b : Dy) : Dy :=
  let e := if a.e < b.e then a.e else b.e
  ⟨a.m * 2 ^ (a.e - e).toNat + b.m * 2 ^ (b.e - e).toNat, e⟩

def Dy.zero : Dy := ⟨0, 0⟩

def Dy.mul (a b : Dy) : Dy := ⟨a.m * b.m, a.e + b.e⟩

def Dy.sum (l : List Dy) : Dy := l.foldl Dy.add Dy.zero

def Dy.lt (a b : Dy) : Bool := decide ((a.add ⟨-b.m, b.e⟩).m < 0)

/-- The signed dyadic value of a finite FV. -/
def finDy (neg : Bool) (m : Nat) (e : Int) : Dy := ⟨if neg then -(m : Int) else m, e⟩

/-! ### Operations -/

/-- The exact product (R84, R85). -/
def fvMul (a b : FV) : FV :=
  match a, b with
  | .nan, _ => .nan
  | _, .nan => .nan
  | .inf s, .inf r => .inf (s != r)
  | .inf s, .fin r m _ => if m = 0 then .nan else .inf (s != r)
  | .fin s m _, .inf r => if m = 0 then .nan else .inf (s != r)
  | .fin s m e, .fin r n f => .fin (s != r) (m * n) (e + f)

def fvNeg (a : FV) : FV :=
  match a with
  | .nan => .nan
  | .inf s => .inf (!s)
  | .fin s m e => .fin (!s) m e

def fvAbs (a : FV) : FV :=
  match a with
  | .nan => .nan
  | .inf _ => .inf false
  | .fin _ m e => .fin false m e

/-- The rounded sum (R84, R85): an exact zero of operands that are not both zeros of one sign is +0, and −0 in
RDN. -/
def fvAdd (t : ETy) (rm : Rm) (a b : FV) : Nat :=
  match a, b with
  | .nan, _ => canonNan t
  | _, .nan => canonNan t
  | .inf s, .inf r => if s = r then finf t false s else canonNan t
  | .inf s, .fin .. => finf t false s
  | .fin .., .inf r => finf t false r
  | .fin s m e, .fin r n f =>
    let zneg := if m = 0 && n = 0 && s == r then s else rm = .rdn
    froundDy t rm zneg ((finDy s m e).add (finDy r n f))

/-- Round an exact FV to the format (R86, float to float). -/
def fvCvt (t : ETy) (rm : Rm) (nan : Bool) (a : FV) : Nat :=
  match a with
  | .nan => canonNan t
  | .inf s => finf t nan s
  | .fin s m e => froundFin t rm nan s m e

/-- The rounded quotient (R180). -/
def fvDiv (t : ETy) (rm : Rm) (a b : FV) : Nat :=
  match a, b with
  | .nan, _ => canonNan t
  | _, .nan => canonNan t
  | .inf _, .inf _ => canonNan t
  | .inf s, .fin r _ _ => finf t false (s != r)
  | .fin s _ _, .inf r => fzero t (s != r)
  | .fin s m e, .fin r n f =>
    if n = 0 then (if m = 0 then canonNan t else finf t false (s != r))
    else if m = 0 then fzero t (s != r)
    else fround t rm false (s != r) m n (e - f)

/-- A total order on non-NaN values in which −0 equals +0. -/
def fvLt (a b : FV) : Bool :=
  match a, b with
  | .nan, _ => false
  | _, .nan => false
  | .inf s, .inf r => s && !r
  | .inf s, .fin .. => s
  | .fin .., .inf r => !r
  | .fin s m e, .fin r n f => (finDy s m e).lt (finDy r n f)

def fvNan (a : FV) : Bool :=
  match a with
  | .nan => true
  | .inf _ => false
  | .fin .. => false

/-- Floating conditions (spec/05, R135; spec/07, R190). -/
def condF (c : Cond) (a b : FV) : Bool :=
  let n := fvNan a || fvNan b
  let lt := fvLt a b
  let gt := fvLt b a
  match c with
  | .eq => !n && !lt && !gt
  | .ne => n || lt || gt
  | .lt => !n && lt
  | .ge => !n && !lt
  | .le => !n && !gt
  | .gt => !n && gt
  | .un => n
  | .ord => !n
  | .ltn | .gen | .len | .gtn => false

/-- VMIN and VMAX on patterns (R183): −0 below +0, NaN canonical, otherwise an operand bit for bit. -/
def fminmax (t : ETy) (isMax : Bool) (x y : Nat) : Nat :=
  let a := fdec t x
  let b := fdec t y
  if fvNan a || fvNan b then canonNan t
  else
    let yLess := fvLt b a || (!fvLt a b && bitAt y (t.width - 1) && !bitAt x (t.width - 1))
    if yLess != isMax then y else x

/-! ### Roots, exponentials and logarithms (R181) -/

/-- ⌊√n⌋, from bit `b` down. -/
def isqrtFrom (n : Nat) : Nat → Nat → Nat
  | 0, r => r
  | b + 1, r => isqrtFrom n b (if (r + 2 ^ b) * (r + 2 ^ b) ≤ n then r + 2 ^ b else r)

def isqrt (n : Nat) : Nat := isqrtFrom n (Nat.log2 n / 2 + 1) 0

/-- Round √(num/den) with the exponent `e`: at least 60 bits of the root and a sticky bit decide every rounding,
since no rounding boundary lies strictly between two such roots. -/
def fsqrtQ (t : ETy) (rm : Rm) (num den : Nat) (e : Int) : Nat :=
  let e2 := e % 2
  let n := num * 2 ^ e2.toNat
  let k := 128 + Nat.log2 den
  let x := n * 2 ^ (2 * k)
  let r := isqrt (x / den)
  let exact := decide (r * r * den = x)
  fround t rm false false (2 * r + b2n (!exact)) 1 ((e - e2) / 2 - (k : Int) - 1)

def fvSqrt (t : ETy) (rm : Rm) (a : FV) : Nat :=
  match a with
  | .nan => canonNan t
  | .inf s => if s then canonNan t else finf t false false
  | .fin s m e => if m = 0 then fzero t s else if s then canonNan t else fsqrtQ t rm m 1 e

def fvRsq (t : ETy) (rm : Rm) (a : FV) : Nat :=
  match a with
  | .nan => canonNan t
  | .inf s => if s then canonNan t else fzero t false
  | .fin s m e => if m = 0 then finf t false s else if s then canonNan t else fsqrtQ t rm 1 m (-e)

/-- Bits of the fixed-point numbers below. -/
def fxK : Nat := 320
/-- ⌊ln 2 × 2^320⌋. -/
def fxLn2 : Nat := 1480553391661173448385607439722553250922680800745876974795605978609098082859138712941075737848984

/-- Σ y^n / n! from term `n` on, with `term` the current one (fixed point). -/
def expSeries (y : Nat) : Nat → Nat → Nat → Nat → Nat
  | 0, _, _, acc => acc
  | f + 1, n, term, acc => expSeries y f (n + 1) (term * y / 2 ^ fxK / n) (acc + term)

/-- 2^(x / 2^320) for a fraction x, in fixed point: between 1 and 2. -/
def exp2Frac (x : Nat) : Nat :=
  let y := x * fxLn2 / 2 ^ fxK
  expSeries y 90 1 (2 ^ fxK) 0

/-- 2^a rounded (R181). Exact for an integer a; otherwise the value is irrational, and 250 of its bits with a
sticky bit decide the rounding (DEDUCED: log 25). -/
def fvExp2 (t : ETy) (rm : Rm) (a : FV) : Nat :=
  match a with
  | .nan => canonNan t
  | .inf s => if s then fzero t false else finf t false false
  | .fin s m e =>
    if m = 0 then fround t rm false false 1 1 0
    else
      let big : Int := (Nat.log2 m : Int) + e
      if 9 ≤ big then (if s then fround t rm false false 1 1 (-600) else fround t rm false false 1 1 600)
      else
        let d := finDy s m e
        -- d × 2^320 as an integer: e is at least −149
        let fx : Int := d.m * 2 ^ (d.e + 320).toNat
        let ip : Int := fx / 2 ^ fxK
        let fp : Nat := (fx % 2 ^ fxK).toNat
        if fp = 0 then fround t rm false false 1 1 ip
        else fround t rm false false (2 * (exp2Frac fp / 2 ^ 70) + 1) 1 (ip - 251)

/-- Σ z^(2k+1)/(2k+1) from term `k` on (fixed point). -/
def atanhSeries (z2 : Nat) : Nat → Nat → Nat → Nat → Nat
  | 0, _, _, acc => acc
  | f + 1, k, p, acc => atanhSeries z2 f (k + 1) (p * z2 / 2 ^ fxK) (acc + p / (2 * k + 1))

/-- log2 (x / 2^320) in fixed point for 1 ≤ x / 2^320 < 2. -/
def log2Frac (x : Nat) : Nat :=
  let z := (x - 2 ^ fxK) * 2 ^ fxK / (x + 2 ^ fxK)
  2 * atanhSeries (z * z / 2 ^ fxK) 110 0 z 0 * 2 ^ fxK / fxLn2

/-- log2 a rounded (R181), exact for a power of two (DEDUCED as above: log 25). -/
def fvLog2 (t : ETy) (rm : Rm) (a : FV) : Nat :=
  match a with
  | .nan => canonNan t
  | .inf s => if s then canonNan t else finf t false false
  | .fin s m e =>
    if m = 0 then finf t false true
    else if s then canonNan t
    else
      let l := Nat.log2 m
      let n : Int := (l : Int) + e
      if m = 2 ^ l then froundDy t rm false ⟨n, 0⟩
      else
        let x := m * 2 ^ (320 - l)
        let v : Int := n * 2 ^ fxK + (log2Frac x : Int)
        fround t rm false (decide (v < 0)) (2 * (v.natAbs / 2 ^ 40) + 1) 1 (-281)

/-! ### Integers (R78, R79, R86) -/

/-- Smallest and largest value of an integer type. -/
def tyMin (t : ETy) : Int := if t.isSigned then -(2 ^ (t.width - 1) : Nat) else 0
def tyMax (t : ETy) : Int := if t.isSigned then (2 ^ (t.width - 1) : Nat) - 1 else (2 ^ t.width : Nat) - 1

/-- The integer an element of an integer type holds. -/
def tyVal (t : ETy) (x : Nat) : Int := if t.isSigned then sgn t.width x else (x % 2 ^ t.width : Nat)

def clampI (lo hi x : Int) : Int := if x < lo then lo else if hi < x then hi else x

/-- Narrow an exact integer result: wrapped, or clamped once under .SAT (R79). -/
def narrow (t : ETy) (sat : Bool) (x : Int) : Nat :=
  wrapI t.width (if sat then clampI (tyMin t) (tyMax t) x else x)

/-- Float to integer (R86): rounded, then clamped; ±∞ the limit, NaN 0. -/
def fvToInt (t : ETy) (rm : Rm) (a : FV) : Nat :=
  match a with
  | .nan => 0
  | .inf s => wrapI t.width (if s then tyMin t else tyMax t)
  | .fin s m e =>
    let (n, d) := scale2 m 1 e
    let k : Int := roundQ rm s n d
    wrapI t.width (clampI (tyMin t) (tyMax t) (if s then -k else k))

/-- VCVT of one element (R86). -/
def cvtElem (dst src : ETy) (rm : Rm) (sat nan : Bool) (x : Nat) : Nat :=
  if src.isFloat then
    if dst.isFloat then fvCvt dst rm nan (fdec src x) else fvToInt dst rm (fdec src x)
  else
    let v := tyVal src x
    if dst.isFloat then (if v = 0 then fzero dst false else fround dst rm nan (decide (v < 0)) v.natAbs 1 0)
    else if src.width < dst.width then wrapI dst.width v
    else narrow dst sat v

/-! ### The B4 block family (R87 to R91) -/

/-- Twice the decoded value D of a code (R88). -/
def b4Twice (q : B4Ty) (code : Nat) : Int :=
  match q with
  | .uni => 2 * sgn 4 code
  | .e2m1 =>
    let v : Int := ([0, 1, 2, 3, 4, 6, 8, 12] : List Nat).getD (code % 8) 0
    if 8 ≤ code % 16 then -v else v
  | .pow =>
    let v : Int := ([0, 2, 4, 8, 16, 32, 64, 128] : List Nat).getD (code % 8) 0
    if 8 ≤ code % 16 then -v else v
  | .hyb =>
    let v : Int := ([0, 2, 4, 6, 8, 16, 32, 64] : List Nat).getD (code % 8) 0
    if 8 ≤ code % 16 then -v else v

/-- D × 2^(E−32). -/
def b4Val (q : B4Ty) (code e : Nat) : Dy := ⟨b4Twice q code, (e : Int) - 33⟩

/-- Twice Vmax (R90). -/
def b4TwiceMax (q : B4Ty) : Nat :=
  match q with
  | .uni => 14 | .e2m1 => 12 | .pow => 128 | .hyb => 64

/-- The smallest E from `e` with m ≤ Vmax × 2^(E−32), at most 63 (R90). -/
def b4Exp (q : B4Ty) (m : Dy) : Nat → Nat → Nat
  | 0, e => e
  | f + 1, e => if e < 63 && Dy.lt ⟨b4TwiceMax q, (e : Int) - 33⟩ m then b4Exp q m f (e + 1) else e

def Dy.abs (a : Dy) : Dy := ⟨a.m.natAbs, a.e⟩

/-- The code nearest to y under block exponent E, ties to the code with bit 0 clear; zero results give 0x0
(R90). -/
def b4Nearest (q : B4Ty) (e : Nat) (y : Dy) : Nat :=
  let cand := (upto 16).filter fun c => !(c = 8 && q != .uni)
  let dist (c : Nat) : Dy := ((b4Val q c e).add ⟨-y.m, y.e⟩).abs
  let best := cand.foldl (fun b c =>
    if (dist c).lt (dist b) || (!(dist b).lt (dist c) && c % 2 = 0 && b % 2 = 1) then c else b) 0
  if b4Twice q best = 0 then 0 else best

/-- The code of an input value (R90). -/
def b4Code (q : B4Ty) (e : Nat) (x : FV) : Nat :=
  match x with
  | .nan => 0
  | .inf s => if s then (if q = .uni then 8 else 15) else 7
  | .fin s m k => b4Nearest q e (finDy s m k)

/-- Largest finite magnitude of a block. -/
def b4Max (xs : List FV) : Dy :=
  xs.foldl (fun a x =>
    match x with
    | .fin _ m e => if a.lt ⟨m, e⟩ then ⟨m, e⟩ else a
    | .nan => a
    | .inf _ => a) Dy.zero

/-- VQNT of one block: its exponent and codes (R90). -/
def b4Quant (q : B4Ty) (xs : List FV) : Nat × List Nat :=
  let e := b4Exp q (b4Max xs) 64 0
  (e, xs.map (b4Code q e))

/-- TYPE × 64 + E (R87). -/
def b4Scale (q : B4Ty) (e : Nat) : Nat := q.code.toNat * 64 + e

/-- Exact value of a code under a scale byte. -/
def b4Deq (scale code : Nat) : Dy := b4Val (B4Ty.ofCode (BitVec.ofNat 2 (scale / 64))) code (scale % 64)

/-- A dyadic number to a format (R86, R91); an exact zero is +0. -/
def dyCvt (t : ETy) (rm : Rm) (nan : Bool) (x : Dy) : Nat :=
  if x.m = 0 then fzero t false else fround t rm nan (decide (x.m < 0)) x.m.natAbs 1 x.e

/-! ### Reductions (R92 to R94, R199) -/

/-- One step of VRED and VSCAN. -/
def redStep (op : RedOp) (t : ETy) (rm : Rm) (sat : Bool) (x y : Nat) : Nat :=
  match op with
  | .sum => if t.isFloat then fvAdd t rm (fdec t x) (fdec t y) else narrow t sat (tyVal t x + tyVal t y)
  | .min => if t.isFloat then fminmax t false x y else if tyVal t x ≤ tyVal t y then x else y
  | .max => if t.isFloat then fminmax t true x y else if tyVal t x ≤ tyVal t y then y else x
  | .and => x &&& y
  | .or => x ||| y
  | .xor => x ^^^ y

/-- The identity, when every element is absent (R199). -/
def redIdent (op : RedOp) (t : ETy) : Nat :=
  match op with
  | .sum => 0
  | .min => if t.isFloat then finf t false false else wrapI t.width (tyMax t)
  | .max => if t.isFloat then finf t false true else wrapI t.width (tyMin t)
  | .and => 2 ^ t.width - 1
  | .or => 0
  | .xor => 0

/-- A NaN element is written as the canonical NaN (R199). -/
def canonElem (t : ETy) (x : Nat) : Nat := if t.isFloat && fvNan (fdec t x) then canonNan t else x

/-- Combine two elements of which either may be absent (R93). -/
def redPair (f : Nat → Nat → Nat) (a b : Option Nat) : Option Nat :=
  match a, b with
  | none, x => x
  | some x, none => some x
  | some x, some y => some (f x y)

/-- The pairwise tree of R92: s = N/2, N/4, …, 1; `k` halvings of a list of 2^k elements. -/
def redTree (f : Nat → Nat → Nat) : Nat → List (Option Nat) → Option Nat
  | 0, l => l.headD none
  | k + 1, l => redTree f k (List.zipWith (redPair f) (l.take (2 ^ k)) (l.drop (2 ^ k)))

/-- The Kogge–Stone steps d = 1, 2, 4, … of R94. -/
def scanSteps (f : Nat → Nat → Nat) : Nat → Nat → List (Option Nat) → List (Option Nat)
  | 0, _, l => l
  | k + 1, d, l => scanSteps f k (2 * d) (List.zipWith (redPair f) (List.replicate d none ++ l) l)

end Sys2Proof.Machine
end

