-- ==== Sys2Proof/Machine/Lane.lean ====
section
/-!
DEFINITION. What lane instructions share (spec/07, R175 to R178, R189; spec/04, R106 to R111): enabled elements,
V, C and M destinations, and chain sources.
-/

namespace Sys2Proof.Machine

/-- Lanes whose elements of width `w` are enabled by a lane mask: a 64-bit element follows its even lane
(R175). -/
def enabled (w : Nat) (g : W64) : W64 :=
  if w = 64 then maskOf fun i => g.getLsbD (i / 2 * 2) else g

/-- A write with latency `l`, or an interlocked one, which a word with a C source makes (R101). -/
def Strand.put (m : Strand) (il : Bool) (l : Nat) (d : Dest) (mask : W64) (v : Lanes) : Strand :=
  if il then m.writeIl d mask v else m.writeAt l d mask v

/-- A V destination restricted to the lanes `part` (R177): enabled lanes take the value, the others keep theirs or
become 0 under .Z. -/
def Strand.putV (m : Strand) (il : Bool) (l : Nat) (d : VReg) (z : Bool) (part e : W64) (v : Lanes) : Strand :=
  m.put il l (.v d) (if z then part else part &&& e) (v &&& laneMask e)

/-- Chain registers among the operands, in operand order. -/
def vcChains : OpVC → List CReg
  | .v _ => []
  | .c n => [n]
def vscChains : OpVSC → List CReg
  | .v _ => []
  | .s _ => []
  | .c n => [n]
def selChains : OpSel → List CReg
  | .m _ => []
  | .v _ => []
  | .c n => [n]

/-- Chain sources are read: streaming and full reads let their producers end, and a .K consumer makes its source
SPENT (R108, R110). -/
def Strand.readChains (m : Strand) (k : Bool) (cs : List CReg) : Strand :=
  cs.foldl (fun x c => if k then x.spend c else x.fill c) m

/-- Three operand values of a word. -/
structure Opnds where
  a : Lanes
  b : Lanes
  c : Lanes

/-- The V or C destination of a word whose lanes are `val` (R107, R177). -/
def Strand.putVC (m : Strand) (i : Instr) (chains : List CReg) (k : Bool) (l w : Nat) (d : OpVC) (z : Bool) (g : W64)
    (o : Opnds) (val : Lanes) : Strand :=
  let m1 := m.readChains k chains
  match d with
  | .v n => m1.putV (!chains.isEmpty) l n z allLanes (enabled w g) val
  | .c n => m1.produce n (encode i) g val o.a o.b o.c

/-- A lane instruction with per-element function `f` over up to three operands (R177). -/
def elemWord (h : Hdr) (i : Instr) (l : Nat) (d : OpVC) (z : Bool) (w : Nat) (reads : List Dest)
    (chains : List CReg) (k : Bool) (ops : Strand → Opnds) (f : Nat → Nat → Nat → Nat) (s : State) : Out :=
  laneWord h reads chains (fun g s1 =>
    let o := ops s1.me
    let val := ofElems w fun j => f (elemAt w o.a j) (elemAt w o.b j) (elemAt w o.c j)
    .ok (s1.setMe (s1.me.putVC i chains k l w d z g o val))) s

/-- A V destination whose register value is `f` of the strand's registers, without chain operands. -/
def vecWord (h : Hdr) (l : Nat) (d : VReg) (z : Bool) (w : Nat) (reads : List Dest) (f : Strand → Lanes)
    (s : State) : Out :=
  laneWord h reads [] (fun g s1 =>
    .ok (s1.setMe (s1.me.putV false l d z allLanes (enabled w g) (f s1.me)))) s

/-- A scalar destination, written whole (R177). -/
def scalWord (h : Hdr) (l : Nat) (d : SReg) (reads : List Dest) (f : W64 → Strand → Option W64) (s : State) : Out :=
  laneWord h reads [] (fun g s1 =>
    match f g s1.me with
    | some v => .ok (s1.setMe (s1.me.setS l d v))
    | none => .ok s1) s

/-- A word that writes a lane predicate pair (R189). Under .U a guard of 0 in every lane suppresses nothing, and
reads every operand but a chain register (R104). -/
def maskPairWord (h : Hdr) (mt mf : MReg) (mode : PMode) (reads : List Dest) (chains : List CReg) (k : Bool)
    (c : Strand → Nat → Bool) (s : State) : Out :=
  let s1 := s.setMe s.me.settle
  let stp := s1.me.step
  let g := s1.me.laneGuard h
  .next (State.finish s1.me.pc h.stall stp chains.head?
    (if s1.me.early (hdrReads h) then .raise s1 .stallCheck
     else if g = 0 && mode != .u then .ok s1
     else if s1.me.early reads then .raise s1 .stallCheck
     else if g != 0 && chains.any s1.me.spent then .raise s1 .chainSpent
     else
       let m := if g = 0 then s1.me else s1.me.readChains k chains
       .ok (s1.setMe (writeMPair (fun x n mask v => x.put (!chains.isEmpty) 2 (.m n) mask (v.setWidth 2048)) m mt mf
         mode g (maskOf (c s1.me))))))

end Sys2Proof.Machine
end

