-- ==== Sys2Proof/Machine/LaneInt.lean ====
section
/-!
DEFINITION. Family 3: lane integer arithmetic, logic, shifts, movement and predicates (spec/07, R187 to R202;
latencies R101).
-/

namespace Sys2Proof.Machine

/-- Two operands of a V, V-or-S word of type `ty`. -/
def ops2 (a : VReg) (b : OpVS) (w : Nat) (m : Strand) : Opnds := ⟨m.readV a, vsRead m w b, 0⟩

/-- Integer arithmetic of R187: exact, then narrowed. -/
def intWord (h : Hdr) (i : Instr) (l : Nat) (d a : VReg) (b : OpVS) (ty : ETy) (sat z : Bool)
    (f : Int → Int → Int) (s : State) : Out :=
  elemWord h i l (.v d) z ty.width (.v a :: vsReads b) [] false (ops2 a b ty.width)
    (fun x y _ => narrow ty sat (f (tyVal ty x) (tyVal ty y))) s

def execViadd (h : Hdr) (d a : VReg) (b : OpVS) (ty : ETy) (sat z : Bool) (s : State) : Out :=
  intWord h (.viadd h d a b ty sat z) 2 d a b ty sat z (· + ·) s
def execVisub (h : Hdr) (d a : VReg) (b : OpVS) (ty : ETy) (sat z : Bool) (s : State) : Out :=
  intWord h (.visub h d a b ty sat z) 2 d a b ty sat z (· - ·) s
def execVimul (h : Hdr) (d a : VReg) (b : OpVS) (ty : ETy) (sat z : Bool) (s : State) : Out :=
  intWord h (.vimul h d a b ty sat z) 4 d a b ty sat z (· * ·) s
def execVimad (h : Hdr) (d a : VReg) (b c : OpVS) (ty : ETy) (sat z : Bool) (s : State) : Out :=
  elemWord h (.vimad h d a b c ty sat z) 4 (.v d) z ty.width (.v a :: (vsReads b ++ vsReads c)) [] false
    (fun m => ⟨m.readV a, vsRead m ty.width b, vsRead m ty.width c⟩)
    (fun x y w => narrow ty sat (tyVal ty x * tyVal ty y + tyVal ty w)) s

/-- Bitwise words (R188). -/
def bitWord (h : Hdr) (i : Instr) (d a : VReg) (b : OpVS) (ty : ETy) (z : Bool) (f : Nat → Nat → Nat)
    (s : State) : Out :=
  elemWord h i 2 (.v d) z ty.width (.v a :: vsReads b) [] false (ops2 a b ty.width) (fun x y _ => f x y) s

def execVand (h : Hdr) (d a : VReg) (b : OpVS) (ty : ETy) (z : Bool) (s : State) : Out :=
  bitWord h (.vand h d a b ty z) d a b ty z (· &&& ·) s
def execVor (h : Hdr) (d a : VReg) (b : OpVS) (ty : ETy) (z : Bool) (s : State) : Out :=
  bitWord h (.vor h d a b ty z) d a b ty z (· ||| ·) s
def execVxor (h : Hdr) (d a : VReg) (b : OpVS) (ty : ETy) (z : Bool) (s : State) : Out :=
  bitWord h (.vxor h d a b ty z) d a b ty z (· ^^^ ·) s

/-- The shifts of R188 on one element of width `w`. -/
def shlE (w x n : Nat) : Nat := if n < w then x * 2 ^ n % 2 ^ w else 0
def shrE (w x n : Nat) : Nat := if n < w then x / 2 ^ n else 0
def sarE (w x n : Nat) : Nat := wrapI w (sgn w x / (2 ^ (if n < w then n else w) : Nat))

/-- A shift by an immediate. -/
def shiftIWord (h : Hdr) (i : Instr) (d a : VReg) (n : Fin 64) (ty : ETy) (z : Bool) (f : Nat → Nat → Nat → Nat)
    (s : State) : Out :=
  elemWord h i 2 (.v d) z ty.width [.v a] [] false (fun m => ⟨m.readV a, 0, 0⟩) (fun x _ _ => f ty.width x n.val) s

def execVshl (h : Hdr) (d a : VReg) (b : OpVS) (ty : ETy) (z : Bool) (s : State) : Out :=
  bitWord h (.vshl h d a b ty z) d a b ty z (shlE ty.width) s
def execVshlI (h : Hdr) (d a : VReg) (n : Fin 64) (ty : ETy) (z : Bool) (s : State) : Out :=
  shiftIWord h (.vshlI h d a n ty z) d a n ty z shlE s
def execVshr (h : Hdr) (d a : VReg) (b : OpVS) (ty : ETy) (z : Bool) (s : State) : Out :=
  bitWord h (.vshr h d a b ty z) d a b ty z (shrE ty.width) s
def execVshrI (h : Hdr) (d a : VReg) (n : Fin 64) (ty : ETy) (z : Bool) (s : State) : Out :=
  shiftIWord h (.vshrI h d a n ty z) d a n ty z shrE s
def execVsar (h : Hdr) (d a : VReg) (b : OpVS) (ty : ETy) (z : Bool) (s : State) : Out :=
  bitWord h (.vsar h d a b ty z) d a b ty z (sarE ty.width) s
def execVsarI (h : Hdr) (d a : VReg) (n : Fin 64) (ty : ETy) (z : Bool) (s : State) : Out :=
  shiftIWord h (.vsarI h d a n ty z) d a n ty z sarE s

/-- VMOV (R194): a copy of whole lanes, a producer, or the full read of a chain register. -/
def execVmov (h : Hdr) (d a : OpVC) (z : Bool) (s : State) : Out :=
  elemWord h (.vmov h d a z) 2 d z 32 (vcReads a) (vcChains a) false (fun m => ⟨vcRead m a, 0, 0⟩) (fun x _ _ => x) s

def execVbcast (h : Hdr) (d : VReg) (a : SReg) (ty : ETy) (z : Bool) (s : State) : Out :=
  vecWord h 2 d z ty.width [.s a] (fun m => spread ty.width (m.readS a)) s
def execVbcastI (h : Hdr) (d a : VReg) (k : BitVec 12) (ty : ETy) (z : Bool) (s : State) : Out :=
  vecWord h 2 d z ty.width [.v a] (fun m =>
    let x := elemAt ty.width (m.readV a) k.toNat
    ofElems ty.width fun _ => x) s

/-- An element as a doubleword: I types sign-extended, all others zero-extended (R195). -/
def extElem (ty : ETy) (x : Nat) : W64 :=
  if ty.isSigned then BitVec.ofInt 64 (sgn ty.width x) else BitVec.ofNat 64 x

/-- VEXTR of element `k`: unchanged when the lane of the element is off (R195). -/
def extract (ty : ETy) (a : VReg) (k : Nat) (g : W64) (m : Strand) : Option W64 :=
  if g.getLsbD (k * ty.width / 32) then some (extElem ty (elemAt ty.width (m.readV a) k)) else none

def execVextr (h : Hdr) (d : SReg) (a : VReg) (b : SReg) (ty : ETy) (s : State) : Out :=
  scalWord h 3 d [.v a, .s b] (fun g m => extract ty a ((m.readS b).toNat % ty.count) g m) s
def execVextrI (h : Hdr) (d : SReg) (a : VReg) (k : BitVec 12) (ty : ETy) (s : State) : Out :=
  scalWord h 3 d [.v a] (extract ty a k.toNat) s

def execViota (h : Hdr) (d : VReg) (a : SReg) (stp : BitVec 12) (ty : ETy) (z : Bool) (s : State) : Out :=
  vecWord h 2 d z ty.width [.s a] (fun m => ofElems ty.width fun j => (m.readS a).toNat + j * stp.toNat) s

def execVperm (h : Hdr) (d a b : VReg) (ty : ETy) (z : Bool) (s : State) : Out :=
  vecWord h 3 d z ty.width [.v a, .v b] (fun m =>
    ofElems ty.width fun j => elemAt ty.width (m.readV a) (elemAt ty.width (m.readV b) j % ty.count)) s

/-- Element (j + k) mod N of A to element j (R197). -/
def rotate (ty : ETy) (v : Lanes) (k : Nat) : Lanes :=
  ofElems ty.width fun j => elemAt ty.width v ((j + k) % ty.count)

def execVrot (h : Hdr) (d a : VReg) (b : SReg) (ty : ETy) (z : Bool) (s : State) : Out :=
  vecWord h 3 d z ty.width [.v a, .s b] (fun m => rotate ty (m.readV a) ((m.readS b).toNat % ty.count)) s
def execVrotI (h : Hdr) (d a : VReg) (k : BitVec 12) (ty : ETy) (z : Bool) (s : State) : Out :=
  vecWord h 3 d z ty.width [.v a] (fun m => rotate ty (m.readV a) k.toNat) s

/-- VCOMP: the selected lanes packed toward lane 0; the guard chooses source lanes (R198). -/
def execVcomp (h : Hdr) (d a : VReg) (c : MReg) (ty : ETy) (z : Bool) (s : State) : Out :=
  laneWord h [.v a, .m c] [] (fun g s1 =>
    let m := s1.me
    let sel := m.readM c &&& g
    let xs := ((upto 64).filter fun i => sel.getLsbD i).map fun i => elemAt ty.width (m.readV a) i
    let low := maskOf fun i => decide (i < xs.length)
    .ok (s1.setMe (m.putV false 3 d z allLanes low (ofElems ty.width fun i => xs.getD i 0)))) s

/-- The bitmap bit of VBTST for lane `i` (R192). -/
def bitmapBit (m : Strand) (b : VReg) (c : OpVS) (i : Nat) : Bool :=
  let x := laneAt (m.readV b) i
  match c with
  | .v n => (m.readV n).getLsbD (x % 2048)
  | .s n => (m.readS n).getLsbD (x % 64)

def execVbtst (h : Hdr) (mt mf : MReg) (b : VReg) (c : OpVS) (m : PMode) (s : State) : Out :=
  maskPairWord h mt mf m (.v b :: vsReads c) [] false (fun x i => bitmapBit x b c i) s

def execMlop (h : Hdr) (mt mf a b c : MReg) (ft : Byte) (m : PMode) (s : State) : Out :=
  maskPairWord h mt mf m [.m a, .m b, .m c] [] false
    (fun x i => ttBit ft ((x.readM a).getLsbD i) ((x.readM b).getLsbD i) ((x.readM c).getLsbD i)) s

def execMcnt (h : Hdr) (d : SReg) (a : MReg) (s : State) : Out :=
  scalWord h 2 d [.m a] (fun g m => some (BitVec.ofNat 64 (popcount (m.readM a &&& g)))) s

def execMfirst (h : Hdr) (d : SReg) (a : MReg) (s : State) : Out :=
  scalWord h 2 d [.m a] (fun g m => some (BitVec.ofNat 64 ((lowestOne (m.readM a &&& g)).getD 64))) s

/-- MFIRST.M (R202): only the lowest one bit, in enabled lanes; the others are kept, or cleared under .Z. -/
def execMfirstM (h : Hdr) (d a : MReg) (z : Bool) (s : State) : Out :=
  laneWord h [.m a] [] (fun g s1 =>
    let x := s1.me.readM a &&& g
    .ok (s1.setMe (s1.me.setM 2 d (if z then allLanes else g) (x &&& (0 - x))))) s

end Sys2Proof.Machine
end

