-- ==== Sys2Proof/Machine/Scalar.lean ====
section
/-!
DEFINITION. Family 0, scalar arithmetic and logic (spec/06, R146 to R148; latencies R101).
-/

namespace Sys2Proof.Machine

/-- A family 0 word: D takes `f` of the strand's registers with latency `l` (R147). -/
def aluWord (h : Hdr) (l : Nat) (d : SReg) (reads : List Dest) (f : State → W64) (s : State) : Out :=
  seqWord h reads (fun s1 => .ok (s1.setMe (s1.me.setS l d (f s1)))) s

/-- Two S sources. -/
def alu2 (h : Hdr) (l : Nat) (d a b : SReg) (f : W64 → W64 → W64) (s : State) : Out :=
  aluWord h l d [.s a, .s b] (fun s1 => f (s1.me.readS a) (s1.me.readS b)) s

/-- One S source. -/
def alu1 (h : Hdr) (l : Nat) (d a : SReg) (f : W64 → W64) (s : State) : Out :=
  aluWord h l d [.s a] (fun s1 => f (s1.me.readS a)) s

/-- imm32 of R147. -/
def sx32 (x : W32) : W64 := x.signExtend 64

/-- Bits [127:64] of the signed product. -/
def mulHigh (a b : W64) : W64 := BitVec.ofInt 64 (a.toInt * b.toInt / 2 ^ 64)
/-- Bits [127:64] of the unsigned product. -/
def mulHighN (a b : W64) : W64 := BitVec.ofNat 64 (a.toNat * b.toNat / 2 ^ 64)

/-- Signed quotient (R148): truncated toward zero; all ones by 0; −2^63 by −1 gives −2^63. -/
def divS (a b : W64) : W64 := if b = 0 then BitVec.allOnes 64 else BitVec.ofInt 64 (a.toInt.tdiv b.toInt)
/-- Unsigned quotient (R148). -/
def divU (a b : W64) : W64 := if b = 0 then BitVec.allOnes 64 else BitVec.ofNat 64 (a.toNat / b.toNat)
/-- Signed remainder with the sign of the dividend; the dividend by 0 (R148). -/
def remS (a b : W64) : W64 := if b = 0 then a else BitVec.ofInt 64 (a.toInt.tmod b.toInt)
def remU (a b : W64) : W64 := if b = 0 then a else BitVec.ofNat 64 (a.toNat % b.toNat)

/-- Shift amount: B[5:0] (R147). -/
def amt (b : W64) : Nat := fieldN b 0 6

def clz (a : W64) : W64 := if a = 0 then 64 else BitVec.ofNat 64 (63 - Nat.log2 a.toNat)
def ctz (a : W64) : W64 := BitVec.ofNat 64 ((lowestOne a).getD 64)

/-- A[pos + wid − 1 : pos], zero-extended (R147). -/
def bfxVal (a : W64) (pos wid : Nat) : W64 := BitVec.ofNat 64 (bitsAt a.toNat pos wid)
/-- D with bits [pos + wid − 1 : pos] replaced by A[wid − 1 : 0] (R147). -/
def bfiVal (d a : W64) (pos wid : Nat) : W64 :=
  let k : W64 := BitVec.ofNat 64 ((2 ^ wid - 1) * 2 ^ pos)
  (d &&& ~~~ k) ||| ((a <<< pos) &&& k)

def execAdd (h : Hdr) (d a b : SReg) (s : State) : Out := alu2 h 1 d a b (· + ·) s
def execAddi (h : Hdr) (d a : SReg) (imm : W32) (s : State) : Out := alu1 h 1 d a (· + sx32 imm) s
def execSub (h : Hdr) (d a b : SReg) (s : State) : Out := alu2 h 1 d a b (· - ·) s
def execMul (h : Hdr) (d a b : SReg) (s : State) : Out := alu2 h 3 d a b (· * ·) s
def execMulh (h : Hdr) (d a b : SReg) (s : State) : Out := alu2 h 3 d a b mulHigh s
def execMulhn (h : Hdr) (d a b : SReg) (s : State) : Out := alu2 h 3 d a b mulHighN s
def execDiv (h : Hdr) (d a b : SReg) (s : State) : Out := alu2 h 12 d a b divS s
def execDivn (h : Hdr) (d a b : SReg) (s : State) : Out := alu2 h 12 d a b divU s
def execRem (h : Hdr) (d a b : SReg) (s : State) : Out := alu2 h 12 d a b remS s
def execRemn (h : Hdr) (d a b : SReg) (s : State) : Out := alu2 h 12 d a b remU s
def execAnd (h : Hdr) (d a b : SReg) (s : State) : Out := alu2 h 1 d a b (· &&& ·) s
def execAndi (h : Hdr) (d a : SReg) (imm : W32) (s : State) : Out := alu1 h 1 d a (· &&& sx32 imm) s
def execOr (h : Hdr) (d a b : SReg) (s : State) : Out := alu2 h 1 d a b (· ||| ·) s
def execOri (h : Hdr) (d a : SReg) (imm : W32) (s : State) : Out := alu1 h 1 d a (· ||| sx32 imm) s
def execXor (h : Hdr) (d a b : SReg) (s : State) : Out := alu2 h 1 d a b (· ^^^ ·) s
def execXori (h : Hdr) (d a : SReg) (imm : W32) (s : State) : Out := alu1 h 1 d a (· ^^^ sx32 imm) s
def execAndn (h : Hdr) (d a b : SReg) (s : State) : Out := alu2 h 1 d a b (fun x y => x &&& ~~~ y) s
def execShl (h : Hdr) (d a b : SReg) (s : State) : Out := alu2 h 1 d a b (fun x y => x <<< amt y) s
def execShlI (h : Hdr) (d a : SReg) (n : Fin 64) (s : State) : Out := alu1 h 1 d a (· <<< n.val) s
def execShr (h : Hdr) (d a b : SReg) (s : State) : Out := alu2 h 1 d a b (fun x y => x >>> amt y) s
def execShrI (h : Hdr) (d a : SReg) (n : Fin 64) (s : State) : Out := alu1 h 1 d a (· >>> n.val) s
def execSar (h : Hdr) (d a b : SReg) (s : State) : Out := alu2 h 1 d a b (fun x y => x.sshiftRight (amt y)) s
def execSarI (h : Hdr) (d a : SReg) (n : Fin 64) (s : State) : Out := alu1 h 1 d a (·.sshiftRight n.val) s
def execRol (h : Hdr) (d a b : SReg) (s : State) : Out := alu2 h 1 d a b (fun x y => x.rotateLeft (amt y)) s
def execRolI (h : Hdr) (d a : SReg) (n : Fin 64) (s : State) : Out := alu1 h 1 d a (·.rotateLeft n.val) s
def execClz (h : Hdr) (d a : SReg) (s : State) : Out := alu1 h 1 d a clz s
def execCtz (h : Hdr) (d a : SReg) (s : State) : Out := alu1 h 1 d a ctz s
def execPopc (h : Hdr) (d a : SReg) (s : State) : Out := alu1 h 1 d a (fun x => BitVec.ofNat 64 (popcount x)) s
def execMin (h : Hdr) (d a b : SReg) (s : State) : Out := alu2 h 1 d a b (fun x y => if x.toInt ≤ y.toInt then x else y) s
def execMax (h : Hdr) (d a b : SReg) (s : State) : Out := alu2 h 1 d a b (fun x y => if x.toInt ≤ y.toInt then y else x) s
def execMinn (h : Hdr) (d a b : SReg) (s : State) : Out := alu2 h 1 d a b (fun x y => if x.toNat ≤ y.toNat then x else y) s
def execMaxn (h : Hdr) (d a b : SReg) (s : State) : Out := alu2 h 1 d a b (fun x y => if x.toNat ≤ y.toNat then y else x) s
def execSel (h : Hdr) (d a b : SReg) (c : QReg) (s : State) : Out :=
  aluWord h 1 d [.s a, .s b, .q c] (fun s1 => if s1.me.readQ c then s1.me.readS a else s1.me.readS b) s
def execMovi (h : Hdr) (d : SReg) (imm : BitVec 48) (s : State) : Out :=
  aluWord h 1 d [] (fun _ => imm.signExtend 64) s
/-- MOVIH reads its destination (R146). -/
def execMovih (h : Hdr) (d : SReg) (imm : BitVec 16) (s : State) : Out :=
  aluWord h 1 d [.s d] (fun s1 => imm ++ (s1.me.readS d).extractLsb' 0 48) s
def execMov (h : Hdr) (d a : SReg) (s : State) : Out := alu1 h 1 d a (fun x => x) s
/-- LEA adds the image base CODE (R147). -/
def execLea (h : Hdr) (d a : SReg) (imm : W32) (s : State) : Out :=
  aluWord h 1 d [.s a] (fun s1 => BitVec.ofNat 64 (s1.codeBase s1.me) + s1.me.readS a + sx32 imm) s
def execBfx (h : Hdr) (d a : SReg) (pos : BitVec 6) (wid : BitVec 7) (s : State) : Out :=
  alu1 h 1 d a (fun x => bfxVal x pos.toNat wid.toNat) s
/-- BFI reads its destination (R146). -/
def execBfi (h : Hdr) (d a : SReg) (pos : BitVec 6) (wid : BitVec 7) (s : State) : Out :=
  aluWord h 1 d [.s d, .s a] (fun s1 => bfiVal (s1.me.readS d) (s1.me.readS a) pos.toNat wid.toNat) s

end Sys2Proof.Machine
end

