-- ==== Sys2Proof/Machine/Control.lean ====
section
/-!
DEFINITION. Family 1: compares and predicate pairs, transfers with their delay windows, and hardware loops
(spec/06, R149 to R163).
-/

namespace Sys2Proof.Machine

def execCmp (h : Hdr) (pt pf : QReg) (a : SReg) (c : Cond) (m : PMode) (b : SReg) (s : State) : Out :=
  pairWord h pt pf m [.s a, .s b] 1 (fun x => condInt c 64 (x.readS a).toNat (x.readS b).toNat) s

def execCmpi (h : Hdr) (pt pf : QReg) (a : SReg) (c : Cond) (m : PMode) (imm : BitVec 28) (s : State) : Out :=
  pairWord h pt pf m [.s a] 1 (fun x => condInt c 64 (x.readS a).toNat (imm.signExtend 64).toNat) s

def execTstb (h : Hdr) (pt pf : QReg) (a : SReg) (m : PMode) (bit : Fin 64) (s : State) : Out :=
  pairWord h pt pf m [.s a] 1 (fun x => (x.readS a).getLsbD bit.val) s

/-- c := FT[4a + 2b + c'] (R151). -/
def execPlop (h : Hdr) (pt pf p1 p2 p3 : QReg) (ft : BitVec 8) (m : PMode) (s : State) : Out :=
  pairWord h pt pf m [.q p1, .q p2, .q p3] 1 (fun x => ttBit ft (x.readQ p1) (x.readQ p2) (x.readQ p3)) s

/-- PREP with an immediate target (R153). -/
def execPrep (h : Hdr) (bt : BReg) (tgt : W32) (s : State) : Out :=
  seqWord h [] (fun s1 => .ok (s1.setMe (s1.me.setB 1 bt tgt))) s

/-- PREP with a register target: A[31:0] (R153). -/
def execPrepReg (h : Hdr) (bt : BReg) (a : SReg) (s : State) : Out :=
  seqWord h [.s a] (fun s1 => .ok (s1.setMe (s1.me.setB 1 bt ((s1.me.readS a).setWidth 32)))) s

/-- A loop level is active. -/
def Strand.inLoop (m : Strand) : Bool := m.l0.act || m.l1.act

/-- A transfer opens: the pending transfer is set, and the PC takes the target at once when no delay word is
owed (R154). -/
def takeXfer (dly : Fin 4) (tgt : W32) (s1 : State) : Eff :=
  let m := s1.me
  if dly.val = 0 then .goto s1 fun x => { x with pc := tgt, attgt := true }
  else
    let x : Xfer := ⟨true, tgt, BitVec.ofNat 2 dly.val⟩
    match chainNext m.pc m.link with
    | none => .trap (s1.setMe { m with xfer := x }) .endOfChain allLanes 0
    | some p => .goto s1 fun y => { y with pc := p, xfer := x }

def execXfer (h : Hdr) (bt : BReg) (dly : Fin 4) (s : State) : Out :=
  seqWord h [.b bt] (fun s1 =>
    if s1.me.inWindow || s1.me.inLoop then .raise s1 .illegal
    else takeXfer dly (s1.me.readB bt) s1) s

/-- The link register takes Seq(PC, DLY + 1) (R154). -/
def writeLink (m : Strand) (k : OpLink) (v : W32) : Strand :=
  match k with
  | .s n => m.setS 1 n (v.setWidth 64)
  | .b n => m.setB 1 n v

def execXferL (h : Hdr) (lnk : OpLink) (bt : BReg) (dly : Fin 4) (s : State) : Out :=
  seqWord h [.b bt] (fun s1 =>
    if s1.me.inWindow || s1.me.inLoop then .raise s1 .illegal
    else s1.withSeq (dly.val + 1) fun s2 lk =>
      takeXfer dly (s2.me.readB bt) (s2.setMe (writeLink s2.me lnk lk))) s

/-- Every stage predicate of a level to 0 (R158). -/
def zeroStages (m : Strand) : Strand := m.l0.stages.foldl (fun x q => x.setQ 0 q false) m

/-- A skipped body ends at the last word of level 0's body, or LBRK ends it: that level wraps or closes
(R158, R160, R161). `n` is how many chain steps lead to the word after the body; `m` holds the levels at the
body's last word. When the chain ends there, the word raises END-OF-CHAIN with its own PC and does not retire
(DESIGN CHOICE, log 73). -/
def leaveBody (s1 : State) (m : Strand) (n : Nat) : Eff :=
  if (m.bodyEnd 2).2 then .goto s1 fun x => ({ x with l0 := m.l0, l1 := m.l1 }.bodyEnd 2).1
  else s1.withSeq n fun s2 p =>
    if p = 0 then .raise s2 .endOfChain
    else .goto s2 fun x =>
      let y := ({ x with l0 := m.l0, l1 := m.l1 }.bodyEnd 2).1
      { y with pc := p, l0 := if y.l0.act then { y.l0 with pos := y.l0.pos + 1 } else y.l0 }

/-- LOOP (R158). START only names the next word in chain order, and nothing is read ahead (R429); a LOOP that is the
chain's last word opens its level, and END-OF-CHAIN follows with its PC (R120). -/
def execLoop (h : Hdr) (cnt : SReg) (len : BitVec 12) (st : BitVec 4) (s : State) : Out :=
  seqWord h [.s cnt] (fun s1 =>
    let m := s1.me
    let n := m.readS cnt
    let k := len.toNat
    if m.inWindow then .raise s1 .illegal
    else if m.l0.act && m.l1.act then .raise s1 .illegal
    else if m.l0.act && decide (1 < m.l0.st.toNat) then .raise s1 .illegal
    else if m.l0.act && decide (m.l0.len.toNat < m.l0.pos + k) then .raise s1 .illegal
    else if 2 ^ 64 - st.toNat < n.toNat then .raise s1 .illegal
    else if n = 0 then
      if m.l0.act && m.l0.pos + k = m.l0.len.toNat then
        leaveBody s1 { m with l0 := { m.l0 with pos := m.l0.pos + k } } (k + 1)
      else s1.withSeq (k + 1) fun s2 p =>
        if p = 0 then .raise s2 .endOfChain
        else .goto s2 fun x =>
          { x with pc := p, l0 := if x.l0.act then { x.l0 with pos := x.l0.pos + k + 1 } else x.l0 }
    else
      let opened (x : Strand) (start : W32) : Strand :=
        let l1 := if x.l0.act then { x.l0 with pos := x.l0.pos + k } else x.l1
        let l0 : Level := ⟨n + BitVec.ofNat 64 st.toNat - 1, start, len, st, true, false, 1⟩
        zeroStages { x with l0 := l0, l1 := l1 }
      match chainNext m.pc m.link with
      | none => .trap (s1.setMe (opened (m.clock h.stall) 0)) .endOfChain allLanes 0
      | some p => .goto s1 fun x => (opened x p).iterStart) s

/-- LBRK closes level 0 as though its last word had just retired with COUNT 0 (R161). -/
def execLbrk (h : Hdr) (s : State) : Out :=
  seqWord h [] (fun s1 =>
    let m := s1.me
    if m.inWindow || !m.l0.act then .raise s1 .illegal
    else leaveBody s1 { m with l0 := { m.l0 with count := 0, pos := m.l0.len.toNat } }
      (m.l0.len.toNat - m.l0.pos + 1)) s

/-- VANY and VALL: the scalar guard is that some lane is enabled (R152). -/
def maskWord (h : Hdr) (pt pf : QReg) (a : MReg) (mode : PMode) (c : W64 → W64 → Bool) (s : State) : Out :=
  let s1 := s.setMe s.me.settle
  let stp := s1.me.step
  let g := s1.me.laneGuard h
  .next (State.finish s1.me.pc h.stall stp none
    (if s1.me.early (hdrReads h) then .raise s1 .stallCheck
     else if g = 0 && mode != .u then .ok s1
     else if s1.me.early [.m a] then .raise s1 .stallCheck
     else if stageClash s1.me [pt, pf] then .raise s1 .illegal
     else .ok (s1.setMe (writePair s1.me 2 pt pf mode (g != 0) (c (s1.me.readM a) g)))))

def execVany (h : Hdr) (pt pf : QReg) (a : MReg) (m : PMode) (s : State) : Out :=
  maskWord h pt pf a m (fun x g => x &&& g != 0) s

def execVall (h : Hdr) (pt pf : QReg) (a : MReg) (m : PMode) (s : State) : Out :=
  maskWord h pt pf a m (fun x g => x &&& g == g) s

end Sys2Proof.Machine
end

