-- ==== Sys2Proof/Machine/Issue.lean ====
section
/-!
DEFINITION. What comes before a word's meaning: which strand a tile issues (spec/12, R319, R320), the fetch
(spec/05, R118 to R121) and the decode checks (R143).
-/

namespace Sys2Proof.Machine

/-- A requested save can begin: no delay window is open, and a pipelined level 0 has drained (R321). -/
def Strand.saveReady (m : Strand) : Bool :=
  !m.xfer.valid && (!(m.l0.act && decide (1 < m.l0.st.toNat)) || m.drained)

/-- The strand may issue (R319), its launch has started (R40) and has no cause yet (R48). A strand of a context that
is not RUNNING goes on to its boundary when a save of it is requested (R321 to R323; log 74). -/
def State.eligible (s : State) (m : Strand) : Bool :=
  m.id != 0 && m.inSlot && !m.halted && !m.debug && m.wait = .none &&
  !(m.saveReq.isSome && m.saveReady) &&
  ((s.ctx m.ctx).state = .running || m.saveReq.isSome) &&
  match (s.ctx m.ctx).cur with
  | some l => l.started && l.ending.isNone
  | none => false

/-- The eligible strand in a slot of a tile. -/
def State.slotStrand (s : State) (tile slot : Nat) : Option Strand :=
  s.strands.find? fun m => m.inSlot && m.tile = tile && m.slot = slot && s.eligible m

/-- The issue selector's choice for a tile (R320): the slot that issues while its strand is eligible and its quantum lasts,
otherwise the next slot in increasing order whose strand is; that slot itself comes last. -/
def State.selected (s : State) (tile : Nat) : Option Strand :=
  let t := tget ⟨0, 0⟩ s.sels tile
  let first := if Config.quantum ≤ t.cycles then t.slot + 1 else t.slot
  (upto 4).findSome? fun i => s.slotStrand tile ((first + i) % 4)

/-- The selector of a tile after a cycle: it has moved on when its slot's strand stopped being eligible or its quantum was
over, and then its count starts again (R320). -/
def State.selNext (s : State) (tile : Nat) : TileSel :=
  let t := tget ⟨0, 0⟩ s.sels tile
  match s.selected tile with
  | some m => if m.slot = t.slot && decide (t.cycles < Config.quantum) then t else ⟨m.slot, 0⟩
  | none => ⟨t.slot, 0⟩

/-- The selector turns to a slot. -/
def State.select (s : State) (tile slot : Nat) : State :=
  let t := tget ⟨0, 0⟩ s.sels tile
  if t.slot = slot then s else { s with sels := tset ⟨0, 0⟩ s.sels tile ⟨slot, 0⟩ }

/-- The word at the strand's PC with its link word (R53, R118, R119), or the cause. -/
def State.fetchWord (s : State) (m : Strand) : Except (Cause × Nat) (W32 × Word96) :=
  if fieldN m.pc 23 9 != 0 || decide (5 ≤ fieldN m.pc 0 3) then .error (.lineOwner, 0)
  else match s.fetchLine m (fieldN m.pc 3 29) with
    | .error e => .error e
    | .ok l =>
      if seqLinkOk (lineLink l) && decide (fieldN m.pc 0 3 < linkNslot (lineLink l)) then
        .ok (lineLink l, lineWord l (fieldN m.pc 0 3))
      else .error (.lineOwner, 0)

/-- Encoding version of a strand's image. -/
def State.version (s : State) (m : Strand) : Nat :=
  match s.launchOf m with
  | some l => l.version
  | none => 3

/-- The cause of a word the decoder refuses, or PRIV (R143). -/
def decodeWord (ver owner : Nat) (sup : Bool) (w : Word96) : Except Cause Instr :=
  match decode ver owner w with
  | .error _ => .error .illegal
  | .ok i => if i.needsPriv && !sup then .error .priv else .ok i

/-- Fetch and decode for the strand in focus (R307, steps 1 and 2): the state in which the word executes and the
word, or the state after the trap. -/
def State.fetch (s : State) : State × Option Instr :=
  let m0 := s.me
  let m := if m0.xfer.valid && m0.xfer.rem = 0 then { m0 with pc := m0.xfer.tgt, attgt := true, xfer := Xfer.none } else m0
  let s0 := s.setMe m
  match s0.fetchWord m with
  | .error (c, a) =>
    let t : TrapInfo := { pc := m.pc, addr := BitVec.ofNat 64 a, attgt := m.attgt }
    if c = .pageAbsent then (s0.park m 3 [a] t, none) else (s0.endTrap m c t, none)
  | .ok (k, w) =>
    let s1 := s0.touchLine m (fieldN m.pc 3 29)
    match decodeWord (s1.version m) 0 m.sup w with
    | .error c => (s1.endTrap m c { pc := m.pc, chn := wordChain w }, none)
    | .ok i => (s1.setMe { m with link := k, attgt := false }, some i)

/-- One issue by a strand: nothing happens unless it is eligible and the tile's selector gives it the issue. -/
def State.issue (s0 : State) (sid : Nat) : State × Option Instr :=
  let s := s0.focus sid
  let m := s.me
  match (if m.id = sid && s.eligible m then s.selected m.tile else none) with
  | none => (s0, none)
  | some x =>
    if x.id != sid then (s0, none)
    else
      let s1 := s.select m.tile m.slot
      if m.stopReq then
        ((s1.setMe { m with stopReq := false }).debugStop { m with stopReq := false } .step m.pc m.pc m.inWindow, none)
      else s1.fetch

/-- The transform sequencer's next word (spec/09, R253; spec/05, R141): its strand comes into focus. -/
def State.issueXs (s0 : State) (tile : Nat) : State × Option Instr :=
  match tget none s0.xs tile with
  | none => (s0, none)
  | some r =>
    let s := s0.focus r.sid
    let m := s.me
    if m.id != r.sid || r.waiting.isSome || s.ended m.ctx then (s0, none)
    else
      let t (c : Cause) : State := s.endTrap m c { pc := m.nextIssue, eng := some (5, r.seq, 0) }
      match r.imem.find? fun p => p.1 = r.pc.toNat / 8 with
      | none => (t .lineOwner, none)
      | some (_, l) =>
        if decide (linkNslot (lineLink l) ≤ fieldN r.pc 0 3) then (t .lineOwner, none)
        else match decodeWord (s.version m) 1 m.sup (lineWord l (fieldN r.pc 0 3)) with
          | .error c => (t c, none)
          | .ok i => (s, some i)

/-- A transform word, which only the transform sequencer issues (spec/05, R141). -/
def isXsWord (i : Instr) : Bool := (encode i).extractLsb' 66 3 == 7#3

/-- A step of the device, which only an event of the agenda performs. -/
def isEvent (i : Instr) : Bool := i.hdr.isNone && !isXsWord i

/-- What a package that has raised PKG-FATAL still accepts (spec/16, R397). -/
def isReset (i : Instr) : Bool :=
  match i with
  | .coldReset => true
  | .reset => true
  | _ => false

/-- A machine that runs one word of an otherwise empty package: a 1 GiB leaf maps address 0 up, one-strand
launch of a version 3 image whose line 1 holds the word (a transform word lies in the instruction memory of the
tile's transform sequencer). -/
def State.placeWord (s : State) (w : Word96) : State :=
  let xw := (w.extractLsb' 66 3 == 7#3)
  let link := if xw then 0x100000B0 else 0xB0
  let line : Line := BitVec.ofNat 512 (link + w.toNat * 2 ^ 32)
  let mem0 := ((s.mem.write 0x1000 (bytesOf 8 0x2001)).write 0x2000 (bytesOf 8 0x3001)).write 0x3000
    (bytesOf 8 0x8000000000001F)
  let lrec : LRec := ⟨0x10000, 8, 0x8000, 1, 0, 0, 0, 1, 1, true, 0, 0x20000, [], 0, []⟩
  let la : Launch := ⟨1, lrec, 3, 8, 8, 1, true, true, 0, 0, 0, 0, none, true, 0, 0, false, false, 0, []⟩
  let m : Strand := { s.me with
    id := 1, pc := 8, link := BitVec.ofNat 32 0xB0, ctx := 0, serial := 1, index := 0, tile := 0, slot := 0,
    inSlot := true, halted := false, wait := .none, debug := false, stopReq := false, saveReq := none,
    xfer := Xfer.none, l0 := Level.idle, l1 := Level.idle, winBase := 0, winSize := 0x9000, sup := true }
  { s with
    mem := mem0.write 0x10040 (bytesOf 64 line.toNat)
    plat := { s.plat with ready := true }
    fatal := false
    ctxs := tset Ctx.blank s.ctxs 0 { Ctx.blank with
      state := .running, root := 1, tidbase := 0x30000, frec := 0x40000, save := 0x50000, cur := some la }
    me := m
    others := s.others.filter fun x => x.id != 1
    sels := tset ⟨0, 0⟩ s.sels 0 ⟨0, 0⟩
    xs := if xw then tset none s.xs 0 (some ⟨1, 0, 8, Vector.replicate 16 0, [(1, line)], [], [0, 0, 0, 0], none, 0,
            [], [], false⟩)
          else s.xs
    agenda := (if xw then Action.xs 0 else Action.issue 1) :: s.agenda }

end Sys2Proof.Machine
end

