-- ==== Sys2Proof/Machine/System.lean ====
section
/-!
DEFINITION. Family 2, system instructions: special registers, traps and returns, context switches, waits for
time, liveness, phases and the breakpoint (spec/06, R164 to R174; spec/02, R59 to R61; spec/01, R42, R43;
spec/14, R361, R366), and the events that end a timed or watched wait or a bound (spec/12, R326 to R328).
-/

namespace Sys2Proof.Machine

/-! ### Special registers -/

/-- EFF of a queue: BASE plus the ageing intervals it has waited, at most 7; a launch to restore counts from the moment it
became READY (spec/14, R361, R365). -/
def State.queueEff (s : State) (r : Region) : Nat :=
  let base := s.effAt r.addr 5 Region.prio
  match r.restFrom.orElse fun _ => r.waitFrom with
  | none => base
  | some t => Nat.min 7 (base + (s.mtime.toNat - t.toNat) / (s.effAt r.addr 6 Region.age * Config.usec))

/-- AGE: BASE and EFF of the queue the launch was taken from (R59); both are the BASE at admission once a reload has replaced that
queue by another (DESIGN CHOICE, log 121). -/
def State.ageReg (s : State) (l : Launch) : W64 :=
  match s.regions.find? fun r => r.qen && r.qid = l.qid with
  | none => BitVec.ofNat 64 (pack [(0, l.base), (8, l.base)])
  | some r => BitVec.ofNat 64 (pack [(0, s.queueEff r), (8, s.effAt r.addr 5 Region.prio)])

/-- GANG (R59): SLICE is TAG[2:0] in a gang of several packages (spec/14, R372), 0 in one. -/
def gangReg (l : Launch) : W64 :=
  BitVec.ofNat 64 (pack [(0, if 1 < l.rec_.npkg then fieldN l.rec_.tag 0 3 else 0), (4, l.rec_.npkg - 1),
    (8, l.rec_.ngrp), (16, l.rec_.nstr - 1), (24, l.rec_.varcnt)])

/-- The value MFSR reads (R59, R164). -/
def State.spr (s : State) (n : Fin 21) : W64 :=
  let m := s.me
  let l := s.launchOf m
  match n.val with
  | 0 => s.mtime
  | 1 => BitVec.ofNat 64 (pack [(0, m.index % 256), (8, m.group % 8), (63, b2n m.sup)])
  | 2 => (l.map gangReg).getD 0
  | 3 => BitVec.ofNat 64 (pack [(0, m.tile % 256), (8, m.slot % 4)])
  | 4 => BitVec.ofNat 64 (m.tile / 64 % 4)
  | 5 => s.plat.pkgnum.setWidth 64
  | 6 => (s.handle m.ctx).setWidth 64
  | 7 => m.serial.setWidth 64
  | 8 => (l.map fun x => x.variant.setWidth 64).getD 0
  | 9 => m.phase.setWidth 64
  | 10 => BitVec.ofNat 64 (b2n m.stallchk)
  | 11 => BitVec.ofNat 64 (b2n m.step)
  | 12 => m.traph.setWidth 64
  | 13 => m.plive.setWidth 64
  | 14 => m.vlive
  | 15 => m.jhead.setWidth 64
  | 16 => m.jdone.setWidth 64
  | 17 => BitVec.ofNat 64 (s.slogOf m.id).length
  | 18 => (s.ctx m.ctx).tidbase
  | 19 => (l.map s.ageReg).getD 0
  | _ => s.hbmgang.setWidth 64

def execMfsr (h : Hdr) (d : SReg) (n : Fin 21) (s : State) : Out :=
  seqWord h [] (fun s1 => .ok (s1.setMe (s1.me.setS 1 d (s1.spr n)))) s

/-- A write of a special register's defined bits (R59, R60); read-only numbers do not decode. -/
def State.setSpr (s : State) (n : Fin 21) (v : W64) : State :=
  let m := s.me
  match n.val with
  | 10 => s.setMe { m with stallchk := v.getLsbD 0 }
  | 11 => s.setMe { m with step := v.getLsbD 0 }
  | 12 => s.setMe { m with traph := v.setWidth 32 }
  | 13 => s.setMe { m with plive := v.setWidth 32 }
  | 14 => s.setMe { m with vlive := v }
  | 20 => { s with hbmgang := v.setWidth 16 }
  | _ => s

def execMtsr (h : Hdr) (n : Fin 21) (a : SReg) (s : State) : Out :=
  seqWord h [.s a] (fun s1 => .ok (s1.setSpr n (s1.me.readS a))) s

/-! ### Traps and switches -/

/-- TRAP #n (R165). -/
def execTrap (h : Hdr) (n : Byte) (s : State) : Out :=
  seqWord h [] (fun s1 =>
    if s1.me.inWindow || s1.me.inLoop || s1.me.hvalid then .raise s1 .illegal
    else if s1.me.traph = 0 then .raise s1 .trap
    else s1.withSeq 1 fun s2 p => s2.enterHandler n p) s

/-- RFT (R167). -/
def execRft (h : Hdr) (s : State) : Out :=
  seqWord h [] (fun s1 =>
    if s1.me.inWindow || s1.me.inLoop || !s1.me.hvalid then .raise s1 .illegal
    else .goto s1 Strand.leaveHandler) s

/-- CSW.YIELD: issue passes to the next eligible slot of the tile, if any (R168, R320). -/
def execCswYield (h : Hdr) (s : State) : Out :=
  seqWord h [] (fun s1 =>
    if s1.me.inWindow then .raise s1 .illegal
    else
      let m := s1.me
      match (upto 3).findSome? fun i => s1.slotStrand m.tile ((m.slot + 1 + i) % 4) with
      | some x => .ok (s1.select m.tile x.slot)
      | none => .ok s1) s

/-- The word in focus stops in a wait that retires it later. -/
def State.stopIn (s : State) (h : Hdr) (w : Wait) : State :=
  (s.setMe { s.me with wstall := h.stall, wretired := false }).waitFor { s.me with wstall := h.stall } w

/-- CSW.PARKT (R168). -/
def execCswParkt (h : Hdr) (a : SReg) (s : State) : Out :=
  seqWord h [.s a] (fun s1 =>
    if s1.me.inWindow then .raise s1 .illegal
    else
      let t := s1.me.readS a
      if t.toNat ≤ s1.mtime.toNat then .ok s1
      else .stay ((s1.setMe { s1.me with wkind := 1, wval := t, wold := 0, wtrans := none }).stopIn h .csw)) s

/-- A load-like access of the strand in focus waits first for its own side-log entries on the pages it touches,
and, when a page is SO, for every entry that holds an SO access (R212). -/
def State.ownWait (s : State) (k : Acc) (l : List Access) : Option Wait :=
  let c := s.ctx s.me.ctx
  let es := s.slogOf s.me.id
  let pages := l.flatMap fun a => (partsOf a.ea a.n).map fun p => pageOf p.va
  let so := (s.leaves c k l).any fun e => pteOrd e = 1
  if (es.any fun e => pages.contains e.page) || (so && es.any s.slogHoldsSo) then some (.ownDrain pages so) else none

/-- The checks before a load-like access of the strand in focus is made, in order: launch-ending causes, the
strand's own entries, absent pages (R210 to R212). -/
def State.beforeLoad (s : State) (kind : Nat) (k : Acc) (l : List Access) (go : State → Eff) : Eff :=
  let c := s.ctx s.me.ctx
  match s.checkAll c k l with
  | .ends x lm a => .trap s x lm a
  | .absent ps =>
    match s.ownWait k l with
    | some w => .stay (s.waitFor s.me w)
    | none => .absent s kind (ps.foldl (fun m p => m ||| laneBit p.1) 0) (ps.map fun p => p.2.va)
  | .fine =>
    match s.ownWait k l with
    | some w => .stay (s.waitFor s.me w)
    | none => go (s.touchAll c k l)

/-- CSW.PARKA (R168): it reads the word, and waits for another value or another translation. -/
def execCswParka (h : Hdr) (a : SReg) (s : State) : Out :=
  seqWord h [.s a] (fun s1 =>
    if s1.me.inWindow then .raise s1 .illegal
    else
      let va := s1.me.readS a
      s1.beforeLoad 1 .r [⟨none, va.toNat, 8, 8⟩] fun s2 =>
        let c := s2.ctx s2.me.ctx
        let old := BitVec.ofNat 64 (natOf (s2.readVa c va.toNat 8))
        let tr := match s2.walk c va.toNat .r with | .ok (pa, _) => some pa | .error _ => none
        .stay ((s2.setMe { s2.me with wkind := 2, wval := va, wold := old, wtrans := tr }).stopIn h .csw)) s

/-! ### Phases -/

/-- The selector of R366: exact costs over a common denominator, the lowest variant on a tie. -/
def pickVariant (ts : List Nat) (vars : List (List Nat)) (u : Nat) : Nat :=
  let ru := (vars.getD u []).take ts.length
  let den := ru.foldl (· * ·) 1
  let cost (v : Nat) : Nat :=
    (ts.zip ((vars.getD v []).zip ru)).foldl (fun c p => Nat.max c (p.1 * p.2.1 * (den / p.2.2))) 0
  ((upto vars.length).foldl (fun (b : Option (Nat × Nat)) v =>
    match b with
    | none => some (v, cost v)
    | some (w, x) => if cost v < x then some (v, cost v) else some (w, x)) none).elim 0 fun p => p.1

/-- T_g of every group in the phase that ends (R43). -/
def State.groupTimes (s : State) (k : Nat) (l : Launch) : List Nat :=
  (upto (l.rec_.ngrp + 1)).map fun g =>
    ((s.ctxStrands k).filter fun m => m.group = g && !m.phaseHalt).foldl
      (fun t m => Nat.max t (m.phaseAt - l.phaseT0)) 0

/-- Every strand of the gang has executed PHASE since the last release, or has halted (R42, R172). -/
def State.phaseDone (s : State) (k : Nat) : Bool :=
  (s.ctxStrands k).all (fun m => m.atPhase || m.halted) && (s.ctxStrands k).any fun m => m.atPhase

/-- The boundary releases (R42, R43): the selector writes VARIANT, every waiting strand goes on with PHASE raised
by 1, and a strand that had arrived but does not wait now goes through when its PHASE executes again. `self` is
the strand whose PHASE is executing: it retires by itself. -/
def State.phaseRelease (s : State) (k self : Nat) : State :=
  match (s.ctx k).cur with
  | none => s
  | some l =>
    let v := if 2 ≤ l.rec_.varcnt then
      pickVariant (s.groupTimes k l) (l.rec_.vars.take l.rec_.varcnt) l.variant.toNat else l.variant.toNat
    let s1 := s.updLaunch k fun x => { x with variant := BitVec.ofNat 2 v, phaseT0 := s.cycles }
    let waiting := (s1.ctxStrands k).filter fun m => m.wait = .phase && m.id != self
    let s2 := s1.mapStrands fun m =>
      if m.id != 0 && m.ctx = k then
        if m.halted then { m with phaseHalt := true }
        else if m.wait = .phase || m.id = self then { m with atPhase := false, phase := m.phase + 1 }
        else { m with atPhase := false, phaseGo := m.atPhase }
      else m
    waiting.foldl (fun t m => t.onStrand m.id State.retireWait) s2

/-- PHASE (R172). -/
def execPhase (h : Hdr) (s : State) : Out :=
  seqWord h [] (fun s1 =>
    let m := s1.me
    if m.inWindow then .raise s1 .illegal
    else if m.phaseGo then .ok (s1.setMe { m with phaseGo := false, phase := m.phase + 1 })
    else
      let m1 := if m.atPhase then m else { m with atPhase := true, phaseAt := s1.cycles }
      let s2 := s1.setMe m1
      if s2.phaseDone m.ctx then .ok (s2.phaseRelease m.ctx m.id)
      else .stay (s2.stopIn h .phase)) s

/-- The watched word of a CSW.PARKA reads otherwise, or its address translates otherwise (R168). Of the translation only
whether R is permitted and the physical address count (DESIGN CHOICE, log 116). -/
def State.watchChanged (s : State) (m : Strand) : Bool :=
  let c := s.ctx m.ctx
  let tr := match s.walk c m.wval.toNat .r with | .ok (pa, _) => some pa | .error _ => none
  tr != m.wtrans || (tr.isSome && BitVec.ofNat 64 (natOf (s.readVa c m.wval.toNat 8)) != m.wold)

/-- The open wait of a CSW is over (R168). -/
def State.cswOver (s : State) (m : Strand) : Bool :=
  !m.debug && m.wait = .csw &&
  ((m.wkind = 1 && decide (m.wval.toNat ≤ s.mtime.toNat)) || (m.wkind = 2 && s.watchChanged m))

/-- Every strand of a context's launch that has not halted is saved. -/
def State.allSaved (s : State) (k : Nat) : Bool := (s.ctxStrands k).all fun m => m.halted || m.saved

/-- The commands of a halted strand stop with the save of its context (spec/09, R226; spec/12, R324). -/
def State.stopHalted (s : State) (k : Nat) : State :=
  ((s.ctxStrands k).filter fun m => m.halted).foldl (fun t m =>
    let (t1, broke) := t.stopXs m
    t1.updStrand m.id fun x => { x with journal := x.journal.map fun e => { e.atSave broke with eng := 0 } }) s

/-- Waits of a context that ended while its save was in progress take effect when the save ends (R35). -/
def State.lateWaits (s : State) (k : Nat) : State :=
  let s1 := s.mapStrands fun m =>
    if m.id != 0 && m.ctx = k && (s.waitOver m || s.cswOver m) then m.leaveWait else m
  s1.mapStrands fun m => if m.id != 0 && m.ctx = k then s1.releaseHeld m else m

/-- Where a context goes when its last save ends (R32, R35, R322; log 28). -/
def State.afterSaves (s0 : State) (k : Nat) : State :=
  if !s0.allSaved k || (s0.ctxStrands k).all (fun m => m.halted) then s0
  else
    let s := (s0.stopHalted k).lateWaits k
    let live := (s.ctxStrands k).filter fun m => !m.halted
    let full := live.any fun m => match m.wait with
      | .slogRoom _ _ => true
      | .faultEntry => true
      | _ => false
    let swap := s.outcur k != 0 || s.engineHeld k || full || live.all Strand.openWait
    s.updCtx k fun c =>
      if swap then { c with state := .swapped, imagesSaved := true, demotable := true }
      else { c with state := .ready, imagesSaved := true, readyAt := s.mtime }

/-- HALT (R169, R44): the strand ends and frees its slot; a phase boundary that waited for it releases. When it was
the last strand that a save waited for, the save ends (R32). -/
def execHalt (h : Hdr) (s : State) : Out :=
  seqWord h [] (fun s1 =>
    let m := s1.me
    if m.inWindow then .raise s1 .illegal
    else
      let m1 := { m.clock h.stall with
        halted := true, inSlot := false, saveReq := none, pend := [], l0 := Level.idle, l1 := Level.idle
        phaseAt := s1.cycles
        cRegs := m.cRegs.map fun c => if c.stat = .filling then Chain.empty else c }
      let s2 := s1.setMe m1
      let s3 := if s2.phaseDone m.ctx then s2.phaseRelease m.ctx m.id else s2
      let s4 := s3.reconsider m.ctx
      .stay (if m.saveReq.isSome then s4.afterSaves m.ctx else s4)) s

/-! ### Waits for time, liveness, no operation -/

/-- WAITT (R170). -/
def execWaitt (h : Hdr) (a : SReg) (s : State) : Out :=
  seqWord h [.s a] (fun s1 =>
    if s1.me.inWindow then .raise s1 .illegal
    else
      let t := s1.me.readS a
      if t.toNat ≤ s1.mtime.toNat then .ok s1 else .stay (s1.stopIn h (.waitt t))) s

def execLive (h : Hdr) (a b : SReg) (s : State) : Out :=
  seqWord h [.s a, .s b] (fun s1 =>
    .ok (s1.setMe { s1.me with plive := (s1.me.readS a).setWidth 32, vlive := s1.me.readS b })) s

def execLiveP (h : Hdr) (imm : W32) (s : State) : Out :=
  seqWord h [] (fun s1 => .ok (s1.setMe { s1.me with plive := imm })) s

def execLiveVl (h : Hdr) (imm : W32) (s : State) : Out :=
  seqWord h [] (fun s1 => .ok (s1.setMe { s1.me with vlive := s1.me.vlive.extractLsb' 32 32 ++ imm })) s

def execLiveVh (h : Hdr) (imm : W32) (s : State) : Out :=
  seqWord h [] (fun s1 => .ok (s1.setMe { s1.me with vlive := imm ++ s1.me.vlive.extractLsb' 0 32 })) s

def execNop (h : Hdr) (s : State) : Out := seqWord h [] (fun s1 => .ok s1) s

/-- BKPT (R174): DRPC is the word the strand would issue next; the last word of a loop body wraps or closes its
level as it retires. At the chain's end DRPC is 0, as Seq gives it (R429). -/
def execBkpt (h : Hdr) (s : State) : Out :=
  seqWord h [] (fun s1 =>
    let m := s1.me
    if m.l0.act && m.l0.pos = m.l0.len.toNat then
      match (m.clock h.stall).endOfBody with
      | .to x => .stay ((s1.setMe x).debugStop x .bkpt m.pc x.pc m.inWindow)
      | .chainEnd x => .stay ((s1.setMe x).debugStop x .bkpt m.pc 0 m.inWindow)
    else s1.withSeq 1 fun s2 p =>
      let x := { m.clock h.stall with
        l0 := if m.l0.act then { m.l0 with pos := m.l0.pos + 1 } else m.l0
        xfer := if m.xfer.valid then { m.xfer with rem := m.xfer.rem - 1 } else m.xfer }
      .stay ((s2.setMe x).debugStop x .bkpt m.pc p m.inWindow)) s

/-! ### Ends of waits -/

/-- A wait of CSW ends: WKIND clears, and the waiting word retires unless it retired before its save (R168). WVAL and
WOLD become 0 with it, as PARKT leaves WOLD (DESIGN CHOICE, log 76). -/
def State.wakeCsw (s : State) (sid : Nat) : State :=
  s.onStrand sid fun t =>
    let m := { t.me with wkind := 0, wval := 0, wold := 0, wtrans := none }
    let t1 := if m.wretired then
        let m1 := { m with wait := .none, wretired := false }
        if m1.step then (t.setMe m1).debugStop m1 .step m1.wpc m1.pc false else t.setMe m1
      else (t.setMe m).retireWait
    t1.reconsider m.ctx

/-- MTIME has reached the time of a WAITT or CSW.PARKT (R168, R170, R371); of a saved strand only the open wait
ends, and its image waits again (R168). -/
def execTimedWaitExpiry (sid : Nat) (s : State) : Out :=
  .next (match s.strand sid with
    | none => s
    | some m =>
      if m.debug then s
      else match m.wait with
        | .waitt t =>
          if t.toNat ≤ s.mtime.toNat then s.updStrand sid fun x => { x with wait := .none } else s
        | .csw =>
          if m.wkind = 1 && decide (m.wval.toNat ≤ s.mtime.toNat) then
            if m.saved then (s.updStrand sid fun x => { x with wait := .none }).reconsider m.ctx
            else if s.saving m.ctx then s
            else s.wakeCsw sid
          else s
        | _ => s)

def execParkaWake (sid : Nat) (s : State) : Out :=
  .next (match s.strand sid with
    | none => s
    | some m =>
      if !m.debug && m.wait = .csw && m.wkind = 2 && s.watchChanged m then
        if m.saved then (s.updStrand sid fun x => { x with wait := .none }).reconsider m.ctx
        else if s.saving m.ctx then s
        else s.wakeCsw sid
      else s)

/-! ### Bounds -/

/-- The bound exponent of a wait and what its STALL-BOUND reports (R327): WNAME and engine fields. -/
def Strand.boundOf (m : Strand) : Option (Nat × W64 × Option (BitVec 4 × W32 × W64)) :=
  match m.wait with
  | .waita _ a _ _ _ b => some (b.toNat, a, none)
  | .bar n _ b => some (b.toNat, BitVec.ofNat 64 n.val, none)
  | .barSlot n _ b => some (b.toNat, BitVec.ofNat 64 n.val, none)
  | .phase => some (36, m.phase.setWidth 64, none)
  | .waitk q b =>
    match m.journal.find? fun e => e.seq = q with
    | none => some (b.toNat, 0, none)
    | some e =>
      let ks := match e.cmd with | .waitk _ en _ => [en.k0, en.k1, en.k2] | _ => []
      let seqs := (ks.filter (· != 0)).map fun k => q - BitVec.ofNat 32 k.val
      let named := m.journal.filter fun x => seqs.contains x.seq && x.st != .complete && x.st != .null
      match named.head? with
      | none => some (b.toNat, 0, none)
      | some x => some (b.toNat, x.seq.setWidth 64, some (BitVec.ofNat 4 x.eng, x.seq, x.upc))
  | .xwait q ev b =>
    match m.journal.find? fun e => e.seq = q with
    | none => some (b.toNat, BitVec.ofNat 64 ev.val, some (5, 0, 0))
    | some e =>
      let u := ((m.journal.find? fun x => x.seq = e.xrun).map fun x => x.upc).getD 0
      some (b.toNat, BitVec.ofNat 64 ev.val, some (5, e.xrun, u))
  | .none | .csw | .waitt _ | .journalFull | .slogRoom _ _ | .relDrain | .ownDrain _ _ | .faultEntry | .fault
  | .stepLaunch _ _ => none

/-- The PC of a strand's waiting word (R309): WAITK and XWAIT retired at journaling, and every other waiting word
is still at PC. -/
def Strand.waitPc (m : Strand) : W32 :=
  match m.wait with
  | .waitk _ _ => m.wpc
  | .xwait _ _ _ => m.wpc
  | _ => m.pc

/-- Whether that word lay in an open delay window; none when the strand has not moved on from it (R309). -/
def Strand.waitWin (m : Strand) : Option Bool :=
  match m.wait with
  | .waitk _ _ => some m.wwin
  | .xwait _ _ _ => some m.wwin
  | _ => none

/-- The bound of a strand's own wait has passed (R326, R327). -/
def Strand.boundInfo (m : Strand) : Option TrapInfo :=
  match m.boundOf with
  | none => none
  | some (b, wname, eng) =>
    if m.inSlot && !m.debug && b != 63 && decide (2 ^ b ≤ m.stallcnt.toNat) then
      some { pc := m.waitPc, wname := wname, eng := eng, inWin := m.waitWin }
    else none

/-- The bound of the wait of the strand's transform program has passed (spec/09, R256). -/
def State.xsBound (s : State) (m : Strand) : Option TrapInfo :=
  match tget none s.xs m.tile with
  | none => none
  | some r => match r.waiting with
    | none => none
    | some (ev, _, b) =>
      if r.sid = m.id && decide (2 ^ b.toNat ≤ r.stallcnt.toNat) then
        some { pc := m.nextIssue, wname := BitVec.ofNat 64 ev.val, eng := some (5, r.seq, 0) }
      else none

/-- What the bound of a strand's wait reports when its stall counter has reached it. The strand's own wait comes before that of
its transform program (R308). -/
def State.boundOver (s : State) (m : Strand) : Option TrapInfo :=
  if (s.ctx m.ctx).state != .running then none else m.boundInfo.orElse fun _ => s.xsBound m

/-- STALL-BOUND of the strand is due (R326). -/
def State.boundDue (s : State) (m : Strand) : Bool := (s.launchOf m).any (fun l => l.ending.isNone) && (s.boundOver m).isSome

/-- The stall counter of a wait has reached its bound (R326): STALL-BOUND ends the launch. -/
def State.boundTrap (s : State) (sid : Nat) : State :=
  match s.strand sid with
  | none => s
  | some m =>
    match s.boundOver m with
    | some t => s.endTrap m .stallBound t
    | none => s

def execStallBound (sid : Nat) (s : State) : Out := .next (s.boundTrap sid)

end Sys2Proof.Machine
end

