-- ==== Sys2Proof/Machine/Memory.lean ====
section
/-!
DEFINITION. Loads, stores and scratchpad accesses of family 5, the side log, and the completion of an access
(spec/08, R203 to R214). The model makes every access in one order, so acquire and release completers change
nothing beside the drain of R214 (log 12).
-/

namespace Sys2Proof.Machine

/-! ### Scratchpad windows -/

/-- Key of a byte of tile SRAM: 6 MiB a tile (spec/15, R376 to R378). -/
def tileByte (tile t : Nat) : Nat := tile * 0x600000 + t

/-- Key of a byte of a strand's window (R209). -/
def Strand.winAddr (m : Strand) (o : Nat) : Nat := tileByte m.tile (m.winBase + o)

/-- The cause of one scratchpad access (R209). -/
def State.scratchCause (s : State) (m : Strand) (reads : Bool) (a : Access) : Option Cause :=
  if a.ea % a.al != 0 then some .align
  else if m.winSize < a.ea + a.n then some .prot
  else if reads && (upto a.n).any (fun i => tget false s.sramPoison (m.winAddr (a.ea + i) / 8)) then some .poison
  else none

/-- The first cause of several scratchpad accesses with LMASK and ADDR (R209, R210). -/
def State.scratchAll (s : State) (m : Strand) (reads : Bool) (l : List Access) : Option (Cause × W64 × Nat) :=
  l.findSome? fun a =>
    match s.scratchCause m reads a with
    | none => none
    | some c => some (c, l.foldl (fun k b => if s.scratchCause m reads b = some c then k ||| laneBit b.lane else k) 0, a.ea)

def State.scratchRead (s : State) (m : Strand) (o n : Nat) : List Byte := s.sram.read (m.winAddr o) n

/-- Writes of a window; a word written whole loses its poison mark (spec/15, R378). -/
def State.scratchWrite (s : State) (m : Strand) (l : List (Nat × List Byte)) : State :=
  let covered (b : Nat) : Bool := l.any fun p => decide (m.winAddr p.1 ≤ b) && decide (b < m.winAddr p.1 + p.2.length)
  let words := l.flatMap fun p => (upto (p.2.length / 8 + 2)).map fun i => m.winAddr p.1 / 8 + i
  let full := words.filter fun w => (upto 8).all fun i => covered (8 * w + i)
  { s with
    sram := l.foldl (fun x p => x.write (m.winAddr p.1) p.2) s.sram
    sramPoison := full.foldl (fun x w => tset false x w false) s.sramPoison }

/-- A scratchpad body: its causes first, then what it does. -/
def State.scratchDo (s : State) (reads : Bool) (l : List Access) (go : State → Eff) : Eff :=
  match s.scratchAll s.me reads l with
  | some (c, lm, a) => .trap s c lm a
  | none => go s

/-! ### Addresses -/

/-- The effective address of R203. -/
def effAddr {w : Nat} (m : Strand) (a : SReg) (off : BitVec w) : Nat := (m.readS a + off.signExtend 64).toNat

/-- The lanes of a mask in increasing order. -/
def lanesOn (g : W64) : List Nat := (upto 64).filter fun i => g.getLsbD i

/-- Lane i of a 256-byte access: bytes 4i to 4i + 3 (R207). -/
def vecAccesses (g : W64) (ea al : Nat) : List Access := (lanesOn g).map fun i => ⟨some i, ea + 4 * i, 4, al⟩

/-- The lane addresses of LDG, STG and VARED (R208, R216). -/
def gatherAccesses (g : W64) (ea : Nat) (idx : Lanes) (n al : Nat) : List Access :=
  (lanesOn g).map fun i => ⟨some i, wrapI 64 ((ea : Int) + sgn 32 (laneAt idx i) * n), n, al⟩

/-- The value of lane i among loaded lanes. -/
def loadedLane (f : Access → Nat) (l : List Access) (i : Nat) : Nat :=
  match l.find? fun a => a.lane = some i with
  | some a => f a
  | none => 0

/-! ### Loads -/

/-- The current context of the strand in focus. -/
def State.myCtx (s : State) : Ctx := s.ctx s.me.ctx

/-- Interlocked write of an S register. -/
def Strand.loadS (m : Strand) (d : SReg) (v : W64) : Strand := m.writeIl (.s d) 1 (v.setWidth 2048)

def execLd (h : Hdr) (d a : SReg) (off : BitVec 24) (ty : ETy) (_sem : Sem) (_sc : Scope) (s : State) : Out :=
  seqWord h [.s a] (fun s1 =>
    let ea := effAddr s1.me a off
    let n := ty.width / 8
    s1.beforeLoad 1 .r [⟨none, ea, n, 1⟩] fun s2 =>
      .ok (s2.setMe (s2.me.loadS d (extElem ty (natOf (s2.readVa s2.myCtx ea n)))))) s

/-- Loads of lanes into Vd (R207, R208): `ext` widens an element of a lane. -/
def laneLoad (h : Hdr) (d : VReg) (reads : List Dest) (z : Bool) (accs : W64 → Strand → List Access)
    (ext : Nat → Nat) (s : State) : Out :=
  laneWord h reads [] (fun g s1 =>
    let l := accs g s1.me
    s1.beforeLoad 1 .r l fun s2 =>
      let val := ofElems 32 (loadedLane (fun a => ext (natOf (s2.readVa s2.myCtx a.ea a.n))) l)
      .ok (s2.setMe (s2.me.putV true 0 d z allLanes g val))) s

def execLdv (h : Hdr) (d : VReg) (a : SReg) (off : BitVec 24) (_sem : Sem) (_sc : Scope) (z : Bool) (s : State) : Out :=
  laneLoad h d [.s a] z (fun g m => vecAccesses g (effAddr m a off) 1) (fun x => x) s

def execLdg (h : Hdr) (d : VReg) (a : SReg) (off : BitVec 24) (b : VReg) (ty : ETy) (z : Bool) (s : State) : Out :=
  laneLoad h d [.s a, .v b] z (fun g m => gatherAccesses g (effAddr m a off) (m.readV b) (ty.width / 8) 1)
    (fun x => (extElem ty x).toNat % 2 ^ 32) s

/-! ### The side log and stores -/

/-- The new value of an atomic step, or none when nothing is written (R215, R216). -/
def rmwVal (ty : ETy) (op : Rmw) (old v : Nat) : Option Nat :=
  match op with
  | .add => some (redStep .sum ty .rne false old v)
  | .max => some (redStep .max ty .rne false old v)
  | .min => some (redStep .min ty .rne false old v)
  | .and => some (old &&& v)
  | .or => some (old ||| v)
  | .xor => some (old ^^^ v)
  | .xchg => some v
  | .cas exp => if old = exp.toNat % 2 ^ ty.width then some v else none

/-- One recorded part is made. -/
def State.applyAct (s : State) (c : Ctx) (a : LogAct) : State :=
  match a with
  | .store va bs => s.writeVa c va bs
  | .rmw va ty op v _ =>
    let n := ty.width / 8
    match rmwVal ty op (natOf (s.readVa c va n)) (v.toNat % 2 ^ ty.width) with
    | some x => s.writeVa c va (bytesOf n x)
    | none => s

/-- Where the bytes of a store go: places and lengths. -/
def State.storePlaces (s : State) (c : Ctx) (a : LogAct) : List (Nat × Nat) :=
  match a with
  | .store va bs => (partsOf va bs.length).filterMap fun p =>
      match s.walk c p.va .none with
      | .ok (pa, _) => some (s.place pa, p.n)
      | .error _ => none
  | .rmw .. => []

/-- The recorded parts of one instruction are made in order; an atom that its stores cover together loses its mark (spec/15,
R385). -/
def State.applyActs (s : State) (c : Ctx) (l : List LogAct) : State :=
  (l.foldl (fun t a => t.applyAct c a) s).clearMarks (l.flatMap (s.storePlaces c))

def LogAct.access (a : LogAct) : Access :=
  match a with
  | .store va bs => ⟨none, va, bs.length, 1⟩
  | .rmw va ty _ _ _ => ⟨none, va, ty.width / 8, 1⟩

/-- The rights that the drain of an entry needs (spec/13, R337). -/
def LogAct.acc (a : LogAct) : Acc :=
  match a with
  | .store _ _ => .w
  | .rmw .. => .drain

/-- A record write failed: the launch ends with PROT (spec/12, R313; the record's ADDR is 0: log 75). -/
def State.recordLost (s : State) (m : Strand) (pc : W32) : State := s.endTrap m .prot { pc := pc }

/-- The stores and reductions of one instruction of the strand in focus (R210 to R213): parts to present pages
are made in order; parts to absent pages, and to pages on which the strand has undrained entries, become side-log
entries, one for each page. -/
def State.storeOut (s : State) (k : Acc) (l : List (Access × (Part → LogAct))) : Eff :=
  let m := s.me
  let c := s.myCtx
  match s.checkAll c k (l.map fun p => p.1) with
  | .ends x lm a => .trap s x lm a
  | .absent _ | .fine =>
    let es := s.slogOf m.id
    let parts := l.flatMap fun p => (partsOf p.1.ea p.1.n).map fun q => (q, p.2 q)
    let gone (q : Part) : Bool :=
      match s.checkPart c k q with
      | .error (.pageAbsent, _) => true
      | _ => false
    let logged (q : Part) : Bool := gone q || es.any fun e => e.page = pageOf q.va
    let now := parts.filter fun p => !logged p.1
    let later := parts.filter fun p => logged p.1
    let so := now.any fun p =>
      match s.walk c p.1.va .none with
      | .ok (_, e) => pteOrd e = 1
      | .error _ => false
    let pages := (absentPages (later.map fun p => p.1.va)).map pageOf
    if so && es.any s.slogHoldsSo then .stay (s.waitFor m (.ownDrain [] true))
    else if pages.isEmpty then
      .ok ((s.touchAll c k (l.map fun p => p.1)).applyActs c (now.map fun p => p.2))
    else if Config.slogEntries < s.tileLog m.tile + pages.length then .stay (s.waitFor m (.slogRoom pages.length false))
    else match s.faultPages m.ctx 4 m.index 0 false
        (absentPages ((later.filter fun p => gone p.1).map fun p => p.1.va)) with
      | none => .stay (s.recordLost m m.pc)
      | some (_, false) => .stay (s.waitFor m (.slogRoom pages.length true))
      | some (s1, true) =>
        let s2 := (s1.touchAll c k (l.map fun p => p.1)).applyActs c (now.map fun p => p.2)
        let new := pages.map fun g =>
          (⟨m.id, m.ctx, m.serial, m.tile, g, m.jhead, (later.filter fun p => pageOf p.1.va = g).map fun p => p.2⟩ : SlogEntry)
        .ok { s2 with slog := s2.slog ++ new }

/-- A release waits first until the side-log entries of its strand have drained (R214). -/
def State.releaseFirst (s : State) (rel : Bool) (go : State → Eff) : Eff :=
  if rel && !(s.slogOf s.me.id).isEmpty then .stay (s.waitFor s.me .relDrain) else go s

/-- The bytes of a part of a store whose access begins at `ea`. -/
def storePart (ea : Nat) (bs : List Byte) (q : Part) : LogAct := .store q.va ((bs.drop (q.va - ea)).take q.n)

def execSt (h : Hdr) (d a : SReg) (off : BitVec 24) (ty : ETy) (sem : Sem) (_sc : Scope) (s : State) : Out :=
  seqWord h [.s a, .s d] (fun s1 =>
    s1.releaseFirst (sem = .rel) fun s2 =>
      let ea := effAddr s2.me a off
      let n := ty.width / 8
      s2.storeOut .w [(⟨none, ea, n, 1⟩, storePart ea (bytesOf n (s2.me.readS d).toNat))]) s

/-- Stores of lanes of Vd (R207, R208), in increasing lane order. -/
def laneStores (l : List Access) (v : Lanes) : List (Access × (Part → LogAct)) :=
  l.map fun a => (a, storePart a.ea (bytesOf a.n (laneAt v (a.lane.getD 0))))

def execStv (h : Hdr) (d : VReg) (a : SReg) (off : BitVec 24) (sem : Sem) (_sc : Scope) (s : State) : Out :=
  laneWord h [.s a, .v d] [] (fun g s1 =>
    s1.releaseFirst (sem = .rel) fun s2 =>
      s2.storeOut .w (laneStores (vecAccesses g (effAddr s2.me a off) 1) (s2.me.readV d))) s

def execStg (h : Hdr) (d : VReg) (a : SReg) (off : BitVec 24) (b : VReg) (ty : ETy) (s : State) : Out :=
  laneWord h [.s a, .v d, .v b] [] (fun g s1 =>
    s1.storeOut .w (laneStores
      (gatherAccesses g (effAddr s1.me a off) (s1.me.readV b) (ty.width / 8) 1) (s1.me.readV d))) s

/-! ### Scratchpad forms -/

def execLdl (h : Hdr) (d a : SReg) (off : BitVec 24) (ty : ETy) (s : State) : Out :=
  seqWord h [.s a] (fun s1 =>
    let o := effAddr s1.me a off
    let n := ty.width / 8
    s1.scratchDo true [⟨none, o, n, n⟩] fun s2 =>
      .ok (s2.setMe (s2.me.loadS d (extElem ty (natOf (s2.scratchRead s2.me o n)))))) s

def execStl (h : Hdr) (d a : SReg) (off : BitVec 24) (ty : ETy) (s : State) : Out :=
  seqWord h [.s a, .s d] (fun s1 =>
    let o := effAddr s1.me a off
    let n := ty.width / 8
    s1.scratchDo false [⟨none, o, n, n⟩] fun s2 =>
      .ok (s2.scratchWrite s2.me [(o, bytesOf n (s2.me.readS d).toNat)])) s

def execVldl (h : Hdr) (d : VReg) (a : SReg) (off : BitVec 24) (z : Bool) (s : State) : Out :=
  laneWord h [.s a] [] (fun g s1 =>
    let l := vecAccesses g (effAddr s1.me a off) 4
    s1.scratchDo true l fun s2 =>
      let val := ofElems 32 (loadedLane (fun a => natOf (s2.scratchRead s2.me a.ea a.n)) l)
      .ok (s2.setMe (s2.me.putV true 0 d z allLanes g val))) s

def execVstl (h : Hdr) (d : VReg) (a : SReg) (off : BitVec 24) (s : State) : Out :=
  laneWord h [.s a, .v d] [] (fun g s1 =>
    let l := vecAccesses g (effAddr s1.me a off) 4
    s1.scratchDo false l fun s2 =>
      .ok (s2.scratchWrite s2.me (l.map fun a => (a.ea, bytesOf 4 (laneAt (s2.me.readV d) (a.lane.getD 0)))))) s

/-! ### Completion and drain -/

/-- The data of the strand's oldest interlocked write arrive (spec/04, R101). -/
def execMemoryAccessComplete (sid : Nat) (s : State) : Out := .next (s.updStrand sid Strand.land)

/-- Entry `k` of the side log may drain: no older entry is on its page (R212), and an SO access waits for older entries of
its strand that hold SO accesses. -/
def State.drainTurn (s : State) (k : Nat) (e : SlogEntry) : Bool :=
  (s.slog.take k).all fun x =>
    !(x.page = e.page && (s.ctx x.ctx).asid = (s.ctx e.ctx).asid) &&
    (x.sid != e.sid || !(s.slogHoldsSo x && s.slogHoldsSo e))

/-- A side-log entry drains once its page is present, each part as the access it records (R212, R301). A cause met
there ends the launch of its strand (spec/15, R390), and the entry is gone; when the page is still absent, the
entry stays, and a page without an OPEN entry raises one. -/
def execSideLogDrain (k : Nat) (s : State) : Out :=
  .next (match s.slog[k]? with
    | none => s
    | some e =>
      if !s.drainTurn k e then s
      else
        let c := s.ctx e.ctx
        let rest : State := { s with slog := s.slog.eraseIdx k }
        let acc := match e.acts.head? with
          | some a => a.acc
          | none => .w
        match s.checkAll c acc (e.acts.map LogAct.access) with
        | .ends x _ a =>
          (match s.strand e.sid with
            | none => rest
            | some m => rest.endTrap m x { pc := m.pc, addr := BitVec.ofNat 64 a }).refresh
        | .absent ps =>
          match s.strand e.sid with
          | none => s
          | some m =>
            match s.faultPages e.ctx 4 m.index 0 false (absentPages (ps.map fun p => p.2.va)) with
            | some (s1, _) => s1
            | none => s.recordLost m m.pc
        | .fine => ((rest.touchAll c acc (e.acts.map LogAct.access)).applyActs c e.acts).refresh)

end Sys2Proof.Machine
end

