-- ==== Sys2Proof/Machine/Atomic.lean ====
section
/-!
DEFINITION. Atomics, vector reductions, fences, waits, barriers, cache maintenance and tensor identifier entries
(spec/08, R215 to R222).
-/

namespace Sys2Proof.Machine

/-! ### Atomics -/

/-- A scalar atomic (R215). With RET it is a load that writes; without, a store that may be logged. -/
def atomicWord (h : Hdr) (reads : List Dest) (d a : SReg) (off : BitVec 24) (b : SReg) (ty : ETy) (sem : Sem)
    (sc : Scope) (ret : Bool) (op : Strand → Rmw) (s : State) : Out :=
  seqWord h (.s a :: .s b :: reads) (fun s1 =>
    let ea := effAddr s1.me a off
    let n := ty.width / 8
    if ea % n != 0 then .trap s1 .align allLanes ea
    else s1.releaseFirst (sem = .rel) fun s2 =>
      let act : LogAct := .rmw ea ty (op s2.me) (s2.me.readS b) sc
      if ret then
        s2.beforeLoad 2 .rw [⟨none, ea, n, n⟩] fun s3 =>
          let old := natOf (s3.readVa s3.myCtx ea n)
          let s4 := s3.applyAct s3.myCtx act
          .ok (s4.setMe (s4.me.loadS d (extElem ty old)))
      else s2.storeOut .rw [(⟨none, ea, n, n⟩, fun _ => act)]) s

def execAadd (h : Hdr) (d a : SReg) (off : BitVec 24) (b : SReg) (ty : ETy) (sem : Sem) (sc : Scope) (ret : Bool)
    (s : State) : Out := atomicWord h [] d a off b ty sem sc ret (fun _ => .add) s
def execAmax (h : Hdr) (d a : SReg) (off : BitVec 24) (b : SReg) (ty : ETy) (sem : Sem) (sc : Scope) (ret : Bool)
    (s : State) : Out := atomicWord h [] d a off b ty sem sc ret (fun _ => .max) s
def execAmin (h : Hdr) (d a : SReg) (off : BitVec 24) (b : SReg) (ty : ETy) (sem : Sem) (sc : Scope) (ret : Bool)
    (s : State) : Out := atomicWord h [] d a off b ty sem sc ret (fun _ => .min) s
def execAand (h : Hdr) (d a : SReg) (off : BitVec 24) (b : SReg) (ty : ETy) (sem : Sem) (sc : Scope) (ret : Bool)
    (s : State) : Out := atomicWord h [] d a off b ty sem sc ret (fun _ => .and) s
def execAor (h : Hdr) (d a : SReg) (off : BitVec 24) (b : SReg) (ty : ETy) (sem : Sem) (sc : Scope) (ret : Bool)
    (s : State) : Out := atomicWord h [] d a off b ty sem sc ret (fun _ => .or) s
def execAxor (h : Hdr) (d a : SReg) (off : BitVec 24) (b : SReg) (ty : ETy) (sem : Sem) (sc : Scope) (ret : Bool)
    (s : State) : Out := atomicWord h [] d a off b ty sem sc ret (fun _ => .xor) s
def execAxchg (h : Hdr) (d a : SReg) (off : BitVec 24) (b : SReg) (ty : ETy) (sem : Sem) (sc : Scope) (ret : Bool)
    (s : State) : Out := atomicWord h [] d a off b ty sem sc ret (fun _ => .xchg) s
/-- ACAS reads the expected value from its destination (R215). -/
def execAcas (h : Hdr) (d a : SReg) (off : BitVec 24) (b : SReg) (ty : ETy) (sem : Sem) (sc : Scope) (s : State) : Out :=
  atomicWord h [.s d] d a off b ty sem sc true (fun m => .cas (m.readS d)) s

def varedOp (op : VaOp) : Rmw :=
  match op with
  | .add => .add | .max => .max | .min => .min | .and => .and | .or => .or | .xor => .xor

/-- VARED (R216): one indivisible step for each enabled lane, in increasing lane order. -/
def execVared (h : Hdr) (d : VReg) (a : SReg) (off : BitVec 21) (b : VReg) (op : VaOp) (ty : ETy) (sc : Scope)
    (s : State) : Out :=
  laneWord h [.s a, .v d, .v b] [] (fun g s1 =>
    let v := s1.me.readV d
    s1.storeOut .rw ((gatherAccesses g (effAddr s1.me a off) (s1.me.readV b) 4 4).map fun x =>
      (x, fun q => .rmw q.va ty (varedOp op) (BitVec.ofNat 64 (laneAt v (x.lane.getD 0))) sc))) s

/-! ### Fences -/

def execFenceAcq (h : Hdr) (_sc : Scope) (s : State) : Out := seqWord h [] (fun s1 => .ok s1) s
def execFenceRel (h : Hdr) (_sc : Scope) (s : State) : Out :=
  seqWord h [] (fun s1 => s1.releaseFirst true fun s2 => .ok s2) s
def execFenceFull (h : Hdr) (_sc : Scope) (s : State) : Out :=
  seqWord h [] (fun s1 => s1.releaseFirst true fun s2 => .ok s2) s

/-! ### WAITA -/

/-- One read of a WAITA (R218): Sd takes the word when the condition holds, otherwise `again`. -/
def State.waitaTry (s : State) (d : SReg) (a cmp : W64) (cc : Cond) (form : WForm) (again : State → Eff) : Eff :=
  let w := match form with | .d => 64 | .w => 32 | .l => 64
  let signed := match cc with | .lt => true | .ge => true | .le => true | .gt => true | _ => false
  let test (s2 : State) (x : Nat) : Eff :=
    if condInt cc w x cmp.toNat then
      .ok (s2.setMe (s2.me.loadS d (if signed then BitVec.ofInt 64 (sgn w x) else BitVec.ofNat 64 x)))
    else again s2
  let n := w / 8
  match form with
  | .l => s.scratchDo true [⟨none, a.toNat, n, n⟩] fun s2 => test s2 (natOf (s2.scratchRead s2.me a.toNat n))
  | .d | .w => s.beforeLoad 2 .r [⟨none, a.toNat, n, n⟩] fun s2 => test s2 (natOf (s2.readVa s2.myCtx a.toNat n))

def execWaita (h : Hdr) (d a b : SReg) (cc : Cond) (form : WForm) (_sc : Scope) (bound : BitVec 6) (s : State) : Out :=
  seqWord h [.s a, .s b] (fun s1 =>
    let x := s1.me.readS a
    let y := s1.me.readS b
    s1.waitaTry d x y cc form fun s2 => .stay (s2.stopIn h (.waita d x y cc form bound))) s

/-- The condition of a WAITA holds for what its word reads as now (R218, R326). -/
def State.waitaMet (s : State) (m : Strand) : Bool :=
  match m.wait with
  | .waita _ a cmp cc .l _ => condInt cc 64 (natOf (s.scratchRead m a.toNat 8)) cmp.toNat
  | .waita _ a cmp cc form _ =>
    let w := match form with | .w => 32 | _ => 64
    match s.devRead (s.ctx m.ctx) .r a.toNat (w / 8) with
    | .ok bs => condInt cc w (natOf bs) cmp.toNat
    | .error _ => false
  | _ => false

/-- A strand that waits in its slot can go on: its launch has no cause and its context runs. -/
def State.waits (s : State) (m : Strand) : Bool :=
  m.inSlot && !m.debug && (s.ctx m.ctx).state = .running && !s.ended m.ctx

/-- A WAITA reads its word again (R218): the wait ends when the condition holds, and the read meets the faults of
any read. -/
def execWaitaSatisfied (sid : Nat) (s : State) : Out :=
  .next (match s.strand sid with
    | none => s
    | some m =>
      match m.wait with
      | .waita d a cmp cc form _ =>
        if s.waits m then
          s.onStrand sid fun t =>
            State.finish t.me.pc t.me.wstall t.me.step none (t.waitaTry d a cmp cc form fun _ => .stay t)
        else s
      | _ => s)

/-! ### Barriers -/

/-- What names a launch's gang: its identifier and start for a gang of several packages (spec/14, R372), its own
context and serial otherwise. -/
def State.gangOf (s : State) (m : Strand) : W64 × W64 :=
  match s.launchOf m with
  | some l => if 1 < l.rec_.npkg then (l.rec_.tag >>> 8, l.rec_.notbefore)
              else (BitVec.ofNat 64 (2 ^ 63 + m.ctx * 2 ^ 32 + m.serial.toNat), 0)
  | none => (0, 0)

def State.npkg (s : State) (m : Strand) : Nat := match s.launchOf m with | some l => l.rec_.npkg | none => 1

/-- SLICE of R59. -/
def State.slice (s : State) (m : Strand) : Nat :=
  match s.launchOf m with
  | some l => if 1 < l.rec_.npkg then fieldN l.rec_.tag 0 3 else 0
  | none => 0

/-- An arrival at a .SY barrier of a gang of several packages is sent to the other slices (R219; spec/14, R373). -/
def State.announce (s : State) (m : Strand) (n : Fin 32) (sc : Scope) (e gen : Nat) : State :=
  if sc = .sy && decide (1 < s.npkg m) then
    { s with outbox := s.outbox ++
        [⟨(s.gangOf m).1, (s.gangOf m).2, s.slice m, m.index, 0, gen, .barrier n e, []⟩] }
  else s

/-- The strand's record of a barrier. -/
def Strand.barRec (m : Strand) (n : Fin 32) (sc : Scope) : BarRec :=
  (m.bars.find? fun r => r.n = n && r.sc = sc).getD ⟨n, sc, 0, false, false⟩

def Strand.setBar (m : Strand) (r : BarRec) : Strand :=
  { m with bars := r :: m.bars.filter fun x => !(x.n = r.n && x.sc = r.sc) }

/-- The barrier of a strand (R219). -/
def isBarrier (m : Strand) (n : Fin 32) (sc : Scope) (b : Barrier) : Bool :=
  b.ctx = m.ctx && b.serial = m.serial && b.n = n && b.sc = sc && b.inst = domInst sc m.tile

def State.barrier (s : State) (m : Strand) (n : Fin 32) (sc : Scope) : Barrier :=
  (s.barriers.find? (isBarrier m n sc)).getD ⟨m.ctx, m.serial, n, sc, domInst sc m.tile, 0, 0, 0⟩

def State.setBarrier (s : State) (m : Strand) (n : Fin 32) (sc : Scope) (b : Barrier) : State :=
  { s with barriers := b :: s.barriers.filter fun x => !isBarrier m n sc x }

/-- The limit of E (R220). -/
def barLimit (sc : Scope) : Nat :=
  match sc with
  | .st => 0 | .tl => 4 | .di => 256 | .pk => 256 | .sy => 2048

/-- The open generation is released (R219): every strand of the launch in the domain loses its unreleased arrival,
and those that wait for it go on. `self` is the strand whose BAR is executing. -/
def State.barRelease (s : State) (self : Strand) (n : Fin 32) (sc : Scope) : State :=
  let b := s.barrier self n sc
  let s1 := s.setBarrier self n sc { b with gen := b.gen + 1, e := 0, arrivals := 0 }
  let mine (m : Strand) : Bool := m.id != 0 && isBarrier m n sc b
  let s2 := s1.mapStrands fun m => if mine m then m.setBar { m.barRec n sc with open_ := false } else m
  let waiting := s2.strands.filter fun m =>
    mine m && m.id != self.id && (match m.wait with | .bar k c _ => k = n && c = sc | _ => false)
  (waiting.foldl (fun t m => t.onStrand m.id fun u =>
    (u.setMe (u.me.setBar { u.me.barRec n sc with mark := false })).retireWait) s2).refresh

/-- The arrival of R220 for the strand in focus, then `go`. The stall counter of its wait for a barrier slot ends there. -/
def State.arrive (s : State) (n : Fin 32) (e : W64) (sc : Scope) (mark : Bool) (bound : BitVec 6)
    (go : State → Eff) : Eff :=
  let m := s.me
  let r := m.barRec n sc
  let b := s.barrier m n sc
  if r.open_ || r.mark then go s
  else if e = 0 || decide (barLimit sc < e.toNat) || (decide (0 < b.arrivals) && b.e != e.toNat) then .raise s .illegal
  else s.releaseFirst true fun s1 =>
    if b.arrivals = 0 && !s1.barRoom sc m.tile then .stay (s1.waitFor m (.barSlot n sc bound))
    else
      let b1 := { b with e := e.toNat, arrivals := b.arrivals + 1 }
      let m1 := { s1.me.setBar { r with gen := b.gen, open_ := true, mark := mark } with stallcnt := 0 }
      let s2 := ((s1.setMe m1).setBarrier m n sc b1).announce m n sc e.toNat b.gen
      go (if b1.arrivals = b1.e then s2.barRelease s2.me n sc else s2)

/-- The wait of R220 for the strand in focus. -/
def State.awaitBar (s : State) (h : Hdr) (n : Fin 32) (sc : Scope) (bound : BitVec 6) : Eff :=
  let r := s.me.barRec n sc
  if r.open_ then .stay (s.stopIn h (.bar n sc bound)) else .ok (s.setMe (s.me.setBar { r with mark := false }))

def execBarSync (h : Hdr) (n : Fin 32) (b : SReg) (sc : Scope) (bound : BitVec 6) (s : State) : Out :=
  seqWord h [.s b] (fun s1 => s1.arrive n (s1.me.readS b) sc true bound fun s2 => s2.awaitBar h n sc bound) s
/-- BAR.ARV has no #b: its wait for a barrier slot has b = 0, so that one cycle of it raises STALL-BOUND (R219; DESIGN CHOICE,
log 110). -/
def execBarArv (h : Hdr) (n : Fin 32) (b : SReg) (sc : Scope) (s : State) : Out :=
  seqWord h [.s b] (fun s1 => s1.arrive n (s1.me.readS b) sc false 0 fun s2 => .ok s2) s
def execBarWait (h : Hdr) (n : Fin 32) (sc : Scope) (bound : BitVec 6) (s : State) : Out :=
  seqWord h [] (fun s1 => s1.awaitBar h n sc bound) s

/-! ### Cache maintenance -/

/-- The access of CINV, CWB or PREF reaches the line that holds `ea`: it promotes the line's object (spec/13, R337, R345;
DEDUCED, log 106), where it translates, and raises no fault (R221). -/
def State.lineAccess (s : State) (ea : Nat) : State :=
  if (noncanonAt ea 1).isSome then s else s.touchVa s.myCtx .none (ea / 64 * 64) 64

/-- What agents outside coherence have written to the line of a place becomes visible, in the order of the writes (R221;
spec/11, R304; log 109). -/
def State.seeLine (s : State) (p : Nat) : State :=
  let here (c : Nat × Byte) : Bool := c.1 / 64 = p / 64
  { s with
    mem := s.mem.putAll (s.foreign.filter here)
    foreign := s.foreign.filter fun c => !here c }

/-- The copies of the line that holds `ea` are dropped at every level, where it translates (R221). -/
def State.dropLine (s : State) (ea : Nat) : State :=
  if (noncanonAt ea 1).isSome then s
  else match s.walk s.myCtx (ea / 64 * 64) .none with
    | .ok (pa, _) => s.seeLine (s.place pa)
    | .error _ => s

/-- CINV and CWB change no value that the device holds (R221); CINV.SY shows the line's memory as it is there. -/
def execCinv (h : Hdr) (a : SReg) (off : BitVec 24) (sc : Scope) (s : State) : Out :=
  seqWord h [.s a] (fun s1 =>
    let ea := effAddr s1.me a off
    let s2 := s1.lineAccess ea
    .ok (if sc = .sy then s2.dropLine ea else s2)) s

def execCwb (h : Hdr) (a : SReg) (off : BitVec 24) (_sc : Scope) (s : State) : Out :=
  seqWord h [.s a] (fun s1 => .ok (s1.lineAccess (effAddr s1.me a off))) s

def execPref (h : Hdr) (a : SReg) (off : BitVec 24) (_sc : Scope) (s : State) : Out :=
  seqWord h [.s a] (fun s1 => .ok (s1.lineAccess (effAddr s1.me a off))) s

/-! ### Tensor identifier entries -/

/-- S registers n to n + 3. -/
def quad (n : SReg) : List SReg := [n, n + 1, n + 2, n + 3]

/-- The entry that four doublewords make (R62, R222). -/
def tidOf (l : List W64) : TidEntry := BitVec.ofNat 256 (natOf (l.flatMap bytes64))

/-- TIDSET of entry `t` (R222): the memory write, then the per-context copy. -/
def tidsetWord (h : Hdr) (reads : List Dest) (t : Strand → Byte) (a : SReg) (s : State) : Out :=
  seqWord h (reads ++ (quad a).map Dest.s) (fun s1 =>
    let k := (t s1.me).toNat
    let va := (s1.myCtx.tidbase.toNat + 32 * k) % 2 ^ 64
    let e := (quad a).map s1.me.readS
    s1.beforeLoad 2 .w [⟨none, va, 32, 1⟩] fun s2 =>
      let s3 := s2.writeVa s2.myCtx va (e.flatMap bytes64)
      .ok (s3.updCtx s3.me.ctx fun c => { c with tids := c.tids.setIfInBounds k (tidOf e) })) s

def execTidset (h : Hdr) (t : Byte) (a : SReg) (s : State) : Out := tidsetWord h [] (fun _ => t) a s
def execTidsetReg (h : Hdr) (b a : SReg) (s : State) : Out :=
  tidsetWord h [.s b] (fun m => (m.readS b).setWidth 8) a s

/-- TIDGET of entry `t` into Sd to Sd + 3, interlocked (R222). -/
def tidgetWord (h : Hdr) (reads : List Dest) (d : SReg) (t : Strand → Byte) (s : State) : Out :=
  seqWord h reads (fun s1 =>
    let e := s1.myCtx.tids.getD (t s1.me).toNat 0
    .ok (s1.setMe (((quad d).zip (upto 4)).foldl (fun m p => m.loadS p.1 (e.extractLsb' (64 * p.2) 64)) s1.me))) s

def execTidget (h : Hdr) (d : SReg) (t : Byte) (s : State) : Out := tidgetWord h [] d (fun _ => t) s
def execTidgetReg (h : Hdr) (d b : SReg) (s : State) : Out := tidgetWord h [.s b] d (fun m => (m.readS b).setWidth 8) s

end Sys2Proof.Machine
end

