-- ==== Sys2Proof/Machine/Journal.lean ====
section
/-!
DEFINITION. The journal of engine commands (spec/09, R223 to R231): journaling with its checks, tokens and edges,
accesses an engine makes for a command, and what a cause or an absent page does to it.
-/

namespace Sys2Proof.Machine

/-! ### Entries -/


/-- Token, sequence and .AT fields of an entry's command (spec/05, R139). -/
def JEntry.en (e : JEntry) : EnH := enOf (encode e.cmd)

def JEntry.op (e : JEntry) (i : Nat) : Nat := (e.opv.getD i 0).toNat

/-- Bits [63:32] and [31:0] of a captured operand. -/
def JEntry.hi (e : JEntry) (i : Nat) : Nat := e.op i / 2 ^ 32
def JEntry.lo (e : JEntry) (i : Nat) : Nat := e.op i % 2 ^ 32

def Strand.jfind (m : Strand) (q : W32) : Option JEntry := m.journal.find? fun e => e.seq = q

/-- A token is satisfied by STATE 2 or 3; an entry below JDONE is one of those (R224, R225). -/
def Strand.tokenMet (m : Strand) (q : W32) : Bool :=
  match m.jfind q with
  | none => true
  | some e => !e.live

/-- Sequence numbers an entry's tokens name. -/
def JEntry.tokens (e : JEntry) : List W32 :=
  ([e.en.k0, e.en.k1, e.en.k2].filter (· != 0)).map fun k => e.seq - BitVec.ofNat 32 k.val

def State.setEntry (s : State) (sid : Nat) (e : JEntry) : State :=
  s.updStrand sid fun m => { m with journal := m.journal.map fun x => if x.seq = e.seq then e else x }

/-- Entries at the front that are complete or null leave the journal, and JDONE follows (R225). -/
def Strand.trim (m : Strand) : Strand :=
  let j := m.journal.dropWhile fun e => !e.live
  { m with journal := j, jdone := match j.head? with | some e => e.seq | none => m.jhead }

/-- The waits an entry's completion ends (R223, R252, R284). -/
def Wait.endsAt (w : Wait) (q : W32) : Bool :=
  match w with
  | .waitk x _ => x = q
  | .xwait x _ _ => x = q
  | .stepLaunch x _ => x = q
  | .none | .csw | .waitt _ | .waita .. | .bar .. | .barSlot .. | .phase | .journalFull | .slogRoom _ _ | .relDrain
  | .ownDrain _ _ | .faultEntry | .fault => false

/-- An entry ends complete (R225): its engine is free, JDONE follows, and the strand's wait for it ends. The STEP stop
of a LAUNCH is taken now (spec/12, R330). -/
def State.finishEntry (s : State) (sid : Nat) (q : W32) : State :=
  match s.strand sid with
  | none => s
  | some m =>
    let done (x : JEntry) : JEntry := if x.seq = q then { x with st := .complete, eng := 0, cap := [] } else x
    let m1 := Strand.trim { m with journal := m.journal.map done }
    let over_ := m1.wait.endsAt q || (m1.wait = .journalFull && decide ((m1.jhead - m1.jdone).toNat < Config.journalEntries))
    let m2 := if over_ then { m1 with wait := .none, stallcnt := 0 } else m1
    let s1 := s.updStrand sid fun _ => m2
    match m1.wait with
    | .stepLaunch x w => if x = q then s1.debugStop m2 .step m2.wpc m2.pc w else s1
    | _ => s1

/-! ### Event counters, and the waits of family 6 -/

/-- The event counters of an XRUN (R251). -/
def Strand.events (m : Strand) (q : W32) : XEvents := (m.evs.find? fun v => v.seq = q).getD ⟨q, [0, 0, 0, 0], [0, 0, 0, 0]⟩

def Strand.setEvents (m : Strand) (v : XEvents) : Strand :=
  { m with evs := m.evs.map fun x => if x.seq = v.seq then v else x }

def XEvents.downOf (v : XEvents) (e : Fin 4) : W32 := v.down.getD e.val 0
def XEvents.upOf (v : XEvents) (e : Fin 4) : W32 := v.up.getD e.val 0

/-- A wait of family 6 is satisfied, but for its tokens (R252, R284). -/
def Strand.waitMet (m : Strand) (e : JEntry) : Bool :=
  match e.cmd with
  | .waitk .. => true
  | .xwait _ _ _ _ ev => decide (e.lo 0 ≤ ((m.events e.xrun).upOf ev).toNat)
  | _ => false

/-- The WAITK or XWAIT that the strand waits in, once nothing is left to wait for (R252, R284): it completes without a
step of its own, in the slot, or when the strand has one again. -/
def State.waitDone (s : State) (m : Strand) : Option W32 :=
  let ends (q : W32) : Option W32 :=
    match m.jfind q with
    | some e => if e.live && e.tokens.all m.tokenMet && m.waitMet e && !m.saved && !s.ended m.ctx then some q else none
    | none => none
  match m.wait with
  | .waitk q _ => ends q
  | .xwait q _ _ => ends q
  | _ => none

/-- A satisfied WAITK or XWAIT of a strand completes. -/
def State.endWait (s : State) (sid : Nat) : State :=
  match (s.strand sid).bind s.waitDone with
  | some q => s.finishEntry sid q
  | none => s

/-- An entry completes, and with it a wait that its token satisfies (R225, R284). -/
def State.completeEntry (s : State) (sid : Nat) (q : W32) : State := (s.finishEntry sid q).endWait sid

/-! ### What an access of an engine meets -/

/-- A cause, or absent bytes, each with the KIND of its access (spec/12, R313). `gu`: the gather unit made the access for a
matrix command (R232). -/
inductive EngErr
  | ends (c : Cause) (addr : Nat) (gu : Bool)
  | absent (l : List (Nat × Nat)) (gu : Bool)

/-- A step of an engine: a new state with a result, or what it met; then no part of the step is made. -/
abbrev EM := StateT State (Except EngErr)

def eTrap {α : Type} (c : Cause) (addr : Nat) : EM α := fun _ => .error (.ends c addr false)

/-- The same step as the gather unit makes it. -/
def asGu {α : Type} (f : EM α) : EM α := fun s =>
  match f s with
  | .ok r => .ok r
  | .error (.ends c a _) => .error (.ends c a true)
  | .error (.absent l _) => .error (.absent l true)

/-- Two parts of one step: the absent bytes of both are met together, and a cause of either comes before them (R227,
R312). -/
def eBoth {α β : Type} (f : EM α) (g : EM β) : EM (α × β) := fun s =>
  match f s with
  | .ok (x, t) => match g t with
    | .ok (y, u) => .ok ((x, y), u)
    | .error e => .error e
  | .error (.ends c a gu) => .error (.ends c a gu)
  | .error (.absent l gu) => match g s with
    | .error (.ends c a h) => .error (.ends c a h)
    | .error (.absent r _) => .error (.absent (l ++ r) gu)
    | .ok _ => .error (.absent l gu)

/-- The parts of one step, in order. -/
def eAll {α : Type} : List (EM α) → EM (List α)
  | [] => pure []
  | f :: fs => do
    let r ← eBoth f (eAll fs)
    return r.1 :: r.2

/-- The same part for each of several things. -/
def eEach {α β : Type} (l : List α) (f : α → EM β) : EM (List β) := eAll (l.map f)

/-- The checks of one access of an engine for the strand `m`: a window side against the window (R236, R246), a
memory side under R210. -/
def eCheck (m : Strand) (writes sp : Bool) (a n : Nat) : EM Unit := fun s =>
  if n = 0 then .ok ((), s)
  else if sp then
    if m.winSize < a + n then .error (.ends .prot (Nat.max a m.winSize) false)
    else if writes then .ok ((), s)
    else match (upto n).find? fun i => tget false s.sramPoison (m.winAddr (a + i) / 8) with
      | some i => .error (.ends .poison (a + i) false)
      | none => .ok ((), s)
  else
    let c := s.ctx m.ctx
    let k := if writes then Acc.w else Acc.r
    let l : List Access := [⟨none, a, n, 1⟩]
    match s.checkAll c k l with
    | .ends x _ b => .error (.ends x b false)
    | .absent ps => .error (.absent (ps.map fun p => (if writes then 6 else 5, p.2.va)) false)
    | .fine => .ok ((), s.touchAll c k l)

/-- Bytes whose checks have passed. -/
def State.engBytes (s : State) (m : Strand) (sp : Bool) (a n : Nat) : List Byte :=
  if sp then s.scratchRead m a n else s.readVa (s.ctx m.ctx) a n

def State.engPut (s : State) (m : Strand) (sp : Bool) (a : Nat) (bs : List Byte) : State :=
  if sp then s.scratchWrite m [(a, bs)] else s.writeVa (s.ctx m.ctx) a bs

def eRead (m : Strand) (sp : Bool) (a n : Nat) : EM (List Byte) := do
  eCheck m false sp a n
  return (← get).engBytes m sp a n

def eNat (m : Strand) (sp : Bool) (a n : Nat) : EM Nat := do return natOf (← eRead m sp a n)

/-- Writes that one step makes: every check comes before the first byte. -/
def eWrites (m : Strand) (l : List (Bool × Nat × List Byte)) : EM Unit := do
  let _ ← eEach l fun p => eCheck m true p.1 p.2.1 p.2.2.length
  modify fun s => l.foldl (fun t p => t.engPut m p.1 p.2.1 p.2.2) s

def eWrite (m : Strand) (sp : Bool) (a : Nat) (bs : List Byte) : EM Unit := eWrites m [(sp, a, bs)]

/-- The storage a byte of either space lies in: scratchpad bytes even, memory bytes odd. -/
def State.byteKey (s : State) (m : Strand) (sp : Bool) (a : Nat) : Nat :=
  if sp then 2 * m.winAddr a
  else match s.walk (s.ctx m.ctx) a .none with
    | .ok (pa, _) => 2 * s.place pa + 1
    | .error _ => 2 * a + 1

/-- What a byte-by-byte copy writes: a source byte that an earlier byte of the copy has written is read with its new
value (R246), and the bits that `keep` leaves out read as 0 (spec/02, R63). `done` holds the written bytes, youngest
first. -/
def copiedFrom (done : List (Nat × Byte)) : List (Nat × Nat × Byte × Byte) → List Byte
  | [] => []
  | (sk, dk, b, keep) :: t =>
    let v := (match done.find? fun p => p.1 = sk with
      | some p => p.2
      | none => b) &&& keep
    v :: copiedFrom ((dk, v) :: done) t

/-- One copy of `n` bytes: source space and address, destination space and address, and the bits of each byte that are
read. -/
structure Move where
  ssp : Bool
  sa : Nat
  dsp : Bool
  da : Nat
  n : Nat
  keep : Nat → Byte := fun _ => 0xFF#8

/-- Copies that one step makes in order, after the checks of all of them (R246, R248). -/
def eMoves (m : Strand) (l : List Move) : EM Unit := do
  let _ ← eEach l fun v => eBoth (eCheck m false v.ssp v.sa v.n) (eCheck m true v.dsp v.da v.n)
  modify fun s => l.foldl (fun t v =>
    let src := t.engBytes m v.ssp v.sa v.n
    let bs := copiedFrom [] (src.mapIdx fun i b =>
      (t.byteKey m v.ssp (v.sa + i), t.byteKey m v.dsp (v.da + i), b, v.keep i))
    t.engPut m v.dsp v.da bs) s

/-! ### Causes that an engine meets -/


/-- An entry stopped at a micro-PC boundary, with STATE 1, or 0 for a restarting command. -/
def JEntry.stopped (e : JEntry) (broke : Bool) : JEntry :=
  if restarts e.cmd then
    { e with st := .queued, upc := 0, eng := 0, ord := if broke then 1 else e.ord, ready := none, cap := [] }
  else { e with st := .stopped, eng := 0, ready := none }

/-- Faults of pages met with different kinds of access: none when a record write fails; whether every page has an entry. -/
def State.faultKinds (s : State) (k strand : Nat) (pc : W32) : List (Nat × Nat) → Option (State × Bool)
  | [] => some (s, true)
  | (kind, a) :: l =>
    match s.faultPages k kind strand pc true [a] with
    | none => none
    | some (t, ok) => (t.faultKinds k strand pc l).map fun r => (r.1, r.2 && ok)

/-- Distinct absent pages in increasing order, each with the kind and byte that met it first (R312). -/
def absentKinds (l : List (Nat × Nat)) : List (Nat × Nat) :=
  (absentPages (l.map fun p => p.2)).map fun a => (((l.find? fun p => p.2 = a).map fun p => p.1).getD 5, a)

/-- A command of strand `m` meets a cause (R227). A fault record that cannot be written ends the launch with a record
without engine fields (DESIGN CHOICE, log 75). -/
def State.engFail (s : State) (m : Strand) (e : JEntry) (err : EngErr) : State :=
  match err with
  | .ends c a gu =>
    s.endTrap m c { pc := m.nextIssue, addr := BitVec.ofNat 64 a,
                    eng := some (BitVec.ofNat 4 (if gu then 4 else e.eng), e.seq, e.upc) }
  | .absent as gu =>
    if s.ended m.ctx then s
    else
      let info : TrapInfo := { pc := m.nextIssue, addr := BitVec.ofNat 64 ((as.map fun p => p.2).headD 0),
                               eng := some (BitVec.ofNat 4 (if gu then 4 else e.eng), e.seq, e.upc) }
      s.recordThen m .pageAbsent info fun s1 =>
      match s1.faultKinds m.ctx m.index 0 (absentKinds as) with
      | none => s1.recordLost m m.nextIssue
      | some (s2, ok) =>
        let isX := match e.cmd with | .xrun .. => true | _ => false
        let (s3, broke) := if isX then s2.stopXs m else (s2, false)
        (s3.setEntry m.id { e.stopped broke with hold := if ok then 1 else 2 }).reconsider m.ctx

/-! ### Journaling -/

/-- A tensor identifier entry (spec/02, R62). -/
structure Tid where
  base : Nat
  rows : Nat
  cols : Nat
  stride : Nat
  ety : Option ETy
  planes : Nat
  pad : Bool
  bpt : Bool
  valid : Bool
  rsv : Nat
  sbase : Nat

def tidFields (e : TidEntry) : Tid where
  base := fieldN e 0 64
  rows := fieldN e 64 32
  cols := fieldN e 96 32
  stride := fieldN e 128 48
  ety := ETy.ofCode (e.extractLsb' 176 4)
  planes := fieldN e 180 5
  pad := e.getLsbD 185
  bpt := e.getLsbD 186
  valid := e.getLsbD 187
  rsv := fieldN e 188 4
  sbase := fieldN e 192 64

def Tid.ty (t : Tid) : ETy := t.ety.getD .f32

def Tid.w (t : Tid) : Nat := t.ty.width

/-- Declared precision (R63). -/
def Tid.prec (t : Tid) : Nat := if t.planes = 0 then t.w else t.planes

/-- The bits of an element as they are read: the low w − p bits are 0 (R63). -/
def Tid.cut (t : Tid) (x : Nat) : Nat := x / 2 ^ (t.w - t.prec) * 2 ^ (t.w - t.prec)

/-- The bits of byte `i` of a row that are read (R63). -/
def Tid.keep (t : Tid) (i : Nat) : Byte :=
  BitVec.ofNat 8 (packN 1 (fun b => b2n (decide (t.w - t.prec ≤ (8 * i + b) % t.w))) 8)

/-- The conditions of R63, and those of R89 for B4. What an entry whose ROWS or COLS is 0, or whose SPACE is 1 with a BASE
beyond 23 bits, does is not stated: it is accepted, and the whole BASE is the offset (DESIGN CHOICE, log 83). -/
def Tid.ok (t : Tid) : Bool :=
  t.valid && t.ety.isSome && t.rsv = 0 && decide (t.planes ≤ t.w) &&
  (!t.ty.isFloat || t.planes = 0 || t.planes = t.w) && (t.ty = .b4 || t.sbase = 0) &&
  (t.ty != .b4 || (t.cols % 32 = 0 && t.stride % 16 = 0 && decide (t.cols ≤ 2 * t.stride) && t.sbase % 16 = 0))

/-- The tensor identifiers a command names, given its captured operands (R64; spec/09, R241). -/
def tidNames (i : Instr) (opv : List W64) : List Byte :=
  match i with
  | .mma _ _ _ a b _ _ _ => [a, b]
  | .mmas _ _ _ a _ _ _ =>
    let x := opv.getD 2 0
    [a, x.extractLsb' 16 8, x.extractLsb' 8 8, x.extractLsb' 0 8]
  | .mmat _ _ _ a b _ _ => [a, b]
  | .acvt _ _ d _ _ _ _ _ _ => [d]
  | .amovTid _ _ _ t _ => [t]
  | .gthr _ _ d x _ => [d, x]
  | .gidx _ _ p _ => [p]
  | .attn _ _ q o _ _ _ => [q, o]
  | _ => []

/-- What one engine command captures and checks at journaling: the S registers of OPV in order, and its checks,
which may raise a cause. -/
structure CmdSpec where
  opv : List SReg
  check : State → List W64 → List Tid → Option Cause

/-- The strand's current XRUN (R251): its counters are the newest. -/
def Strand.curXrun (m : Strand) : Option W32 := m.evs.head?.map fun v => v.seq

/-- Counters that an entry can still name, and those of the current XRUN. -/
def keepEvs (m : Strand) : List XEvents :=
  match m.evs with
  | [] => []
  | v :: vs => v :: vs.filter fun x => m.journal.any fun e => e.live && (e.seq = x.seq || e.xrun = x.seq)

/-- The ordinal key of a collective call: calls of CRED and CGTH share one sequence for a tag; CSND and CRCV have
one for each peer and tag (spec/10, R278). -/
def collKey (i : Instr) : Option Nat :=
  match i with
  | .cred _ _ _ _ _ tag => some tag.toNat
  | .cgth _ _ _ tag => some tag.toNat
  | .csnd _ _ _ p tag => some (2 ^ 32 + p.val * 2 ^ 16 + tag.toNat)
  | .crcv _ _ _ p tag => some (2 ^ 33 + p.val * 2 ^ 16 + tag.toNat)
  | _ => none

/-- The ordinal of this call, and the counts after it. Calls of several strands of one slice count in the order in which
they are journaled (DESIGN CHOICE, log 98). -/
def nextOrd (l : List (Nat × Nat)) (k : Nat) : Nat × List (Nat × Nat) :=
  let n := ((l.find? fun p => p.1 = k).map fun p => p.2).getD 0
  (n, (k, n + 1) :: l.filter fun p => p.1 != k)

/-- An appended entry with its sequence number. -/
def Strand.append (m : Strand) (e : JEntry) : Strand :=
  { m with journal := m.journal ++ [e], jhead := m.jhead + 1, njour := m.njour + 1 }.trim

/-- The null entry of a suppressed command (R223). -/
def nullEntry (m : Strand) (i : Instr) : JEntry := ⟨m.jhead, i, 0, 0, false, .null, [], [], false, 0, 0, 0, none, []⟩

/-- A cause raised while a command is journaled carries its sequence number (R223, R309). -/
def State.journalTrap (s : State) (c : Cause) : State :=
  s.endTrap s.me c { pc := s.me.pc, eng := some (0, s.me.jhead, 0) }

/-- Journaling of R223 for the strand in focus, after the guard: the state with the entry, or a cause. -/
def State.journalIn (s : State) (e : EnH) (i : Instr) (k : CmdSpec) : Except Cause State :=
  let m := s.me
  let toks := [e.k0, e.k1, e.k2].filter (· != 0)
  if toks.any fun d => decide (m.njour < d.val) then .error .illegal
  else
    let opv := k.opv.map m.readS
    let raw := (tidNames i opv).map fun t => s.myCtx.tids.getD t.toNat 0
    let tids := raw.map tidFields
    if !(tids.all Tid.ok) then .error .illegal
    else match k.check s opv tids with
      | some c => .error c
      | none =>
        let at_ := e.at_ != 0
        let l := s.launchOf m
        let ordl := match collKey i, l with
          | some key, some x => some (nextOrd x.collOrd key)
          | _, _ => none
        let ent : JEntry := ⟨m.jhead, i, if at_ then m.readS e.at_ else 0, 0, false, .queued, opv, raw, at_,
          m.curXrun.getD 0, (ordl.map fun p => p.1).getD 0, 0, none, []⟩
        let m1 := (if e.sq = 0 then m else m.setS 1 e.sq (m.jhead.setWidth 64)).append ent
        let isX := match i with | .xrun .. => true | _ => false
        let s1 := s.setMe (if isX then { m1 with evs := ⟨m.jhead, [0, 0, 0, 0], [0, 0, 0, 0]⟩ :: keepEvs m1 } else m1)
        .ok (match ordl with
          | some p => s1.updLaunch m.ctx fun x => { x with collOrd := p.2 }
          | none => s1)

/-- The wait that follows the retirement of WAITK, XWAIT and, under STEP, LAUNCH. -/
def State.waitAfter (s : State) (sid : Nat) (pc : W32) (win : Bool) (w : Wait) : State :=
  if w = .none then s
  else s.updStrand sid fun m => if s.ended m.ctx then m else { m with wait := w, wpc := pc, wwin := win, stallcnt := 0 }

/-- A family 6 word (R223). `after` is the wait that follows its retirement, from its sequence number; a wait that nothing
is left of ends with it (R252, R284). -/
def engWord (h : Hdr) (e : EnH) (i : Instr) (k : CmdSpec) (after : W32 → Wait) (s : State) : Out :=
  let s1 := s.setMe s.me.settle
  let m := s1.me
  let isLaunch := match i with | .launch .. => true | _ => false
  .next (
    if m.early (hdrReads h) then s1.endTrap m .stallCheck { pc := m.pc }
    else if Config.journalEntries ≤ (m.jhead - m.jdone).toNat then s1.waitFor m .journalFull
    else if !m.guard h then State.finish m.pc h.stall m.step none (.ok (s1.setMe (m.append (nullEntry m i))))
    else if m.early ((k.opv ++ [e.at_]).map Dest.s) then s1.endTrap m .stallCheck { pc := m.pc }
    else match s1.journalIn e i k with
      | .error c => s1.journalTrap c
      | .ok s2 =>
        let hold := isLaunch && m.step
        let s3 := State.finish m.pc h.stall (m.step && !hold) none (.ok s2)
        (s3.waitAfter m.id m.pc m.inWindow (if hold then .stepLaunch m.jhead m.inWindow else after m.jhead)).endWait m.id)

/-- `n` S registers from `r` on. -/
def regsFrom (r : SReg) (n : Nat) : List SReg := (upto n).map fun k => ⟨(r.val + k) % 64, Nat.mod_lt _ (by decide)⟩

/-- The three passes of R261: fields, alignments, scratchpad ranges (offset and length; length 0 touches
nothing). -/
def params (m : Strand) (fields : Bool) (aligned : List (Nat × Nat)) (ranges : List (Nat × Nat)) : Option Cause :=
  if !fields then some .illegal
  else if aligned.any fun p => p.1 % p.2 != 0 then some .align
  else if ranges.any fun p => p.2 != 0 && decide (m.winSize < p.1 + p.2) then some .prot
  else none

end Sys2Proof.Machine
end

