-- ==== Sys2Proof/Machine/Matrix.lean ====
section
/-!
DEFINITION. Matrix commands (spec/09, R231 to R244; spec/03, R95 to R98; spec/04, R113, R114): operand tiles,
accumulators, the micro-steps of MMA and MMAS, and what MMAT, ACLR, ACVT and AMOV do as they complete.
-/

namespace Sys2Proof.Machine

/-! ### Operands -/

/-- The accepted type pairs of R234. -/
def matrixPair (a b : ETy) (acct : Bool) : Bool :=
  match a, b with
  | .b4, .b4 => !acct
  | .e4m3, .e4m3 | .e4m3, .e5m2 | .e5m2, .e4m3 | .e5m2, .e5m2 => !acct
  | .i8, .i8 | .i8, .n8 | .n8, .i8 | .n8, .n8 => acct
  | .f16, .f16 | .f16, .bf16 | .bf16, .f16 | .bf16, .bf16 => !acct
  | .i16, .i16 | .i16, .n16 | .n16, .i16 | .n16, .n16 => acct
  | _, _ => false

/-- K of a width (R234). -/
def kOf (w : Nat) : Nat := 384 / w

/-- The BPT 1 layout of R235 for K steps below `kend`. -/
def Tid.planar (t : Tid) (kend : Nat) : Bool :=
  t.pad && t.bpt && t.stride % 48 = 0 && decide ((t.cols * t.w + 383) / 384 * 48 ≤ t.stride) && t.base % 64 = 0 &&
  decide (1536 * kend ≤ 32 * t.stride)

/-- The exact value of an element's bits (R63). -/
def Tid.val (t : Tid) (raw scale : Nat) : FV :=
  let x := t.cut raw
  if t.ty = .b4 then
    let d := b4Deq scale x
    .fin (decide (d.m < 0)) d.m.natAbs d.e
  else if t.ty.isFloat then fdec t.ty x
  else
    let z := tyVal t.ty x
    .fin (decide (z < 0)) z.natAbs 0

/-- Scale bytes of `nc` columns of row `r` from column `c0` (R89): one for each column. -/
def rowScales (m : Strand) (t : Tid) (r c0 nc : Nat) : EM (List Nat) := do
  if t.ty = .b4 && nc != 0 then
    let b0 := c0 / 32
    let bs ← eRead m t.pad (t.sbase + r * (t.cols / 32) + b0) ((c0 + nc - 1) / 32 - b0 + 1)
    return (upto nc).map fun x => (bs.getD ((c0 + x) / 32 - b0) 0).toNat
  else return List.replicate nc 0

/-- The address of row `r` in plane `p` of an A tile (R235). -/
def Tid.planeRow (t : Tid) (i kk p r : Nat) : Nat :=
  t.base + 32 * t.stride * i + 1536 * kk + (t.w - 1 - p) * (1536 / t.w) + r * (kOf t.w / 8)

/-- The planes of the declared precision, most significant first: only they are fetched (spec/04, R113). -/
def Tid.planeList (t : Tid) : List Nat := (upto t.prec).map fun q => t.w - 1 - q

def zeroFV : FV := .fin false 0 0

/-- The 32 rows of an A tile: K values each, 0 beyond the tensor (R235, R236), fetched plane by plane (R113). -/
def rowsA (m : Strand) (t : Tid) (i kk : Nat) : EM (List (List FV)) := do
  let k := kOf t.w
  let nr := Nat.min 32 (t.rows - 32 * i)
  let nc := Nat.min k (t.cols - kk * k)
  let bits ← eEach t.planeList fun p =>
    eEach (upto nr) fun r => eNat m t.pad (t.planeRow i kk p r) ((nc + 7) / 8)
  let sc ← eEach (upto nr) fun r => rowScales m t (32 * i + r) (kk * k) nc
  let raw (r x : Nat) : Nat :=
    ((t.planeList.zip bits).map fun q => b2n (bitAt (q.2.getD r 0) x) * 2 ^ q.1).foldl (· + ·) 0
  return (upto 32).map fun r =>
    if r < nr then ((upto nc).map fun x => t.val (raw r x) ((sc.getD r []).getD x 0)) ++ List.replicate (k - nc) zeroFV
    else List.replicate k zeroFV

/-- One element of an A tile that is not B4: row `r`, column `x` of the tile. -/
def elemA (m : Strand) (t : Tid) (i kk r x : Nat) : EM FV := do
  if t.rows ≤ 32 * i + r then return zeroFV
  let bytes ← eEach t.planeList fun p => eNat m t.pad (t.planeRow i kk p r + x / 8) 1
  return t.val (((t.planeList.zip bytes).map fun q => b2n (bitAt q.2 (x % 8)) * 2 ^ q.1).foldl (· + ·) 0) 0

/-- `nc` elements of row `r` from column `c0` in the row layout of R89, as they are read (R63). -/
def rowRaw (m : Strand) (t : Tid) (r c0 nc : Nat) : EM (List Nat) := do
  let w := t.w
  let lo := c0 * w / 8
  let x ← eNat m t.pad (t.base + r * t.stride + lo) (((c0 + nc) * w + 7) / 8 - lo)
  return (upto nc).map fun i => t.cut (x / 2 ^ ((c0 + i) * w - 8 * lo) % 2 ^ w)

/-- A row of a B tile. -/
def rowB (m : Strand) (t : Tid) (j kk c : Nat) : EM (List FV) := do
  let k := kOf t.w
  if t.rows ≤ 32 * j + c then return List.replicate k zeroFV
  let nc := Nat.min k (t.cols - kk * k)
  let raws ← rowRaw m t (32 * j + c) (kk * k) nc
  let sc ← rowScales m t (32 * j + c) (kk * k) nc
  return ((raws.zip sc).map fun q => t.val q.1 q.2) ++ List.replicate (k - nc) zeroFV

/-- A tile whose first row or column lies beyond its tensor raises PROT (R236). -/
def tileIn (t : Tid) (r0 c0 : Nat) : EM Unit :=
  if t.rows ≤ r0 || t.cols ≤ c0 then eTrap .prot 0 else pure ()

/-! ### Accumulators -/

/-- ⌊x / 2^k⌋ × 2^k. -/
def Dy.floorTo (x : Dy) (k : Int) : Dy := if k ≤ x.e then x else ⟨x.m / 2 ^ (k - x.e).toNat, k⟩

def FV.dy (v : FV) : Dy :=
  match v with
  | .fin s m e => finDy s m e
  | .nan => Dy.zero
  | .inf _ => Dy.zero

/-- ⌊log2⌋ of a nonzero finite magnitude. -/
def FV.exp (v : FV) : Option Int :=
  match v with
  | .fin _ m e => if m = 0 then none else some ((Nat.log2 m : Int) + e)
  | .nan => none
  | .inf _ => none

/-- The windowed sum W of R96. -/
def windowSum (b4 : Bool) (ps : List FV) : Dy :=
  let s := Dy.sum (ps.map FV.dy)
  if b4 then s
  else match ps.filterMap FV.exp with
    | [] => s
    | x :: xs => s.floorTo (xs.foldl (fun a b => if a < b then b else a) x - 95)

/-- AccF32 of R96: one windowed sum and one RNE rounding. -/
def accF32 (b4 : Bool) (acc : Nat) (ps : List FV) : Nat :=
  let a := fdec .f32 acc
  let pos := ps.any fun p => p = .inf false
  let neg := ps.any fun p => p = .inf true
  if fvNan a || ps.any fvNan || (pos && neg) || (pos && a = .inf true) || (neg && a = .inf false) then canonNan .f32
  else if pos then finf .f32 false false
  else if neg then finf .f32 false true
  else match a with
    | .inf _ => acc
    | _ =>
      let w := windowSum b4 ps
      fvAdd .f32 .rne a (.fin (decide (w.m < 0)) w.m.natAbs w.e)

/-- AccI32 of R98. -/
def accI32 (sat : Bool) (acc : Nat) (ps : List FV) : Nat :=
  let s := Dy.sum (ps.map FV.dy)
  narrow .i32 sat (sgn 32 acc + s.m * 2 ^ s.e.toNat)

/-- The scratchpad offset of the accumulator window (R237). -/
def State.accBase (s : State) (m : Strand) : Nat :=
  match s.launchOf m with
  | some l => l.spneed * 4096
  | none => 0

/-- The 1,024 elements of an accumulator, row by row. -/
def readAcc (m : Strand) (n : Nat) : EM (List Nat) := do
  let x ← eNat m true ((← get).accBase m + 4096 * n) 4096
  return (upto 1024).map fun i => x / 2 ^ (32 * i) % 2 ^ 32

def writeAcc (m : Strand) (n : Nat) (v : List Nat) : EM Unit := do
  eWrite m true ((← get).accBase m + 4096 * n) (v.flatMap (bytesOf 4))

/-! ### Steps -/

/-- The elements after one MMA step (R239). -/
def mmaStep (m : Strand) (ta tb : Tid) (i j kk : Nat) (acct sat : Bool) (acc : List Nat) : EM (List Nat) := do
  let k := kOf ta.w
  tileIn ta (32 * i) (kk * k)
  tileIn tb (32 * j) (kk * k)
  let a ← rowsA m ta i kk
  let b ← eEach (upto 32) (rowB m tb j kk)
  return acc.mapIdx fun q x =>
    let ps := List.zipWith fvMul (a.getD (q / 32) []) (b.getD (q % 32) [])
    if acct then accI32 sat x ps else accF32 (ta.ty = .b4) x ps

/-- An N32 element of a one-row array, as it is read (R63). -/
def word32 (m : Strand) (t : Tid) (q : Nat) : EM Nat := do return t.cut (← eNat m t.pad (t.base + 4 * q) 4)

/-- The entries of sparse row `b` that belong to K step `kk`, after the checks of the whole row: column in the tile and
place of the value (R241). -/
def sparseRow (m : Strand) (colsA k kk : Nat) (tp ti : Tid) (b : Nat) : EM (List (Nat × Nat)) := do
  let (lo, hi) ← eBoth (word32 m tp b) (word32 m tp (b + 1))
  if hi < lo || ti.cols < hi then eTrap .gatherIndex 0
  let qs := (upto (hi - lo)).map (lo + ·)
  let xs ← eEach qs fun q => do
    let x ← word32 m ti q
    if colsA ≤ x then eTrap .gatherIndex 0
    return x
  return ((xs.zip qs).filter fun p => p.1 / k = kk).map fun p => (p.1 - kk * k, p.2)

/-- The products of sparse row `b` with each of the 32 rows of A (R241): only the elements it names are fetched. -/
def sparseProducts (m : Strand) (ta tp ti tv : Tid) (i kk b : Nat) : EM (List (List FV)) := do
  let es ← asGu (sparseRow m ta.cols (kOf ta.w) kk tp ti b)
  let (as, vs) ← eBoth (eEach (upto 32) fun r => eEach es fun p => elemA m ta i kk r p.1)
    (asGu (eEach es fun p => eNat m tv.pad (tv.base + p.2 * (tv.w / 8)) (tv.w / 8)))
  return as.map fun row => (row.zip vs).map fun p => fvMul p.1 (tv.val p.2 0)

/-- The elements after one MMAS step (R241). -/
def mmasStep (m : Strand) (ta tp ti tv : Tid) (i j kk : Nat) (acct sat : Bool) (acc : List Nat) : EM (List Nat) := do
  tileIn ta (32 * i) (kk * kOf ta.w)
  let nb := tp.cols - 1
  let cols ← eEach (upto 32) fun c =>
    if 32 * j + c < nb then sparseProducts m ta tp ti tv i kk (32 * j + c) else pure []
  return acc.mapIdx fun q x =>
    if nb ≤ 32 * j + q % 32 then x
    else
      let ps := (cols.getD (q % 32) []).getD (q / 32) []
      if acct then accI32 sat x ps else accF32 false x ps

/-- K steps of a command: NK (R238). -/
def JEntry.nk (e : JEntry) : Nat := e.hi 1 + 1

def JEntry.tid (e : JEntry) (k : Nat) : Tid := tidFields (e.tids.getD k 0)

/-- The next micro-step of MMA and MMAS; UPC counts the K steps (R225, R239). -/
def matrixStep (m : Strand) (e : JEntry) : EM W64 := do
  let s := e.upc.toNat
  if e.nk ≤ s then return e.upc
  match e.cmd with
  | .mma _ _ ac _ _ _ acct sat =>
    let acc ← readAcc m ac.val
    writeAcc m ac.val (← mmaStep m (e.tid 0) (e.tid 1) (e.hi 0) (e.lo 0) (e.lo 1 + s) acct sat acc)
    return e.upc + 1
  | .mmas _ _ ac _ _ acct sat =>
    let acc ← readAcc m ac.val
    writeAcc m ac.val
      (← mmasStep m (e.tid 0) (e.tid 1) (e.tid 2) (e.tid 3) (e.hi 0) (e.lo 0) (e.lo 1 + s) acct sat acc)
    return e.upc + 1
  | _ => return e.upc

/-- MMAT reads its accumulator when it starts (R240). -/
def mmatStart (m : Strand) (e : JEntry) : EM JEntry := do
  match e.cmd with
  | .mmat _ _ ac _ _ _ _ => return { e with cap := (← readAcc m ac.val).flatMap (bytesOf 4) }
  | _ => return e

/-- The elements of an accumulator after the K steps `n` on from step `s` of an MMAT (R240). -/
def mmatSteps (m : Strand) (e : JEntry) : Nat → Nat → List Nat → EM (List Nat)
  | 0, _, acc => pure acc
  | n + 1, s, acc => do
    mmatSteps m e n (s + 1) (← mmaStep m (e.tid 0) (e.tid 1) (e.hi 0) (e.lo 0) (e.lo 1 + s) false false acc)

/-- Columns of a tile of row group i and column group j that lie in the tensor, and the writes of its rows (R243). -/
def tileWrites (t : Tid) (i j : Nat) (f : Nat → Nat → Nat) : List (Bool × Nat × List Byte) :=
  let nr := Nat.min 32 (t.rows - 32 * i)
  let nc := Nat.min 32 (t.cols - 32 * j)
  (upto nr).map fun r =>
    (t.pad, t.base + (32 * i + r) * t.stride + 32 * j * (t.w / 8), (upto nc).flatMap fun c => bytesOf (t.w / 8) (f r c))

/-- What a matrix command does as it completes; false while K steps are left (R240, R242 to R244). -/
def matrixDone (m : Strand) (e : JEntry) : EM Bool := do
  match e.cmd with
  | .mmat _ _ ac _ _ _ fill =>
    let v ← mmatSteps m e e.nk 0 ((upto 1024).map fun i => natOf ((e.cap.drop (4 * i)).take 4))
    let f := if fill then e.hi 2 else 0xFF800000
    writeAcc m ac.val (v.map fun x => if fvLt (fdec .f32 x) (fdec .f32 (e.lo 2)) then f else x)
    return true
  | .aclr _ _ mask =>
    for n in upto 8 do
      if mask.getLsbD n then writeAcc m n (List.replicate 1024 0)
    return true
  | .acvt _ _ _ ac _ acct sat rm nan =>
    let t := e.tid 0
    let (i, j) := (e.hi 0, e.lo 0)
    tileIn t (32 * i) (32 * j)
    let acc ← readAcc m ac.val
    eWrites m (tileWrites t i j fun r c =>
      cvtElem t.ty (if acct then .i32 else .f32) rm sat nan (acc.getD (32 * r + c) 0))
    return true
  | .amov _ _ ac acs =>
    writeAcc m ac.val (← readAcc m acs.val)
    return true
  | .amovTid _ _ ac _ _ =>
    let t := e.tid 0
    let (i, j) := (e.hi 0, e.lo 0)
    tileIn t (32 * i) (32 * j)
    let nc := Nat.min 32 (t.cols - 32 * j)
    let rows ← eEach (upto 32) fun r =>
      if 32 * i + r < t.rows then do
        return (← rowRaw m t (32 * i + r) (32 * j) nc) ++ List.replicate (32 - nc) 0
      else pure (List.replicate 32 0)
    writeAcc m ac.val rows.flatten
    return true
  | _ => return decide (e.nk ≤ e.upc.toNat)

/-! ### Journaling -/

def illegalUnless (b : Bool) : Option Cause := if b then none else some .illegal

/-- The header of the strand's image declares matrix use (R237). -/
def State.matrixOk (s : State) : Bool :=
  match s.launchOf s.me with
  | some l => l.matrix
  | none => false

/-- First K step plus NK, from S[SCO+1] (R238). -/
def kEnd (opv : List W64) : Nat := fieldN (opv.getD 1 0) 0 32 + fieldN (opv.getD 1 0) 32 32 + 1

/-- The journaling checks of MMA and MMAT (R234, R235, R239). -/
def mmaCheck (acct sat : Bool) (s : State) (opv : List W64) (ts : List Tid) : Option Cause :=
  match ts with
  | [a, b] => illegalUnless (s.matrixOk && matrixPair a.ty b.ty acct && a.planar (kEnd opv) && b.pad && !b.bpt &&
      decide (kEnd opv ≤ 2 ^ 32) && (!sat || acct))
  | _ => some .illegal

/-- The journaling checks of MMAS (R241). -/
def mmasCheck (acct sat : Bool) (s : State) (opv : List W64) (ts : List Tid) : Option Cause :=
  match ts with
  | [a, p, i, v] => illegalUnless (s.matrixOk && fieldN (opv.getD 2 0) 24 40 = 0 && matrixPair a.ty v.ty acct &&
      v.ty != .b4 && a.planar (kEnd opv) && decide (kEnd opv ≤ 2 ^ 32) && (!sat || acct) &&
      p.ty = .n32 && p.rows = 1 && i.ty = .n32 && i.rows = 1 && v.rows = 1 && v.cols = i.cols &&
      !p.bpt && !i.bpt && !v.bpt)
  | _ => some .illegal

def execMma (h : Hdr) (e : EnH) (ac : AcReg) (tida tidb : Byte) (sco : SReg) (acct sat : Bool) (s : State) : Out :=
  engWord h e (.mma h e ac tida tidb sco acct sat) ⟨regsFrom sco 2, mmaCheck acct sat⟩
    (fun _ => .none) s

def execMmas (h : Hdr) (e : EnH) (ac : AcReg) (tida : Byte) (sco : SReg) (acct sat : Bool) (s : State) : Out :=
  engWord h e (.mmas h e ac tida sco acct sat)
    ⟨regsFrom sco 3, mmasCheck acct sat⟩ (fun _ => .none) s

def execMmat (h : Hdr) (e : EnH) (ac : AcReg) (tida tidb : Byte) (sco : SReg) (fill : Bool) (s : State) : Out :=
  engWord h e (.mmat h e ac tida tidb sco fill) ⟨regsFrom sco 3, mmaCheck false false⟩
    (fun _ => .none) s

def execAclr (h : Hdr) (e : EnH) (mask : Byte) (s : State) : Out :=
  engWord h e (.aclr h e mask) ⟨[], fun s _ _ => illegalUnless s.matrixOk⟩ (fun _ => .none) s

/-- ACVT takes the completers that VCVT would take (R243, R184). A breach that the operand word alone shows is raised at
journaling too, so a false guard passes it (DESIGN CHOICE, log 117). -/
def execAcvt (h : Hdr) (e : EnH) (tidd : Byte) (ac : AcReg) (sco : SReg) (acct sat : Bool) (rm : Rm) (nan : Bool)
    (s : State) : Out :=
  engWord h e (.acvt h e tidd ac sco acct sat rm nan) ⟨regsFrom sco 1, fun s _ ts =>
      match ts with
      | [d] => illegalUnless (s.matrixOk && d.ty != .b4 && !d.bpt && (rm = .rne || !acct || d.ty.isFloat) &&
          (!sat || (acct && !d.ty.isFloat)) && (!nan || d.ty = .e4m3))
      | _ => some .illegal⟩ (fun _ => .none) s

def execAmov (h : Hdr) (e : EnH) (ac acs : AcReg) (s : State) : Out :=
  engWord h e (.amov h e ac acs) ⟨[], fun s _ _ => illegalUnless s.matrixOk⟩ (fun _ => .none) s

def execAmovTid (h : Hdr) (e : EnH) (ac : AcReg) (tid : Byte) (sco : SReg) (s : State) : Out :=
  engWord h e (.amovTid h e ac tid sco) ⟨regsFrom sco 1, fun s _ ts =>
      match ts with
      | [t] => illegalUnless (s.matrixOk && (t.ty = .f32 || t.ty = .i32 || t.ty = .n32) && !t.bpt)
      | _ => some .illegal⟩ (fun _ => .none) s

end Sys2Proof.Machine
end

