-- ==== Sys2Proof/Machine/Copy.lean ====
section
/-!
DEFINITION. Copy, gather and index expansion (spec/09, R245 to R249): journaling checks, micro-steps and completion.
-/

namespace Sys2Proof.Machine

/-! ### CPY -/

def srcPad (d : CpyDir) : Bool := match d with | .mm => false | .ms => false | .sm => true | .ss => true
def dstPad (d : CpyDir) : Bool := match d with | .mm => false | .ms => true | .sm => false | .ss => true

/-- Row bytes and rows (R245). -/
def JEntry.shape (e : JEntry) (d2 : Bool) : Nat × Nat := if d2 then (e.hi 2, e.lo 2) else (e.lo 2, 1)

/-- The next micro-step of a copy: to the next boundary of 4 KiB or the end of the row (R246). -/
def cpyStep (m : Strand) (e : JEntry) : EM W64 := do
  match e.cmd with
  | .cpy _ _ _ dir _ d2 _ =>
    let (l, n) := e.shape d2
    let row := fieldN e.upc 32 32
    let x := fieldN e.upc 0 32
    if n ≤ row || l ≤ x then return e.upc
    let k := Nat.min (4096 - x % 4096) (l - x)
    eMoves m [{ ssp := srcPad dir, sa := e.op 1 + row * e.lo 3 + x, dsp := dstPad dir, da := e.op 0 + row * e.hi 3 + x,
                n := k }]
    return if x + k = l then BitVec.ofNat 64 ((row + 1) * 2 ^ 32) else BitVec.ofNat 64 (row * 2 ^ 32 + x + k)
  | _ => return e.upc

/-- The note comes after every payload byte (R247). A linear copy has no strides, so Sb+3 is free for the note
value. -/
def cpyDone (m : Strand) (e : JEntry) : EM Bool := do
  match e.cmd with
  | .cpy _ _ _ _ nsc d2 noff =>
    let (l, n) := e.shape d2
    if l = 0 || n ≤ fieldN e.upc 32 32 then
      if nsc != .off then eWrite m true (16 * noff.toNat) (bytesOf 8 (e.op 3))
      return true
    else return false
  | _ => return false

def execCpy (h : Hdr) (e : EnH) (sb : SReg) (dir : CpyDir) (nsc : NoteSc) (d2 : Bool) (noff : BitVec 19)
    (s : State) : Out :=
  engWord h e (.cpy h e sb dir nsc d2 noff) ⟨regsFrom sb 4, fun s opv _ =>
      if !d2 && fieldN (opv.getD 2 0) 32 32 != 0 then some .illegal
      else if nsc != .off && decide (s.me.winSize < 16 * noff.toNat + 8) then some .prot
      else none⟩ (fun _ => .none) s

/-! ### GTHR -/

/-- The moves of one row: its elements, and for B4 its scale row (R248). -/
def rowMoves (td ts : Tid) (d x : Nat) : List Move :=
  { ssp := ts.pad, sa := ts.base + x * ts.stride, dsp := td.pad, da := td.base + d * td.stride,
    n := (td.cols * td.w + 7) / 8, keep := ts.keep } ::
  (if td.ty = .b4 then
    [{ ssp := ts.pad, sa := ts.sbase + x * (ts.cols / 32), dsp := td.pad, da := td.sbase + d * (td.cols / 32),
       n := td.cols / 32 }]
   else [])

/-- One index entry (R248). -/
def gthrStep (m : Strand) (e : JEntry) : EM W64 := do
  let q := e.upc.toNat
  if e.hi 0 ≤ q then return e.upc
  if e.lo 0 % 4 != 0 then eTrap .align (e.lo 0)
  let x := sgn 32 (← eNat m true (e.lo 0 + 4 * q) 4)
  let (td, ts) := (e.tid 0, e.tid 1)
  let d := e.lo 1 + q
  if x < 0 || (ts.rows : Int) ≤ x || td.rows ≤ d then eTrap .gatherIndex 0
  eMoves m (rowMoves td ts d x.toNat)
  return e.upc + 1

def execGthr (h : Hdr) (e : EnH) (tidd tids : Byte) (sb : SReg) (s : State) : Out :=
  engWord h e (.gthr h e tidd tids sb) ⟨regsFrom sb 2, fun _ _ ts =>
      match ts with
      | [d, x] => illegalUnless (d.ty = x.ty && d.cols = x.cols && !d.bpt && !x.bpt)
      | _ => some .illegal⟩ (fun _ => .none) s

/-! ### GIDX -/

/-- The pairs of pointers of `n` rows from row `b` on, all met together (R249, R312). -/
def gidxPairs (m : Strand) (t : Tid) (n b : Nat) : EM Unit := do
  let _ ← eEach (upto n) fun i => do
    let (hi, lo) ← eBoth (word32 m t (b + i + 1)) (word32 m t (b + i))
    if hi < lo then eTrap .gatherIndex 0

/-- The checks before any output (R249): every pair of rows a to a + m. -/
def gidxCheck (m : Strand) (e : JEntry) : EM Unit := do
  let t := e.tid 0
  let (a, n) := (e.lo 0, e.hi 0)
  if t.cols ≤ a + n then eTrap .gatherIndex 0
  gidxPairs m t n a
  let (hi, lo) ← eBoth (word32 m t (a + n)) (word32 m t a)
  if e.hi 1 < hi - lo then eTrap .gatherIndex 0
  if e.lo 1 % 4 != 0 then eTrap .align (e.lo 1)

/-- One row of the output (R249). -/
def gidxStep (m : Strand) (e : JEntry) : EM W64 := do
  let k := e.upc.toNat
  if e.hi 0 ≤ k then return e.upc
  if k = 0 then gidxCheck m e
  let t := e.tid 0
  let b := e.lo 0 + k
  let (base, lo, hi) ← eBoth (word32 m t (e.lo 0)) (eBoth (word32 m t b) (word32 m t (b + 1)))
  eWrite m true (e.lo 1 + 4 * (lo - base)) ((upto (hi - lo)).flatMap fun _ => bytesOf 4 b)
  return e.upc + 1

/-- GTHR and GIDX complete once every entry or row is done; a GIDX of no rows still makes its checks. -/
def gatherDone (m : Strand) (e : JEntry) : EM Bool := do
  match e.cmd with
  | .gidx .. => if e.hi 0 = 0 then gidxCheck m e
  | _ => pure ()
  return decide (e.hi 0 ≤ e.upc.toNat)

def execGidx (h : Hdr) (e : EnH) (tidp : Byte) (sb : SReg) (s : State) : Out :=
  engWord h e (.gidx h e tidp sb) ⟨regsFrom sb 2, fun _ _ ts =>
      match ts with
      | [t] => illegalUnless (t.ty = .n32 && t.rows = 1 && !t.bpt)
      | _ => some .illegal⟩ (fun _ => .none) s

end Sys2Proof.Machine
end

