-- ==== Sys2Proof/Machine/Kv.lean ====
section
/-!
DEFINITION. Block hashes, the prefix directory, step-versioned maps and attention (spec/10, R261 to R277).
-/

namespace Sys2Proof.Machine

/-! ### Block hashes -/

/-- Mix64 of R264. -/
def mix64 (x0 : W64) : W64 :=
  let x1 := (x0 ^^^ (x0 >>> 31)) * 0xA3C59B17E64D2F0B#64
  let x2 := (x1 ^^^ (x1 >>> 27)) * 0x8E2761D94B3FC5A5#64
  x2 ^^^ (x2 >>> 33)

/-- The eight rounds of H on pairs of token ids (R264). -/
def hashRounds (a b : W64) : Nat → List Nat → W64 × W64
  | i, t0 :: t1 :: ts =>
    let w : W64 := BitVec.ofNat 64 (t0 + t1 * 2 ^ 32)
    let a1 := mix64 (a ^^^ w ^^^ b)
    let b1 := b.rotateLeft 23 + a1 + BitVec.ofNat 64 (i + 1)
    hashRounds a1 b1 (i + 1) ts
  | _, _ => (a, b)

/-- H(h, tag, t) of R264. -/
def blockHash (h : BitVec 128) (tag : W64) (t : List Nat) : BitVec 128 :=
  let a := mix64 (h.extractLsb' 0 64 ^^^ tag)
  let b := mix64 (h.extractLsb' 64 64 ^^^ (tag * 0x6F1D83A9C25E7B39#64))
  let r := hashRounds a b 0 t
  mix64 (r.2 ^^^ r.1.rotateLeft 32) ++ mix64 (r.1 + r.2)

/-- The next block of KVH (R263). -/
def kvhStep (m : Strand) (e : JEntry) : EM W64 := do
  let i := e.upc.toNat
  if e.hi 0 ≤ i then return e.upc
  let out := e.lo 2
  let h ← if i != 0 then eNat m true (out + 16 * (i - 1)) 16
    else if bitAt (e.op 2) 63 then eNat m true (bitsAt (e.op 2) 32 23) 16
    else pure 0
  let ids ← eNat m true (e.lo 0 + 64 * i) 64
  let t := (upto 16).map fun k => ids / 2 ^ (32 * k) % 2 ^ 32
  eWrite m true (out + 16 * i) (bytesOf 16 (blockHash (BitVec.ofNat 128 h) (e.opv.getD 1 0) t).toNat)
  return e.upc + 1

def execKvh (h : Hdr) (e : EnH) (sb : SReg) (s : State) : Out :=
  engWord h e (.kvh h e sb) ⟨regsFrom sb 3, fun s o _ =>
    let n := fieldN (o.getD 0 0) 32 32
    let x := o.getD 2 0
    let tok := fieldN (o.getD 0 0) 0 32
    let seed := fieldN x 32 23
    let out := fieldN x 0 32
    params s.me (decide (1 ≤ n) && decide (n ≤ 65536) && fieldN x 55 8 = 0)
      [(tok, 4), (seed, 16), (out, 16)]
      [(tok, 64 * n), (seed, if x.getLsbD 63 then 16 else 0), (out, 16 * n)]⟩ (fun _ => .none) s

/-! ### The prefix directory -/

def DirSlot.blank : DirSlot := ⟨false, 0, 0, 0⟩

/-- The probe sequence of a hash (R265). -/
def probes (r : Region) (h : Nat) : List Nat := (upto 8).map fun k => (h + k) % 2 ^ r.pdsz

/-- The slot in which a hash is present. -/
def Region.slotOf (r : Region) (h : Nat) : Option Nat :=
  (probes r h).find? fun n => (tget DirSlot.blank r.dir n).valid && (tget DirSlot.blank r.dir n).tag.toNat = h

def Region.slot (r : Region) (n : Nat) : DirSlot := tget DirSlot.blank r.dir n

def Region.setSlot (r : Region) (n : Nat) (d : DirSlot) : Region := { r with dir := tset DirSlot.blank r.dir n d }

/-- KVLK on the values of a run of present hashes (R267). -/
def lookup (r : Region) : List Nat → List W64
  | [] => []
  | h :: hs =>
    match r.slotOf h with
    | none => []
    | some n => (r.slot n).value :: lookup r hs

/-- KVPIN: pins in turn until a hash is absent or its count is full (R268). -/
def pinAll (r : Region) : Nat → List Nat → Region × Nat
  | k, [] => (r, k)
  | k, h :: hs =>
    match r.slotOf h with
    | none => (r, k)
    | some n =>
      let d := r.slot n
      if d.pin = 0xFFFF then (r, k) else pinAll (r.setSlot n { d with pin := d.pin + 1 }) (k + 1) hs

/-- KVUNP: unpins every present hash with pins (R268). -/
def unpinAll (r : Region) : Nat → List Nat → Region × Nat
  | k, [] => (r, k)
  | k, h :: hs =>
    match r.slotOf h with
    | none => unpinAll r k hs
    | some n =>
      let d := r.slot n
      if d.pin = 0 then unpinAll r k hs else unpinAll (r.setSlot n { d with pin := d.pin - 1 }) (k + 1) hs

/-- A record of KVINS: TAG, VALUE, PINF. -/
structure InsRec where
  tag : Nat
  value : W64
  pinf : Bool

/-- KVINS of one record: the directory and the status byte (R269). -/
def insertOne (r : Region) (x : InsRec) : Region × Nat :=
  match r.slotOf x.tag with
  | some n =>
    let d := r.slot n
    (if x.pinf && d.pin != 0xFFFF then r.setSlot n { d with pin := d.pin + 1 } else r, 1)
  | none =>
    let ps := probes r x.tag
    let new : DirSlot := ⟨true, BitVec.ofNat 128 x.tag, x.value, BitVec.ofNat 16 (b2n x.pinf)⟩
    match ps.find? fun n => !(r.slot n).valid with
    | some n => (r.setSlot n new, 0)
    | none =>
      match ps.find? fun n => (r.slot n).pin = 0 with
      | some n => (r.setSlot n new, 0)
      | none => (r, 2)

def insertAll (r : Region) : List InsRec → Region × List Nat
  | [] => (r, [])
  | x :: xs =>
    let a := insertOne r x
    let b := insertAll a.1 xs
    (b.1, a.2 :: b.2)

/-- The hashes of a directory command. -/
def hashes (m : Strand) (e : JEntry) : EM (List Nat) :=
  eEach (upto (e.hi 0)) fun i => eNat m true (e.lo 0 + 16 * i) 16

/-- The directory of a strand's context: that of the nearest node that sets OVR bit 4 (R265). -/
def State.dirOf (s : State) (m : Strand) : Option Region := s.owner (s.ctx m.ctx).region 4

/-- A step on the directory, if the path has one. -/
def onDir (m : Strand) (f : Region → Region × List Byte) (none_ : List Byte) : EM (List Byte) := do
  match (← get).dirOf m with
  | none => return none_
  | some r =>
    let x := f r
    modify fun s => s.updRegion r.addr fun _ => x.1
    return x.2

/-- The indivisible step of KVPIN, KVUNP and KVINS (R268, R269). -/
def dirStep (m : Strand) (e : JEntry) : EM Unit := do
  let at_ := e.lo 1
  match e.cmd with
  | .kvpin .. =>
    let hs ← hashes m e
    eWrite m true at_ (← onDir m (fun r => let x := pinAll r 0 hs; (x.1, bytesOf 8 x.2)) (bytesOf 8 0))
  | .kvunp .. =>
    let hs ← hashes m e
    eWrite m true at_ (← onDir m (fun r => let x := unpinAll r 0 hs; (x.1, bytesOf 8 x.2)) (bytesOf 8 0))
  | .kvins .. =>
    let recs ← eEach (upto (e.hi 0)) fun i => do
      let x ← eNat m true (e.lo 0 + 32 * i) 32
      if 2 ≤ bitsAt x 192 64 then eTrap .illegal 0
      return (⟨bitsAt x 0 128, BitVec.ofNat 64 (bitsAt x 128 64), bitAt x 192⟩ : InsRec)
    let bs ← onDir m (fun r =>
        let x := insertAll r recs
        (x.1, bytesOf 8 (x.2.filter (· = 0)).length ++ x.2.map (BitVec.ofNat 8 ·)))
      (bytesOf 8 0 ++ recs.map fun _ => 2)
    eWrite m true at_ bs
  | _ => pure ()

/-- KVLK as it completes (R267). -/
def kvlkDone (m : Strand) (e : JEntry) : EM Bool := do
  let hs ← hashes m e
  let vs := match (← get).dirOf m with
    | some r => lookup r hs
    | none => []
  eWrite m true (e.lo 1) (bytesOf 8 vs.length ++ vs.flatMap bytes64)
  return true

/-- The checks of a directory command with elements of `size` bytes, aligned to `al`, and `res` result bytes for each
(R261, R267 to R269). KVLK, whose m is not known at journaling, is checked for 8 + 8n result bytes (DESIGN CHOICE,
log 97). -/
def dirCheck (size al res : Nat) (s : State) (o : List W64) (_ : List Tid) : Option Cause :=
  let n := fieldN (o.getD 0 0) 32 32
  let a := fieldN (o.getD 0 0) 0 32
  let r := fieldN (o.getD 1 0) 0 32
  params s.me (decide (1 ≤ n) && decide (n ≤ 256)) [(a, al), (r, 8)] [(a, size * n), (r, 8 + res * n)]

def execKvlk (h : Hdr) (e : EnH) (sb : SReg) (s : State) : Out :=
  engWord h e (.kvlk h e sb) ⟨regsFrom sb 2, dirCheck 16 16 8⟩ (fun _ => .none) s
def execKvins (h : Hdr) (e : EnH) (sb : SReg) (s : State) : Out :=
  engWord h e (.kvins h e sb) ⟨regsFrom sb 2, dirCheck 32 32 1⟩ (fun _ => .none) s
def execKvpin (h : Hdr) (e : EnH) (sb : SReg) (s : State) : Out :=
  engWord h e (.kvpin h e sb) ⟨regsFrom sb 2, dirCheck 16 16 0⟩ (fun _ => .none) s
def execKvunp (h : Hdr) (e : EnH) (sb : SReg) (s : State) : Out :=
  engWord h e (.kvunp h e sb) ⟨regsFrom sb 2, dirCheck 16 16 0⟩ (fun _ => .none) s

/-! ### Versioned maps -/

/-- A map descriptor (R270). -/
structure MapDesc where
  cver : Nat
  ctab : Nat
  crd : Nat
  cnpos : Nat
  pver : Nat
  ptab : Nat
  prd : Nat
  pnpos : Nat
  pub : Nat
  freed : Nat

/-- The fields of a descriptor. Reserved bits are ignored, and a write puts 0 there: the spec names no consequence of a nonzero
one (R11; DESIGN CHOICE, log 112). -/
def mapOf (x : Nat) : MapDesc :=
  ⟨bitsAt x 0 64, bitsAt x 64 64, bitsAt x 160 32, bitsAt x 128 32, bitsAt x 192 64, bitsAt x 256 64, bitsAt x 352 32,
   bitsAt x 320 32, bitsAt x 384 48, bitsAt x 448 64⟩

def MapDesc.bytes (d : MapDesc) : List Byte :=
  bytesOf 64 (pack [(0, d.cver), (64, d.ctab), (128, d.cnpos), (160, d.crd), (192, d.pver), (256, d.ptab),
    (320, d.pnpos), (352, d.prd), (384, d.pub), (448, d.freed)])

/-- The descriptor in one indivisible step: it must be readable and writable and not lie on a UO page (R271). -/
def readDesc (m : Strand) (a : Nat) : EM MapDesc := do
  let x ← eNat m false a 64
  eCheck m true false a 64
  let s ← get
  match s.walk (s.ctx m.ctx) a .none with
  | .ok (_, leaf) => if pteOrd leaf = 2 then eTrap .prot a
  | .error _ => pure ()
  return mapOf x

/-- Who publishes: PKG and CTXH (R272). -/
def State.publisher (s : State) (m : Strand) : Nat := s.plat.pkgnum.toNat * 2 ^ 32 + (s.handle m.ctx).toNat

/-- KVPUB of version `v` (R272): the descriptor and the status. -/
def publish (d : MapDesc) (v table npos p : Nat) : MapDesc × Nat :=
  if v < d.cver then (d, 2)
  else if v = d.cver then (d, if p = d.pub then 5 else 3)
  else if d.cver != 0 && decide (0 < d.crd) && d.pver != 0 then (d, 4)
  else
    let d1 := if d.cver != 0 && decide (0 < d.crd) then
        { d with pver := d.cver, ptab := d.ctab, prd := d.crd, pnpos := d.cnpos }
      else if d.cver != 0 then { d with freed := Nat.max d.freed d.cver }
      else d
    ({ d1 with cver := v, ctab := table, crd := 0, cnpos := npos, pub := p }, 1)

/-- KVMAP.REL of version `v` (R271); none for a version that is not held. -/
def release (d : MapDesc) (v : Nat) : Option MapDesc :=
  if v != 0 && v = d.cver && decide (0 < d.crd) then some { d with crd := d.crd - 1 }
  else if v != 0 && v = d.pver && decide (0 < d.prd) then
    if d.prd = 1 then some { d with freed := Nat.max d.freed d.pver, pver := 0, ptab := 0, prd := 0, pnpos := 0 }
    else some { d with prd := d.prd - 1 }
  else none

/-- KVPUB names no version: ILLEGAL before any access to the descriptor (R272). -/
def noVersion (e : JEntry) : Bool :=
  match e.cmd with
  | .kvpub .. => e.op 1 = 0
  | _ => false

/-- The indivisible step of KVMAP, KVMAP.REL and KVPUB (R271, R272). -/
def mapStep (m : Strand) (e : JEntry) : EM Unit := do
  if noVersion e then eTrap .illegal 0
  let a := e.op 0
  let d ← readDesc m a
  match e.cmd with
  | .kvmap .. =>
    if d.cver != 0 && d.crd = 2 ^ 32 - 1 then eTrap .illegal 0
    if d.cver != 0 then eWrite m false a (MapDesc.bytes { d with crd := d.crd + 1 })
    eWrite m true (e.lo 1) (bytesOf 8 d.cver ++ bytesOf 8 d.ctab ++ bytesOf 8 d.cnpos)
  | .kvmapRel .. =>
    match release d (e.op 1) with
    | some d1 => eWrite m false a d1.bytes
    | none => eTrap .illegal 0
  | .kvpub .. =>
    let r := publish d (e.op 1) (e.op 2) (e.lo 3) ((← get).publisher m)
    if r.2 = 1 then eWrite m false a r.1.bytes
    eWrite m true (e.hi 3) (bytesOf 8 r.2)
  | _ => pure ()

/-- The side-log entries that the strand held when KVPUB was journaled have drained (R273); those that it made later do not
hold the command (DESIGN CHOICE, log 108). -/
def State.pubReady (s : State) (m : Strand) (e : JEntry) : Bool :=
  (s.slogOf m.id).all fun x => (e.seq - x.jmark).msb

def execKvmap (h : Hdr) (e : EnH) (sb : SReg) (s : State) : Out :=
  engWord h e (.kvmap h e sb) ⟨regsFrom sb 2, fun s o _ =>
    let r := fieldN (o.getD 1 0) 0 32
    params s.me true [((o.getD 0 0).toNat, 64), (r, 8)] [(r, 24)]⟩ (fun _ => .none) s
def execKvmapRel (h : Hdr) (e : EnH) (sb : SReg) (s : State) : Out :=
  engWord h e (.kvmapRel h e sb) ⟨regsFrom sb 2, fun s o _ =>
    params s.me true [((o.getD 0 0).toNat, 64)] []⟩ (fun _ => .none) s
def execKvpub (h : Hdr) (e : EnH) (sb : SReg) (s : State) : Out :=
  engWord h e (.kvpub h e sb) ⟨regsFrom sb 4, fun s o _ =>
    let r := fieldN (o.getD 3 0) 32 32
    params s.me true [((o.getD 0 0).toNat, 64), ((o.getD 2 0).toNat, 8), (r, 8)] [(r, 8)]⟩ (fun _ => .none) s

/-! ### Attention -/

/-- The exact sum of values under R84 and R85, before any rounding; an exact zero is −0 only when every term is. -/
def fvSum (l : List FV) : FV :=
  let pos := l.any fun p => p = .inf false
  let neg := l.any fun p => p = .inf true
  if l.any fvNan || (pos && neg) then .nan
  else if pos then .inf false
  else if neg then .inf true
  else
    let d := Dy.sum (l.map FV.dy)
    let allNeg := !l.isEmpty && l.all fun v => match v with | .fin s n _ => s && n = 0 | .nan => false | .inf _ => false
    if d.m = 0 then .fin allNeg 0 0 else .fin (decide (d.m < 0)) d.m.natAbs d.e

def fvRound32 (v : FV) : FV := fdec .f32 (fvCvt .f32 .rne false v)

/-- Bytes of the key or value section of a block of D columns, padded (R275). -/
def sectionSize (b4 : Bool) (d : Nat) : Nat :=
  let n := if b4 then 8 * d + d / 2 else 32 * d
  (n + 63) / 64 * 64

/-- Row `r` of a section at `a` (R275). -/
def attnRow (m : Strand) (b4 : Bool) (d a r : Nat) : EM (List FV) := do
  if b4 then
    let (codes, sc) ← eBoth (eNat m false (a + r * (d / 2)) (d / 2)) (eRead m false (a + 8 * d + r * (d / 32)) (d / 32))
    return (upto d).map fun x =>
      let v := b4Deq (sc.getD (x / 32) 0).toNat (codes / 2 ^ (4 * x) % 16)
      .fin (decide (v.m < 0)) v.m.natAbs v.e
  else
    let x ← eNat m false (a + r * (2 * d)) (2 * d)
    return (upto d).map fun i => fdec .bf16 (x / 2 ^ (16 * i) % 2 ^ 16)

/-- The address of the block of position `p` (R275). -/
def attnBlock (m : Strand) (table p : Nat) : EM Nat := do
  let a ← eNat m false (table + 8 * (p / 16)) 8
  if a % 64 != 0 then eTrap .align a
  return a

/-- One output row from the query, the keys and the values (R276). -/
def attnOut (c : FV) (q : List FV) (keys vals : List (List FV)) (d : Nat) : List Nat :=
  let s := keys.map fun k => fvCvt .f32 .rne false (fvMul c (fvSum (List.zipWith fvMul q k)))
  match s with
  | [] => List.replicate d 0
  | x :: xs =>
    let mx := xs.foldl (fminmax .f32 true) x
    if mx = 0xFF800000 then List.replicate d 0
    else
      let mneg := fvNeg (fdec .f32 mx)
      let ex := s.map fun y => fdec .f32 (fvExp2 .f32 .rne (fdec .f32 (fvAdd .f32 .rne (fdec .f32 y) mneg)))
      let den := fvRound32 (fvSum ex)
      (upto d).map fun y =>
        fvDiv .f32 .rne (fvRound32 (fvSum (List.zipWith fvMul ex (vals.map fun v => v.getD y .nan)))) den

/-- The table of version `v` of a map for `l` positions (R274). -/
def attnTable (d : MapDesc) (v l : Nat) : Option Nat :=
  if v != 0 && v = d.cver && decide (l ≤ 16 * d.cnpos) then some d.ctab
  else if v != 0 && v = d.pver && decide (l ≤ 16 * d.pnpos) then some d.ptab
  else none

/-- ATTN, which is one step (R262, R274 to R277; spec/13, R354): it reads the descriptor, checks v and L, reads the table, the
blocks and the queries, and writes its output. -/
def attnDone (m : Strand) (e : JEntry) : EM Bool := do
  match e.cmd with
  | .attn _ _ _ _ _ kb4 vb4 =>
    let (tq, tx) := (e.tid 0, e.tid 1)
    let l := e.hi 2
    let desc := mapOf (← eNat m false (e.op 0) 64)
    let tab ← match attnTable desc (e.op 1) l with
      | some a => pure a
      | none => eTrap .illegal 0
    let d := tq.cols
    let kv ← eEach (upto l) fun p => do
      let a ← attnBlock m tab p
      eBoth (attnRow m kb4 d a (p % 16)) (attnRow m vb4 d (a + sectionSize kb4 d) (p % 16))
    let outs ← eEach (upto tq.rows) fun r => do
      let q ← rowRaw m tq r 0 d
      let row := attnOut (fdec .f32 (e.lo 2)) (q.map fun x => tq.val x 0) (kv.map fun p => p.1) (kv.map fun p => p.2) d
      let bytes := row.flatMap fun x => bytesOf (tx.w / 8) (fvCvt tx.ty .rne false (fdec .f32 x))
      return ((tx.pad, tx.base + r * tx.stride, bytes) : Bool × Nat × List Byte)
    eWrites m outs
    return true
  | _ => return false

/-- The scratchpad ranges of `n` rows of a tensor (R261). -/
def Tid.rowRanges (t : Tid) (n : Nat) : List (Nat × Nat) :=
  if t.pad then (upto n).map fun r => (t.base + r * t.stride, (t.cols * t.w + 7) / 8) else []

def execAttn (h : Hdr) (e : EnH) (tidq tido : Byte) (sb : SReg) (kb4 vb4 : Bool) (s : State) : Out :=
  engWord h e (.attn h e tidq tido sb kb4 vb4) ⟨regsFrom sb 3, fun s o ts =>
      match ts with
      | [q, x] =>
        params s.me ((q.ty = .f32 || q.ty = .bf16) && q.pad && !q.bpt && decide (1 ≤ q.rows) && decide (q.rows ≤ 32) &&
            q.cols % 32 = 0 && decide (32 ≤ q.cols) && decide (q.cols ≤ 256) &&
            (x.ty = .f32 || x.ty = .bf16) && !x.bpt && decide (q.rows ≤ x.rows) && x.cols = q.cols)
          [((o.getD 0 0).toNat, 64)] (q.rowRanges q.rows ++ x.rowRanges q.rows)
      | _ => some .illegal⟩ (fun _ => .none) s

end Sys2Proof.Machine
end

