-- ==== Sys2Proof/Machine/Coll.lean ====
section
/-!
DEFINITION. Collectives between the slices of a gang (spec/10, R278 to R282) and LAUNCH (R283; spec/14, R359).
Calls and their data travel as messages; a slice's own call is a message that it has sent.
-/

namespace Sys2Proof.Machine

/-! ### Messages -/

def isReduce (k : CollKind) : Bool := match k with
  | .cred .. => true | .cgth => true | .csnd => false | .written => false
  | .barrier .. => false

/-- The message of a kind from a slice for this gang, tag and ordinal. -/
def State.message (s : State) (m : Strand) (src : Nat) (tag : BitVec 16) (ord : Nat) (p : CollMsg → Bool) :
    Option CollMsg :=
  (s.inbox ++ s.outbox).find? fun x =>
    (x.gang, x.start) = s.gangOf m && x.src = src && x.tag = tag && x.ord = ord && p x

def post (m : Strand) (dst : Nat) (tag : BitVec 16) (ord : Nat) (kind : CollKind) (data : List Byte) : EM Unit :=
  modify fun s => { s with outbox := s.outbox ++
    [⟨(s.gangOf m).1, (s.gangOf m).2, s.slice m, dst, tag, ord, kind, data⟩] }

/-- The call of every slice, in ring order, when all have arrived. -/
def State.calls (s : State) (m : Strand) (tag : BitVec 16) (ord : Nat) : Option (List CollMsg) :=
  (upto (s.npkg m)).mapM fun k => s.message m k tag ord fun x => isReduce x.kind

/-- A call of another kind, operation, type or count than slice 0's ends the launch (R278). -/
def sameAs0 (m : Strand) (tag : BitVec 16) (ord : Nat) (kind : CollKind) : EM Unit := do
  match (← get).message m 0 tag ord fun x => isReduce x.kind with
  | some x => if x.kind != kind then eTrap .illegal 0
  | none => pure ()

/-- The call that is being journaled differs from slice 0's, where that is known here (R278). -/
def State.callClash (s : State) (tag : BitVec 16) (kind : CollKind) : Bool :=
  match s.launchOf s.me with
  | none => false
  | some l =>
    match s.message s.me 0 tag (nextOrd l.collOrd tag.toNat).1 fun x => isReduce x.kind with
    | some x => x.kind != kind
    | none => false

/-! ### CRED -/

/-- Element `j` over the present contributions in ring order (R279). -/
def credElem (op : CrOp) (ty : ETy) (xs : List Nat) : Nat :=
  match op with
  | .sum =>
    if ty.isFloat then (if xs.isEmpty then 0 else fvCvt .f32 .rne false (fvSum (xs.map (fdec .f32))))
    else xs.foldl (· + ·) 0 % 2 ^ 32
  | .max => canonElem ty (match xs with | [] => redIdent .max ty | x :: r => r.foldl (redStep .max ty .rne false) x)
  | .min => canonElem ty (match xs with | [] => redIdent .min ty | x :: r => r.foldl (redStep .min ty .rne false) x)

/-- Contributions to element `j`. -/
def presentAt (l : List CollMsg) (j : Nat) : List Nat :=
  l.filterMap fun x => if 4 * j + 4 ≤ x.data.length then some (natOf ((x.data.drop (4 * j)).take 4)) else none

/-- The slice's own data leave, then each micro-step writes one element once all calls have arrived (R279). -/
def credStep (m : Strand) (e : JEntry) (op : CrOp) (ty : ETy) (tag : BitVec 16) : EM W64 := do
  let n := e.lo 2
  let kind := CollKind.cred op ty n
  let s ← get
  match s.message m (s.slice m) tag e.ord fun x => isReduce x.kind with
  | none =>
    let bs ← eRead m false (e.op 1) (4 * e.hi 2)
    post m 0 tag e.ord kind bs
    return e.upc
  | some _ =>
    sameAs0 m tag e.ord kind
    match s.calls m tag e.ord with
    | none => return e.upc
    | some l =>
      let j := e.upc.toNat / 4
      if n ≤ j || l.any (fun x => x.kind != kind) then return e.upc
      eWrite m false (e.op 0 + 4 * j) (bytesOf 4 (credElem op ty (presentAt l j)))
      return e.upc + 4

def execCred (h : Hdr) (e : EnH) (sb : SReg) (op : CrOp) (ty : ETy) (tag : BitVec 16) (s : State) : Out :=
  engWord h e (.cred h e sb op ty tag) ⟨regsFrom sb 3, fun s o _ =>
    let c := fieldN (o.getD 2 0) 32 32
    let n := fieldN (o.getD 2 0) 0 32
    params s.me (decide (c ≤ n) && decide (n ≤ 2 ^ 24) && !s.callClash tag (.cred op ty n))
      [((o.getD 0 0).toNat, 4), ((o.getD 1 0).toNat, 4)] []⟩
    (fun _ => .none) s

/-! ### CGTH -/

def execCgth (h : Hdr) (e : EnH) (sb : SReg) (tag : BitVec 16) (s : State) : Out :=
  engWord h e (.cgth h e sb tag) ⟨regsFrom sb 4, fun s o _ =>
    let r := fieldN (o.getD 3 0) 0 32
    params s.me (!s.callClash tag .cgth) [(r, 8)] [(r, 8)]⟩ (fun _ => .none) s

/-- Bytes from `upc` on, to the end of a 4 KiB page of the destination. -/
def chunk (dst upc total : Nat) : Nat := Nat.min (4096 - (dst + upc) % 4096) (total - upc)

/-- The shards in ring order (R280). -/
def cgthStep (m : Strand) (e : JEntry) (tag : BitVec 16) : EM W64 := do
  let s ← get
  match s.message m (s.slice m) tag e.ord fun x => isReduce x.kind with
  | none =>
    let bs ← eRead m false (e.op 1) (e.lo 2)
    post m 0 tag e.ord .cgth bs
    return e.upc
  | some _ =>
    sameAs0 m tag e.ord .cgth
    match s.calls m tag e.ord with
    | none => return e.upc
    | some l =>
      if l.any (fun x => x.kind != .cgth) then return e.upc
      let all := l.flatMap fun x => x.data
      if e.hi 2 < all.length then eTrap .illegal 0
      let u := e.upc.toNat
      let k := chunk (e.op 0) u all.length
      eWrite m false (e.op 0 + u) ((all.drop u).take k)
      return e.upc + BitVec.ofNat 64 k

/-! ### CSND and CRCV -/

/-- PEER must be a slice of the gang (R278). -/
def State.peerOk (s : State) (p : Fin 8) : Bool := decide (p.val < s.npkg s.me)

def execCsnd (h : Hdr) (e : EnH) (sb : SReg) (peer : Fin 8) (tag : BitVec 16) (s : State) : Out :=
  engWord h e (.csnd h e sb peer tag) ⟨regsFrom sb 2, fun s _ _ => illegalUnless (s.peerOk peer)⟩
    (fun _ => .none) s

def execCrcv (h : Hdr) (e : EnH) (sb : SReg) (peer : Fin 8) (tag : BitVec 16) (s : State) : Out :=
  engWord h e (.crcv h e sb peer tag) ⟨regsFrom sb 3, fun s o _ =>
    let r := fieldN (o.getD 2 0) 0 32
    params s.me (s.peerOk peer) [(r, 8)] [(r, 8)]⟩ (fun _ => .none) s

/-- The payload leaves in one step (R281). -/
def csndStep (m : Strand) (e : JEntry) (peer : Fin 8) (tag : BitVec 16) : EM W64 := do
  let s ← get
  match s.message m (s.slice m) tag e.ord fun x => x.kind = .csnd && x.dst = peer.val with
  | some _ => return e.upc
  | none =>
    let bs ← eRead m false (e.op 0) (e.lo 1)
    post m peer.val tag e.ord .csnd bs
    return BitVec.ofNat 64 (e.lo 1)

/-- The payload that a CRCV waits for. -/
def State.payload (s : State) (m : Strand) (e : JEntry) (peer : Fin 8) (tag : BitVec 16) : Option CollMsg :=
  s.message m peer.val tag e.ord fun x => x.kind = .csnd && x.dst = s.slice m

/-- The payload arrives (R281). -/
def crcvStep (m : Strand) (e : JEntry) (peer : Fin 8) (tag : BitVec 16) : EM W64 := do
  match (← get).payload m e peer tag with
  | none => return e.upc
  | some x =>
    if e.lo 1 < x.data.length then eTrap .illegal 0
    let u := e.upc.toNat
    let k := chunk (e.op 0) u x.data.length
    eWrite m false (e.op 0 + u) ((x.data.drop u).take k)
    return e.upc + BitVec.ofNat 64 k

/-- Whether a collective has nothing left to do; then CGTH and CRCV write their results, and CRCV answers its
sender (R279 to R281). -/
def collDone (m : Strand) (e : JEntry) : EM Bool := do
  let s ← get
  match e.cmd with
  | .cred _ _ _ op ty tag =>
    sameAs0 m tag e.ord (.cred op ty (e.lo 2))
    return match s.calls m tag e.ord with
      | some l => l.all (fun x => x.kind = .cred op ty (e.lo 2)) && decide (e.lo 2 ≤ e.upc.toNat / 4)
      | none => false
  | .cgth _ _ _ tag =>
    sameAs0 m tag e.ord .cgth
    match s.calls m tag e.ord with
    | none => return false
    | some l =>
      let t := (l.map fun x => x.data.length).foldl (· + ·) 0
      if l.any (fun x => x.kind != .cgth) then return false
      if e.hi 2 < t then eTrap .illegal 0
      if e.upc.toNat < t then return false
      eWrite m true (e.lo 3) (bytesOf 8 t)
      return true
  | .csnd _ _ _ peer tag =>
    return (s.message m (s.slice m) tag e.ord fun x => x.kind = .csnd && x.dst = peer.val).isSome &&
      (s.message m peer.val tag e.ord fun x => x.kind = .written && x.dst = s.slice m).isSome
  | .crcv _ _ _ peer tag =>
    match s.payload m e peer tag with
    | none => return false
    | some x =>
      if e.lo 1 < x.data.length then eTrap .illegal 0
      if e.upc.toNat < x.data.length then return false
      eWrite m true (e.lo 2) (bytesOf 8 x.data.length)
      post m peer.val tag e.ord .written []
      return true
  | _ => return false

/-- An arrival of a partner slice at a .SY barrier (spec/08, R219; spec/14, R373): it counts in the generation it names
while that generation is the one here, once; before then, and while it would need a 33rd active barrier, the input changes
nothing. The arrival that makes E releases the generation. -/
def State.farArrive (s : State) (x : CollMsg) (n : Fin 32) (e : Nat) : State :=
  match s.strands.find? fun m => m.id != 0 && s.gangOf m = (x.gang, x.start) with
  | none => s
  | some m =>
    let b := s.barrier m n .sy
    if s.npkg m ≤ 1 || b.gen != x.ord || e = 0 || decide (barLimit .sy < e) || (decide (0 < b.arrivals) && b.e != e) ||
        (b.arrivals = 0 && !s.barRoom .sy m.tile) then s
    else
      let s1 := ({ s with inbox := s.inbox ++ [x] } : State).setBarrier m n .sy { b with e := e, arrivals := b.arrivals + 1 }
      if b.arrivals + 1 = e then s1.barRelease { m with id := 0 } n .sy else s1

/-- The notice that a payload has been written, or discarded because the receiver's launch ended (R281). -/
def answerOf (x : CollMsg) : CollMsg := { x with src := x.dst, dst := x.src, kind := .written, data := [] }

/-- A payload for a slice whose launch has ended is discarded, and its sender told once (R281). -/
def State.discardPayload (s : State) (x : CollMsg) : State :=
  if s.outbox.contains (answerOf x) then s else { s with outbox := s.outbox ++ [answerOf x] }

/-- A message of a partner slice takes effect (R278, R282); one that has arrived before changes nothing (spec/16, R401). -/
def State.takeMessage (s : State) (x : CollMsg) : State :=
  if s.inbox.contains x then s
  else match x.kind with
    | .barrier n e => s.farArrive x n e
    | .cred .. => { s with inbox := s.inbox ++ [x] }
    | .cgth => { s with inbox := s.inbox ++ [x] }
    | .csnd =>
      if s.gone.contains (x.gang, x.start, x.dst) then s.discardPayload x else { s with inbox := s.inbox ++ [x] }
    | .written => { s with inbox := s.inbox ++ [x] }

/-- A message of a partner slice arrives (R278, R282) over a port that is not fenced (spec/16, R408); before READY it is
refused (R405). -/
def execCollectiveMessage (x : CollMsg) (s : State) : Out :=
  .next (if s.plat.ready && s.plat.ualen != 0 then s.takeMessage x else s)

/-! ### LAUNCH -/

/-- Slots of a launch queue (spec/14, R356). -/
def Region.qsize (r : Region) : Nat := 2 ^ r.logn
def Region.slotAddr (r : Region) (i : Nat) : Nat := r.ring + 128 + 128 * (i % r.qsize)
def Region.stampAddr (r : Region) (i : Nat) : Nat := r.ring + 128 * (r.qsize + 1) + 8 * (i % r.qsize)

/-- No access is issued to a place: a fenced unit, a revoked extent, or a place of the object window that no object
holds. -/
def State.closed (s : State) (a : Nat) : Bool := s.fencedAt a || s.revokedAt a || s.unboundAt a

/-- A read of a ring area: none when it meets an uncorrectable error or memory that is not installed at any byte
(spec/14, R360). -/
def State.ringRead (s : State) (a n : Nat) : Option Nat :=
  if (s.poisonAt a n).isSome || (upto n).any (fun i => s.closed (a + i)) then none else some (natOf (s.physRead a n))

/-- The queue's enable clears in the device, and QUEUE-ERROR is reported (spec/14, R360). -/
def State.queueError (s : State) (r : Region) : State :=
  (s.updRegion r.addr fun x => { x with qon := false }).pushEvent 1 0 (BitVec.ofNat 64 r.qid) 0

/-- The append of R359: the state and whether the record was enqueued. When its read of the ring meets an error the queue is
disabled, and the status is that of a record that was not enqueued (R283; DESIGN CHOICE, log 99). -/
def State.append (s : State) (r : Region) (record : List Byte) : State × Bool :=
  if !(r.qen && r.qon) then (s, false)
  else match s.ringRead (r.ring + 16) 8, s.ringRead r.ring 8 with
    | some v, some t =>
      if r.qsize ≤ (BitVec.ofNat 64 v - r.head).toNat then (s, false)
      else
        let s1 := s.physWrite (r.ring + 16) (bytesOf 8 (v + 1))
        let s2 := s1.physWrite (r.slotAddr v) record
        let s3 := s2.physWrite (r.stampAddr v) (bytesOf 8 (v + 1))
        (if t < v + 1 then s3.physWrite r.ring (bytesOf 8 (v + 1)) else s3, true)
    | _, _ => (s.queueError r, false)

/-- The once-only step of LAUNCH (R283). -/
def launchStep (m : Strand) (e : JEntry) : EM Unit := do
  let record ← eRead m false (e.op 0) 128
  let s ← get
  let h : W32 := BitVec.ofNat 32 (natOf ((record.drop 12).take 4))
  let leaf := (s.ctx m.ctx).region
  if s.current h && (s.ctx (hKey h)).region != leaf then eTrap .prot 0
  match s.region leaf with
  | none => eWrite m true (e.lo 1) (bytesOf 8 2)
  | some r =>
    let x := s.append r record
    set x.1
    eWrite m true (e.lo 1) (bytesOf 8 (if x.2 then 1 else 2))

def execLaunch (h : Hdr) (e : EnH) (sb : SReg) (s : State) : Out :=
  engWord h e (.launch h e sb) ⟨regsFrom sb 2, fun s o _ =>
    let r := fieldN (o.getD 1 0) 0 32
    params s.me true [((o.getD 0 0).toNat, 128), (r, 8)] [(r, 8)]⟩ (fun _ => .none) s

end Sys2Proof.Machine
end

