-- ==== Sys2Proof/Machine/Hash.lean ====
section
/-!
DEFINITION. SHAKE256, the extendable-output function of FIPS 202 that measurement and key digests use (spec/16,
R403, R404; log 30).
-/

namespace Sys2Proof.Machine

/-- Rotation offsets of the 25 lanes, lane x + 5y. -/
def keccakRot : List Nat :=
  [0, 1, 62, 28, 27, 36, 44, 6, 55, 20, 3, 10, 43, 25, 39, 41, 45, 15, 21, 8, 18, 2, 61, 56, 14]

/-- Round constants. -/
def keccakRc : List W64 :=
  [0x0000000000000001, 0x0000000000008082, 0x800000000000808A, 0x8000000080008000, 0x000000000000808B,
   0x0000000080000001, 0x8000000080008081, 0x8000000000008009, 0x000000000000008A, 0x0000000000000088,
   0x0000000080008009, 0x000000008000000A] ++
  [0x000000008000808B, 0x800000000000008B, 0x8000000000008089, 0x8000000000008003, 0x8000000000008002,
   0x8000000000000080, 0x000000000000800A, 0x800000008000000A, 0x8000000080008081, 0x8000000000008080,
   0x0000000080000001, 0x8000000080008008]

def lane (a : List W64) (x y : Nat) : W64 := a.getD (x % 5 + 5 * (y % 5)) 0

/-- One round. -/
def keccakRound (a : List W64) (rc : W64) : List W64 :=
  let c := (upto 5).map fun x => lane a x 0 ^^^ lane a x 1 ^^^ lane a x 2 ^^^ lane a x 3 ^^^ lane a x 4
  let d := (upto 5).map fun x => c.getD ((x + 4) % 5) 0 ^^^ (c.getD ((x + 1) % 5) 0).rotateLeft 1
  let t := (upto 25).map fun i => a.getD i 0 ^^^ d.getD (i % 5) 0
  let b := (upto 25).map fun i =>
    let j := (i / 5 * 3 + i % 5) % 5 + 5 * (i % 5)
    (t.getD j 0).rotateLeft (keccakRot.getD j 0)
  let e := (upto 25).map fun i => lane b (i % 5) (i / 5) ^^^ (~~~ lane b (i % 5 + 1) (i / 5) &&& lane b (i % 5 + 2) (i / 5))
  e.mapIdx fun i v => if i = 0 then v ^^^ rc else v

def keccakF (a : List W64) : List W64 := keccakRc.foldl keccakRound a

/-- Absorb whole blocks of 136 bytes. -/
def absorb : Nat → List W64 → List Byte → List W64
  | 0, a, _ => a
  | n + 1, a, bs =>
    let a1 := a.mapIdx fun i v => if i < 17 then v ^^^ BitVec.ofNat 64 (natOf ((bs.drop (8 * i)).take 8)) else v
    absorb n (keccakF a1) (bs.drop 136)

/-- The message with the padding of SHAKE. -/
def shakePad (m : List Byte) : List Byte :=
  let k := 136 - m.length % 136
  if k = 1 then m ++ [0x9F] else m ++ [0x1F] ++ List.replicate (k - 2) 0 ++ [0x80]

/-- SHAKE256 with at most 136 bytes of output. -/
def shake256 (m : List Byte) (n : Nat) : List Byte :=
  let p := shakePad m
  ((absorb (p.length / 136) (List.replicate 25 0) p).flatMap bytes64).take n

end Sys2Proof.Machine
end

