-- ==== Sys2Proof/Machine/Xform.lean ====
section
/-!
DEFINITION. The transform sequencer (spec/09, R250 to R259): XRUN and its events, the waits of family 6, and the
words of the transform stream. One word of the stream is one step, except that a block command that meets a
cause keeps the blocks it has done (R257).
-/

namespace Sys2Proof.Machine

/-! ### Family 6 -/

/-- XRUN (R250): XFORM must be 1, and ENTRY or XENTRY nonzero. -/
def execXrun (h : Hdr) (e : EnH) (sb : SReg) (entry : BitVec 23) (s : State) : Out :=
  engWord h e (.xrun h e sb entry) ⟨regsFrom sb 4, fun s _ _ =>
    match s.launchOf s.me with
    | some l => illegalUnless (l.xform && !(entry == 0 && l.xentry == 0))
    | none => some .illegal⟩ (fun _ => .none) s

/-- XPOST and XWAIT need a current XRUN (R251). -/
def needXrun (s : State) (_ : List W64) (_ : List Tid) : Option Cause := illegalUnless s.me.curXrun.isSome

def execXpost (h : Hdr) (e : EnH) (ev : Fin 4) (s : State) : Out :=
  engWord h e (.xpost h e ev) ⟨[], needXrun⟩ (fun _ => .none) s

def execXwait (h : Hdr) (e : EnH) (sc : SReg) (bound : BitVec 6) (ev : Fin 4) (s : State) : Out :=
  engWord h e (.xwait h e sc bound ev) ⟨[sc], needXrun⟩ (fun q => .xwait q ev bound) s

/-- WAITK (R284). -/
def execWaitk (h : Hdr) (e : EnH) (bound : BitVec 6) (s : State) : Out :=
  engWord h e (.waitk h e bound) ⟨[], fun _ _ _ => none⟩ (fun q => .waitk q bound) s

/-! ### The sequencer -/

/-- The word after PC in chain order, within the loaded chain (R253). -/
def XRunning.chain (r : XRunning) : Option XRunning :=
  match r.imem.find? fun p => p.1 = r.pc.toNat / 8 with
  | none => none
  | some (_, l) => (chainNext r.pc (lineLink l)).map fun p => { r with pc := p }

/-- The PC moves past the word it names (R255): a body's last word starts the next iteration, or closes its level
and what ends with it. -/
def XRunning.advance (r : XRunning) : Nat → Option XRunning
  | 0 => none
  | f + 1 =>
    match r.levels with
    | [] => r.chain
    | l :: ls =>
      if l.pos = l.len then
        if 1 < l.count.toNat then
          some { r with pc := l.start, levels := { l with count := l.count - 1, pos := 1 } :: ls }
        else { r with levels := ls }.advance f
      else { r with levels := { l with pos := l.pos + 1 } :: ls }.chain

/-- `n` chain steps. -/
def XRunning.steps (r : XRunning) : Nat → Option XRunning
  | 0 => some r
  | n + 1 => match r.chain with
    | none => none
    | some x => x.steps n

/-- What a transform word does next. -/
inductive XMove
  | next
  /-- The PC is the word of the new register state. -/
  | at (r : XRunning)
  /-- It advances from the word of the new state. -/
  | past (r : XRunning)
  | stay
  | done
  | chainEnd

/-- The run of the transform sequencer that the strand `m` started. -/
def State.xrun (s : State) (m : Strand) : Option XRunning :=
  match tget none s.xs m.tile with
  | some r => if r.sid = m.id then some r else none
  | none => none

def State.setXrun (s : State) (m : Strand) (r : XRunning) : State := { s with xs := tset none s.xs m.tile (some r) }

/-- The entry of a run. -/
def Strand.xentry (m : Strand) (r : XRunning) : JEntry :=
  (m.jfind r.seq).getD ⟨r.seq, .xend, 0, 5, false, .queued, [], [], false, 0, 0, 0, none, []⟩

/-- END-OF-CHAIN of the transform sequencer (R255). -/
def State.xsChainEnd (s : State) (m : Strand) (r : XRunning) : State :=
  s.engFail m { m.xentry r with eng := 5, upc := 0 } (.ends .endOfChain 0 false)

/-- The run goes on at `x`, or the chain has ended. -/
def State.xsLand (s : State) (m : Strand) (r : XRunning) (x : Option XRunning) : State :=
  match x with
  | some y => s.setXrun m y
  | none => s.xsChainEnd m r

/-- One word of the strand in focus' run: `body` gets the run; a cause or an absent page is the XRUN's (R227,
R254). -/
def xsWord (body : Strand → XRunning → State → State × Except EngErr XMove) (s : State) : Out :=
  let m := s.me
  .next (match s.xrun m with
    | none => s
    | some r =>
      let a := body m r s
      let s1 := a.1
      match s1.xrun m with
      | none => s1
      | some r1 =>
        match a.2 with
        | .error e => s1.engFail m { m.xentry r with eng := 5, upc := 0 } e
        | .ok .next => s1.xsLand m r1 (r1.advance 3)
        | .ok (.at x) => s1.setXrun m x
        | .ok (.past x) => s1.xsLand m r1 (x.advance 3)
        | .ok .stay => s1
        | .ok .chainEnd => s1.xsChainEnd m r1
        | .ok .done => ({ s1 with xs := tset none s1.xs m.tile none }).completeEntry m.id r.seq)

/-- A body that either takes effect whole or not at all. -/
def whole (f : EM XMove) (s : State) : State × Except EngErr XMove :=
  match f s with
  | .ok (x, t) => (t, .ok x)
  | .error e => (s, .error e)

/-- Blocks `q`, q + 1, … of a block command; those before the one that meets a cause stay done (R257). -/
def blocks (f : Nat → EM Unit) : Nat → Nat → State → State × Except EngErr XMove
  | 0, _, s => (s, .ok .next)
  | n + 1, q, s =>
    match f q s with
    | .ok (_, t) => blocks f n (q + 1) t
    | .error e => (s, .error e)

/-- A register of the run, and a write of one. -/
def XRunning.reg (r : XRunning) (n : XReg) : W64 := r.x[n]
def XRunning.setReg (r : XRunning) (n : XReg) (v : W64) : XRunning := { r with x := r.x.set n.val v n.isLt }

def xSet (m : Strand) (n : XReg) (v : W64) : EM Unit :=
  modify fun s => match s.xrun m with
    | none => s
    | some r => s.setXrun m (r.setReg n v)

def sumAddr (a : W64) (k : Nat) : Nat := (a.toNat + k) % 2 ^ 64

/-- Keys of `n` bytes of either space. -/
def State.byteKeys (s : State) (m : Strand) (sp : Bool) (a n : Nat) : List Nat :=
  (upto n).map fun i => s.byteKey m sp (a + i)

/-- A read of the run, aligned to `al`; the bytes it has not written itself are sources (R259). -/
def xRead (m : Strand) (sp : Bool) (a n al : Nat) : EM (List Byte) := do
  if a % al != 0 then eTrap .align a
  let bs ← eRead m sp a n
  modify fun s => match s.xrun m with
    | none => s
    | some r =>
      let ks := (s.byteKeys m sp a n).filter fun k => !r.wrote.contains k && !r.srcs.contains k
      s.setXrun m { r with srcs := r.srcs ++ ks }
  return bs

/-- One byte of storage by its key. -/
def State.putKey (s : State) (k : Nat) (b : Byte) : State :=
  if k % 2 = 0 then { s with sram := s.sram.put (k / 2) b } else { s with mem := s.mem.put (k / 2) b }

/-- The destination of a run that broke R259, or of the rerun of one, is unspecified: every byte it has written takes a free
value (log 16). -/
def State.scramble (s : State) (ks : List Nat) : State :=
  { (ks.zip (upto ks.length)).foldl (fun t p => t.putKey p.1 (Config.xformByte s.fresh p.2)) s with fresh := s.fresh + 1 }

/-- A write of the run, aligned to `al`; a source byte that changes breaks R259. The bytes stand in the destination from this
word on, before the XRUN completes (DESIGN CHOICE, log 114). -/
def xWrite (m : Strand) (sp : Bool) (a al : Nat) (bs : List Byte) : EM Unit := do
  if a % al != 0 then eTrap .align a
  eCheck m true sp a bs.length
  modify fun s => match s.xrun m with
    | none => s
    | some r =>
      let ks := s.byteKeys m sp a bs.length
      let old := s.engBytes m sp a bs.length
      let broke := r.broke || (ks.zip (old.zip bs)).any fun p => r.srcs.contains p.1 && p.2.1 != p.2.2
      let wrote := r.wrote ++ ks.filter fun k => !r.wrote.contains k
      let t := (s.setXrun m { r with wrote := wrote, broke := broke }).engPut m sp a bs
      if broke then t.scramble wrote else t

/-! ### Words of the stream -/

/-- XLD (R254). -/
def execXld (xd xa : XReg) (imm : W32) (s : State) : Out :=
  xsWord (fun m r => whole do
    let bs ← xRead m true (r.reg xa + imm.signExtend 64).toNat 8 8
    xSet m xd (BitVec.ofNat 64 (natOf bs))
    return .next) s

/-- XST (R254). -/
def execXst (xa xb : XReg) (imm : W32) (s : State) : Out :=
  xsWord (fun m r => whole do
    xWrite m true (r.reg xa + imm.signExtend 64).toNat 8 (bytes64 (r.reg xb))
    return .next) s

/-- A word that only writes a register (R254). -/
def xMove (d : XReg) (v : XRunning → W64) (s : State) : Out :=
  xsWord (fun m r => whole do
    xSet m d (v r)
    return .next) s

def execXmov (xd : XReg) (imm : W32) (s : State) : Out := xMove xd (fun _ => imm.signExtend 64) s
def execXmovA (xd xa : XReg) (imm : W32) (s : State) : Out := xMove xd (fun r => r.reg xa + imm.signExtend 64) s
def execXmovR (xd xa xb : XReg) (s : State) : Out := xMove xd (fun r => r.reg xa + r.reg xb) s
def execXmovH (xd : XReg) (imm : W32) (s : State) : Out := xMove xd (fun r => imm ++ (r.reg xd).extractLsb' 0 32) s

/-- The encoded block of declared size `p` (R257); none when it does not fit. -/
def qzEncode (p : Nat) (bs : List Byte) : Option (List Byte) :=
  let nz := bs.filter fun b => b != 0
  if p < nz.length + 64 then none
  else
    let bitmap := (upto 64).map fun i => BitVec.ofNat 8 (packN 1 (fun j => b2n (bs.getD (8 * i + j) 0 != 0)) 8)
    some (bitmap ++ nz ++ List.replicate (p - 64 - nz.length) 0)

/-- The bytes a bitmap and the nonzero bytes stand for. -/
def qzExpand : List Bool → List Byte → List Byte
  | [], _ => []
  | false :: t, l => 0 :: qzExpand t l
  | true :: t, l => l.headD 0 :: qzExpand t l.tail

/-- The 512 bytes of an encoded block (R257); none when its bitmap demands more bytes than `p`. -/
def qzDecode (p : Nat) (bs : List Byte) : Option (List Byte) :=
  let map := (upto 512).map fun i => (bs.getD (i / 8) 0).getLsbD (i % 8)
  if p < (map.filter id).length + 64 then none else some (qzExpand map (bs.drop 64))

/-- XDEC (R257). -/
def execXdec (xd xa : XReg) (n : BitVec 22) (p : BitVec 10) (s : State) : Out :=
  xsWord (fun m r => blocks (fun q => do
    let bs ← xRead m false (sumAddr (r.reg xa) (p.toNat * q)) p.toNat 1
    match qzDecode p.toNat bs with
    | none => eTrap .compressOverflow 0
    | some out => xWrite m true (sumAddr (r.reg xd) (512 * q)) 1 out) n.toNat 0) s

/-- XENC (R257). -/
def execXenc (xd xa : XReg) (n : BitVec 22) (p : BitVec 10) (s : State) : Out :=
  xsWord (fun m r => blocks (fun q => do
    if (r.reg xa).toNat % 64 != 0 then eTrap .align (r.reg xa).toNat
    if (r.reg xd).toNat % 32 != 0 then eTrap .align (r.reg xd).toNat
    let bs ← xRead m true (sumAddr (r.reg xa) (512 * q)) 512 1
    match qzEncode p.toNat bs with
    | none => eTrap .compressOverflow 0
    | some out => xWrite m false (sumAddr (r.reg xd) (p.toNat * q)) 1 out) n.toNat 0) s

/-- XQNT (R258, R90): 32 source elements a block. -/
def execXqnt (xd xa xb : XReg) (src : ETy) (q : B4Ty) (n : W32) (s : State) : Out :=
  xsWord (fun m r => blocks (fun k => do
    let w := src.width
    let x := natOf (← xRead m true (sumAddr (r.reg xa) (4 * w * k)) (4 * w) (w / 8))
    let b := b4Quant q ((upto 32).map fun i => fdec src (x / 2 ^ (w * i) % 2 ^ w))
    xWrite m true (sumAddr (r.reg xd) (16 * k)) 1 (bytesOf 16 (packN 4 (fun i => b.2.getD i 0) 32))
    xWrite m true (sumAddr (r.reg xb) k) 1 (bytesOf 1 (b4Scale q b.1))) n.toNat 0) s

/-- One K step of the plane layout of R235 from 32 rows of 48 bytes. -/
def planes (w : Nat) (rows : List Nat) : List Byte :=
  let k := kOf w
  (upto w).flatMap fun i =>
    rows.flatMap fun row => bytesOf (k / 8) (packN 1 (fun x => b2n (bitAt row (w * x + (w - 1 - i)))) k)

/-- XBP (R258, R235). -/
def execXbp (xd xa xb : XReg) (ty : ETy) (kt : W32) (s : State) : Out :=
  xsWord (fun m r => blocks (fun kk => do
    let w := ty.width
    if (r.reg xd).toNat % 64 != 0 then eTrap .align (r.reg xd).toNat
    let rows ← eEach (upto 32) fun i => do
      return natOf (← xRead m true (sumAddr (r.reg xa) (i * (r.reg xb).toNat + 48 * kk)) 48 (Nat.max 1 (w / 8)))
    xWrite m true (sumAddr (r.reg xd) (1536 * kk)) 1 (planes w rows)) kt.toNat 0) s

/-- The levels inside a body of `k` words just begun: the outer level stands at the body's last word. -/
def outerAt (ls : List XLevel) (k : Nat) : List XLevel :=
  match ls with
  | [] => []
  | l :: t => { l with pos := l.pos + k } :: t

/-- XLOOP (R255). With a count of 0 too, a third level and a body that passes the outer one's end raise ILLEGAL (DESIGN
CHOICE, log 96). -/
def execXloop (xa : XReg) (len : BitVec 12) (s : State) : Out :=
  xsWord (fun _ r s1 =>
    let k := len.toNat
    let n := r.reg xa
    let fits := match r.levels with
      | [] => true
      | l :: _ => decide (l.pos + k ≤ l.len)
    if 2 ≤ r.levels.length || !fits then (s1, .error (.ends .illegal 0 false))
    else if n = 0 then
      match r.steps k with
      | none => (s1, .ok .chainEnd)
      | some x => (s1, .ok (.past { x with levels := outerAt r.levels k }))
    else match r.chain with
      | none => (s1, .ok .chainEnd)
      | some x => (s1, .ok (.at { x with levels := ⟨n, x.pc, k, 1⟩ :: outerAt r.levels k }))) s

/-- XPOST of the transform program (R251): EVU shows the larger of its old value and the count of this run, and an XWAIT
of the strand that it satisfies ends (R252). -/
def execXsXpost (ev : Fin 4) (s : State) : Out :=
  xsWord (fun m r s1 =>
    let c := r.posts.getD ev.val 0 + 1
    let v := m.events r.seq
    let up := if (v.upOf ev).toNat < c.toNat then c else v.upOf ev
    let s2 := s1.setXrun m { r with posts := r.posts.set ev.val c }
    ((s2.updStrand m.id fun x => x.setEvents { v with up := v.up.set ev.val up }).endWait m.id, .ok .next)) s

/-- XWAIT of the transform program (R256). -/
def execXsXwait (ev : Fin 4) (xc : XReg) (bound : BitVec 6) (s : State) : Out :=
  xsWord (fun m r s1 =>
    let x := r.reg xc
    if fieldN x 0 32 ≤ ((m.events r.seq).downOf ev).toNat then (s1, .ok .next)
    else (s1.setXrun m { r with waiting := some (ev, x, bound), stallcnt := 0 }, .ok .stay)) s

/-- XEND (R250, R255). -/
def execXend (s : State) : Out := xsWord (fun _ _ s1 => (s1, .ok .done)) s

/-- A post of the strand ends the transform wait it satisfies (R256). -/
def State.wakeXs (s : State) (m : Strand) : State :=
  match s.xrun m with
  | none => s
  | some r =>
    match r.waiting with
    | none => s
    | some (ev, x, _) =>
      if fieldN x 0 32 ≤ ((m.events r.seq).downOf ev).toNat then
        let r1 := { r with waiting := none, stallcnt := 0 }
        s.xsLand m r1 (r1.advance 3)
      else s

/-! ### Loading a run -/

/-- The checks of R119 on a line of a transform stream. -/
def xsLineOk (k : W32) : Bool :=
  linkOwner k = 1 && decide (1 ≤ linkNslot k) && decide (linkNslot k ≤ 5) && linkRsv k = 0

/-- Lines `n` on of an owner-1 chain; `room` more lines fit (R250). -/
def State.loadChain (s : State) (m : Strand) : Nat → Nat → Except (Cause × Nat) (List (Nat × Line))
  | 0, _ => .error (.illegal, 0)
  | f + 1, n =>
    match s.fetchLine m n with
    | .error e => .error e
    | .ok l =>
      if !xsLineOk (lineLink l) then .error (.lineOwner, 0)
      else if linkLast (lineLink l) then .ok [(n, l)]
      else match s.loadChain m f (linkNext (lineLink l)).toNat with
        | .error e => .error e
        | .ok ls => .ok ((n, l) :: ls)

/-- The start of an XRUN (R250): its chain is loaded, X0 to X3 take Sb to Sb+3, the rest 0. `entry` is its PC; one that is no
PC of an image has no line (spec/02, R53; spec/05, R118, R125). -/
def State.startXrun (s : State) (m : Strand) (e : JEntry) (entry : W32) : State :=
  match (if fieldN entry 23 9 != 0 || decide (5 ≤ fieldN entry 0 3) then .error (.lineOwner, 0)
    else s.loadChain m 512 (entry.toNat / 8)) with
  | .error (c, a) =>
    s.engFail m { e with eng := 5, upc := 0 } (if c = .pageAbsent then .absent [(5, a)] false else .ends c a false)
  | .ok lines =>
    let x : Vector W64 16 := Vector.ofFn fun i => if i.val < 4 then e.opv.getD i.val 0 else 0
    let r : XRunning := ⟨m.id, e.seq, entry, x, lines, [], [0, 0, 0, 0], none, 0, [], [], e.ord = 1⟩
    if (lines.head?.map fun l => decide (linkNslot (lineLink l.2) ≤ fieldN entry 0 3)).getD true then
      s.engFail m { e with eng := 5, upc := 0 } (.ends .lineOwner 0 false)
    else (lines.foldl (fun t l => t.touchLine m l.1) s).setXrun m r

end Sys2Proof.Machine
end

