-- ==== Sys2Proof/Machine/Engine.lean ====
section
/-!
DEFINITION. The engines (spec/09, R224 to R233; spec/10, R262, R266): the steps of the device that reach a .AT time,
start a command, perform one micro-step of it, and complete it.
-/

namespace Sys2Proof.Machine

/-- Which kind of engine performs a command (R231, R309): 1 for a matrix engine, 0 for none. -/
def engineOf (i : Instr) : Nat :=
  match i with
  | .mma .. => 1 | .mmas .. => 1 | .mmat .. => 1 | .aclr .. => 1 | .acvt .. => 1 | .amov .. => 1 | .amovTid .. => 1
  | .cpy .. => 3
  | .gthr .. => 4 | .gidx .. => 4
  | .xrun .. => 5
  | .cred .. => 6 | .cgth .. => 6 | .csnd .. => 6 | .crcv .. => 6
  | .kvh .. => 7 | .kvlk .. => 7 | .kvins .. => 7 | .kvpin .. => 7 | .kvunp .. => 7 | .kvmap .. => 7
  | .kvmapRel .. => 7 | .kvpub .. => 7
  | .attn .. => 8
  | .launch .. => 9
  | _ => 0

/-- The accumulators a command names (R232). -/
def accsOf (i : Instr) : List Nat :=
  match i with
  | .mma _ _ ac _ _ _ _ _ => [ac.val]
  | .mmas _ _ ac _ _ _ _ => [ac.val]
  | .mmat _ _ ac _ _ _ _ => [ac.val]
  | .aclr _ _ mask => (upto 8).filter fun k => mask.getLsbD k
  | .acvt _ _ _ ac _ _ _ _ _ => [ac.val]
  | .amov _ _ ac acs => [ac.val, acs.val]
  | .amovTid _ _ ac _ _ => [ac.val]
  | _ => []

/-- Every implicit edge of R233: older live matrix commands that name a common accumulator have completed. -/
def Strand.edgesMet (m : Strand) (e : JEntry) : Bool :=
  (m.journal.takeWhile fun x => x.seq != e.seq).all fun x =>
    !x.live || !((accsOf x.cmd).any fun a => (accsOf e.cmd).contains a)

/-- A matrix engine of a tile that holds no command (R231). -/
def State.freeMx (s : State) (tile : Nat) : Option Nat :=
  [1, 2].find? fun k => s.strands.all fun m => m.tile != tile || m.saved || m.journal.all fun e => e.eng != k

/-- The engine that takes a command now, if one is free. -/
def State.engineFree (s : State) (m : Strand) (i : Instr) : Option Nat :=
  match engineOf i with
  | 1 => s.freeMx m.tile
  | 5 => if (tget none s.xs m.tile).isNone then some 5 else none
  | k => some k

/-- A command may be worked on: its strand is resident, or halted in a context that is not saved (R226; spec/12, R324), and
its launch runs. -/
def State.engineLive (s : State) (m : Strand) (e : JEntry) : Bool :=
  e.live && e.hold = 0 && !m.saved && !(s.ctx m.ctx).imagesSaved &&
  match (s.ctx m.ctx).cur with
  | some l => l.started && l.ending.isNone
  | none => false

/-- Tokens, edges and .AT time of R224. -/
def State.startable (s : State) (m : Strand) (e : JEntry) : Bool :=
  s.engineLive m e && e.eng = 0 && !e.atWait && e.tokens.all m.tokenMet && m.edgesMet e

/-- Commands that the matrix engines of a tile share, or its transform sequencer, are taken in an order (R231, R250). -/
def inTurn (i : Instr) : Bool := engineOf i = 1 || engineOf i = 5

/-- When a startable command became so, its slot and its sequence number, the order of R231 and R250 (DEDUCED, log 88). -/
def State.startKey (s : State) (m : Strand) (e : JEntry) : Nat × Nat × Nat := (e.ready.getD s.cycles, m.slot, e.seq.toNat)

def keyLe (a b : Nat × Nat × Nat) : Bool :=
  decide (a.1 < b.1) || (a.1 = b.1 && (decide (a.2.1 < b.2.1) || (a.2.1 = b.2.1 && decide (a.2.2 ≤ b.2.2))))

/-- No other command of its kind on the tile comes before this one. -/
def State.firstStart (s : State) (m : Strand) (e : JEntry) : Bool :=
  !inTurn e.cmd || s.strands.all fun x => x.tile != m.tile || x.journal.all fun f =>
    engineOf f.cmd != engineOf e.cmd || !s.startable x f || keyLe (s.startKey m e) (s.startKey x f)

/-- Commands that have become startable in the cycle that ends note it. -/
def State.stamp (s : State) : State :=
  let note (m : Strand) (e : JEntry) : JEntry :=
    if inTurn e.cmd && e.ready.isNone && s.startable m e then { e with ready := some s.cycles } else e
  s.mapStrands fun m => { m with journal := m.journal.map (note m) }

/-- Do something with a strand's live entry. -/
def State.onEntry (s : State) (sid : Nat) (q : W32) (f : Strand → JEntry → State) : State :=
  match s.strand sid with
  | none => s
  | some m => match m.jfind q with
    | none => s
    | some e => f m e

/-- MTIME has reached the .AT time of a command (R229, R371). -/
def execAtTimeReached (sid : Nat) (seq : W32) (s : State) : Out :=
  .next (s.onEntry sid seq fun m e =>
    if e.live && e.atWait && !m.saved && decide (e.upc.toNat ≤ s.mtime.toNat) then
      s.setEntry sid { e with atWait := false }
    else s)

/-- A step of an engine on an entry: the new entry and state, or what the step met (R225, R227). -/
def State.runStep (s : State) (m : Strand) (e : JEntry) (f : EM JEntry) : State :=
  match f s with
  | .ok (e1, t) => t.setEntry m.id e1
  | .error err => s.engFail m e err

/-- The once-only step of a command (R262). -/
def onceStep (m : Strand) (e : JEntry) : EM JEntry := do
  match e.cmd with
  | .kvins .. => dirStep m e
  | .kvpin .. => dirStep m e
  | .kvunp .. => dirStep m e
  | .launch .. => launchStep m e
  | _ => mapStep m e
  return { e with once := true }

/-- A journaled command starts (R224, R250, R251, R283). -/
def execCommandStart (sid : Nat) (seq : W32) (s : State) : Out :=
  .next (s.onEntry sid seq fun m e =>
    if !s.startable m e || !s.firstStart m e then s
    else match s.engineFree m e.cmd with
      | none => s
      | some k =>
        let e1 := { e with eng := k, ready := none, upc := if e.en.at_ != 0 && e.st = .queued then 0 else e.upc }
        match e.cmd with
        | .xpost _ _ ev =>
          if e.once then s.completeEntry sid seq
          else
            let v := m.events e.xrun
            let m1 := m.setEvents { v with down := v.down.set ev.val (v.downOf ev + 1) }
            (((s.updStrand sid fun _ => m1).setEntry sid { e with once := true }).wakeXs m1).completeEntry sid seq
        | .mmat .. => (s.setEntry sid e1).runStep m e1 (mmatStart m e1)
        | .xwait .. => s
        | .waitk .. => s
        | .xrun _ _ _ entry =>
          let xe := match s.launchOf m with | some l => l.xentry | none => 0
          (s.setEntry sid e1).startXrun m e1 (if entry == 0 then xe else entry.setWidth 32)
        | .launch .. => if e.once then s.setEntry sid e1 else (s.setEntry sid e1).runStep m e1 (onceStep m e1)
        | _ => s.setEntry sid e1)

/-- A collective of a gang of several packages meets UNIT-FENCED once no link is left (spec/12, R306; R282; DESIGN CHOICE,
log 101). -/
def reach (m : Strand) (e : JEntry) : EM Unit := do
  let s ← get
  if engineOf e.cmd = 6 && decide (1 < s.npkg m) && s.plat.ualen = 0 then eTrap .unitFenced 0

/-- One micro-step of a continuing command (R225): the new micro-PC. -/
def microStep (m : Strand) (e : JEntry) : EM JEntry := do
  reach m e
  let go (f : EM W64) : EM JEntry := do return { e with upc := ← f }
  match e.cmd with
  | .mma .. => go (matrixStep m e)
  | .mmas .. => go (matrixStep m e)
  | .cpy .. => go (cpyStep m e)
  | .gthr .. => go (gthrStep m e)
  | .gidx .. => go (gidxStep m e)
  | .kvh .. => go (kvhStep m e)
  | .cred _ _ _ op ty tag => go (credStep m e op ty tag)
  | .cgth _ _ _ tag => go (cgthStep m e tag)
  | .csnd _ _ _ p tag => go (csndStep m e p tag)
  | .crcv _ _ _ p tag => go (crcvStep m e p tag)
  | .kvins .. => if e.once then return e else onceStep m e
  | .kvpin .. => if e.once then return e else onceStep m e
  | .kvunp .. => if e.once then return e else onceStep m e
  | .kvmap .. => if e.once then return e else onceStep m e
  | .kvmapRel .. => if e.once then return e else onceStep m e
  | .kvpub .. => if e.once || !(← get).pubReady m e then return e else onceStep m e
  | .launch .. => if e.once then return e else onceStep m e
  | _ => return e

def execEngineMicroStep (sid : Nat) (seq : W32) (s : State) : Out :=
  .next (s.onEntry sid seq fun m e =>
    if s.engineLive m e && e.eng != 0 then s.runStep m e (microStep m e) else s)

/-- Whether every effect of a command has been performed; the last effects of some are made here (R225, R262). -/
def lastStep (m : Strand) (e : JEntry) : EM Bool := do
  reach m e
  match engineOf e.cmd with
  | 1 => matrixDone m e
  | 3 => cpyDone m e
  | 4 => gatherDone m e
  | 6 => collDone m e
  | 7 =>
    match e.cmd with
    | .kvh .. => return decide (e.hi 0 ≤ e.upc.toNat)
    | .kvlk .. => kvlkDone m e
    | _ => return e.once
  | 8 => attnDone m e
  | 9 => return e.once
  | _ => return false

/-- A command completes (R225, R226, R252, R284). -/
def execEngineCommandComplete (sid : Nat) (seq : W32) (s : State) : Out :=
  .next (s.onEntry sid seq fun m e =>
    if !s.engineLive m e then s
    else if e.eng = 0 then
      if engineOf e.cmd = 0 && e.tokens.all m.tokenMet && m.waitMet e then s.completeEntry sid seq else s
    else match lastStep m e s with
      | .ok (true, t) => t.completeEntry sid seq
      | .ok (false, _) => s
      | .error err => s.engFail m e err)

end Sys2Proof.Machine
end

