-- ==== Sys2Proof/Machine/LaneFp.lean ====
section
/-!
DEFINITION. Family 4: lane floating point, conversion, compare, selection, reductions and scans (spec/07, R180 to
R186, R190 to R193, R199, R200; latencies R101), and the end of a chain producer (spec/04, R107).
-/

namespace Sys2Proof.Machine

/-- What a floating word that may produce a chain register computes for one element (R180 to R183; VMOV copies).
The save image of a chain register recomputes its value with it (spec/02, R70).
A difference of two zeros rounds as the sum of a and -b, so in RNE -0 - (+0) is -0 (DESIGN CHOICE, log 94; R85). -/
def laneOp (i : Instr) (x y w : Nat) : Nat :=
  match i with
  | .vadd _ _ _ _ ty rm _ => fvAdd ty rm (fdec ty x) (fdec ty y)
  | .vsub _ _ _ _ ty rm _ => fvAdd ty rm (fdec ty x) (fvNeg (fdec ty y))
  | .vmul _ _ _ _ ty rm _ => fvCvt ty rm false (fvMul (fdec ty x) (fdec ty y))
  | .vfma _ _ _ _ _ ty rm _ => fvAdd ty rm (fvMul (fdec ty x) (fdec ty y)) (fdec ty w)
  | .vfms _ _ _ _ _ ty rm _ => fvAdd ty rm (fvMul (fdec ty x) (fdec ty y)) (fvNeg (fdec ty w))
  | .vabs _ _ _ ty _ => fvCvt ty .rne false (fvAbs (fdec ty x))
  | .vneg _ _ _ ty _ => fvCvt ty .rne false (fvNeg (fdec ty x))
  | .vmin _ _ _ _ ty _ _ => redStep .min ty .rne false x y
  | .vmax _ _ _ _ ty _ _ => redStep .max ty .rne false x y
  | .vdiv _ _ _ _ ty rm _ => fvDiv ty rm (fdec ty x) (fdec ty y)
  | .vsqrt _ _ _ ty rm _ => fvSqrt ty rm (fdec ty x)
  | .vrcp _ _ _ ty rm _ => fvDiv ty rm (.fin false 1 0) (fdec ty x)
  | .vrsq _ _ _ ty rm _ => fvRsq ty rm (fdec ty x)
  | .vexp2 _ _ _ ty rm _ => fvExp2 ty rm (fdec ty x)
  | .vlog2 _ _ _ ty rm _ => fvLog2 ty rm (fdec ty x)
  | _ => x

/-- A floating word with operands A and B. -/
def fp2 (h : Hdr) (i : Instr) (l : Nat) (d a : OpVC) (b : OpVSC) (ty : ETy) (k z : Bool) (s : State) : Out :=
  elemWord h i l d z ty.width (vcReads a ++ vscReads b) (vcChains a ++ vscChains b) k
    (fun m => ⟨vcRead m a, vscRead m ty.width b, 0⟩) (laneOp i) s

/-- A floating word with operand A. -/
def fp1 (h : Hdr) (i : Instr) (l : Nat) (d a : OpVC) (ty : ETy) (z : Bool) (s : State) : Out :=
  elemWord h i l d z ty.width (vcReads a) (vcChains a) false (fun m => ⟨vcRead m a, 0, 0⟩) (laneOp i) s

def execVadd (h : Hdr) (d a : OpVC) (b : OpVSC) (ty : ETy) (rm : Rm) (z : Bool) (s : State) : Out :=
  fp2 h (.vadd h d a b ty rm z) 5 d a b ty false z s
def execVsub (h : Hdr) (d a : OpVC) (b : OpVSC) (ty : ETy) (rm : Rm) (z : Bool) (s : State) : Out :=
  fp2 h (.vsub h d a b ty rm z) 5 d a b ty false z s
def execVmul (h : Hdr) (d a : OpVC) (b : OpVSC) (ty : ETy) (rm : Rm) (z : Bool) (s : State) : Out :=
  fp2 h (.vmul h d a b ty rm z) 6 d a b ty false z s

/-- A floating word with operands A, B and C (R180). -/
def fp3 (h : Hdr) (i : Instr) (d a : OpVC) (b c : OpVSC) (ty : ETy) (z : Bool) (s : State) : Out :=
  elemWord h i 7 d z ty.width (vcReads a ++ vscReads b ++ vscReads c) (vcChains a ++ vscChains b ++ vscChains c) false
    (fun m => ⟨vcRead m a, vscRead m ty.width b, vscRead m ty.width c⟩) (laneOp i) s

def execVfma (h : Hdr) (d a : OpVC) (b c : OpVSC) (ty : ETy) (rm : Rm) (z : Bool) (s : State) : Out :=
  fp3 h (.vfma h d a b c ty rm z) d a b c ty z s
def execVfms (h : Hdr) (d a : OpVC) (b c : OpVSC) (ty : ETy) (rm : Rm) (z : Bool) (s : State) : Out :=
  fp3 h (.vfms h d a b c ty rm z) d a b c ty z s

/-- VABS and VNEG change only the sign; a NaN becomes canonical (R182). -/
def execVabs (h : Hdr) (d a : OpVC) (ty : ETy) (z : Bool) (s : State) : Out :=
  fp1 h (.vabs h d a ty z) 2 d a ty z s
def execVneg (h : Hdr) (d a : OpVC) (ty : ETy) (z : Bool) (s : State) : Out :=
  fp1 h (.vneg h d a ty z) 2 d a ty z s

def execVmin (h : Hdr) (d a : OpVC) (b : OpVSC) (ty : ETy) (k z : Bool) (s : State) : Out :=
  fp2 h (.vmin h d a b ty k z) 5 d a b ty k z s
def execVmax (h : Hdr) (d a : OpVC) (b : OpVSC) (ty : ETy) (k z : Bool) (s : State) : Out :=
  fp2 h (.vmax h d a b ty k z) 5 d a b ty k z s

def execVdiv (h : Hdr) (d a : OpVC) (b : OpVSC) (ty : ETy) (rm : Rm) (z : Bool) (s : State) : Out :=
  fp2 h (.vdiv h d a b ty rm z) 10 d a b ty false z s
def execVsqrt (h : Hdr) (d a : OpVC) (ty : ETy) (rm : Rm) (z : Bool) (s : State) : Out :=
  fp1 h (.vsqrt h d a ty rm z) 10 d a ty z s
def execVrcp (h : Hdr) (d a : OpVC) (ty : ETy) (rm : Rm) (z : Bool) (s : State) : Out :=
  fp1 h (.vrcp h d a ty rm z) 9 d a ty z s
def execVrsq (h : Hdr) (d a : OpVC) (ty : ETy) (rm : Rm) (z : Bool) (s : State) : Out :=
  fp1 h (.vrsq h d a ty rm z) 9 d a ty z s
def execVexp2 (h : Hdr) (d a : OpVC) (ty : ETy) (rm : Rm) (z : Bool) (s : State) : Out :=
  fp1 h (.vexp2 h d a ty rm z) 14 d a ty z s
def execVlog2 (h : Hdr) (d a : OpVC) (ty : ETy) (rm : Rm) (z : Bool) (s : State) : Out :=
  fp1 h (.vlog2 h d a ty rm z) 14 d a ty z s

/-! ### Conversion and quantisation -/

/-- Lanes `lo` to `lo + n − 1`. -/
def lanesFrom (lo n : Nat) : W64 := maskOf fun i => decide (lo ≤ i) && decide (i < lo + n)

/-- VCVT (R184): a narrowing writes only part p of D. -/
def execVcvt (h : Hdr) (d a : VReg) (dst src : ETy) (p : BitVec 3) (rm : Rm) (sat nan z : Bool) (s : State) : Out :=
  laneWord h [.v a] [] (fun g s1 =>
    let v := s1.me.readV a
    let wd := dst.width
    let ws := src.width
    let n := 2048 / Nat.max ws wd
    let f := cvtElem dst src rm sat nan
    let narrows := decide (wd ≤ ws)
    let part := if narrows then lanesFrom (n * wd / 32 * p.toNat) (n * wd / 32) else allLanes
    let val := if narrows then
        (ofElems wd fun j => if j < n then f (elemAt ws v j) else 0) <<< (p.toNat * n * wd)
      else ofElems wd fun j => f (elemAt ws v (p.toNat * n + j))
    .ok (s1.setMe (s1.me.putV false 4 d z part (enabled wd g) val))) s

/-- VQNT (R185, R90): codes to part p of D, scale bytes to the S register. -/
def execVqnt (h : Hdr) (d : VReg) (sc : SReg) (a : VReg) (q : B4Ty) (src : ETy) (p : BitVec 3) (z : Bool)
    (s : State) : Out :=
  laneWord h [.v a] [] (fun g s1 =>
    let v := s1.me.readV a
    let nb := 2048 / src.width / 32
    let blocks := (upto nb).map fun b =>
      b4Quant q ((upto 32).map fun k => fdec src (elemAt src.width v (32 * b + k)))
    let codes : Nat := packN 128 (fun b => packN 4 (fun k => ((blocks.getD b (0, [])).2).getD k 0) 32) nb
    let scales : Nat := packN 8 (fun b => b4Scale q (blocks.getD b (0, [])).1) nb
    let lo := 4 * nb * p.toNat
    let m1 := s1.me.putV false 4 d z (lanesFrom lo (4 * nb)) g (BitVec.ofNat 2048 (codes * 2 ^ (32 * lo)))
    .ok (s1.setMe (m1.setS 4 sc (BitVec.ofNat 64 scales)))) s

/-- VDQT (R186, R91). -/
def execVdqt (h : Hdr) (d a : VReg) (b : SReg) (dst : ETy) (p : BitVec 3) (rm : Rm) (nan z : Bool) (s : State) : Out :=
  vecWord h 4 d z dst.width [.v a, .s b] (fun m =>
    let v := m.readV a
    let nb := 2048 / (32 * dst.width)
    let lo := 4 * nb * p.toNat
    ofElems dst.width fun j =>
      let scale := bitsAt (m.readS b).toNat (8 * (j / 32)) 8
      dyCvt dst rm nan (b4Deq scale (elemAt 4 v (8 * lo + j)))) s

/-! ### Compares and selection -/

/-- The condition of VCMP on one lane (R190). -/
def cmpElem (ty : ETy) (cc : Cond) (x y : Nat) : Bool :=
  if ty.isFloat then condF cc (fdec ty x) (fdec ty y) else condInt cc 32 x y

def execVcmp (h : Hdr) (mt mf : MReg) (b : OpVC) (c : OpVSC) (cc : Cond) (ty : ETy) (m : PMode) (k : Bool)
    (s : State) : Out :=
  maskPairWord h mt mf m (vcReads b ++ vscReads c) (vcChains b ++ vscChains c) k
    (fun x i => cmpElem ty cc (laneAt (vcRead x b) i) (laneAt (vscRead x 32 c) i)) s

/-- VTHR compares |b| (R191). -/
def execVthr (h : Hdr) (mt mf : MReg) (b : OpVC) (c : OpVS) (cc : Cond) (m : PMode) (k : Bool) (s : State) : Out :=
  maskPairWord h mt mf m (vcReads b ++ vsReads c) (vcChains b) k
    (fun x i => condF cc (fvAbs (fdec .f32 (laneAt (vcRead x b) i))) (fdec .f32 (laneAt (vsRead x 32 c) i))) s

/-- The selector of VSEL as lanes (R193): bit i of an M register, or bit 31 of lane i. -/
def selRead (m : Strand) : OpSel → W64
  | .m n => m.readM n
  | .v n => maskOf fun i => bitAt (laneAt (m.readV n) i) 31
  | .c n => maskOf fun i => bitAt (laneAt (m.chainVal n) i) 31

def execVsel (h : Hdr) (d : VReg) (a b : OpVS) (c : OpSel) (k z : Bool) (s : State) : Out :=
  laneWord h (vsReads a ++ vsReads b ++ selReads c) (selChains c) (fun g s1 =>
    let m := s1.me
    let val := mergeLanes (selRead m c) (vsRead m 32 a) (vsRead m 32 b)
    .ok (s1.setMe ((m.readChains k (selChains c)).putV (!(selChains c).isEmpty) 2 d z allLanes g val))) s

/-! ### Reductions and scans -/

/-- The present elements of A: lanes on by the guard and by Mc (R93, R199). -/
def presentElems (ty : ETy) (v : Lanes) (on : W64) : List (Option Nat) :=
  (upto ty.count).map fun j => if on.getLsbD (j * ty.width / 32) then some (elemAt ty.width v j) else none

def execVred (h : Hdr) (d : SReg) (a : VReg) (c : MReg) (op : RedOp) (ty : ETy) (rm : Rm) (sat : Bool)
    (s : State) : Out :=
  scalWord h 12 d [.v a, .m c] (fun g m =>
    let r := redTree (redStep op ty rm sat) (Nat.log2 ty.count) (presentElems ty (m.readV a) (m.readM c &&& g))
    some (extElem ty (canonElem ty (r.getD (redIdent op ty))))) s

def execVscan (h : Hdr) (d a : VReg) (c : MReg) (op : RedOp) (ty : ETy) (rm : Rm) (sat z : Bool) (s : State) : Out :=
  laneWord h [.v a, .m c] [] (fun g s1 =>
    let m := s1.me
    let on := m.readM c &&& g
    let r := scanSteps (redStep op ty rm sat) (Nat.log2 ty.count) 1 (presentElems ty (m.readV a) on)
    let val := ofElems ty.width fun j => canonElem ty ((r.getD j none).getD 0)
    .ok (s1.setMe (m.putV false 14 d z allLanes on val))) s

/-! ### The end of a producer -/

/-- Every lane of a producer has its last digit: Cn becomes FULL (R107, R112). -/
def execChainFull (sid : Nat) (c : CReg) (s : State) : Out :=
  .next (s.updStrand sid fun m => m.fill c)

end Sys2Proof.Machine
end

