-- ==== Sys2Proof/Machine/Save.lean ====
section
/-!
DEFINITION. The save image of a strand (spec/02, R65 to R74): saving a strand (spec/12, R321, R322) and restoring one
(R73; spec/06, R163).
-/

namespace Sys2Proof.Machine

/-! ### Writing the image -/

/-- A register specifier (spec/05, R131). -/
def Dest.code : Dest → BitVec 8
  | .s n => codeS n
  | .q n => codeQ n
  | .v n => codeV n
  | .m n => codeM n
  | .b n => codeB n

def Dest.ofCode (x : BitVec 8) : Option Dest :=
  match regS x with
  | some n => some (.s n)
  | none => match regV x with
    | some n => some (.v n)
    | none => match regQ x with
      | some n => some (.q n)
      | none => match regM x with
        | some n => some (.m n)
        | none => (regB x).map .b

/-- Live Q registers as bits (R61): Q0 is a constant, and the stage predicates of a pipelined level 0 are kept. -/
def Strand.qLive (m : Strand) : Nat → Bool := fun n =>
  n = 0 || m.plive.getLsbD n || m.l0.stages.any fun q => q.val = n

/-- The Q word: dead bits are 0 (R65). -/
def Strand.qWord (m : Strand) : Nat :=
  packN 1 (fun n => b2n (m.qLive n && m.readQ ⟨n % 16, Nat.mod_lt _ (by decide)⟩)) 16

/-- A loop level record (R68). -/
def Level.bytes (l : Level) : List Byte :=
  bytes64 l.count ++
  bytesOf 8 (pack [(0, l.start.toNat), (32, l.len.toNat), (44, l.st.toNat), (48, b2n l.act), (49, b2n l.drain)]) ++
  List.replicate 16 0

/-- The stall counter of a wait in progress; 0 when none (R68). -/
def Strand.savedCount (m : Strand) : W64 :=
  match m.wait with
  | .none => 0
  | _ => m.stallcnt

/-- The control block (R68). -/
def State.controlBytes (s : State) (m : Strand) : List Byte :=
  bytes32 m.pc ++ bytes32 m.xfer.tgt ++
  bytesOf 8 (pack [(0, m.xfer.rem.toNat), (2, b2n m.xfer.valid), (8, b2n m.stallchk), (9, b2n m.step),
    (12, m.stleft.toNat)]) ++
  bytes32 m.traph ++ bytes32 m.phase ++ bytes32 m.jhead ++ bytes32 m.jdone ++
  bytesOf 8 (s.slogOf m.id).length ++ bytesOf 8 (if m.debug then 3 else m.wkind.toNat) ++ bytes64 m.wval ++
  bytes64 m.wold ++ bytes64 m.savedCount ++ List.replicate 0x38 0

def ChStat.code : ChStat → Nat
  | .empty => 0 | .filling => 1 | .full => 2 | .spent => 3

/-- A chain resume record (R69); NDIG, DIG and RES are free values (R70, log 14). -/
def Chain.bytes (c : Chain) (fresh off : Nat) : List Byte :=
  bytesOf 16 c.pword.toNat ++
  bytesOf 8 (c.stat.code + (Config.digits fresh (off + 0x11)).toNat % 64 * 256) ++ bytes64 c.pmask ++
  List.replicate 0x20 0 ++
  bytesOf 256 c.opa.toNat ++ bytesOf 256 c.opb.toNat ++ bytesOf 256 c.opc.toNat ++
  (upto 0x400).map (fun i => Config.digits fresh (off + 0x340 + i)) ++
  (upto 0x400).map (fun i => if c.stat = .full then 0 else Config.digits fresh (off + 0x740 + i)) ++
  List.replicate 0xC0 0

def JState.code : JState → Nat
  | .queued => 0 | .stopped => 1 | .complete => 2 | .null => 3

/-- A journal entry (R71). -/
def JEntry.bytes (e : JEntry) : List Byte :=
  bytesOf 12 (encode e.cmd).toNat ++ bytes32 e.seq ++ bytes64 e.upc ++
  bytesOf 8 (pack [(0, e.st.code), (8, b2n e.once), (9, e.eng)]) ++
  (upto 4).flatMap fun i => bytes64 (e.opv.getD i 0)

/-- The writes not yet due by word: a word's only or first destination, and its second (R72). -/
def byWord : List PWrite → List (PWrite × Option PWrite)
  | [] => []
  | [a] => [(a, none)]
  | a :: b :: t => if a.word = b.word then (a, some b) :: byWord t else (a, none) :: byWord (b :: t)

/-- An exposed-result record with a value of `n` bytes (R72). -/
def PWrite.bytes (w : PWrite) (tick n : Nat) : List Byte :=
  bytesOf 8 (w.dest.code.toNat + (w.due - tick) * 256 + 2 ^ 16) ++ bytes64 w.mask ++ bytesOf n w.val.toNat

/-- The two sections of exposed results: valid records, and VALID 0 in the others (log 27). -/
def Strand.exposedChunks (m : Strand) : List (Nat × List Byte) :=
  let ws := byWord m.pend
  (upto 14).flatMap fun k =>
    match ws[k]? with
    | none => [(0xF000 + 0x110 * k, bytesOf 8 0), (0x480 + 0x20 * k, bytesOf 8 0)]
    | some (a, b) =>
      [(0xF000 + 0x110 * k, a.bytes m.tick 256),
       (0x480 + 0x20 * k, match b with
         | none => bytesOf 8 0
         | some w => w.bytes m.tick 8 ++ bytesOf 8 0)]

def Why.code : Why → Nat
  | .preempt => 1 | .swap => 2 | .checkpoint => 3

/-- The header but for its first doubleword (R67). SAVET is the MTIME at which the save was requested (DEDUCED, log 107). -/
def State.headerBytes (s : State) (m : Strand) (why : Why) : List Byte :=
  let cstat := packN 2 (fun n => (m.cRegs.toList.getD n Chain.empty).stat.code) 8
  bytesOf 8 (s.handle m.ctx).toNat ++ bytesOf 8 (m.index % 256 + m.serial.toNat * 2 ^ 32) ++
  bytesOf 8 (m.plive.toNat + cstat * 2 ^ 32) ++ bytes64 m.vlive ++ bytes64 m.saveT ++ bytesOf 8 why.code ++ bytesOf 8 0

def headerWord : W64 := Config.impl ++ 1#16 ++ 0x53565349#32

/-- The writes of the image in order, the doubleword with MAGIC last (R65, R67). `m` is settled, its commands have
stopped. M0, which R61 keeps constant, is written whatever PLIVE holds (DESIGN CHOICE, log 81). -/
def State.imageChunks (s : State) (m : Strand) (why : Why) : List (Nat × List Byte) :=
  [(8, s.headerBytes m why),
   (0x40, (upto 64).flatMap fun n => bytes64 (m.readS ⟨n % 64, Nat.mod_lt _ (by decide)⟩)),
   (0x240, bytesOf 8 m.qWord ++ List.replicate 0x38 0)] ++
  ((upto 16).filter fun n => n = 0 || m.plive.getLsbD (16 + n)).map
    (fun n => (0x280 + 8 * n, bytes64 (m.readM ⟨n % 16, Nat.mod_lt _ (by decide)⟩))) ++
  [(0x300, m.bRegs.toList.flatMap fun b => bytesOf 8 b.toNat),
   (0x340, m.l0.bytes ++ m.l1.bytes),
   (0x380, s.controlBytes m),
   (0x400, m.trap.bytes ++ m.blockBytes)] ++
  ((upto 64).filter fun n => m.vlive.getLsbD n).map
    (fun n => (0x1000 + 0x100 * n, bytesOf 256 (m.vRegs.toList.getD n 0).toNat)) ++
  (upto 8).filterMap (fun n =>
    let c := m.cRegs.toList.getD n Chain.empty
    if c.stat = .filling || c.stat = .full then some (0x5000 + 0xC00 * n, c.bytes s.fresh (0x5000 + 0xC00 * n)) else none) ++
  m.journal.map (fun e => (0xB000 + 0x40 * (e.seq.toNat % 256), e.bytes)) ++
  m.exposedChunks ++
  [(0, bytes64 headerWord)]

/-- Write chunks of an image; none when one meets a page that is absent, not writable or not pinned (R66). -/
def State.writeImage (s : State) (c : Ctx) (base : Nat) : List (Nat × List Byte) → Option State
  | [] => some s
  | p :: ps => match s.saveWrite c ((base + p.1) % 2 ^ 64) p.2 with
    | none => none
    | some s1 => s1.writeImage c base ps

/-! ### Saving -/


/-- Waits that stay open while the image is saved (spec/12, R321; spec/01, R33; R284). -/
def Wait.kept (w : Wait) : Wait :=
  match w with
  | .csw => w
  | .slogRoom _ _ => w
  | .relDrain => w
  | .ownDrain _ _ => w
  | .faultEntry => w
  | .fault => w
  | .waitk _ _ => w
  | .xwait _ _ _ => w
  | .stepLaunch _ _ => w
  | .none | .waitt _ | .waita .. | .bar .. | .barSlot .. | .phase | .journalFull => .none

/-- A save that was requested can take place (R321): at the boundary of R163, or in a wait or stop (R156). -/
def Strand.saveNow (m : Strand) : Bool :=
  m.id != 0 && m.inSlot && !m.halted && m.saveReq.isSome && (m.saveReady || m.wait != .none || m.debug)

/-- A wait at START of an iteration whose stage predicates are all 0, which is not drained: its image has DRAIN 1, so that the
iteration goes on after the restore and does not start again (R163; DEDUCED, log 102). -/
def Strand.holdDrain (m : Strand) : Strand :=
  if m.emptyStart && !m.drained then { m with l0 := { m.l0 with drain := true } } else m

/-- A producer that reads a chain register is complete before the image is written (spec/04, R117). -/
def Chain.complete (c : Chain) : Chain :=
  if c.stat = .filling && (wordChain c.pword).isSome then { c with stat := .full } else c

/-- The strand as its image records it: a CSW that waits retires now (R168), what is in flight lands (R72, R117), and the
level keeps what a restore needs (R163). A CSW that is the last word of its chain has no next word, and its retirement ends
the launch with END-OF-CHAIN (DESIGN CHOICE, log 115). -/
def Strand.quiesce (m : Strand) (broke : Bool) : Adv :=
  let j := m.journal.map fun e => e.atSave broke
  let m1 := { m with journal := j, cRegs := m.cRegs.map Chain.complete }
  let a := if m.wait = .csw && !m.wretired && !m.debug then
      match { m1.clock m1.wstall with wait := .csw }.advance with
      | .to x => Adv.to { x with wretired := true, wpc := m.pc }
      | .chainEnd x => Adv.chainEnd x
    else .to m1
  match a with
  | .to x => .to x.settle.holdDrain
  | .chainEnd x => .chainEnd x

/-- The save of a strand ends: its image is written and its slot is freed (R321); when the image cannot be written,
the launch ends with PROT (R66). -/
def execStrandSaveComplete (sid : Nat) (s : State) : Out :=
  .next (match s.strand sid with
    | none => s
    | some m =>
      match m.saveReq with
      | none => s
      | some why =>
        if !m.saveNow || s.ended m.ctx then s
        else
          let (s1, broke) := s.stopXs m
          match m.quiesce broke with
          | .chainEnd x => (s1.updStrand sid fun _ => x).endTrap x .endOfChain { pc := m.pc }
          | .to x =>
            match s1.writeImage (s1.ctx x.ctx) (s1.imageBase x) (s1.imageChunks x why) with
            | none => s1.endTrap x .prot { pc := x.pc }
            | some s2 =>
              let y := { x with
                saved := true, inSlot := false, saveReq := none, wait := x.wait.kept,
                journal := x.journal.map fun e => { e with eng := 0 } }
              ({ s2 with fresh := s2.fresh + 1 }.updStrand sid fun _ => y).afterSaves x.ctx)

/-- A save of every strand of a context that occupies a slot is requested (R321, R32); the save of a checkpoint takes
the place of one under way (spec/15, R391). -/
def State.requestSave (s : State) (k : Nat) (why : Why) : State :=
  s.mapStrands fun m =>
    if m.id != 0 && m.ctx = k && m.inSlot && !m.halted && (m.saveReq.isNone || why = .checkpoint) then
      { m with saveReq := some why, saveT := if m.saveReq.isSome then m.saveT else s.mtime } else m

/-! ### Restoring -/

/-- The destination of a word that can produce a chain register (spec/04, R106). -/
def producerDest (i : Instr) : Option OpVC :=
  match i with
  | .vmov _ d _ _ => some d
  | .vadd _ d _ _ _ _ _ => some d
  | .vsub _ d _ _ _ _ _ => some d
  | .vmul _ d _ _ _ _ _ => some d
  | .vfma _ d _ _ _ _ _ _ => some d
  | .vfms _ d _ _ _ _ _ _ => some d
  | .vabs _ d _ _ _ => some d
  | .vneg _ d _ _ _ => some d
  | .vmin _ d _ _ _ _ _ => some d
  | .vmax _ d _ _ _ _ _ => some d
  | .vdiv _ d _ _ _ _ _ => some d
  | .vsqrt _ d _ _ _ _ => some d
  | .vrcp _ d _ _ _ _ => some d
  | .vrsq _ d _ _ _ _ => some d
  | .vexp2 _ d _ _ _ _ => some d
  | .vlog2 _ d _ _ _ _ => some d
  | _ => none

/-- The value that a producer defines for its operands (R70, R107). -/
def recompute (i : Instr) (mask : W64) (a b c : Lanes) : Lanes :=
  ofElems 32 (fun j => laneOp i (elemAt 32 a j) (elemAt 32 b j) (elemAt 32 c j)) &&& laneMask mask

/-- An image as it is read: `n` bytes at an offset. -/
abbrev Image := Nat → Nat → Nat

/-- A loop level of an image; none when out of range (R57, R68, R73). LEN and ST of a level with ACT 0 are not checked
(DESIGN CHOICE, log 82). -/
def readLevel (img : Image) (off : Nat) (outer : Bool) : Option Level :=
  let x := img (off + 8) 8
  let l : Level := ⟨BitVec.ofNat 64 (img off 8), BitVec.ofNat 32 (bitsAt x 0 32), BitVec.ofNat 12 (bitsAt x 32 12),
    BitVec.ofNat 4 (bitsAt x 44 4), bitAt x 48, bitAt x 49, 1⟩
  if (l.act && (l.len == 0 || l.st == 0 || decide (8 < l.st.toNat) || (outer && decide (1 < l.st.toNat)))) ||
     (l.drain && (outer || !l.act || decide (l.st.toNat ≤ 1)))
  then none else some l

/-- A chain register of an image (R69, R70, R73). One whose STAT differs from CSTAT, or whose PWORD is no producer of Cn, is
out of range (DESIGN CHOICE, log 113). -/
def readChain (ver : Nat) (img : Image) (n : Nat) : Option Chain :=
  let off := 0x5000 + 0xC00 * n
  let live (st : ChStat) (k : Nat) : Option Chain :=
    let w : Word96 := BitVec.ofNat 96 (img off 12)
    let mask := BitVec.ofNat 64 (img (off + 0x18) 8)
    let a := BitVec.ofNat 2048 (img (off + 0x40) 256)
    let b := BitVec.ofNat 2048 (img (off + 0x140) 256)
    let c := BitVec.ofNat 2048 (img (off + 0x240) 256)
    match decode ver 0 w with
    | .error _ => none
    | .ok i => match producerDest i with
      | some (.c d) =>
        if d.val = n && bitsAt (img (off + 0x10) 8) 0 2 = k then some ⟨st, recompute i mask a b c, w, mask, a, b, c⟩
        else none
      | _ => none
  match bitsAt (img 0x18 8) (32 + 2 * n) 2 with
  | 0 => some Chain.empty
  | 1 => live .filling 1
  | 2 => live .full 2
  | _ => some { Chain.empty with stat := .spent }

/-- A destination of at most 64 bits, as every second destination of a word is (R72). -/
def Dest.narrow (d : Dest) : Bool :=
  match d with
  | .v _ => false
  | .s _ => true
  | .q _ => true
  | .m _ => true
  | .b _ => true

/-- A destination with a value for each lane. -/
def Dest.laned (d : Dest) : Bool :=
  match d with
  | .v _ => true
  | .m _ => true
  | .s _ => false
  | .q _ => false
  | .b _ => false

/-- The exposed-result record at `off` with a value of `n` bytes (R72, R73): none when out of range, `some none` when
not valid. The write mask of a secondary record has only bit 0 set but for an M destination. That of a primary record for an
S, Q or B destination is taken as it stands; a save writes 1 there (DESIGN CHOICE, log 93). `word` keeps the records of one
word together. -/
def readWrite (img : Image) (tick off n word : Nat) : Option (Option PWrite) :=
  let x := img off 8
  if !bitAt x 16 then some none
  else
    let r := bitsAt x 8 8
    match Dest.ofCode (BitVec.ofNat 8 x) with
    | none => none
    | some d =>
      let mask := BitVec.ofNat 64 (img (off + 8) 8)
      if r = 0 || 14 < r || (n = 8 && (!d.narrow || (!d.laned && mask != 1))) then none
      else some (some ⟨d, mask, BitVec.ofNat 2048 (img (off + 16) n), tick + r, false, word⟩)

def readWrites (img : Image) (tick : Nat) : Option (List PWrite) := do
  let l ← (upto 14).mapM fun k => do
    let a ← readWrite img tick (0xF000 + 0x110 * k) 256 (2 * k)
    let b ← readWrite img tick (0x480 + 0x20 * k) 8 (2 * k)
    return a.toList ++ b.toList
  return l.flatten

/-- UPC of an entry lies in the range that its command's layout gives it (R225; spec/10, R262). -/
def JEntry.upcOk (e : JEntry) : Bool :=
  let u := e.upc.toNat
  match e.cmd with
  | .mma .. => decide (u ≤ e.nk)
  | .mmas .. => decide (u ≤ e.nk)
  | .aclr .. => !e.live || u = 0
  | .acvt .. => !e.live || u = 0
  | .amov .. => !e.live || u = 0
  | .amovTid .. => !e.live || u = 0
  | .cpy _ _ _ _ _ d2 _ =>
    let (l, n) := e.shape d2
    let (row, x) := (fieldN e.upc 32 32, fieldN e.upc 0 32)
    decide (row ≤ n) && (x = 0 || (decide (row < n) && decide (x < l)))
  | .gthr .. => decide (u ≤ e.hi 0)
  | .gidx .. => decide (u ≤ e.hi 0)
  | .kvh .. => decide (u ≤ e.hi 0)
  | .cred .. => u % 4 = 0 && decide (u ≤ 4 * e.lo 2)
  | .cgth .. => decide (u ≤ e.hi 2)
  | .csnd .. => decide (u ≤ e.lo 1)
  | .crcv .. => decide (u ≤ e.lo 1)
  | _ => u = 0

/-- A journal entry of an image (R71, R226); none when out of range: a command that has not started, with .AT, holds its time
in UPC, and any other what its layout allows. The device keeps what the image does not hold: captured tensor entries and the
XRUN or ordinal it names. -/
def readEntry (ver : Nat) (c : Ctx) (kept : Strand) (img : Image) (q : W32) : Option JEntry :=
  let off := 0xB000 + 0x40 * (q.toNat % 256)
  let x := img (off + 0x18) 8
  let opv := (upto 4).map fun i => BitVec.ofNat 64 (img (off + 0x20 + 8 * i) 8)
  let eng := bitsAt x 9 4
  if img (off + 0xC) 4 != q.toNat || 9 < eng then none
  else
    let st := bitsAt x 0 2
    let w : Word96 := BitVec.ofNat 96 (img off 12)
    match decode ver 0 w with
    | .error _ => none
    | .ok i =>
      if fld w 66 3 != 6#3 then none
      else
        let old := (kept.jfind q).filter fun e => e.cmd = i
        let tids := match old with
          | some e => e.tids
          | none => (tidNames i opv).map fun t => c.tids.getD t.toNat 0
        let state := match st with | 0 => JState.queued | 1 => .stopped | 2 => .complete | _ => .null
        let held := (enOf w).at_ != 0 && st = 0 && eng = 0
        let e : JEntry := ⟨q, i, BitVec.ofNat 64 (img (off + 0x10) 8), 0, bitAt x 8, state, opv, tids,
          held, (old.map fun e => e.xrun).getD (kept.curXrun.getD 0), (old.map fun e => e.ord).getD 0, 0, none, []⟩
        if held || e.upcOk then some e else none

/-- Entries from `q` on. -/
def readJournal (ver : Nat) (c : Ctx) (kept : Strand) (img : Image) : Nat → W32 → Option (List JEntry)
  | 0, _ => some []
  | n + 1, q => do
    let e ← readEntry ver c kept img q
    let es ← readJournal ver c kept img n (q + 1)
    return e :: es

/-- The checks of R73 on the header and control block. -/
def State.imageOk (s : State) (m : Strand) (img : Image) : Bool :=
  bitsAt (img 0 8) 0 32 = 0x53565349 && bitsAt (img 0 8) 32 16 = 1 &&
  img 8 8 = (s.handle m.ctx).toNat && bitsAt (img 0x10 8) 0 32 = m.index % 256 &&
  bitsAt (img 0x18 8) 48 16 = 0 && img 0x38 8 = 0 && decide (1 ≤ img 0x30 8) && decide (img 0x30 8 ≤ 3) &&
  decide (bitsAt (img 0x3A0 8) 0 7 ≤ 64) &&
  decide ((BitVec.ofNat 32 (img 0x398 4) - BitVec.ofNat 32 (img 0x39C 4)).toNat ≤ Config.journalEntries)

/-- The trap record and the blocks of an image (R73; spec/06, R166). -/
def readTrap (img : Image) : TrapRec :=
  let x := img 0x400 8
  ⟨BitVec.ofNat 32 (bitsAt x 32 32), bitAt x 19, bitAt x 18, bitAt x 17, bitAt x 16, BitVec.ofNat 16 x,
   BitVec.ofNat 64 (img 0x408 8), BitVec.ofNat 64 (img 0x410 8), BitVec.ofNat 32 (bitsAt (img 0x418 8) 32 32),
   BitVec.ofNat 4 (img 0x418 8), BitVec.ofNat 64 (img 0x420 8), BitVec.ofNat 64 (img 0x428 8),
   BitVec.ofNat 8 (bitsAt (img 0x430 8) 8 8), bitAt (img 0x430 8) 3, BitVec.ofNat 3 (img 0x430 8),
   BitVec.ofNat 64 (img 0x438 8)⟩

/-- Steps of the chain from `p` to `q`, at most `n` (log 4). -/
def State.distance (s : State) (m : Strand) : Nat → W32 → W32 → Option Nat
  | 0, p, q => if p = q then some 0 else none
  | n + 1, p, q =>
    if p = q then some 0
    else match s.fetchLink m (p.toNat / 8) with
      | .error _ => none
      | .ok k => match chainNext p k with
        | none => none
        | some r => (s.distance m n r q).map (· + 1)

/-- Positions in the bodies of restored levels (log 4). -/
def State.positions (s : State) (m kept : Strand) : Strand :=
  if m.pc = kept.pc && (m.l0.start, m.l0.len, m.l0.act) = (kept.l0.start, kept.l0.len, kept.l0.act) &&
     (m.l1.start, m.l1.len, m.l1.act) = (kept.l1.start, kept.l1.len, kept.l1.act)
  then { m with l0 := { m.l0 with pos := kept.l0.pos }, l1 := { m.l1 with pos := kept.l1.pos } }
  else
    let p0 := ((s.distance m m.l0.len.toNat m.l0.start m.pc).getD 0) + 1
    let p1 := ((s.distance m m.l1.len.toNat m.l1.start m.l0.start).getD 0) + m.l0.len.toNat
    { m with l0 := { m.l0 with pos := p0 }, l1 := { m.l1 with pos := p1 } }

/-- The strand that an image holds (R73); none when a check fails. Its exposure clock runs on (spec/04, R103). SLOG is only
checked to be in range: the entries of the tile's log are those that count (R68; DESIGN CHOICE, log 92). -/
def State.readStrand (s : State) (kept : Strand) (img : Image) : Option Strand := do
  let c := s.ctx kept.ctx
  let ver := s.version kept
  if !s.imageOk kept img then none
  let l0 ← readLevel img 0x340 false
  let l1 ← readLevel img 0x360 true
  let chains ← (upto 8).mapM (readChain ver img)
  let jhead := BitVec.ofNat 32 (img 0x398 4)
  let jdone := BitVec.ofNat 32 (img 0x39C 4)
  let journal ← readJournal ver c kept img (jhead - jdone).toNat jdone
  let pend ← readWrites img kept.tick
  let plive := BitVec.ofNat 32 (bitsAt (img 0x18 8) 0 32)
  let vlive := BitVec.ofNat 64 (img 0x20 8)
  let x := img 0x388 8
  let qword := img 0x240 8
  let qlive : Nat → Bool := ({ kept with plive := plive, l0 := l0 } : Strand).qLive
  let wkind := bitsAt (img 0x3A8 8) 0 2
  let wval := BitVec.ofNat 64 (img 0x3B0 8)
  let blk := img 0x440 20
  let m : Strand := { kept with
    sRegs := Vector.ofFn fun i => BitVec.ofNat 64 (img (0x40 + 8 * i.val) 8)
    qRegs := Vector.ofFn fun i => i.val = 0 || (qlive i.val && bitAt qword i.val)
    vRegs := Vector.ofFn fun i => if vlive.getLsbD i.val then BitVec.ofNat 2048 (img (0x1000 + 0x100 * i.val) 256) else 0
    mRegs := Vector.ofFn fun i =>
      if i.val = 0 then allLanes else if plive.getLsbD (16 + i.val) then BitVec.ofNat 64 (img (0x280 + 8 * i.val) 8) else 0
    cRegs := Vector.ofFn fun i => chains.getD i.val Chain.empty
    bRegs := Vector.ofFn fun i => BitVec.ofNat 32 (img (0x300 + 8 * i.val) 4)
    pc := BitVec.ofNat 32 (img 0x380 4)
    attgt := true
    l0 := l0
    l1 := l1
    xfer := ⟨bitAt x 2, BitVec.ofNat 32 (img 0x384 4), BitVec.ofNat 2 x⟩
    pend := pend
    stallchk := bitAt x 8
    step := bitAt x 9
    stleft := BitVec.ofNat 4 (bitsAt x 12 4)
    traph := BitVec.ofNat 32 (img 0x390 4)
    phase := BitVec.ofNat 32 (img 0x394 4)
    plive := plive
    vlive := vlive
    jhead := jhead
    jdone := jdone
    journal := journal
    hrpc := BitVec.ofNat 32 (bitsAt blk 0 32)
    tnum := BitVec.ofNat 8 (bitsAt blk 32 8)
    hvalid := bitAt blk 40
    drpc := BitVec.ofNat 32 (bitsAt blk 64 32)
    dptgt := BitVec.ofNat 32 (bitsAt blk 96 32)
    dpdly := BitVec.ofNat 2 (bitsAt blk 128 2)
    dpval := bitAt blk 130
    dvalid := bitAt blk 131
    trap := readTrap img
    wkind := BitVec.ofNat 2 wkind
    wval := wval
    wold := BitVec.ofNat 64 (img 0x3B8 8)
    wtrans := if wkind != 2 then none else if kept.wkind = 2 && kept.wval = wval then kept.wtrans
      else match s.walk c wval.toNat .r with | .ok (pa, _) => some pa | .error _ => none
    stallcnt := BitVec.ofNat 64 (img 0x3C0 8)
    debug := wkind = 3
    wait := if wkind = 1 || wkind = 2 then .csw
      else match kept.wait with
        | .waitk _ _ => kept.wait
        | .xwait _ _ _ => kept.wait
        | .stepLaunch _ _ => kept.wait
        | _ => .none
    wretired := wkind = 1 || wkind = 2
    saved := false
    saveReq := none }
  return (s.positions m kept).trim

/-- A restored strand as it begins (R73; R163, step 4): a wait whose command has completed is over, and an empty
pipelined level at START begins with an iteration start. -/
def Strand.resume (m : Strand) : Strand :=
  let over_ : Bool := match m.wait with
    | .waitk q _ => m.tokenMet q
    | .xwait q _ _ => m.tokenMet q
    | .stepLaunch q _ => m.tokenMet q
    | _ => false
  let m1 := if over_ then { m with wait := .none, stallcnt := 0 } else m
  if m1.emptyStart && !m1.l0.drain then m1.iterStart
  else { m1 with l0 := { m1.l0 with pos := if m1.l0.act then Nat.max 1 m1.l0.pos else m1.l0.pos } }

/-- Restore one strand into a slot: the state, or the launch that ends (R73; R66 for an image that cannot be
read, log 29). -/
def State.restoreStrand (s : State) (kept : Strand) (slot : Nat) : State :=
  let c := s.ctx kept.ctx
  let base := s.imageBase kept
  let fail (x : Cause) : State := s.endTrap kept x { pc := kept.pc }
  match s.devRead c .r base 0x10000 with
  | .error _ => fail .prot
  | .ok _ =>
    let img : Image := fun off n => natOf (s.readVa c ((base + off) % 2 ^ 64) n)
    match s.readStrand kept img with
    | none => fail .illegal
    | some m =>
      ((s.touchVa c .r base 0x10000).updStrand kept.id fun _ => { m.resume with slot := slot, inSlot := true }).endWait kept.id

end Sys2Proof.Machine
end

