-- ==== Sys2Proof/Machine/Launch.lean ====
section
/-!
DEFINITION. Launch records and image headers (spec/01, R38, R39; spec/05, R124 to R126), measurement (spec/16, R404),
the start and the end of a launch (spec/01, R40, R44 to R50; spec/14, R373 to R375).
-/

namespace Sys2Proof.Machine

/-! ### Records and headers -/

/-- A launch record (R38). -/
def recOf (bs : List Byte) : LRec :=
  let q (k : Nat) : Nat := natOf ((bs.drop (8 * k)).take 8)
  let x := q 2
  { code := BitVec.ofNat 64 (q 0), entry := BitVec.ofNat 32 (q 1), ctxh := BitVec.ofNat 32 (q 1 / 2 ^ 32),
    npkg := bitsAt x 36 4, varcnt := bitsAt x 33 3, ngrp := bitsAt x 30 3, diepol := bitsAt x 28 2,
    pertile := bitsAt x 25 3, nstr := bitsAt x 16 9, rsvZero := bitsAt x 40 24 = 0 && bitsAt x 0 16 = 0,
    notbefore := BitVec.ofNat 64 (q 3), compl := BitVec.ofNat 64 (q 4),
    vars := (upto 4).map fun v => (upto 8).map fun g => (bs.getD (0x28 + 8 * v + g) 0).toNat,
    tag := BitVec.ofNat 64 (q 9), params := (upto 6).map fun k => BitVec.ofNat 64 (q (10 + k)) }

/-- Item 2 of R39, and the record checks of R372. -/
def LRec.ok (r : LRec) : Bool :=
  r.rsvZero && r.code.toNat % 64 = 0 && decide (1 ≤ r.npkg) && decide (r.npkg ≤ 8) && decide (r.varcnt ≤ 4) &&
  r.diepol != 3 && decide (1 ≤ r.pertile) && decide (r.pertile ≤ 4) && decide (1 ≤ r.nstr) && decide (r.nstr ≤ 256) &&
  r.compl.toNat % 32 = 0 && r.nstr % (r.ngrp + 1) = 0 &&
  ((r.vars.take r.varcnt).all fun v => (v.take (r.ngrp + 1)).all fun g => g != 0) &&
  (r.npkg = 1 || (r.notbefore != 0 && r.compl.toNat % 64 = 0 && fieldN r.tag 3 5 = 0 && decide (fieldN r.tag 0 3 < r.npkg)))

/-- Another live slice of the gang on this package holds the slice number (R372). -/
def State.dupSlice (s : State) (r : LRec) : Bool :=
  decide (1 < r.npkg) && s.ctxs.any fun p => match p.2.cur with
    | none => false
    | some l => l.rec_.npkg = r.npkg && l.rec_.notbefore = r.notbefore && l.rec_.tag = r.tag

/-- The header line of an image (R124). -/
structure Header where
  next : Nat
  version : Nat
  entry : W32
  xentry : W32
  ntidi : Nat
  spneed : Nat
  stallchk : Bool
  xform : Bool
  matrix : Bool

/-- The checks of R124 on line 0. -/
def headerOf (l : Line) : Option Header :=
  let w (k : Nat) : Nat := fieldN l (32 * k) 32
  let k := lineLink l
  let h : Header := ⟨(linkNext k).toNat, bitsAt (w 2) 0 16, BitVec.ofNat 32 (w 3), BitVec.ofNat 32 (w 4), bitsAt (w 5) 0 9,
    bitsAt (w 6) 0 16, bitAt (w 7) 2, bitAt (w 7) 1, bitAt (w 7) 0⟩
  if linkOwner k = 3 && linkNslot k = 0 && linkLast k && linkRsv k = 0 && w 1 = 0x53414C51 && bitsAt (w 2) 16 16 = 0 &&
     decide (1 ≤ h.version) && decide (h.version ≤ 3) && bitsAt (w 5) 9 23 = 0 && decide (h.ntidi ≤ 256) &&
     bitsAt (w 6) 16 16 = 0 && decide (h.spneed ≤ 1536) && bitsAt (w 7) 3 29 = 0 && fieldN l 256 256 = 0 &&
     (h.ntidi != 0 || h.next = 0)
  then some h else none

/-- Scratchpad need of a strand (R124). -/
def needOf (spneed : Nat) (matrix : Bool) : Nat := spneed * 4096 + (if matrix then 0x8000 else 0)
def Header.need (h : Header) : Nat := needOf h.spneed h.matrix
def Launch.need (l : Launch) : Nat := needOf l.spneed l.matrix

/-- A line of an image that the device itself reads at admission. -/
def State.imageLine (s : State) (c : Ctx) (code : W64) (n : Nat) : Except (Cause × Nat) Line :=
  match s.devRead c .r ((code.toNat + 64 * n) % 2 ^ 64) 64 with
  | .ok bs => .ok (BitVec.ofNat 512 (natOf bs))
  | .error e => .error e

/-- The TID initialisers from line `n` on, `k` lines (R126): none for a line that breaks it. -/
def State.tidLines (s : State) (c : Ctx) (code : W64) : Nat → Nat → Except (Option Cause) (List (Nat × List Byte))
  | 0, _ => .ok []
  | k + 1, n =>
    match s.imageLine c code n with
    | .error e => .error (some e.1)
    | .ok l =>
      let lk := lineLink l
      if linkOwner lk = 2 && linkNslot lk = 0 && linkRsv lk = 0 && (linkLast lk == (k == 0)) && fieldN l 40 24 = 0 &&
         fieldN l 320 192 = 0
      then match s.tidLines c code k (linkNext lk).toNat with
        | .error e => .error e
        | .ok t => .ok ((fieldN l 32 8, bytesOf 32 (fieldN l 64 256)) :: t)
      else .error none

/-- The header and initialisers of an image (R39, item 3; R125). -/
def State.readHeader (s : State) (c : Ctx) (code : W64) : Except (Option Cause) (Header × List (Nat × List Byte)) :=
  match s.imageLine c code 0 with
  | .error e => .error (some e.1)
  | .ok l => match headerOf l with
    | none => .error none
    | some h => match s.tidLines c code h.ntidi h.next with
      | .error e => .error e
      | .ok t => .ok (h, t)

/-! ### Measurement -/

/-- Lines of a chain from line `n`, each once (R404); `seen` holds the lines measured before. NEXT of an owner-2 line is
followed in the chain of initialisers only (spec/05, R123), which `data` says this is. -/
def State.measureChain (s : State) (c : Ctx) (code : W64) (data : Bool) :
    Nat → Nat → List Nat → List Byte → List Nat × List Byte
  | 0, _, seen, acc => (seen, acc)
  | f + 1, n, seen, acc =>
    if seen.contains n then (seen, acc)
    else match s.imageLine c code n with
      | .error _ => (seen, acc)
      | .ok l =>
        let acc' := acc ++ bytesOf 64 l.toNat
        if linkLast (lineLink l) || (linkOwner (lineLink l) = 2 && !data) then (n :: seen, acc')
        else s.measureChain c code data f (linkNext (lineLink l)).toNat (n :: seen) acc'

/-- Reads of lines of an image promote the objects they reach (spec/13, R345). -/
def State.touchLines (s : State) (c : Ctx) (code : W64) (ns : List Nat) : State :=
  ns.foldl (fun t n => t.touchVa c .r ((code.toNat + 64 * n) % 2 ^ 64) 64) s

/-- The lines that reading the header and the initialisers of an image reaches (R126). -/
def State.tidLineNos (s : State) (c : Ctx) (code : W64) : Nat → Nat → List Nat
  | 0, _ => []
  | k + 1, n =>
    match s.imageLine c code n with
    | .error _ => [n]
    | .ok l => n :: s.tidLineNos c code k (linkNext (lineLink l)).toNat

def State.touchHeader (s : State) (c : Ctx) (code : W64) : State :=
  match s.imageLine c code 0 with
  | .error _ => s.touchLines c code [0]
  | .ok l => match headerOf l with
    | none => s.touchLines c code [0]
    | some h => s.touchLines c code (0 :: s.tidLineNos c code h.ntidi h.next)

/-- The bytes of a measurement-log entry (R404; log 30). -/
def Meas.bytes (e : Meas) : List Byte := e.digest ++ bytes32 e.ctxh ++ bytes64 e.code ++ bytes64 e.mtime

/-- Measure an image at its admission (R404). -/
def State.measure (s : State) (k : Nat) (r : LRec) (h : Header) (entry : W32) : State :=
  if !s.plat.measen then s
  else
    let c := s.ctx k
    let z := 2 ^ 20
    let line0 := match s.imageLine c r.code 0 with | .ok l => bytesOf 64 l.toNat | .error _ => []
    let m1 := if h.ntidi = 0 then ([0], line0) else s.measureChain c r.code true z h.next [0] line0
    let m2 := s.measureChain c r.code false z (entry.toNat / 8) m1.1 m1.2
    let m3 := if h.xentry = 0 then m2 else s.measureChain c r.code false z (h.xentry.toNat / 8) m2.1 m2.2
    let e : Meas := ⟨shake256 m3.2 64, s.handle k, r.code, s.mtime⟩
    { s.touchLines c r.code m3.1 with
      measLog := (s.measLog ++ [e]).drop (s.measLog.length + 1 - 4096)
      logHash := shake256 (s.logHash ++ e.bytes) 64 }

/-! ### Start -/

/-- A strand of a gang at launch start (R41, R52). -/
def newStrand (id k : Nat) (serial : W32) (i : Nat) (r : LRec) (h : Header) (entry : W32) (sup : Bool) (p : Place) :
    Strand :=
  { Strand.blank with
    id := id, ctx := k, serial := serial, index := i, group := i * (r.ngrp + 1) / r.nstr, tile := p.tile, slot := p.slot,
    inSlot := true, pc := entry, attgt := false, stallchk := h.stallchk, sup := sup, winBase := p.win, winSize := h.need,
    sRegs := Vector.ofFn fun n => if 1 ≤ n.val && n.val ≤ 6 then r.params.getD (n.val - 1) 0 else 0 }

/-- Strands of the launch begin to issue once MTIME has reached NOTBEFORE and they are placed, no save of them being under
way, after which they would have to be placed again, and one of them at least is not stopped for the debugger (R40, R373,
R374); a slice whose slip exceeds SLIP raises SLICE-SLIP (R375). A start that is not late did not wait for a displacement. -/
def State.startLaunch (s : State) (k : Nat) : State :=
  match (s.ctx k).cur with
  | none => s
  | some l =>
    if l.started || s.mtime.toNat < l.rec_.notbefore.toNat || (s.ctxStrands k).any (fun m => !m.inSlot || m.saveReq.isSome) ||
        (s.ctxStrands k).all (fun m => m.debug) then s
    else
      let slip := if 1 < l.rec_.npkg then s.mtime - l.rec_.notbefore else 0
      let late := decide (s.effAt (s.ctx k).region 8 Region.slip * Config.usec < slip.toNat)
      let s1 := s.updLaunch k fun x =>
        { x with
          started := true, startT := s.mtime, slipT := slip, slipped := late, disp := x.disp && slip != 0
          phaseT0 := s.cycles }
      if late then s1.pushEvent 2 (s.handle k) l.rec_.tag slip else s1

def execNotbeforeReached (ctx : Nat) (s : State) : Out := .next (s.startLaunch ctx)

/-! ### End -/

def LStatus.code : LStatus → Nat
  | .ok => 1 | .fault => 2 | .faultDomain => 3 | .version => 4 | .badrec => 5 | .staleHandle => 6 | .budget => 7
  | .killed => 8 | .discarded => 9 | .tidtable => 10

/-- The completion record of a launch of context `k` through its translation, with the slice record before it when
one is due (R45, R46, R374). -/
def State.writeCompletion (s : State) (k : Nat) (r : LRec) (e : Ending) (slice : Option (List Byte)) : State :=
  let c := s.ctx k
  let a := r.compl.toNat
  let fields : List (Nat × List Byte) := (match slice with | some b => [(0x20, b)] | none => []) ++
    [(8, bytes32 e.fpc ++ bytesOf 4 0 ++ bytes64 s.mtime ++ bytes64 r.tag),
     (0, bytesOf 2 e.status.code ++ bytesOf 2 e.cause.toNat ++ bytes32 e.fstrand)]
  let step (x : State × Option Cause) (p : Nat × List Byte) : State × Option Cause :=
    match x.2 with
    | some _ => x
    | none => match x.1.devWrite c ((a + p.1) % 2 ^ 64) p.2 with
      | .ok t => (t, none)
      | .error q => (x.1, some q.1)
  match fields.foldl step (s, none) with
  | (t, none) => t
  | (t, some q) => t.pushEvent 8 (s.handle k) r.tag (BitVec.ofNat 64 q.code)

/-- The slice record of R374. -/
def Launch.sliceRec (l : Launch) : Option (List Byte) :=
  if 1 < l.rec_.npkg then
    some (bytes64 l.startT ++ bytes64 l.slipT ++ bytesOf 8 (b2n l.slipped + 2 * b2n l.disp) ++ bytesOf 8 0)
  else none

/-- What the launch ends with: its cause, or OK once every strand has halted and every journal has completed (R44);
with a cause, its strands and engines have stopped (R48, R49). -/
def State.endingOf (s : State) (k : Nat) (l : Launch) : Option Ending :=
  match l.ending with
  | some e => some e
  | none =>
    if l.started && (s.ctxStrands k).all (fun m => m.halted && m.journal.all fun e => !e.live) then
      some ⟨.ok, 0, BitVec.allOnes 32, 0, false⟩
    else none

/-- Every mark of a context's launch leaves the machine: strands, side-log entries, barriers, transform runs and
collective messages; a CSND that was waiting for this launch is answered (R281). -/
def State.dropLaunch (s : State) (k : Nat) (l : Launch) : State :=
  let mine (m : Strand) : Bool := m.id != 0 && m.ctx = k
  let gang : W64 × W64 := if 1 < l.rec_.npkg then (l.rec_.tag >>> 8, l.rec_.notbefore)
    else (BitVec.ofNat 64 (2 ^ 63 + k * 2 ^ 32 + l.serial.toNat), 0)
  let me_ := if 1 < l.rec_.npkg then fieldN l.rec_.tag 0 3 else 0
  let ours (x : CollMsg) : Bool := (x.gang, x.start) = gang
  let answers := (s.inbox.filter fun x => ours x && x.kind = .csnd && x.dst = me_ &&
    !(s.outbox.any fun y => ours y && y.kind = .written && y.dst = x.src && y.tag = x.tag && y.ord = x.ord)).map answerOf
  { s with
    me := if mine s.me then Strand.blank else s.me
    others := s.others.filter fun m => !mine m
    slog := s.slog.filter fun e => !(e.ctx = k && e.serial = l.serial)
    barriers := s.barriers.filter fun b => !(b.ctx = k && b.serial = l.serial)
    xs := s.xs.filter fun p => match p.2 with
      | some r => !(s.strands.any fun m => m.id = r.sid && m.ctx = k)
      | none => false
    gone := if 1 < l.rec_.npkg then (gang.1, gang.2, me_) :: s.gone else s.gone
    inbox := s.inbox.filter fun x => !ours x
    outbox := (s.outbox.filter fun x => !(ours x && x.src = me_ && x.kind != .written)) ++ answers }

/-- The launch of a context is over: its completion record is written, its slots and scratchpad return, its context
is READY, and its silence clock starts (R44 to R46; spec/13, R351). -/
def State.finishLaunch (s : State) (k : Nat) (l : Launch) (e : Ending) : State :=
  let s1 := (s.writeCompletion k l.rec_ e l.sliceRec).dropLaunch k l
  let s2 := s1.updCtx k fun c =>
    { c with cur := none, state := .ready, imagesSaved := false, silFrom := s.mtime, readyAt := s.mtime }
  (if (s.openOf k).isEmpty then s2 else (s2.writeFHeader k).getD s2).refresh

/-- A launch whose end is due completes once its side-log entries have drained, or are discarded (R44, R49, R37). -/
def execLaunchComplete (ctx : Nat) (s : State) : Out :=
  .next (match (s.ctx ctx).cur with
    | none => s
    | some l => match s.endingOf ctx l with
      | none => s
      | some e =>
        if e.discard || s.slog.all (fun x => !(x.ctx = ctx && x.serial = l.serial)) then s.finishLaunch ctx l e else s)

end Sys2Proof.Machine
end

