-- ==== Sys2Proof/Machine/Residency.lean ====
section
/-!
DEFINITION. Page objects and their movement (spec/13, R344, R345): Ephemeris (R346 to R348), Almanac (R349 to R352), and
the predicted wake time of a context (spec/01, R29).
-/

namespace Sys2Proof.Machine

/-! ### Ready entries and the wake time -/


/-- Indices of the ready entries of a queue at or above H, rising (spec/14, R358, R431). -/
def State.readyIds (s : State) (r : Region) : List Nat :=
  sortBy (fun a b => decide (a ≤ b)) ((upto r.qsize).filterMap fun j =>
    match s.ringRead (r.stampAddr j) 8 with
    | none => none
    | some v =>
      if v != 0 && (v - 1) % r.qsize = j && decide (r.head.toNat ≤ v - 1) && decide (v - 1 < r.tail.toNat) then some (v - 1)
      else none)

/-- The ready entries, each with its record. -/
def State.readyEntries (s : State) (r : Region) : List (Nat × List Byte) :=
  if !(r.qen && r.qon) then []
  else (s.readyIds r).filterMap fun i => (s.ringRead (r.slotAddr i) 128).map fun x => (i, bytesOf 128 x)

/-- A scan of the ready entries meets a read of the ring area that fails (spec/14, R360). -/
def State.scanBroken (s : State) (r : Region) : Bool :=
  r.qen && r.qon &&
  ((upto r.qsize).any (fun j => (s.ringRead (r.stampAddr j) 8).isNone) ||
   (s.readyIds r).any fun i => (s.ringRead (r.slotAddr i) 128).isNone)

/-- CTXH and NOTBEFORE of a record (spec/01, R38). -/
def recHandle (bs : List Byte) : W32 := BitVec.ofNat 32 (natOf ((bs.drop 12).take 4))
def recStart (bs : List Byte) : Nat := natOf ((bs.drop 0x18).take 8)

/-- The queues whose entries may name a context: those of its leaf's path (spec/14, R355). -/
def State.queuesOf (s : State) (k : Nat) : List Region := (s.path (s.ctx k).region).filter fun r => r.qen

/-- The predicted wake time: the earlier of WAKE and the NOTBEFORE of the context's earliest queued launch; 0 for none
(R29). The earliest is taken to be the smallest NOTBEFORE of its ready entries, and a NOTBEFORE of 0, which starts at once
(R38), to be the time 1 (DESIGN CHOICE, log 77). -/
def State.wakeTime (s : State) (k : Nat) : Nat :=
  let queued := (s.queuesOf k).flatMap fun r => (s.readyEntries r).filterMap fun x =>
    if recHandle x.2 = s.handle k then some (Nat.max 1 (recStart x.2)) else none
  let own := (s.ctx k).wake.toNat
  (queued.foldl (fun (b : Option Nat) x => some (match b with | none => x | some y => Nat.min x y))
    (if own = 0 then none else some own)).getD 0

/-! ### Objects -/

def State.objsOf (s : State) (k : Nat) : List PObj := s.objs.filter fun o => o.ctx = k

def State.updObj (s : State) (a : Nat) (f : PObj → PObj) : State :=
  { s with objs := s.objs.map fun o => if o.addr = a then f o else o }

/-- An ALM object is pinned while its context is not silent, and until the write-back of its silence has ended (R350 to
R352). -/
def State.almPinned (s : State) (o : PObj) : Bool := o.alm && !(s.ctx o.ctx).silent

/-- Bytes that contexts of die `d` have reserved: ALMUSED (R346, R349). -/
def State.almUsed (s : State) (d : Nat) : Nat :=
  ((s.liveCtxs.filter fun k => (s.ctx k).almen && (homeDie k).val = d).map fun k => (s.ctx k).almsz.toNat).foldl (· + ·) 0

/-- Bytes of the object cache area that hold copies: OCUSED. -/
def State.areaUsed (s : State) : Nat := ((s.objs.filter fun o => o.tier != 0).map fun o => o.size).foldl (· + ·) 0

/-- Bytes of the object cache area. -/
def State.areaSize (s : State) : Nat := (s.eph.oclim.toNat + 1 - s.eph.ocbase.toNat) * 65536

/-- Bytes of copies that count against a node: every copy under it but those Almanac pins (R347, R350). -/
def State.hbmUsed (s : State) (a : Nat) : Nat :=
  ((s.objs.filter fun o => o.tier != 0 && !s.almPinned o && s.under o.ctx a).map fun o => o.size).foldl (· + ·) 0

/-- Nodes above a context that `extra` more bytes would put over their HBM budget (spec/01, R24). -/
def State.hbmLack (s : State) (k extra : Nat) : List Nat :=
  ((s.path (s.ctx k).region).filter fun r =>
    let cap := s.effAt r.addr 2 Region.hbm
    cap != 0xFFFFFFFF && decide (cap * 2 ^ 20 < s.hbmUsed r.addr + extra)).map fun r => r.addr

/-- A page table entry as the device can read it: 0 where no access is made (spec/15, R390; spec/12, R306). -/
def State.pteAt (s : State) (a : Nat) : W64 :=
  if decide (objWindow ≤ a) || s.revokedAt a || s.fencedAt a || (s.poisonAt a 8).isSome then 0 else BitVec.ofNat 64 (natOf (s.physRead a 8))

/-- A PIN leaf below a table maps a part of an object: the page of a leaf may hold several objects (R333, R348). A malformed
entry maps nothing (R336). -/
def State.pinBelow (s : State) (o : PObj) : Nat → Nat → Bool
  | l, a =>
    (upto (2 ^ lvlBits l)).any fun i =>
      let e := s.pteAt (a + 8 * i)
      e.getLsbD 0 && !s.malformed e l &&
      (if e.getLsbD 1 then pteKv e && ptePin e && o.meets (pteAddr e) (2 ^ lvlLo l)
       else match l with
        | 0 => false
        | f + 1 => s.pinBelow o f (pteAddr e))

def State.pinMapped (s : State) (o : PObj) : Bool :=
  s.liveCtxs.any fun k => s.pinBelow o 5 ((s.ctx k).root.toNat * 4096)

/-- The backing frame of an object lies in an extent in release or revoked (spec/15, R390). -/
def State.backingGone (s : State) (o : PObj) : Bool :=
  s.extents.any fun e => decide (e.base < o.backing + o.size) && decide (o.backing < e.base + e.len)

/-- A word of 8 bytes at a place is bad for a reader: its cached line is marked, or the host completes its read with an
error (spec/15, R380; spec/16, R398). -/
def State.badWord (s : State) (a : Nat) : Bool :=
  tget false s.linePoison (a / 8) ||
  (upto 8).any fun i => s.isHost (a + i) && (s.hostBad.contains (a + i) || !s.plat.cxlMem)

/-- Bytes copied from `a` to `b`; what reads as poisoned at `a` does so at `b`, and nothing else does. -/
def State.copyBytes (s : State) (a b n : Nat) : State :=
  { s with
    foreign := s.foreign.filter fun c => !inRange c.1 (b, n)
    mem := s.mem.write b (s.mem.read a n)
    poison := (upto (n / 32)).foldl (fun p i => tset false p (b / 32 + i) (tget false s.poison (a / 32 + i))) s.poison
    linePoison := (upto (n / 8)).foldl (fun p i => tset false p (b / 8 + i) (s.badWord (a + 8 * i))) s.linePoison }

/-- Space that no longer holds a copy. -/
def State.eraseBytes (s : State) (a n : Nat) : State :=
  { s with
    mem := s.mem.write a (List.replicate n 0)
    poison := (upto (n / 32)).foldl (fun p i => tset false p (a / 32 + i) false) s.poison
    linePoison := (upto (n / 8)).foldl (fun p i => tset false p (a / 8 + i) false) s.linePoison }

/-- A copy's bytes and marks go to its backing frame, line by line: the host may reject the line of a frame in its memory
(spec/16, R398). A move makes its copies of bytes from and to fenced units too (DESIGN CHOICE, log 111). -/
def State.storeFrame (s : State) (o : PObj) : State :=
  if s.isHost o.backing then
    (upto (o.size / 64)).foldl (fun t i =>
      let (a, b) := (o.addr + 64 * i, o.backing + 64 * i)
      if (t.rejected b 64).isSome then t.placeWrite b (s.mem.read a 64) else t.copyBytes a b 64) s
  else s.copyBytes o.addr o.backing o.size

/-- The current copy returns to the backing frame, and its space is free (R344, R348). -/
def State.writeBack (s : State) (o : PObj) : State :=
  if o.tier = 0 then s else (if s.backingGone o then s else s.storeFrame o).eraseBytes o.addr o.size

/-- A demotion (R348); one to a revoked frame is not made (R390). -/
def State.demote (s : State) (o : PObj) : State :=
  if o.tier = 0 || s.backingGone o then s
  else
    let s1 := (s.writeBack o).updObj o.addr fun x => { x with tier := 0, moveTo := none, moveWake := none }
    { s1 with eph := { s1.eph with demoted := s1.eph.demoted + 1 } }

/-- OBJ-UNBIND of an object (R344). -/
def State.unbind (s : State) (o : PObj) : State :=
  let s1 := s.writeBack o
  { s1 with objs := s1.objs.filter fun x => x.addr != o.addr }

/-! ### Demotion order and room -/

/-- A context's copies may be demoted (R348, R32, R351). -/
def Ctx.demotes (c : Ctx) : Bool :=
  match c.state with
  | .swapped => true
  | .ready => c.demotable || c.silent
  | .free => false
  | .running => false
  | .parked => false

/-- The index of a handle: bits [12:0] (spec/01, R26). -/
def hIndex (k : Nat) : Nat := k % 2 ^ 13

/-- Copies that may be demoted, in the order of R348; of two contexts of one index the one of the higher die goes first
(DESIGN CHOICE, log 91). -/
def State.demotions (s : State) : List PObj :=
  let ok (o : PObj) : Bool :=
    o.tier != 0 && (s.ctx o.ctx).demotes && !s.almPinned o && !s.pinMapped o && !s.backingGone o
  let w (o : PObj) : Nat := if s.wakeTime o.ctx = 0 then 2 ^ 64 else s.wakeTime o.ctx
  sortBy (fun a b =>
    decide (w b < w a) || (w a = w b && (decide (hIndex b.ctx < hIndex a.ctx) ||
      (hIndex a.ctx = hIndex b.ctx && (decide (b.ctx < a.ctx) || (a.ctx = b.ctx && decide (b.addr ≤ a.addr)))))))
    (s.objs.filter ok)

/-- Room for a copy of an object: none needed when it already holds one (R347). -/
def State.fits (s : State) (o : PObj) : Bool :=
  decide (s.areaUsed + o.size ≤ s.areaSize) && (s.almPinned o || (s.hbmLack o.ctx o.size).isEmpty)

/-- Demote in order until the copy fits: copies under a node that lacks budget, or any when the area lacks room. -/
def State.makeRoom (s : State) (o : PObj) : Nat → Option State
  | 0 => if s.fits o then some s else none
  | n + 1 =>
    if s.fits o then some s
    else
      let area := decide (s.areaSize < s.areaUsed + o.size)
      let lack := s.hbmLack o.ctx o.size
      match s.demotions.find? fun v => v.addr != o.addr && (area || lack.any fun a => s.under v.ctx a) with
      | none => none
      | some v => (s.demote v).makeRoom o n

/-- Demote in order while a region exceeds its HBM budget (R348). -/
def State.settle (s : State) : Nat → State
  | 0 => s
  | n + 1 =>
    match s.demotions.find? fun v => !(s.hbmLack v.ctx 0).isEmpty with
    | none => s
    | some v => (s.demote v).settle n

/-- The pinned ALM objects go to HBM4E while Ephemeris is enabled (R346, R350). -/
def State.keepAlm (s : State) : State :=
  if !s.eph.en then s
  else
    { s with objs := s.objs.map fun o =>
        if s.almPinned o && o.tier = 0 && o.moveTo.isNone then { o with moveTo := some 1, moveWake := none } else o }

/-- The HBM4E address that a new copy takes in the object cache area, a free value (log 79). -/
def State.newFrame (s : State) (o : PObj) : Nat :=
  s.eph.ocbase.toNat * 65536 + 4096 * (Config.copyFrame s.fresh % ((s.areaSize - o.size) / 4096 + 1))

/-! ### Events -/

/-- MTIME has reached W − λ: Ephemeris starts the promotions of the context (R347); a move that an access has started to a
higher tier keeps that tier (R345). -/
def execEphemerisPromotion (ctx : Nat) (s : State) : Out :=
  .next (
    let c := s.ctx ctx
    let w := s.wakeTime ctx
    if !s.eph.en || c.state = .free || w = 0 || c.wokeFor.toNat = w ||
        decide (s.mtime.toNat + s.effAt c.region 9 Region.lead * Config.usec < w) then s
    else
      let s1 : State := { s with objs := s.objs.map fun (o : PObj) =>
        if o.ctx = ctx && (o.whint = 1 || o.whint = 2) && decide (o.tier < o.whint.toNat) && !s.pinMapped o
        then { o with moveTo := some (Nat.max (o.moveTo.getD 0) o.whint.toNat), moveWake := some (BitVec.ofNat 64 w) }
        else o }
      (s1.updCtx ctx fun x => { x with wokeFor := BitVec.ofNat 64 w }).settle s1.objs.length)

/-- The promotion itself: the copy becomes current (R345), and the counters follow. The bytes are copied from a frame of a
fenced unit too (DESIGN CHOICE, log 111). -/
def State.promote (s : State) (o : PObj) (t : Nat) : State :=
  let s0 : State := if o.tier = 0 then { s.copyBytes o.backing o.addr o.size with fresh := s.fresh + 1 } else s
  let s1 := s0.updObj o.addr fun x =>
    { x with tier := t, moveTo := none, moveWake := none, frame := if o.tier = 0 then s.newFrame o else o.frame }
  let late := match o.moveWake with
    | some w => decide (w.toNat < s.mtime.toNat)
    | none => false
  { s1 with eph := { s1.eph with promoted := s1.eph.promoted + 1, late := s1.eph.late + BitVec.ofNat 64 (b2n late) } }

/-- A move that was started commits, or is given up when there is no room for it (R345, R347). A context's objects move
in increasing address. PIN bars the moves of Ephemeris (R333), and no copy that Almanac holds (R350). -/
def execMoveCommit (o : W64) (s : State) : Out :=
  .next (match s.objs.find? fun x => x.addr = o.toNat with
    | none => s
    | some x => match x.moveTo with
      | none => s
      | some t =>
        if s.objs.any fun y => y.ctx = x.ctx && decide (y.addr < x.addr) && y.moveTo.isSome then s
        else
          let drop (u : State) : State := u.updObj x.addr fun y => { y with moveTo := none, moveWake := none }
          let pin := s.pinMapped x
          let alm := s.almPinned x
          let t := if pin then 1 else t
          if !s.eph.en || (pin && (!alm || x.tier != 0)) then drop s
          else if x.tier != 0 then s.promote x t
          else if s.backingGone x then drop s
          else match s.makeRoom x s.objs.length with
            | none => drop s
            | some s1 => (s1.promote x t).settle s1.objs.length)

/-- The silence clock of a context reaches its bound: Almanac begins the write-back; a context without ALM is silent at
once (R351). -/
def execSilence (ctx : Nat) (s : State) : Out :=
  .next (
    let c := s.ctx ctx
    if c.state = .free || c.cur.isSome || c.silent || c.wback.isSome ||
        decide (s.mtime.toNat < c.silFrom.toNat + s.effAt c.region 10 Region.silence * Config.usec) then s
    else
      let s1 := s.updCtx ctx fun x => { x with silent := !x.almen, wback := if x.almen then some s.mtime else none }
      if c.almen then { s1 with eph := { s1.eph with silent := s1.eph.silent + 1 } } else s1)

/-- A write-back that began at `t` has ended: SILMAX holds the longest (R351). -/
def State.silenceDone (s : State) (t : W64) : State :=
  { s with eph := { s.eph with silmax := BitVec.ofNat 64 (Nat.max s.eph.silmax.toNat (s.mtime - t).toNat) } }

/-- A silence write-back ends, and the pins are released, unless a launch was admitted meanwhile: then pinning goes on
(R351, R352). -/
def execSilenceWritebackComplete (ctx : Nat) (s : State) : Out :=
  .next (match (s.ctx ctx).wback with
    | none => s
    | some t => ((s.silenceDone t).updCtx ctx fun x =>
        { x with wback := none, silent := x.cur.isNone && decide (x.silFrom.toNat ≤ t.toNat) }).keepAlm)

end Sys2Proof.Machine
end

