-- ==== Sys2Proof/Machine/Sched.lean ====
section
/-!
DEFINITION. The scheduler (spec/14, R355 to R365, R431): launch queues and their candidates, budgets (spec/01, R24),
placement, admission (R39, R40), displacement and restore, and the issue quantum (spec/12, R320).
-/

namespace Sys2Proof.Machine

/-! ### Queues -/

def State.queueOf (s : State) (qid : Nat) : Option Region := s.regions.find? fun r => r.qen && r.qid = qid

/-- The device reads TAIL (R357): T never decreases. -/
def execTailRead (qid : BitVec 15) (s : State) : Out :=
  .next (match s.queueOf qid.toNat with
    | none => s
    | some r =>
      if !r.qon then s
      else match s.ringRead r.ring 8 with
        | none => s.queueError r
        | some v => s.updRegion r.addr fun x => { x with tail := BitVec.ofNat 64 (Nat.max x.tail.toNat v) })

/-- What the head of a queue shows (R358, R360). -/
inductive Head
  | none
  | error
  | marked
  | record (bs : List Byte)

def State.headOf (s : State) (r : Region) : Head :=
  let h := r.head.toNat
  if !(r.qen && r.qon) || r.tail.toNat ≤ h then .none
  else if r.discarded.contains h then .marked
  else match s.ringRead (r.stampAddr h) 8 with
    | .none => .error
    | some v =>
      if v != h + 1 then .none
      else match s.ringRead (r.slotAddr h) 128 with
        | .none => .error
        | some x => .record (bytesOf 128 x)

/-- Taking an entry: H moves on, and HEAD is written (R360). -/
def State.takeEntry (s : State) (r : Region) : State :=
  let s1 := s.updRegion r.addr fun x =>
    { x with head := x.head + 1, discarded := x.discarded.filter fun i => i != x.head.toNat }
  s1.physWrite (r.ring + 8) (bytes64 (r.head + 1))

/-- COMPL-LOST of a stale record (R46). -/
def State.staleLost (s : State) (q : LRec) : State := s.pushEvent 8 q.ctxh q.tag 0

/-- A candidate's NOTBEFORE is 0 or no more than ADMLEAD ahead (R361). -/
def State.inLead (s : State) (r : Region) (q : LRec) : Bool :=
  q.notbefore = 0 || decide (q.notbefore.toNat ≤ s.mtime.toNat + r.admlead * Config.usec)

/-- A READY context whose saved launch waits to be restored through this queue (R365), the longest waiting first. -/
def State.homeQueue (s : State) (k : Nat) : Option Nat :=
  match (s.ctx k).cur with
  | none => none
  | some l =>
    match s.queueOf l.qid with
    | some r => some r.addr
    | none => some (s.ctx k).region

def State.restorable (s : State) (k : Nat) : Bool :=
  let c := s.ctx k
  c.state = .ready && c.imagesSaved &&
  match c.cur with
  | some l => l.ending.isNone
  | none => false

def State.toRestore (s : State) (r : Region) : Option Nat :=
  ((s.liveCtxs.filter fun k => s.restorable k && s.homeQueue k = some r.addr).foldl (fun (b : Option Nat) k =>
    match b with
    | none => some k
    | some j => if (s.ctx k).readyAt.toNat < (s.ctx j).readyAt.toNat then some k else some j) none)

/-- What a queue offers at an admission decision. -/
inductive Cand
  | restore (k : Nat)
  | entry (q : LRec) (bs : List Byte)

/-- How a displacement names a queue's candidate (R364, R374). -/
def State.displacedFor (s : State) (r : Region) (c : Cand) : Displaced :=
  match c with
  | .restore k => .restore (s.handle k) (((s.ctx k).cur.map fun l => l.serial).getD 0)
  | .entry _ _ => .entry r.head

/-- The entry that a queue waits with (R360, R361). -/
def State.waitingEntry (s : State) (r : Region) : Option (LRec × List Byte) :=
  match s.headOf r with
  | .record bs =>
    let q := recOf bs
    if s.current q.ctxh && (s.ctx (hKey q.ctxh)).cur.isNone && s.inLead r q then some (q, bs) else none
  | .none => none
  | .error => none
  | .marked => none

/-- A queue's candidate while it is waiting: a launch to restore comes in place of its entry (R365). -/
def State.candidate (s : State) (r : Region) : Option Cand :=
  match s.toRestore r with
  | some k => some (.restore k)
  | none => (s.waitingEntry r).map fun x => .entry x.1 x.2

/-- When the entry of a queue last began to wait (R361): one that was not waiting at `from_` began then, or when MTIME came
within ADMLEAD of NOTBEFORE; and when the launch to restore in its place became READY (R365). -/
def State.markWaiting (s : State) (from_ : W64) (r : Region) : State :=
  let since := (s.waitingEntry r).map fun x =>
    r.waitFrom.getD (BitVec.ofNat 64 (Nat.max from_.toNat (x.1.notbefore.toNat - r.admlead * Config.usec)))
  s.updRegion r.addr fun x => { x with waitFrom := since, restFrom := (s.toRestore r).map fun k => (s.ctx k).readyAt }

/-- Every queue that waits now and did not at `from_` is marked. -/
def State.markAll (s : State) (from_ : W64) : State := s.regions.foldl (fun t r => t.markWaiting from_ r) s

/-- A head that is ready becomes the candidate; a discarded or stale head is taken at once (R360). -/
def execQueueCandidate (qid : BitVec 15) (s : State) : Out :=
  .next (match s.queueOf qid.toNat with
    | none => s
    | some r => match s.headOf r with
      | .error => s.queueError r
      | .marked => s.takeEntry r
      | .none => s.markWaiting s.mtime r
      | .record bs =>
        let q := recOf bs
        if s.current q.ctxh then s.markWaiting s.mtime r else (s.takeEntry r).staleLost q)

/-! ### Budgets -/

/-- Strand slots in use under a node (R24, R44). -/
def State.slotsUnder (s : State) (a : Nat) : Nat :=
  (s.strands.filter fun m => m.inSlot && !m.halted && s.under m.ctx a).length

/-- Scratchpad bytes in use under a node (R24, R56). -/
def State.sramUnder (s : State) (a : Nat) : Nat :=
  ((s.liveCtxs.filter fun k => s.under k a).map fun k => match (s.ctx k).cur with
    | none => 0
    | some l => l.rec_.nstr * l.need).foldl (· + ·) 0

/-- A node lacks room for slots, or for scratchpad bytes; `used` counts what is in use, or nothing (R24). -/
def State.slotLack (s : State) (a slots : Nat) (used : Bool) : Bool :=
  let cap := s.effAt a 0 Region.slots
  cap != 0xFFFF && decide (cap < (if used then s.slotsUnder a else 0) + slots)

def State.padLack (s : State) (a bytes : Nat) (used : Bool) : Bool :=
  let cap := s.effAt a 1 Region.sram
  cap != 0xFFFF && decide (cap * 0x10000 < (if used then s.sramUnder a else 0) + bytes)

/-- Nodes on the path of a leaf that lack room for slots and bytes. -/
def State.lacking (s : State) (leaf slots bytes : Nat) (used : Bool) : List Nat :=
  ((s.path leaf).filter fun r => s.slotLack r.addr slots used || s.padLack r.addr bytes used).map fun r => r.addr

/-! ### Placement -/

/-- A unit of 64 KiB (R378). -/
def units (n : Nat) : Nat := (n + 0xFFFF) / 0x10000

def State.tileOn (s : State) (t : Nat) : Bool := (s.plat.tileen.getD (t / 64) 0).getLsbD (t % 64)

/-- Bytes of a tile's scratchpad (R377). -/
def State.padSize (s : State) (t : Nat) : Nat := (12 - (tget Tsram.blank s.tsram t).g.toNat) * 0x80000

/-- Windows of current launches on a tile (R56). -/
def State.windows (s : State) (t : Nat) : List (Nat × Nat) :=
  (s.strands.filter fun m => m.tile = t && m.winSize != 0).map fun m => (m.winBase, m.winSize)

def freeAt (ws : List (Nat × Nat)) (a n : Nat) : Bool :=
  ws.all fun w => decide (a + n ≤ w.1) || decide (w.1 + w.2 ≤ a)

/-- How many windows of `n` bytes fit from unit `u` on; `f` units remain. -/
def fitCount (ws : List (Nat × Nat)) (size n : Nat) : Nat → Nat → Nat → Nat
  | 0, _, k => k
  | f + 1, u, k =>
    if n = 0 then 4
    else if decide (u * 0x10000 + n ≤ size) && freeAt ws (u * 0x10000) n then
      fitCount (((u * 0x10000), n) :: ws) size n f (u + 1) (k + 1)
    else fitCount ws size n f (u + 1) k

/-- Slots of a tile that no strand occupies, or whose strand `gone` takes away. -/
def State.freeSlots (s : State) (gone : Strand → Bool) (t : Nat) : List Nat :=
  (upto 4).filter fun k => s.strands.all fun m => !(m.inSlot && !m.halted && m.tile = t && m.slot = k) || gone m

/-- Strands of a gang that a tile can hold (R363). -/
def State.tileCap (s : State) (gone : Strand → Bool) (pertile need t : Nat) : Nat :=
  if !s.tileOn t then 0
  else Nat.min (Nat.min pertile (s.freeSlots gone t).length) (fitCount (s.windows t) (s.padSize t) need 96 0 0)

def sumOf (l : List Nat) : Nat := l.foldl (· + ·) 0

/-- Capacities of the tiles of each die suffice for a gang (R363). -/
def capsOk (nstr diepol : Nat) (cap : Nat → Nat) : Bool :=
  let die (d : Nat) : Nat := sumOf ((upto 64).map fun i => cap (64 * d + i))
  if diepol = 1 then (upto 4).any fun d => decide (nstr ≤ die d)
  else if diepol = 2 then
    (upto 4).all (fun d => decide (nstr / 4 ≤ die d)) &&
      decide (nstr % 4 ≤ ((upto 4).filter fun d => decide (nstr / 4 + 1 ≤ die d)).length)
  else decide (nstr ≤ sumOf ((upto 4).map die))

/-- A placement of a gang exists (R363). -/
def State.placeable (s : State) (gone : Strand → Bool) (q : LRec) (need : Nat) : Bool :=
  capsOk q.nstr q.diepol (s.tileCap gone q.pertile need)

/-- The gang could be placed with nothing else running and every tile's scratchpad at its largest (R39, item 4). -/
def State.couldFit (s : State) (leaf : Nat) (q : LRec) (need : Nat) : Bool :=
  capsOk q.nstr q.diepol (fun t => if s.tileOn t then q.pertile else 0) &&
  capsOk q.nstr q.diepol (fun t => if s.tileOn t then Nat.min q.pertile (fitCount [] 0x600000 need 96 0 0) else 0) &&
  (s.lacking leaf q.nstr (q.nstr * need) false).isEmpty

/-- A list of pairs without two equal ones. -/
def distinct (l : List (Nat × Nat)) : Bool := decide (l.Nodup)

/-- The places given for a gang are a placement (R363, R378). -/
def State.placesOk (s : State) (pl : List Place) (q : LRec) (need : Nat) : Bool :=
  let on (t : Nat) : List Place := pl.filter fun p => p.tile = t
  let die (d : Nat) : Nat := (pl.filter fun p => p.tile / 64 = d).length
  pl.length = q.nstr && distinct (pl.map fun p => (p.tile, p.slot)) &&
  (pl.all fun p =>
    decide (p.tile < 256) && s.tileOn p.tile && (s.freeSlots (fun _ => false) p.tile).contains p.slot &&
    p.win % 0x10000 = 0 && decide (p.win + need ≤ s.padSize p.tile) && freeAt (s.windows p.tile) p.win need &&
    decide ((on p.tile).length ≤ q.pertile) &&
    (need = 0 || (on p.tile).all fun x => x.slot = p.slot || decide (x.win + need ≤ p.win) || decide (p.win + need ≤ x.win))) &&
  (q.diepol != 1 || (upto 4).any fun d => die d = q.nstr) &&
  (q.diepol != 2 || (upto 4).all fun d => (upto 4).all fun e => decide (die d ≤ die e + 1))

/-- Strands of a saved launch to restore, in index order. -/
def State.toPlace (s : State) (k : Nat) : List Strand := (s.ctxStrands k).filter fun m => m.saved && !m.halted

/-- Every strand of a saved launch has a free slot on its own tile (R365). -/
def State.restorePlaceable (s : State) (gone : Strand → Bool) (k : Nat) : Bool :=
  (s.toPlace k).all fun m =>
    decide (((s.toPlace k).filter fun x => x.tile = m.tile).length ≤ (s.freeSlots gone m.tile).length)

/-- The places given are free slots on the tiles of the strands, in order (R365). -/
def State.restorePlaces (s : State) (pl : List Place) (k : Nat) : Bool :=
  let ms := s.toPlace k
  pl.length = ms.length && distinct (pl.map fun p => (p.tile, p.slot)) &&
  (pl.zip ms).all fun x => x.1.tile = x.2.tile && (s.freeSlots (fun _ => false) x.1.tile).contains x.1.slot

/-! ### Admission, restore, displacement -/

/-- The entry is taken and its launch completes with a status (R39). -/
def State.rejectEntry (s : State) (r : Region) (k : Nat) (q : LRec) (st : LStatus) (cause : Option Cause) : State :=
  (s.takeEntry r).writeCompletion k q
    ⟨st, BitVec.ofNat 16 ((cause.map Cause.code).getD 0), BitVec.allOnes 32, 0, false⟩ none

/-- The writes of the TID initialisers, or the cause (R64, R125). -/
def State.writeTids (s : State) (c : Ctx) : List (Nat × List Byte) → State × Option Cause
  | [] => (s, none)
  | p :: ps => match s.devWrite c ((c.tidbase.toNat + 32 * p.1) % 2 ^ 64) p.2 with
    | .error e => (s, some e.1)
    | .ok t => t.writeTids c ps

/-- Consecutive strands of a gang. -/
def gangStrands (id k : Nat) (serial : W32) (r : LRec) (h : Header) (entry : W32) (sup : Bool) (pl : List Place) : List Strand :=
  pl.mapIdx fun i p => newStrand (id + i) k serial i r h entry sup p

/-- The accumulator windows of new strands are zero (R55). -/
def State.zeroAccs (s : State) (h : Header) (ms : List Strand) : State :=
  if !h.matrix then s
  else ms.foldl (fun t m => t.scratchWrite m [(h.spneed * 4096, List.replicate 0x8000 0)]) s

/-- Admission of a record that passed every check but the table's (R39, item 5; R40, R41, R64). -/
def State.admitRec (s : State) (r : Region) (k : Nat) (q : LRec) (h : Header) (tids : List (Nat × List Byte))
    (pl : List Place) : State :=
  let c := s.ctx k
  let reject (t : State) (x : Cause) : State := t.rejectEntry r k q .tidtable (some x)
  match s.writeTids c tids with
  | (t, some x) => reject t x
  | (t0, none) => match t0.devRead c .r c.tidbase.toNat 8192 with
    | .error x => reject t0 x.1
    | .ok bs =>
      let t := t0.touchVa c .r c.tidbase.toNat 8192
      let serial := if c.lastSerial = BitVec.allOnes 32 then 1 else c.lastSerial + 1
      let entry := if q.entry = 0 then h.entry else q.entry
      let sup := Config.privileged (t.handle k) serial
      let ms := gangStrands t.nextId k serial q h entry sup pl
      let la : Launch :=
        { serial := serial, rec_ := q, version := h.version, entry := entry, xentry := h.xentry, spneed := h.spneed,
          matrix := h.matrix, xform := h.xform, variant := 0, phaseT0 := 0, qid := r.qid,
          base := s.effAt r.addr 5 Region.prio, ending := none, started := false, startT := 0, slipT := 0,
          disp := r.disp = some (.entry r.head) && decide (q.notbefore.toNat < s.mtime.toNat), slipped := false, admOrd := s.admCount + 1, collOrd := [] }
      let s1 := (t.measure k q h entry).takeEntry r
      let s2 := s1.updCtx k fun x =>
        { x with
          state := .running, lastSerial := serial, cur := some la, silent := false, demotable := false
          tids := Vector.ofFn fun i => BitVec.ofNat 256 (natOf ((bs.drop (32 * i.val)).take 32)) }
      let s3 := { s2 with
        others := s2.others ++ ms, nextId := s2.nextId + ms.length, admCount := s2.admCount + 1
        gone := s2.gone.filter fun g => g != (q.tag >>> 8, q.notbefore, fieldN q.tag 0 3) }
      ((s3.zeroAccs h ms).keepAlm).startLaunch k

/-- Restore of a saved launch into the given slots (R365, R73): its context runs again, and a slice that had not started
starts once NOTBEFORE is reached (R373). `disp`: work was displaced for it, for which its start waited when it is placed
after NOTBEFORE (R374; log 71). -/
def State.restoreLaunch (s : State) (k : Nat) (disp : Bool) (pl : List Place) : State :=
  let s1 := ((s.toPlace k).zip pl).foldl (fun t x => if t.ended k then t else t.restoreStrand x.1 x.2.slot) s
  let s2 := s1.updCtx k fun c =>
    { c with
      state := .running, imagesSaved := false, demotable := false
      cur := c.cur.map fun l =>
        { l with disp := l.disp || (disp && !l.started && decide (l.rec_.notbefore.toNat < s.mtime.toNat)) } }
  (s2.refresh).startLaunch k

/-- BASE of the queue a launch came from. -/
def State.launchBase (s : State) (l : Launch) : Nat :=
  match s.queueOf l.qid with
  | some r => s.effAt r.addr 5 Region.prio
  | none => l.base

/-- Contexts that displacement may take, in its order (R364). -/
def State.victims (s : State) (eff : Nat) : List Nat :=
  let ls := s.liveCtxs.filterMap fun k => match (s.ctx k).cur with
    | some l => if l.ending.isNone then some (k, l) else none
    | none => none
  let insert (le : Nat × Launch → Nat × Launch → Bool) (x : Nat × Launch) (l : List (Nat × Launch)) :=
    l.takeWhile (fun y => le y x) ++ x :: l.dropWhile (fun y => le y x)
  let parked := (ls.filter fun p => (s.ctx p.1).state = .parked).foldr
    (insert fun a b => decide (b.2.admOrd ≤ a.2.admOrd)) []
  let running := (ls.filter fun p => (s.ctx p.1).state = .running && decide (s.launchBase p.2 < eff)).foldr
    (insert fun a b => decide (s.launchBase a.2 < s.launchBase b.2) ||
      (s.launchBase a.2 = s.launchBase b.2 && decide (b.2.admOrd ≤ a.2.admOrd))) []
  (parked ++ running).map fun p => p.1

/-- The shortest front of the victims whose slots allow the placement. -/
def shortest (fits : List Nat → Bool) : List Nat → List Nat → Option (List Nat)
  | taken, [] => if fits taken then some taken else none
  | taken, v :: vs => if fits taken then some taken else shortest fits (taken ++ [v]) vs

/-- Slots whose saves are under way count as free. -/
def leaving (m : Strand) : Bool := m.saveReq.isSome

/-- Displacement for the candidate of a queue (R364): nothing unless the set would allow the placement, and nothing when the
slots that are being freed allow it. -/
def State.displace (s : State) (r : Region) (c : Cand) (eff : Nat) (fits : (Strand → Bool) → Bool) : State :=
  match shortest (fun ks => fits fun m => leaving m || ks.contains m.ctx) [] (s.victims eff) with
  | none => s
  | some [] => s
  | some ks =>
    (ks.foldl (fun t k => t.requestSave k (if (t.ctx k).state = .parked then .swap else .preempt)) s).updRegion r.addr
      fun x => { x with disp := some (s.displacedFor r c) }

/-- What considering one candidate gives (R362). -/
inductive Consider
  /-- The decision ends here. -/
  | done (s : State)
  /-- It is passed over, and its queue waits on. -/
  | pass (s : State)
  /-- A check of R39 took it. -/
  | rejected (s : State)

/-- The queue is served: w starts again at 0, at once if the queue is still waiting (R361, R362). -/
def State.served (s : State) (r : Region) : State :=
  let s1 := { (s.updRegion r.addr fun x => { x with waitFrom := none }) with lastServed := some r.qid }
  match s1.region r.addr with
  | none => s1
  | some x => s1.markWaiting s1.mtime x

/-- The image of a record that passes the checks of R39 before the budgets, or the status that rejects it. -/
def State.checkRec (s : State) (r : Region) (q : LRec) : Except (LStatus × Option Cause) (Header × List (Nat × List Byte)) :=
  let k := hKey q.ctxh
  if !s.under k r.addr || !q.ok || s.dupSlice q then .error (.badrec, none)
  else match s.readHeader (s.ctx k) q.code with
    | .error x => .error (.version, x)
    | .ok h => if s.couldFit (s.ctx k).region q h.1.need then .ok h else .error (.budget, none)

/-- Nodes of its path where a candidate lacks room (R24, R362). A launch to restore takes slots only: it still holds its
scratchpad (R365). -/
def State.lackOf (s : State) (r : Region) (c : Cand) : List Nat :=
  match c with
  | .restore k =>
    ((s.path (s.ctx k).region).filter fun x => s.slotLack x.addr (s.toPlace k).length true).map fun x => x.addr
  | .entry q _ => match s.checkRec r q with
    | .error _ => []
    | .ok h => s.lacking (s.ctx (hKey q.ctxh)).region q.nstr (q.nstr * h.1.need) true

/-- Nodes that the other waiting queues at EFF 7 block (R362). -/
def State.blockedBy (s : State) (ws : List (Region × Cand)) (r : Region) : List Nat :=
  (ws.filter fun p => p.1.addr != r.addr && s.queueEff p.1 = 7).flatMap fun p => s.lackOf p.1 p.2

/-- The scheduler considers a queue's candidate; `ws` are the queues that wait (R39, R362 to R365). -/
def State.consider (s : State) (pl : List Place) (ws : List (Region × Cand)) (r : Region) (c : Cand) : Consider :=
  let eff := s.queueEff r
  let blocked (leaf : Nat) : Bool := (s.path leaf).any fun x => (s.blockedBy ws r).contains x.addr
  match c with
  | .restore k =>
    if blocked (s.ctx k).region || !(s.lackOf r c).isEmpty then .pass s
    else if s.restorePlaceable (fun _ => false) k then
      if s.restorePlaces pl k then .done ((s.restoreLaunch k (r.disp = some (s.displacedFor r c)) pl).served r) else .done s
    else .pass (s.displace r c eff fun gone => s.restorePlaceable gone k)
  | .entry q _ =>
    let k := hKey q.ctxh
    let s1 := s.touchHeader (s.ctx k) q.code
    match s.checkRec r q with
    | .error (.badrec, x) => .rejected (s.rejectEntry r k q .badrec x)
    | .error (st, x) => .rejected (s1.rejectEntry r k q st x)
    | .ok (h, tids) =>
      if blocked (s.ctx k).region || !(s.lackOf r c).isEmpty then .pass s1
      else if s.placeable (fun _ => false) q h.need then
        if s.placesOk pl q h.need then .done ((s1.admitRec r k q h tids pl).served r) else .done s1
      else .pass (s1.displace r c eff fun gone => s.placeable gone q h.need)

/-- Waiting queues in the order of R362: decreasing EFF, then round robin by QID. -/
def State.waitingQueues (s : State) : List (Region × Cand) :=
  let ws := s.regions.filterMap fun r => (s.candidate r).map fun c => (r, c)
  let key (r : Region) : Nat × Nat × Nat :=
    (7 - s.queueEff r, match s.lastServed with | some q => b2n (decide (r.qid ≤ q)) | none => 0, r.qid)
  let le (a b : Nat × Nat × Nat) : Bool :=
    decide (a.1 < b.1) || (a.1 = b.1 && (decide (a.2.1 < b.2.1) || (a.2.1 = b.2.1 && decide (a.2.2 ≤ b.2.2))))
  ws.foldr (fun x l => l.takeWhile (fun y => le (key y.1) (key x.1)) ++ x :: l.dropWhile (fun y => le (key y.1) (key x.1))) []

/-- The decision over the waiting queues; `ws` are those of them whose candidate has not been taken. -/
def decideOver (pl : List Place) : List (Region × Cand) → List (Region × Cand) → State → State
  | [], _, s => s
  | (r, c) :: l, ws, s =>
    match s.consider pl ws r c with
    | .done t => t
    | .pass t => decideOver pl l ws t
    | .rejected t => decideOver pl l (ws.filter fun p => p.1.addr != r.addr) t

/-- A queue whose head the scheduler reads, and meets an error in (R360). -/
def State.headError (s : State) (r : Region) : State :=
  match s.toRestore r, s.headOf r with
  | none, .error => s.queueError r
  | _, _ => s

/-- An admission decision (R362); a checkpoint stops admission (spec/15, R391), and so does a life-cycle state other
than OPERATIONAL, in which no context exists. -/
def execAdmissionDecision (pl : List Place) (s : State) : Out :=
  .next (
    if s.ckpt.isSome then s
    else
      let s1 := (s.regions.foldl State.headError s).markAll s.mtime
      decideOver pl s1.waitingQueues s1.waitingQueues s1)

/-! ### The quantum -/

/-- The issue selector turns from a slot that has issued for 4,096 cycles while another strand is eligible (R320). -/
def execQuantumExpiry (tile : Fin 256) (s : State) : Out :=
  .next (
    let t := tget ⟨0, 0⟩ s.sels tile.val
    if t.cycles < Config.quantum then s
    else match (upto 3).findSome? fun i => s.slotStrand tile.val ((t.slot + 1 + i) % 4) with
      | some x => s.select tile.val x.slot
      | none => s)

end Sys2Proof.Machine
end

