-- ==== Sys2Proof/Machine/Super.lean ====
section
/-!
DEFINITION. Supervisor commands on regions, contexts, faults, the debugger, translations and objects (spec/01, R21 to R37,
R430, R431; spec/12, R316, R329; spec/13, R341 to R353), and the command pages they are posted to (spec/16, R394, R395).
-/

namespace Sys2Proof.Machine

/-! ### Command pages -/

/-- Status codes of R395. -/
inductive Status
  | done | badrcb | busy | nospace | baddesc | stale | badgen | badobj | badpte | changed | badcmd | denied | fenced
  deriving DecidableEq, Repr

def Status.code : Status → BitVec 16
  | .done => 1 | .badrcb => 2 | .busy => 3 | .nospace => 4 | .baddesc => 5 | .stale => 6 | .badgen => 7 | .badobj => 8
  | .badpte => 9 | .changed => 10 | .badcmd => 11 | .denied => 12 | .fenced => 13

/-- What a command does: the state and its status. -/
abbrev Cmd := List W64 → State → State × Status

def State.setPage (s : State) (pg : Fin 16) (p : CmdPage) : State := { s with pages := s.pages.set pg.val p pg.isLt }

/-- A post to command page `pg` (R394): ignored with OVR while a command is pending, and refused before READY (R405). -/
def postCommand (pg : Fin 16) (op : BitVec 16) (run : Cmd) (s : State) : State :=
  let p := s.pages[pg]
  if !s.plat.ready then s
  else if p.pendOp.isSome then s.setPage pg { p with ovr := true }
  else
    let r := run p.args s
    let q := r.1.pages[pg]
    r.1.setPage pg { q with ovr := false, pendOp := some op, pendArgs := p.args, pendRes := r.2.code }

def arg (a : List W64) (i : Nat) : W64 := a.getD i 0
def argH (a : List W64) : W32 := (arg a 0).setWidth 32

/-- A command that names a handle in ARG0: STALE for one that is not current (spec/01, R27). -/
def onHandle (f : Nat → Cmd) : Cmd := fun a s =>
  if s.current (argH a) then f (hKey (argH a)) a s else (s, .stale)

/-- `n` bytes of physical memory that the device reads for itself; none when they cannot be read. -/
def State.physGet (s : State) (a n : Nat) : Option Nat :=
  if objWindow < a + n then none else s.ringRead a n

/-- Write bytes to physical memory, page by page. -/
def State.putParts (s : State) : List Part → List Byte → State
  | [], _ => s
  | p :: ps, bs => (s.physWrite p.va (bs.take p.n)).putParts ps (bs.drop p.n)

def State.putPhys (s : State) (a : Nat) (bs : List Byte) : State := s.putParts (partsOf a bs.length) bs

/-! ### Regions -/

/-- The node that a region control block describes (spec/01, R21; spec/14, R355); none for a reserved bit or a field out of
range (R22, R23). -/
def regionOf (addr : Nat) (x : Nat) : Option Region :=
  let q (i : Nat) : Nat := bitsAt x (64 * i) 64
  let ovr := bitsAt (q 1) 32 16
  let on (k : Nat) : Bool := bitAt ovr k
  let r : Region :=
    { addr := addr, parent := bitsAt (q 0) 0 52, ovr := BitVec.ofNat 16 ovr, slots := bitsAt (q 1) 16 16,
      sram := bitsAt (q 1) 0 16, hbm := bitsAt (q 2) 32 32, poolsh := bitsAt (q 2) 24 8, pdsz := bitsAt (q 2) 19 5,
      prio := bitsAt (q 2) 16 3, age := bitsAt (q 2) 0 16, fdom := bitsAt (q 3) 62 2, slip := bitsAt (q 3) 32 16,
      lead := bitsAt (q 3) 0 32, silence := bitsAt (q 4) 0 32, qen := bitAt (q 7) 63, ring := bitsAt (q 6) 7 45 * 128,
      qid := bitsAt (q 7) 48 15, logn := bitsAt (q 7) 32 4, admlead := bitsAt (q 7) 0 20, qon := bitAt (q 7) 63,
      head := 0, tail := 0, discarded := [], disp := none, waitFrom := none,
      restFrom := none, dir := [] }
  let reserved := bitsAt (q 0) 52 12 = 0 && r.parent % 64 = 0 && bitsAt (q 1) 48 16 = 0 && bitsAt ovr 11 5 = 0 &&
    bitsAt (q 3) 48 14 = 0 && bitsAt (q 4) 32 32 = 0 && q 5 = 0 && bitsAt (q 6) 52 12 = 0 && bitsAt (q 6) 0 7 = 0 &&
    bitsAt (q 7) 36 12 = 0 && bitsAt (q 7) 20 12 = 0
  let ranges := (!on 0 || decide (r.slots ≤ 1024) || r.slots = 0xFFFF) && (!on 3 || r.poolsh != 0) &&
    (!on 4 || (decide (6 ≤ r.pdsz) && decide (r.pdsz ≤ 20))) && (!on 6 || r.age != 0) && (!on 7 || decide (r.fdom ≤ 1)) &&
    (!on 10 || r.silence != 0)
  if reserved && ranges then some r else none

/-- The cases of R23 and R355 that other nodes decide. -/
def State.regionOk (s : State) (r : Region) : Bool :=
  (r.parent != 0 || r.ovr = 0x7FF) && (r.parent = 0 || (s.region r.parent).isSome) &&
  (r.parent = 0 || decide ((s.path r.parent).length + 1 ≤ 8)) &&
  (!r.qen || (decide (4 ≤ r.logn) && r.ring != 0 && s.regions.all fun x => !(x.qen && x.qid = r.qid && x.addr != r.addr)))

/-- A node has children. PARENT 0 marks the root and names no node, the one at address 0 included (R22). -/
def State.hasChild (s : State) (a : Nat) : Bool := s.regions.any fun r => r.parent != 0 && r.parent = a

/-- A node owns contexts. -/
def State.owns (s : State) (a : Nat) : Bool := s.liveCtxs.any fun k => (s.ctx k).region = a

/-- A queue is set up from HEAD and TAIL (spec/14, R356). -/
def State.setupQueue (s : State) (r : Region) : State :=
  if !r.qen then s
  else match s.ringRead r.ring 8, s.ringRead (r.ring + 8) 8 with
    | some t, some h =>
      s.updRegion r.addr fun x => { x with head := BitVec.ofNat 64 h, tail := BitVec.ofNat 64 (Nat.max h t) }
    | _, _ => s.queueError r

/-- REGION-LOAD: a first load (R21 to R25), or a reload (R430). A reload that names the same queue leaves an enable that a
QUEUE-ERROR cleared as it is (DESIGN CHOICE, log 78). -/
def loadRegion : Cmd := fun a s =>
  let addr := (arg a 0).toNat
  match (if addr % 64 = 0 then s.physGet addr 64 else none).bind (regionOf addr) with
  | none => (s, .badrcb)
  | some r =>
    match s.region addr with
    | some o =>
      if r.parent != o.parent || !s.regionOk r then (s, .badrcb)
      else
        let same := (o.qen, o.qid, o.ring, o.logn) = (r.qen, r.qid, r.ring, r.logn)
        let dir := if o.ovr.getLsbD 4 && r.ovr.getLsbD 4 && o.pdsz = r.pdsz then o.dir else []
        let r1 := { r with dir := dir }
        let r2 := if same then
            { r1 with qon := o.qon, head := o.head, tail := o.tail, discarded := o.discarded, disp := o.disp,
                      waitFrom := o.waitFrom, restFrom := o.restFrom }
          else r1
        let s1 := s.updRegion addr fun _ => r2
        (if same then s1 else s1.setupQueue r2, .done)
    | none =>
      if !s.regionOk r then (s, .badrcb)
      else if r.parent != 0 && s.owns r.parent then (s, .busy)
      else (({ s with regions := s.regions ++ [r] } : State).setupQueue r, .done)

def execRegionLoad (pg : Fin 16) (s : State) : Out := .next (postCommand pg 1 loadRegion s)

/-- REGION-UNLOAD (R25, R36): the directory of the node is discarded with it (spec/10, R265). -/
def unloadRegion : Cmd := fun a s =>
  let addr := (arg a 0).toNat
  match s.region addr with
  | none => (s, .badrcb)
  | some _ =>
    if s.owns addr || s.hasChild addr then (s, .busy)
    else ({ s with regions := s.regions.filter fun r => r.addr != addr }, .done)

def execRegionUnload (pg : Fin 16) (s : State) : Out := .next (postCommand pg 2 unloadRegion s)

/-! ### CREATE and DESTROY -/

/-- The die and lowest free entry that CREATE picks (R37); none when every table is full. -/
def State.freeCtx (s : State) : Option Nat :=
  let count (d : Nat) : Nat := Config.ctxPerDie - (s.liveCtxs.filter fun k => (homeDie k).val = d).length
  let die := (upto 4).foldl (fun b d => if count b < count d then d else b) 0
  ((upto Config.ctxPerDie).map fun i => die * Config.ctxPerDie + i).find? fun k => (s.ctx k).state = .free

/-- The context that a descriptor describes (R28), with its ASGEN; none for a malformed descriptor. -/
def descOf (x : Nat) : Option (Ctx × BitVec 48) :=
  let q (i : Nat) : Nat := bitsAt x (64 * i) 64
  let c := { Ctx.blank with
    state := .ready, region := bitsAt (q 0) 0 52, asid := BitVec.ofNat 16 (bitsAt (q 1) 48 16),
    root := BitVec.ofNat 40 (bitsAt (q 2) 12 40), tidbase := BitVec.ofNat 64 (q 3), frec := BitVec.ofNat 64 (q 4),
    wake := BitVec.ofNat 64 (q 5), save := BitVec.ofNat 64 (q 6), almen := bitAt (q 7) 31,
    almsz := if bitAt (q 7) 31 then BitVec.ofNat 31 (q 7) else 0 }
  if bitsAt (q 0) 52 12 = 0 && bitsAt (q 2) 0 12 = 0 && bitsAt (q 2) 52 12 = 0 && canonical (q 3) && q 3 % 0x2000 = 0 &&
     canonical (q 4) && q 4 % 64 = 0 && canonical (q 6) && q 6 % 0x1000 = 0 && bitsAt (q 7) 32 32 = 0
  then some (c, BitVec.ofNat 48 (q 1)) else none

/-- A live context uses an ASID. -/
def State.asidUsers (s : State) (a : BitVec 16) : List Nat := s.liveCtxs.filter fun k => (s.ctx k).asid = a

/-- The BADDESC cases of CREATE that the machine decides (R28, R313, R340, R349): the region is a loaded leaf, an ASID in use
names the same ROOT, ALMSZ is in range, and the fault record can be written. -/
def State.descOk (s : State) (c : Ctx) : Bool :=
  (s.region c.region).isSome && !s.hasChild c.region &&
  (s.asidUsers c.asid).all (fun k => (s.ctx k).root = c.root) &&
  (!c.almen || (c.almsz.toNat % 0x1000 = 0 && decide (0x1000 ≤ c.almsz.toNat) && decide (c.almsz.toNat ≤ 0x10000000))) &&
  s.checkAll c .w [⟨none, c.frec.toNat, 0x4040, 1⟩] = .fine

/-- The Almanac reservation of a new context fits (R349). -/
def State.almFits (s : State) (k : Nat) (c : Ctx) : Bool :=
  !c.almen || (s.eph.en &&
    decide (s.almUsed (homeDie k).val + c.almsz.toNat ≤ (s.eph.almcap.getD (homeDie k).val 0).toNat * 2 ^ 20))

/-- CREATE; the handle goes to RESULT of the page (R394). -/
def createContext (pg : Fin 16) : Cmd := fun a s =>
  let addr := (arg a 0).toNat
  if s.plat.lcs != 2 then (s, .denied)
  else match (if addr % 64 = 0 then s.physGet addr 64 else none).bind descOf with
    | none => (s, .baddesc)
    | some (c, asgen) =>
      if !s.descOk c then (s, .baddesc)
      else match s.freeCtx with
        | none => (s, .nospace)
        | some k =>
          if !s.almFits k c then (s, .nospace)
          else
            let used := !(s.asidUsers c.asid).isEmpty
            let cur := tget 0 s.asgens c.asid.toNat
            let gen := if used && decide (asgen.toNat ≤ cur.toNat) then cur else asgen
            let s1 := s.writeVa c c.frec.toNat (List.replicate 0x4040 0)
            let s2 : State := { s1 with asgens := tset 0 s1.asgens c.asid.toNat gen }
            let s3 := s2.setCtx k { c with gen := (s2.ctx k).gen, silFrom := s2.mtime, readyAt := s2.mtime }
            let p := s3.pages[pg]
            (s3.setPage pg { p with result := (s3.handle k).setWidth 64 }, .done)

def execCreate (pg : Fin 16) (s : State) : Out := .next (postCommand pg 3 (createContext pg) s)

/-- What KILL and DESTROY end a launch with; a cause it already has stays (R49). -/
def killed (l : Launch) : Ending :=
  match l.ending with
  | some e => { e with discard := true }
  | none => ⟨.killed, 0, BitVec.allOnes 32, 0, true⟩

/-- Ready entries that name the handle end with DISCARDED (spec/14, R431). -/
def State.discardIn (s : State) (k : Nat) (r : Region) : State :=
  let h := s.handle k
  let es := (s.readyEntries r).filter fun x => recHandle x.2 = h && !r.discarded.contains x.1
  let s1 := es.foldl (fun t x => t.writeCompletion k (recOf x.2) ⟨.discarded, 0, BitVec.allOnes 32, 0, false⟩ none) s
  let s2 := s1.updRegion r.addr fun x => { x with discarded := x.discarded ++ es.map fun y => y.1 }
  if s.scanBroken r then s2.queueError r else s2

/-- The entry is freed: GEN rises, and after 0xFFFF is 1 (R26). -/
def State.freeEntry (s : State) (k : Nat) : State :=
  let g := (s.ctx k).gen
  s.setCtx k { Ctx.blank with gen := if g = 0xFFFF then 1 else g + 1 }

/-- DESTROY (R32, R37, R431; spec/13, R344, R352; spec/12, R317). -/
def destroyContext (k : Nat) : Cmd := fun _ s =>
  let s1 := match (s.ctx k).cur with
    | some l => s.finishLaunch k l (killed l)
    | none => s
  let s2 := (s1.queuesOf k).foldl (fun t r => t.discardIn k r) s1
  let s3 := match (s2.ctx k).wback with
    | some t => s2.silenceDone t
    | none => s2
  let s4 := (s3.objsOf k).foldl State.unbind s3
  let s5 : State := { s4 with faults := s4.faults.filter fun f => f.ctx != k }
  ((s5.freeEntry k).refresh, .done)

def execDestroy (pg : Fin 16) (s : State) : Out := .next (postCommand pg 4 (onHandle destroyContext) s)

/-- KILL (R32, R37): the launch stops at once, and its side-log entries make no write (R301). -/
def killLaunch (k : Nat) : Cmd := fun _ s =>
  match (s.ctx k).cur with
  | none => (s, .done)
  | some l =>
    let s1 := s.updLaunch k fun x => { x with ending := some (killed x) }
    ({ s1 with slog := s1.slog.filter fun e => !(e.ctx = k && e.serial = l.serial) }, .done)

def execKill (pg : Fin 16) (s : State) : Out := .next (postCommand pg 5 (onHandle killLaunch) s)

/-- SWAPOUT (R32). -/
def swapContext (k : Nat) : Cmd := fun _ s =>
  match (s.ctx k).state with
  | .parked => ((s.requestSave k .swap).updCtx k fun c => { c with demotable := true }, .done)
  | .ready => (s.updCtx k fun c => { c with demotable := true }, .done)
  | .free => (s, .busy)
  | .running => (s, .busy)
  | .swapped => (s, .busy)

def execSwapout (pg : Fin 16) (s : State) : Out := .next (postCommand pg 6 (onHandle swapContext) s)

/-- SETWAKE (R29, R32). -/
def execSetwake (pg : Fin 16) (s : State) : Out :=
  .next (postCommand pg 7 (onHandle fun k a s => (s.updCtx k fun c => { c with wake := arg a 1, wokeFor := 0 }, .done)) s)

/-! ### FAULT-REPLY -/

/-- The effect of a reply on an OPEN entry (spec/12, R316; R33, R49). -/
def State.reply (s : State) (f : FaultEntry) (bad : Bool) : State :=
  let k := f.ctx
  let mine := match (s.ctx k).cur with | some l => l.serial = f.serial | none => false
  let s1 := ({ s with faults := s.faults.filter fun g => g != f } : State).updCtx k fun c => { c with nreplied := c.nreplied + 1 }
  let s2 := if bad && mine then
      ({ s1 with slog := s1.slog.filter fun e => !(e.ctx = k && e.serial = f.serial && e.page = f.page) } : State).endLaunch k
        ⟨.fault, if f.kind = 4 then 2 else 1, BitVec.ofNat 32 f.strand, f.pc, false⟩
    else s1
  let s3 := match (s2.writeFEntry f (if bad then 3 else 2)).bind fun t => t.writeFHeader k with
    | some t => t
    | none => s2.endLaunch k ⟨.fault, BitVec.ofNat 16 Cause.prot.code, BitVec.allOnes 32, 0, false⟩
  s3.refresh

/-- FAULT-REPLY: handle, FTAG, resolution (R316). -/
def faultReply : Cmd := fun a s =>
  if 1 < (arg a 2).toNat then (s, .baddesc)
  else onHandle (fun k a s =>
    match s.faults.find? fun f => f.ctx = k && f.ftag = (arg a 1).setWidth 32 with
    | none => (s, .stale)
    | some f => (s.reply f (arg a 2 = 1), .done)) a s

def execFaultReply (pg : Fin 16) (s : State) : Out := .next (postCommand pg 8 faultReply s)

/-! ### The debugger -/

/-- The strands of a launch that a debug command names (spec/12, R329). -/
def State.named (s : State) (k : Nat) (i : W64) : List Strand :=
  (s.ctxStrands k).filter fun m => !m.halted && (i = 0xFFFF || i.toNat = m.index)

/-- DEBUG-STOP of one strand (R329). At a boundary and in WAITK or XWAIT, PC of the record is the next word to issue (DESIGN
CHOICE, log 120). -/
def State.stopStrand (s : State) (m : Strand) : State :=
  let later := s.updStrand m.id fun x => { x with stopReq := true }
  let at_ (x : Strand) : State := (s.updStrand m.id fun _ => x).debugStop x .step x.pc x.pc x.inWindow
  let drop : Strand := { m with wait := .none, stallcnt := 0, wretired := false }
  if m.debug then s
  else if !m.inSlot then later
  else match m.wait with
    | .fault => later
    | .stepLaunch _ _ => s
    | .waitk _ _ => at_ m
    | .xwait _ _ _ => at_ m
    | .csw =>
      if m.wretired then at_ { s.positions { drop with pc := m.wpc } m with wtrans := none }
      else at_ { drop with wtrans := none }
    | .none => at_ m
    | .waitt _ => at_ drop
    | .waita .. => at_ drop
    | .bar .. => at_ drop
    | .barSlot .. => at_ drop
    | .phase => at_ drop
    | .journalFull => at_ drop
    | .slogRoom _ _ => at_ drop
    | .relDrain => at_ drop
    | .ownDrain _ _ => at_ drop
    | .faultEntry => at_ drop

def debugStopCmd (k : Nat) : Cmd := fun a s =>
  if (s.ctx k).cur.isNone then (s, .busy)
  else ((s.named k (arg a 1)).foldl State.stopStrand s, .done)

def execDebugStop (pg : Fin 16) (s : State) : Out := .next (postCommand pg 9 (onHandle debugStopCmd) s)

/-- The debug block takes effect on a strand (R329, R167). A strand that stopped at the target of a taken transfer
still fetches it as such (spec/06, R157). -/
def Strand.resumed (m : Strand) (stp : Bool) : Strand :=
  { m with step := stp, pc := m.drpc, xfer := ⟨m.dpval, m.dptgt, m.dpdly⟩, dvalid := false, wkind := 0, debug := false,
           attgt := m.attgt && m.pc == m.drpc }

/-- The same change in the image of a saved strand (R329); the launch ends with PROT when it cannot be made (R66). -/
def State.resumeImage (s : State) (m : Strand) (stp : Bool) : State :=
  let c := s.ctx m.ctx
  let base := s.imageBase m
  let lost := s.endTrap m .prot { pc := m.pc }
  match s.devRead c .r ((base + 0x388) % 2 ^ 64) 8, s.devRead c .r ((base + 0x440) % 2 ^ 64) 24 with
  | .ok x, .ok b =>
    let blk := natOf b
    let ctl := natOf x
    if !bitAt blk 131 then s
    else
      let ctl1 := ctl - bitsAt ctl 0 3 - 512 * bitsAt ctl 9 1 + bitsAt blk 128 3 + 512 * b2n stp
      match s.writeImage c base
        [(0x380, bytesOf 4 (bitsAt blk 64 32) ++ bytesOf 4 (bitsAt blk 96 32) ++ bytesOf 8 ctl1), (0x3A8, bytesOf 8 0),
         (0x450, bytesOf 4 (bitsAt blk 128 32 - 8))] with
      | none => lost
      | some t => t.updStrand m.id fun y => { y with debug := false, dvalid := false, wkind := 0 }
  | _, _ => lost

/-- DEBUG-RESUME (R329). A launch that reached NOTBEFORE with every strand stopped starts now (spec/14, R373). -/
def debugResume (k : Nat) : Cmd := fun a s =>
  let ms := (s.named k (arg a 1)).filter fun m => m.debug
  if ms.isEmpty then (s, .busy)
  else
    let stp := (arg a 2).getLsbD 0
    ((ms.foldl (fun t m =>
      if m.saved then t.resumeImage m stp
      else t.updStrand m.id fun y => if y.dvalid then t.positions (y.resumed stp) y else y) s).refresh.startLaunch k, .done)

def execDebugResume (pg : Fin 16) (s : State) : Out := .next (postCommand pg 10 (onHandle debugResume) s)

/-! ### Translations -/

/-- SETASGEN (spec/13, R341, R342). -/
def setAsgen : Cmd := fun a s =>
  let asid : BitVec 16 := (arg a 0).setWidth 16
  let g : BitVec 48 := (arg a 1).setWidth 48
  if (s.asidUsers asid).isEmpty then (s, .stale)
  else if g.toNat ≤ (tget 0 s.asgens asid.toNat).toNat then (s, .badgen)
  else ({ s with asgens := tset 0 s.asgens asid.toNat g }, .done)

def execSetasgen (pg : Fin 16) (s : State) : Out := .next (postCommand pg 11 setAsgen s)

/-- The address of the present level-0 leaf of an address (R334, R353). -/
def State.leafAt (s : State) (va : Nat) : Nat → Nat → Option Nat
  | l, a =>
    let ea := a + 8 * bitsAt va (lvlLo l) (lvlBits l)
    if decide (objWindow ≤ ea) || s.revokedAt ea || s.fencedAt ea || (s.poisonAt ea 8).isSome then none
    else
      let e : W64 := BitVec.ofNat 64 (natOf (s.physRead ea 8))
      if !e.getLsbD 0 || s.malformed e l then none
      else match l with
        | 0 => some ea
        | f + 1 => if e.getLsbD 1 then none else s.leafAt va f (pteAddr e)

/-- PSWAP: handle, address, expected entry, new entry (R353). -/
def pswap (k : Nat) : Cmd := fun a s =>
  let c := s.ctx k
  let va := (arg a 1).toNat
  let new := arg a 3
  match (if canonical va then s.leafAt va 5 (c.root.toNat * 4096) else none) with
  | none => (s, .badpte)
  | some ea =>
    if !(new.getLsbD 0 && new.getLsbD 1) || s.malformed new 0 then (s, .badpte)
    else
      let g := tget 0 s.asgens c.asid.toNat
      if g = BitVec.allOnes 48 then (s, .badgen)
      else if natOf (s.physRead ea 8) != (arg a 2).toNat then (s, .changed)
      else
        let s1 := s.physWrite ea (bytes64 new)
        ({ s1 with asgens := tset 0 s1.asgens c.asid.toNat (g + 1) }, .done)

def execPswap (pg : Fin 16) (s : State) : Out := .next (postCommand pg 14 (onHandle pswap) s)

/-! ### Objects -/

/-- OBJ-BIND: handle, object address, size, backing address, flags (R341, R344, R349). -/
def objBind (k : Nat) : Cmd := fun a s =>
  let o := (arg a 1).toNat
  let n := (arg a 2).toNat
  let b := (arg a 3).toNat
  let fl := arg a 4
  let bad := !(n = 4096 || n = 65536) || decide (o < objWindow) || decide (2 ^ 52 < o + n) || o % n != 0 ||
    s.objs.any (fun x => decide (x.addr < o + n) && decide (o < x.addr + x.size)) || decide (objWindow ≤ b) || b % n != 0 ||
    fieldN fl 3 61 != 0
  let alm := fl.getLsbD 2
  let held := (((s.objsOf k).filter fun x => x.alm).map fun x => x.size).foldl (· + ·) 0
  if bad then (s, .badobj)
  else if decide (Config.maxObjects ≤ s.objs.length) ||
      (alm && (!(s.ctx k).almen || decide ((s.ctx k).almsz.toNat < held + n))) then (s, .nospace)
  else
    (({ s with objs := s.objs ++ [⟨o, n, b, k, 0, fl.setWidth 2, alm, none, none, 0⟩] } : State).keepAlm, .done)

def execObjBind (pg : Fin 16) (s : State) : Out := .next (postCommand pg 12 (onHandle objBind) s)

/-- OBJ-UNBIND: handle, object address (R341, R344). -/
def objUnbind (k : Nat) : Cmd := fun a s =>
  match s.objs.find? fun x => x.ctx = k && x.addr = (arg a 1).toNat with
  | none => (s, .badobj)
  | some x => (s.unbind x, .done)

def execObjUnbind (pg : Fin 16) (s : State) : Out := .next (postCommand pg 13 (onHandle objUnbind) s)

end Sys2Proof.Machine
end

