-- ==== Sys2Proof/Machine/Platform.lean ====
section
/-!
DEFINITION. The platform: fencing (spec/16, R408; spec/12, R306), resets (R405), failures and temperature (R397, R407), the
links (R398 to R401), extents and pool limiters (spec/15, R389, R390), the scrubber and its error history (R385, R386), and
the time inputs of Meridian (spec/14, R367 to R369; spec/16, R402).
-/

namespace Sys2Proof.Machine

/-! ### Fencing -/

/-- A unit that R408 names. -/
def unitOk (kind idx : Nat) : Bool :=
  (kind = 1 && decide (idx < 256)) || (kind = 2 && decide (idx < 256)) || (kind = 3 && decide (idx < 8)) ||
  (kind = 4 && decide (1 ≤ idx) && decide (idx ≤ 12))

/-- Clear bit `i` of one of several mask registers of 64 bits. -/
def clearBit (l : List W64) (i : Nat) : List W64 :=
  l.mapIdx fun j x => if j = i / 64 then x &&& ~~~ (BitVec.ofNat 64 (2 ^ (i % 64))) else x

/-- The topology bits of a unit are cleared already (R408). -/
def State.unitOff (s : State) (kind idx : Nat) : Bool :=
  match kind with
  | 1 => !s.tileOn idx
  | 2 => !s.pcOn (2 * idx) && !s.pcOn (2 * idx + 1)
  | 3 => !s.plat.ualen.getLsbD idx
  | _ => !s.plat.cxlen.getLsbD idx

/-- A launch has a strand, scratchpad, an accumulator window or an active barrier on a tile (R306). -/
def State.usesTile (s : State) (k t : Nat) : Bool :=
  (s.ctxStrands k).any (fun m => m.tile = t && (!m.halted || m.winSize != 0)) ||
  s.barriers.any fun b => b.ctx = k && b.arrivals != 0 && inDomain b.sc b.inst t

/-- A fenced tile ends the launch: the lowest live strand on it reports, and with none there is no trap record and FSTRAND is
all ones (R306; DESIGN CHOICE, log 119). -/
def State.fenceLaunch (s : State) (t k : Nat) : State :=
  if !s.usesTile k t || s.ended k then s
  else match (byIndex (s.ctxStrands k)).find? fun m => m.tile = t && !m.halted with
    | some m => s.endTrap m .unitFenced { pc := m.pc }
    | none => s.endLaunch k ⟨.fault, BitVec.ofNat 16 Cause.unitFenced.code, BitVec.allOnes 32, 0, false⟩

/-- With no link left, a collective of a gang of several packages cannot complete (R306; spec/10, R282). A slice stays
reachable while one of the eight ports is not fenced, since the spec gives the fabric no routes (DESIGN CHOICE, log 101). -/
def State.fenceColl (s : State) (m : Strand) : State :=
  match m.journal.find? fun e => e.live && engineOf e.cmd = 6 with
  | some e =>
    if 1 < s.npkg m && s.plat.ualen = 0 then
      s.endTrap m .unitFenced { pc := m.nextIssue, eng := some (6, e.seq, e.upc) }
    else s
  | none => s

/-- A fence (R408): the topology bit clears, FENCEGEN rises, UNIT-FENCED is raised, and R306 applies. -/
def State.fence (s : State) (kind idx : Nat) : State :=
  if !unitOk kind idx || s.unitOff kind idx then s
  else
    let p := s.plat
    let p1 := match kind with
      | 1 => { p with tileen := clearBit p.tileen idx }
      | 2 => { p with pcen := clearBit (clearBit p.pcen (2 * idx)) (2 * idx + 1) }
      | 3 => { p with ualen := p.ualen &&& ~~~ (BitVec.ofNat 8 (2 ^ idx)) }
      | _ => { p with cxlen := p.cxlen &&& ~~~ (BitVec.ofNat 13 (2 ^ idx)) }
    let s1 := ({ s with
      plat := { p1 with fencegen := p1.fencegen + 1 }
      ckpt := s.ckpt.map fun c => { c with fenced := true } } : State).pushEvent 5 0 (BitVec.ofNat 64 kind) (BitVec.ofNat 64 idx)
    let s2 := match kind with
      | 1 => s1.liveCtxs.foldl (fun (t : State) k => t.fenceLaunch idx k) s1
      | 3 => (byIndex s1.strands).foldl State.fenceColl s1
      | _ => s1
    s2.refresh

/-- FENCE-UNIT: kind, index (R408). -/
def fenceCmd : Cmd := fun a s =>
  if unitOk (arg a 0).toNat (arg a 1).toNat then (s.fence (arg a 0).toNat (arg a 1).toNat, .done) else (s, .baddesc)

def execFenceUnit (pg : Fin 16) (s : State) : Out := .next (postCommand pg 17 fenceCmd s)

/-- The link of a port is down: its status shows none, and the streams of a UALink port end with it (R399 to R401). -/
def State.dropLink (s : State) (ual : Bool) (n : Nat) : State :=
  if ual then
    if h : n < 8 then { s with ual := s.ual.set n { s.ual[n] with up := false, cmp := false, streams := [] } h } else s
  else if h : n < 13 then { s with cxl := s.cxl.set n CxlPort.blank h }
  else s

/-- A unit's own checks report failure (R408): that of a port is its link, which is down. -/
def execUnitFailure (kind idx : W64) (s : State) : Out :=
  .next (
    let k := kind.toNat
    let i := idx.toNat
    let s1 := if unitOk k i && decide (3 ≤ k) then s.dropLink (k = 3) i else s
    s1.fence k i)

/-! ### Resets -/

/-- The part of a memory below an address, and from one on. -/
def Memory.below (m : Memory) (a : Nat) : Memory := m.filter fun p => decide (p.1 < a)
def Memory.since (m : Memory) (a : Nat) : Memory := m.filter fun p => decide (a ≤ p.1)

/-- Marks of units of `w` bytes below an address, and from one on. -/
def marksBelow (w : Nat) (t : Tbl Bool) (a : Nat) : Tbl Bool := t.filter fun p => decide (w * p.1 < a)
def marksSince (w : Nat) (t : Tbl Bool) (a : Nat) : Tbl Bool := t.filter fun p => decide (a ≤ w * p.1)

/-- What a reset leaves (R405): every launch ends without a record, register files, tile SRAM, caches, context table and queues
are wiped, registers return to their reset values, and READY is 0. A cold reset also zeroes HBM4E and clears every
fence; the form of the part, the tiles that failed at test and what port 0 negotiated stay (R1, R393, R398). -/
def State.wipe (s : State) (cold : Bool) : State :=
  let p := s.plat
  let q := { Plat.blank with form := p.form, tested := p.tested, tileen := p.tested, cxlMem := p.cxlMem }
  let m := s.mem.below objWindow
  let z := marksBelow 32 s.poison objWindow
  let p1 := if cold then q
    else { q with tileen := p.tileen, pcen := p.pcen, cxlen := p.cxlen, ualen := p.ualen, fencegen := p.fencegen }
  { State.reset with
    nextId := s.nextId
    agenda := s.agenda
    cycles := s.cycles
    fresh := s.fresh
    mem := (if cold then m.since hbmEnd else m).putAll s.foreign
    poison := if cold then marksSince 32 z hbmEnd else z
    images := s.images
    extents := s.extents
    hostRejects := s.hostRejects
    hostBad := s.hostBad
    plat := { p1 with
      lcs := p.lcs, lccnt := p.lccnt, ownerHash := p.ownerHash, deviceKey := p.deviceKey, resets := p.resets + 1,
      ready := false, cold := cold } }

def execColdReset (s : State) : Out := .next (s.wipe true)
def execReset (s : State) : Out := .next (s.wipe false)

/-- The wipe ends: READY rises when the boot firmware verified (R403, R405), and not after PKG-FATAL (R397). -/
def execWipeComplete (s : State) : Out :=
  .next (if !s.fatal && Config.bootVerified s.plat.resets then { s with plat := { s.plat with ready := true } } else s)

/-! ### Failures and temperature -/

/-- PKG-FATAL (R397): the package stops. -/
def State.fatalStop (s : State) (cause : Nat) : State := { s.pushEvent 7 0 (BitVec.ofNat 64 cause) 0 with fatal := true }

def execUcieFailure (s : State) : Out := .next (s.fatalStop 1)

/-- A die at 95 °C raises THERMAL, in units of 0.125 °C (R406, R407). -/
def execThermal (die : Fin 4) (temp : BitVec 12) (s : State) : Out :=
  .next (if 760 ≤ temp.toNat then s.pushEvent 6 0 (BitVec.ofNat 64 die.val) (temp.setWidth 64) else s)

/-- A die at 110 °C raises PKG-FATAL (R407). -/
def execThermalTrip (_die : Fin 4) (temp : BitVec 12) (s : State) : Out :=
  .next (if 880 ≤ temp.toNat then s.fatalStop 2 else s)

/-! ### Links -/

/-- A unit of fabric compression: words against a dictionary (R401). -/
def encodeWords : List W64 → CStream → List Bool → List Byte → CStream × List Bool × List Byte
  | [], c, f, out => (c, f, out)
  | w :: ws, c, f, out =>
    match (upto 64).find? fun i => c.d.getD i 0 = w with
    | some i => encodeWords ws c (f ++ [true]) (out ++ [BitVec.ofNat 8 i])
    | none =>
      let c1 := { c with d := c.d.set c.ptr w, ptr := (c.ptr + 1) % 64 }
      encodeWords ws c1 (f ++ [false]) (out ++ bytes64 w)

/-- The stream after a unit of eight words, and the bytes sent (R401). -/
def encodeUnit (c : CStream) (ws : List W64) : CStream × List Byte :=
  let r := encodeWords ws c [] []
  (r.1, BitVec.ofNat 8 (packN 1 (fun k => b2n (r.2.1.getD k false)) 8) :: r.2.2)

/-- The words that follow a flag byte, with the updates of the decoder (R401). -/
def decodeWords : List Bool → CStream → List Byte → CStream × List W64
  | [], c, _ => (c, [])
  | true :: fs, c, bs =>
    let r := decodeWords fs c (bs.drop 1)
    (r.1, c.d.getD (bs.getD 0 0).toNat 0 :: r.2)
  | false :: fs, c, bs =>
    let w := BitVec.ofNat 64 (natOf (bs.take 8))
    let r := decodeWords fs { c with d := c.d.set c.ptr w, ptr := (c.ptr + 1) % 64 } (bs.drop 8)
    (r.1, w :: r.2)

def decodeUnit (c : CStream) (bs : List Byte) : CStream × List W64 :=
  decodeWords ((upto 8).map fun k => (bs.getD 0 0).getLsbD k) c (bs.drop 1)

/-- A stream at first: a dictionary of zeros (R401). -/
def CStream.initial (peer : Nat) (out : Bool) : CStream := ⟨peer, out, List.replicate 64 0, 0⟩

/-- The stream of a port for a peer package and a direction. -/
def UalPort.stream (p : UalPort) (peer : Nat) (out : Bool) : CStream :=
  (p.streams.find? fun c => c.peer = peer && c.out = out).getD (CStream.initial peer out)

def UalPort.setStream (p : UalPort) (c : CStream) : UalPort :=
  { p with streams := c :: p.streams.filter fun x => !(x.peer = c.peer && x.out = c.out) }

/-- The units of 64 bytes of a payload as words, the last padded with zeros (R401). -/
def unitsOf (bs : List Byte) : List (List W64) :=
  (upto ((bs.length + 63) / 64)).map fun u => (upto 8).map fun k => BitVec.ofNat 64 (natOf ((bs.drop (64 * u + 8 * k)).take 8))

/-- A payload on its way: the stream after it, and the bytes sent. -/
def encodePayload : List (List W64) → CStream → CStream × List Byte
  | [], c => (c, [])
  | u :: us, c =>
    let r := encodeUnit c u
    let t := encodePayload us r.1
    (t.1, r.2 ++ t.2)

/-- Bytes of an encoded unit, by its flag byte: 9 to 65. -/
def unitSize (f : Byte) : Nat := 1 + ((upto 8).map fun k => if f.getLsbD k then 1 else 8).foldl (· + ·) 0

/-- `n` units as they are received: the stream after them, and their words. -/
def decodePayload : Nat → CStream → List Byte → CStream × List W64
  | 0, c, _ => (c, [])
  | n + 1, c, bs =>
    let k := unitSize (bs.getD 0 0)
    let r := decodeUnit c (bs.take k)
    let t := decodePayload n r.1 (bs.drop k)
    (t.1, r.2 ++ t.2)

/-- A port carries messages: its link is up, and it is not fenced (R400, R408). -/
def State.carries (s : State) (u : Fin 8) : Bool := s.ual[u].up && s.plat.ualen.getLsbD u.val

/-- A port sends a payload: the stream to the peer moves on when CMP is 1 (R401). -/
def State.sendPayload (s : State) (u : Fin 8) (peer : Nat) (payload : List Byte) : State :=
  let p := s.ual[u]
  if s.carries u && p.cmp then
    { s with ual := s.ual.set u.val (p.setStream (encodePayload (unitsOf payload) (p.stream peer true)).1) u.isLt }
  else s

/-- What a receiver takes from a payload of true length `len`: the padding is discarded (R401). -/
def UalPort.received (p : UalPort) (peer len : Nat) (bs : List Byte) : List Byte :=
  if p.cmp then (((decodePayload ((len + 63) / 64) (p.stream peer false) bs).2.flatMap bytes64).take len) else bs.take len

/-- A port receives a payload: the stream from the peer moves on when CMP is 1 (R401). -/
def State.recvPayload (s : State) (u : Fin 8) (peer len : Nat) (bs : List Byte) : State :=
  let p := s.ual[u]
  if s.carries u && p.cmp then
    { s with ual := s.ual.set u.val (p.setStream (decodePayload ((len + 63) / 64) (p.stream peer false) bs).1) u.isLt }
  else s

/-! ### Collective messages on the fabric (R400, R401; log 104) -/

/-- A port sends a message to a peer package: its payload moves the stream, and it is kept until the peer acknowledges it. -/
def State.sendOver (s : State) (u : Fin 8) (p : Nat × CollMsg) : State :=
  let t := s.sendPayload u p.1 p.2.data
  { t with ual := t.ual.set u.val { t.ual[u] with sent := t.ual[u].sent ++ [p] } u.isLt }

/-- The collective engines send the message of a place in the outbox, over a port that carries messages. -/
def State.sendMessage (s : State) (u : Fin 8) (peer n : Nat) : State :=
  match s.outbox[n]? with
  | some x => if s.carries u then s.sendOver u (peer, x) else s
  | none => s

/-- The peer has acknowledged a message. -/
def State.ackMessage (s : State) (u : Fin 8) (peer : Nat) (x : CollMsg) : State :=
  if !s.carries u then s
  else { s with ual := s.ual.set u.val { s.ual[u] with sent := s.ual[u].sent.erase (peer, x) } u.isLt }

/-- Every message that is not acknowledged is sent again in order, encoded anew, once the link is up (R401). -/
def State.resend (s : State) (u : Fin 8) : State :=
  s.ual[u].sent.foldl (fun t p => t.sendOver u p) { s with ual := s.ual.set u.val { s.ual[u] with sent := [] } u.isLt }

/-- A message arrives over a port that carries messages: its data are what the stream's decoder gives (R401), and it takes effect
once (R278). -/
def State.recvMessage (s : State) (u : Fin 8) (peer len : Nat) (head : CollMsg) (bs : List Byte) : State :=
  if s.carries u then
    let x : CollMsg := { head with data := s.ual[u].received peer len bs }
    let t := s.recvPayload u peer len bs
    if t.plat.ready then t.takeMessage x else t
  else s

/-- A UALink port is reset: its count rises, and every stream returns to its initial state (R400, R401). Its link is down
until it comes up again (log 66). -/
def execUalinkLinkReset (u : Fin 8) (s : State) : Out :=
  .next (
    let p := s.ual[u]
    { s with ual := s.ual.set u.val { p with up := false, resets := p.resets + 1, streams := [] } u.isLt })

/-- A link comes up (R399 to R401), and a UALink port resends what is not acknowledged; a fenced port does not. -/
def execLinkUp (ual : Bool) (n : Fin 13) (cmp : Bool) (width : BitVec 5) (speed : BitVec 3) (s : State) : Out :=
  .next (
    if ual then
      if h : n.val < 8 then
        let p := s.ual[n.val]
        if s.plat.ualen.getLsbD n.val then
          ({ s with ual := s.ual.set n.val { p with up := true, cmp := cmp, streams := [] } h } : State).resend ⟨n.val, h⟩
        else s
      else s
    else if n.val = 0 || s.plat.cxlen.getLsbD n.val then
      { s with cxl := s.cxl.set n.val ⟨true, width, speed⟩ n.isLt }
    else s)

/-- A write of the host; one that touches a fenced unit changes nothing (R408; DESIGN CHOICE, log 103). -/
def State.hostWrite (s : State) (w : HeldWrite) : State :=
  if (upto w.bs.length).any fun i => s.fencedAt (w.pa + i) then s else s.rawWrite w.pa w.bs

/-- A request of an agent that takes part in coherence, such as the host, to memory below the object window (R398, R304). CXL.mem requests into device
memory are held during a checkpoint (spec/15, R391), and there are none while port 0 offers CXL.io functions only; nothing is
served before READY (R405). -/
def execHostMemoryRequest (write : Bool) (pa : W64) (n : Fin 65) (data : Line) (s : State) : Out :=
  .next (
    let a := pa.toNat
    if !s.plat.ready || decide (objWindow < a + n.val) || (decide (a < hbmEnd) && !s.plat.cxlMem) then s
    else if s.ckpt.isSome && decide (a < hbmEnd) then
      if write then { s with hostHeld := s.hostHeld ++ [⟨a, bytesOf n.val data.toNat⟩] } else s
    else if write then s.hostWrite ⟨a, bytesOf n.val data.toNat⟩
    else s)

/-- The host will reject the device's next write to an address (R398). -/
def execHostWriteRejected (pa : W64) (s : State) : Out := .next { s with hostRejects := s.hostRejects ++ [pa.toNat] }

/-! ### The pool -/

/-- An extent of a dynamic-capacity device is released (spec/15, R390): no access is issued to it any more. -/
def execDcExtentRelease (base len : W64) (s : State) : Out :=
  .next { s with extents := s.extents ++ [⟨base.toNat, len.toNat, false⟩] }

/-- The release response is sent once requests have drained (R390). -/
def execExtentReleaseResponse (base : W64) (s : State) : Out :=
  .next { s with extents := s.extents.map fun (e : Extent) => if e.base = base.toNat then { e with answered := true } else e }

def limKey (port : Fin 12) (d : Fin 8) : Nat := 8 * port.val + d.val

def State.setPlim (s : State) (k : Nat) (p : Plim) : State := { s with plims := tset Plim.blank s.plims k p }

/-- CUR after an interval (R389). -/
def Plim.after (p : Plim) (l : DevLoad) : Plim :=
  let c := p.cur.toNat
  let cur : Nat := match l with
    | .none => c
    | .light => Nat.min p.max.toNat (c + p.step.toNat)
    | .optimal => c
    | .moderate => Nat.max p.min.toNat (c - (c + 7) / 8)
    | .severe => Nat.max p.min.toNat ((c + 1) / 2)
  { p with cur := BitVec.ofNat 8 cur }

/-- The end of a 10 µs interval of a limiter (R389); a checkpoint ignores DevLoad (R391). -/
def execDevloadInterval (port : Fin 12) (d : Fin 8) (l : DevLoad) (s : State) : Out :=
  .next (if s.ckpt.isSome then s
    else s.setPlim (limKey port d) ((tget Plim.blank s.plims (limKey port d)).after l))

/-! ### Scrubbing -/

/-- The pseudo-channel that counts for an atom (spec/15, R381, R386). -/
def pseudoOf (pa : Nat) : Nat := 2 * hbmChannel pa + bitsAt pa 5 1

/-- The entry of a row log that the next correctable error takes (R386): none when the row has one. -/
def pickRow (rows : List RowEnt) : Nat :=
  match (upto 64).find? fun i => !(rows.getD i RowEnt.blank).valid with
  | some i => i
  | none =>
    let key (i : Nat) : Nat × Nat := ((rows.getD i RowEnt.blank).count.toNat, (rows.getD i RowEnt.blank).last.toNat)
    (upto 64).foldl (fun b i =>
      if decide ((key i).1 < (key b).1) || ((key i).1 = (key b).1 && decide ((key i).2 < (key b).2)) then i else b) 0

/-- The row log of a die takes a correctable error (R386). -/
def State.logRow (s : State) (pa : Nat) (bank : BitVec 5) (row : BitVec 18) : State :=
  let q := pseudoOf pa
  let die := q / 128
  let rows : List RowEnt := (upto 64).map fun i => tget RowEnt.blank s.hbm.rows (64 * die + i)
  let put (i : Nat) (r : RowEnt) : State :=
    { s with hbm := { s.hbm with rows := tset RowEnt.blank s.hbm.rows (64 * die + i) r } }
  match (upto 64).find? fun i =>
      let r := rows.getD i RowEnt.blank
      r.valid && r.pc.toNat = q && r.bank = bank && r.row = row with
  | some i =>
    let r := rows.getD i RowEnt.blank
    put i { r with count := BitVec.ofNat 16 (Nat.min 0xFFFF (r.count.toNat + 1)), last := s.mtime }
  | none => put (pickRow rows) ⟨true, BitVec.ofNat 47 (pa / 32), BitVec.ofNat 9 q, bank, row, 1, s.mtime⟩

/-- A correctable error counts (R386): CE-THRESHOLD when the count passes a multiple of CETHR. -/
def State.countCe (s : State) (q : Nat) : State :=
  let c := (tget 0 s.hbm.cecnt q).toNat
  let c1 := Nat.min 0xFFFFFFFF (c + 1)
  let t := s.hbm.cethr.toNat
  let s1 : State := { s with hbm := { s.hbm with cecnt := tset 0 s.hbm.cecnt q (BitVec.ofNat 32 c1) } }
  if t != 0 && c1 / t != c / t then s1.pushEvent 4 0 (BitVec.ofNat 64 q) 0 else s1

/-- The atom of an HBM4E address, as atoms of 32 bytes: both halves of the line in a ganged region (R382). -/
def State.atomsAt (s : State) (a : Nat) : List Nat := if s.ganged a then [a / 64 * 2, a / 64 * 2 + 1] else [a / 32]

/-- The copies of objects that lie in an atom of 32 bytes, as the model keys them (spec/13, R347; log 79). -/
def State.copiesIn (s : State) (k : Nat) : List Nat :=
  s.objs.filterMap fun o =>
    if o.tier != 0 && decide (o.frame ≤ 32 * k) && decide (32 * k < o.frame + o.size) then some ((o.addr + (32 * k - o.frame)) / 32)
    else none

/-- What ECC finds when the scrubber or a demand read reaches the atom of an HBM4E address (R385, R386): a correctable
error is corrected, counted and logged; an uncorrectable one marks the atom and raises UE. -/
def State.eccFound (s : State) (a : Nat) (r : EccResult) (bank : BitVec 5) (row : BitVec 18) : State :=
  let atoms := s.atomsAt a
  match r with
  | .clean => s
  | .correctable => (s.countCe (pseudoOf a)).logRow (32 * atoms.headD 0) bank row
  | .uncorrectable =>
    ({ s with poison := (atoms ++ atoms.flatMap s.copiesIn).foldl (fun p k => tset false p k true) s.poison } : State).pushEvent
      3 0 (BitVec.ofNat 64 (32 * atoms.headD 0)) 0

/-- The scrubber reads an atom, each once in a pass (R385); a pass ends with the last of 2^34 atoms of 32 bytes. An atom
that a fenced channel serves is passed unread. -/
def execScrubAtom (pa : W64) (r : EccResult) (bank : BitVec 5) (row : BitVec 18) (s : State) : Out :=
  .next (
    let a := pa.toNat
    let new := (s.atomsAt a).filter fun k => !tget false s.hbm.scrubbed k
    if !s.hbm.scren || decide (hbmEnd ≤ a) || new.isEmpty then s
    else
      let pos := s.hbm.scrpos.toNat + new.length
      let full := decide (2 ^ 34 ≤ pos)
      let s1 : State := { s with hbm := { s.hbm with
        scrubbed := if full then [] else new.foldl (fun t k => tset false t k true) s.hbm.scrubbed
        scrpos := BitVec.ofNat 64 (if full then 0 else pos)
        scrpass := if full then s.hbm.scrpass + 1 else s.hbm.scrpass } }
      if s.fencedAt a then s1 else s1.eccFound a r bank row)

/-! ### Time inputs -/

/-- MTIME units in a second (spec/14, R367). -/
def second : Nat := 16000000000

/-- A 1PPS edge takes the label of a valid frame before it, and under SRC 3 the seconds that PTM supplies (spec/16,
R402). -/
def execPpsEdge (s : State) : Out :=
  .next { s with mer := { s.mer with
    pps := true, todv := s.mer.label.isSome, curLabel := if s.mer.src = 3 then s.mer.ptm else s.mer.label,
    label := none, ptm := none, lastEdge := some s.mtime } }

/-- CRC-16/CCITT over bytes: generator 0x1021, most significant bit first, from 0xFFFF (log 31). -/
def crcBit (c : BitVec 16) : BitVec 16 := if c.getLsbD 15 then (c <<< 1) ^^^ 0x1021#16 else c <<< 1
def crcByte (c : BitVec 16) (b : Byte) : BitVec 16 :=
  crcBit (crcBit (crcBit (crcBit (crcBit (crcBit (crcBit (crcBit (c ^^^ (b.setWidth 16 <<< 8)))))))))
def crc16 (bs : List Byte) : BitVec 16 := bs.foldl crcByte 0xFFFF

/-- A ToD frame labels the next edge when it is valid and ends 100 to 900 ms after an edge (R402). -/
def execTodFrame (f : BitVec 96) (s : State) : Out :=
  .next (
    let b := bytesOf 12 f.toNat
    let ok := natOf (b.take 2) = 0xD555 && (b.getD 8 0).getLsbD 0 && b.getD 9 0 = 0 &&
      natOf (b.drop 10) = (crc16 ((b.drop 2).take 8)).toNat
    match s.mer.lastEdge with
    | none => s
    | some t =>
      let d := (s.mtime - t).toNat
      if ok && decide (second / 10 ≤ d) && decide (d ≤ second / 10 * 9) then
        { s with mer := { s.mer with label := some (f.extractLsb' 16 48) } }
      else s)

/-- No edge for 1.5 s: PPS reads 0 (R367). -/
def execPpsTimeout (s : State) : Out :=
  .next (match s.mer.lastEdge with
    | none => { s with mer := { s.mer with pps := false } }
    | some t => if 3 * second / 2 ≤ (s.mtime - t).toNat then { s with mer := { s.mer with pps := false } } else s)

/-- STATE codes of R367. -/
def mFree : BitVec 2 := 0
def mAcquiring : BitVec 2 := 1
def mLocked : BitVec 2 := 2
def mHoldover : BitVec 2 := 3

/-- STATE and the count of good measurements after a measurement with an offset (R368). -/
def Meridian.measured (m : Meridian) (near : Bool) : BitVec 2 × Nat :=
  if m.state = mFree then (mAcquiring, 0)
  else if m.state = mAcquiring then
    if near then (if 8 ≤ m.good + 1 then (mLocked, 0) else (mAcquiring, m.good + 1)) else (mAcquiring, 0)
  else if m.state = mHoldover then (if near then (mLocked, 0) else (mAcquiring, 0))
  else (mLocked, 0)

/-- A rate correction within ±PPM (R369), signed, in ppm. -/
def clampRate (ppm : BitVec 9) (r : W64) : W64 :=
  let p : Int := ppm.toNat
  BitVec.ofInt 64 (max (-p) (min p r.toInt))

/-- OFS of a measurement: under SRC 2 and 3 the label of the last 1PPS edge against MTIME at that edge (R367, R402; DEDUCED,
log 90); otherwise, and for an edge without a label, what the reference gives. -/
def Meridian.offset (m : Meridian) (given : W64) : W64 :=
  if m.src = 2 || m.src = 3 then
    match m.curLabel, m.lastEdge with
    | some sec, some t => BitVec.ofInt 64 (((sec.toNat : Int) - m.epoch.toNat) * second) - t
    | some _, none => given
    | none, _ => given
  else given

/-- A measurement of the reference (R368, R369): OFS, STATE, the rate, and one forward step while ACQUIRING. The last edge
moves with MTIME, so that the time since it stays what it is (R402). -/
def execReferenceMeasurement (given : W64) (rate : W64) (s : State) : Out :=
  .next (
    let m := s.mer
    let ofs := m.offset given
    if m.src = 0 then s
    else
      let near := decide (-128 ≤ ofs.toInt) && decide (ofs.toInt ≤ 128)
      let st := m.measured near
      let hop := if m.stepen && st.1 = mAcquiring && decide (16000 < ofs.toInt) then ofs else 0
      { s with
        mtime := s.mtime + hop
        mer := { m with ofs := ofs, state := st.1, good := st.2, lastMeas := s.mtime + hop,
                        lastEdge := m.lastEdge.map fun t => t + hop, rate := clampRate m.ppm rate } })

/-- LOCKED, and no measurement for 2 s: HOLDOVER (R368). -/
def execHoldover (s : State) : Out :=
  .next (
    if s.mer.state = mLocked && decide (2 * second ≤ (s.mtime - s.mer.lastMeas).toNat) then
      { s with mer := { s.mer with state := mHoldover, mhold := s.mer.mhold + 1 } }
    else s)

end Sys2Proof.Machine
end

