-- ==== Sys2Proof/Machine/Slh.lean ====
section
/-!
DEFINITION. Verification of a signature of SLH-DSA-SHAKE-256s (FIPS 205, which spec/16, R403 names; log 17): hashes of
32 bytes, a hypertree of 8 layers of height 8, 22 FORS trees of height 14, and one-time signatures of 67 chains of 16 steps.
-/

namespace Sys2Proof.Machine

/-- The big-endian bytes of a number, and their number. -/
def beBytes (n x : Nat) : List Byte := (bytesOf n x).reverse
def beNat (bs : List Byte) : Nat := natOf bs.reverse

/-- Digit `i` of `b` bits of a byte string, the most significant first. -/
def beDigit (bs : List Byte) (b i : Nat) : Nat := beNat bs / 2 ^ (8 * bs.length - b * (i + 1)) % 2 ^ b

/-- The address of a hash: layer, tree, kind (0 chain, 1 chain ends, 2 tree node, 3 FORS node, 4 FORS roots) and the three
words that the kind gives a meaning. -/
structure SlhAddr where
  layer : Nat := 0
  tree : Nat
  kind : Nat
  w1 : Nat := 0
  w2 : Nat := 0
  w3 : Nat := 0

def SlhAddr.bytes (a : SlhAddr) : List Byte :=
  beBytes 4 a.layer ++ beBytes 12 a.tree ++ beBytes 4 a.kind ++ beBytes 4 a.w1 ++ beBytes 4 a.w2 ++ beBytes 4 a.w3

/-- The hash of a message at an address, under the public seed. -/
def slhHash (seed : List Byte) (a : SlhAddr) (m : List Byte) : List Byte := shake256 (seed ++ a.bytes ++ m) 32

/-- Value `i` of 32 bytes. -/
def slhNode (bs : List Byte) (i : Nat) : List Byte := (bs.drop (32 * i)).take 32

/-- From node `pos` of level 0 up `h` levels, with the siblings of an authentication path. -/
def slhClimb (seed : List Byte) (a : SlhAddr) (h pos : Nat) (node auth : List Byte) : List Byte :=
  (upto h).foldl (fun x j =>
    let sib := slhNode auth j
    slhHash seed { a with w2 := j + 1, w3 := pos / 2 ^ (j + 1) } (if pos / 2 ^ j % 2 = 0 then x ++ sib else sib ++ x)) node

/-- The digits of a 32-byte message and of its checksum: where in its chain each value of a one-time signature lies. -/
def wotsDigits (m : List Byte) : List Nat :=
  let l := (upto 64).map (beDigit m 4)
  let sum := (l.map fun d => 15 - d).foldl (· + ·) 0
  l ++ [sum / 256 % 16, sum / 16 % 16, sum % 16]

/-- The public key that a one-time signature of a message implies. -/
def wotsKey (seed : List Byte) (a : SlhAddr) (leaf : Nat) (sig m : List Byte) : List Byte :=
  let ends := (wotsDigits m).mapIdx fun i d =>
    (upto (15 - d)).foldl (fun x j => slhHash seed { a with kind := 0, w1 := leaf, w2 := i, w3 := d + j } x) (slhNode sig i)
  slhHash seed { a with kind := 1, w1 := leaf } ends.flatten

/-- The root of the hypertree that the signatures of its layers imply, for the message that the lowest signs. -/
def hyperRoot (seed sig m : List Byte) (tree leaf : Nat) : List Byte :=
  ((upto 8).foldl (fun (p : List Byte × Nat × Nat) j =>
    let s := (sig.drop (2400 * j)).take 2400
    let key := wotsKey seed ⟨j, p.2.1, 0, 0, 0, 0⟩ p.2.2 s p.1
    (slhClimb seed ⟨j, p.2.1, 2, 0, 0, 0⟩ 8 p.2.2 key (s.drop 2144), p.2.1 / 256, p.2.1 % 256)) (m, tree, leaf)).1

/-- The FORS public key that a signature of a digest implies. -/
def forsKey (seed sig md : List Byte) (tree leaf : Nat) : List Byte :=
  let roots := (upto 22).map fun i =>
    let s := (sig.drop (480 * i)).take 480
    let pos := i * 2 ^ 14 + beDigit md 14 i
    let a : SlhAddr := ⟨0, tree, 3, leaf, 0, pos⟩
    slhClimb seed a 14 pos (slhHash seed a (slhNode s 0)) (s.drop 32)
  slhHash seed ⟨0, tree, 4, leaf, 0, 0⟩ roots.flatten

/-- A signature of a message verifies under a public key: the pure form with an empty context (log 17). -/
def slhVerify (pk msg sig : List Byte) : Bool :=
  let seed := pk.take 32
  let digest := shake256 (sig.take 32 ++ pk ++ [0, 0] ++ msg) 47
  let tree := beNat ((digest.drop 39).take 7)
  let leaf := beNat (digest.drop 46)
  pk.length = 64 && sig.length = 29792 &&
  hyperRoot seed (sig.drop 10592) (forsKey seed ((sig.drop 32).take 10560) (digest.take 39) tree leaf) tree leaf = pk.drop 32

end Sys2Proof.Machine
end

