-- ==== Sys2Proof/Machine/Device.lean ====
section
/-!
DEFINITION. Commands on the whole device: CHECKPOINT and RESTORE (spec/15, R391; spec/16, R405), the life cycle and
attestation (R403, R404), unknown opcodes, and the completion of a pending command (R394, R395).
-/

namespace Sys2Proof.Machine

/-! ### Checkpoint -/

/-- The port whose enabled decoder serves every byte of an extent (R391). -/
def State.extentPort (s : State) (e : Nat × Nat) : Option Nat :=
  (upto 96).findSome? fun i =>
    let port := 1 + i / 8
    let c := tget Decoder.blank s.decs (decKey port (i % 8))
    if c.en && decide (c.base.toNat * 2 ^ 28 ≤ e.1) && decide (e.1 + e.2 ≤ (c.lim.toNat + 1) * 2 ^ 28) then some port else none

/-- A target list (R391): none when it is malformed, two extents overlap, or a decoder does not serve one. -/
def State.targetList (s : State) (addr : Nat) : Option (List (Nat × Nat)) := do
  let c ← s.physGet addr 8
  if c = 0 || 24 < c then none
  let l ← (upto c).mapM fun i => do
    let b ← s.physGet (addr + 8 + 16 * i) 8
    let n ← s.physGet (addr + 16 + 16 * i) 8
    if b % 4096 = 0 && n % 4096 = 0 then some (b, n) else none
  let clash := (upto c).any fun i => (upto i).any fun j =>
    decide ((l.getD i (0, 0)).1 < (l.getD j (0, 0)).1 + (l.getD j (0, 0)).2) &&
    decide ((l.getD j (0, 0)).1 < (l.getD i (0, 0)).1 + (l.getD i (0, 0)).2)
  if clash || l.any (fun e => (s.extentPort e).isNone) then none else some l

/-- An extent of a target list while stripes are dealt: its port, base, length and bytes used. -/
structure Target where
  port : Nat
  base : Nat
  len : Nat
  used : Nat
  deriving DecidableEq, Repr

/-- The port that is dealt the next stripe after `last`: increasing, wrapping from the highest to the lowest (R391). -/
def nextPort (l : List Target) (last : Nat) : Option Nat :=
  let open_ := (l.filter fun t => decide (t.used < t.len)).map fun t => t.port
  match (upto 13).find? fun p => decide (last < p) && open_.contains p with
  | some p => some p
  | none => (upto 13).find? fun p => open_.contains p

/-- The stripes of an image of `n` bytes: addresses and lengths in image order, each 1 MiB or what its extent or the image
has left (R391). -/
def dealStripes : Nat → Nat → Nat → List Target → List (Nat × Nat)
  | 0, _, _, _ => []
  | f + 1, n, last, l =>
    if n = 0 then []
    else match nextPort l last with
      | none => []
      | some p => match l.find? fun t => t.port = p && decide (t.used < t.len) with
        | none => []
        | some t =>
          let k := Nat.min n (Nat.min 0x100000 (t.len - t.used))
          (t.base + t.used, k) ::
            dealStripes f (n - k) p (l.map fun x => if x = t then { t with used := t.used + k } else x)

/-- Where an image of `n` bytes lies. -/
def State.stripes (s : State) (l : List (Nat × Nat)) (n : Nat) : List (Nat × Nat) :=
  dealStripes (n / 4096 + 2) n 0 (l.map fun e => ⟨(s.extentPort e).getD 0, e.1, e.2, 0⟩)

/-- Write an image's bytes over its stripes. -/
def State.layImage (s : State) : List (Nat × Nat) → List Byte → State
  | [], _ => s
  | p :: ps, bs => (s.putPhys p.1 (bs.take p.2)).layImage ps (bs.drop p.2)

/-- The bytes that lie in the stripes. -/
def State.readImage (s : State) (l : List (Nat × Nat)) : List Byte := l.flatMap fun p => s.physRead p.1 p.2

/-- The device may read the stripes: none lies in an extent in release or revoked (R390), and no port is fenced. -/
def State.stripesOpen (s : State) (l : List (Nat × Nat)) : Bool :=
  l.all fun p => !s.fencedAt p.1 && s.extents.all fun e => decide (e.base + e.len ≤ p.1) || decide (p.1 + p.2 ≤ e.base)

/-- Bytes of a checkpoint image but for its section of the context table and queue state (R405): the header, the images of
the strands that have not halted, tile SRAM and HBM4E. -/
def fixedBytes (strands : Nat) : Nat := 4096 + 0x10000 * strands + 0x60000000 + hbmEnd

/-- CKPTNEED (R391): the section whose layout the spec does not give has a length of its own (log 15). -/
def State.ckptNeed (s : State) : Nat :=
  fixedBytes (s.strands.filter fun m => !m.halted).length + Config.ckptSection s.fresh s.mtime

/-- CHECKPOINT: the target list (R391). -/
def startCheckpoint (pg : Fin 16) : Cmd := fun a s =>
  match s.targetList (arg a 0).toNat with
  | none => (s, .baddesc)
  | some l =>
    if s.ckpt.isSome then (s, .busy)
    else
      let need := s.ckptNeed
      if (l.map fun e => e.2).foldl (· + ·) 0 < need then (s, .nospace)
      else
        let s1 : State := { s with
          ckpt := some ⟨pg.val, l, need, false⟩
          plims := s.plims.map fun p => (p.1, { p.2 with cur := p.2.max }) }
        (s1.liveCtxs.foldl (fun t k => t.requestSave k .checkpoint) s1, .done)

def execCheckpoint (pg : Fin 16) (s : State) : Out := .next (postCommand pg 15 (startCheckpoint pg) s)

/-- The topology registers of R393. -/
def Plat.topo (p : Plat) : List W64 := p.tileen ++ p.pcen ++ [p.cxlen.setWidth 64, p.ualen.setWidth 64]

/-- Bytes cut or padded with zeros to `n`. -/
def padTo (n : Nat) (bs : List Byte) : List Byte := (bs ++ List.replicate n 0).take n

/-- Strands whose save images a checkpoint holds. -/
def savedOnes (l : List Strand) : List Strand := l.filter fun m => m.saved && !m.halted

/-- The header of an image (R405): MAGIC, IMPL, the topology registers, the target list, and the offset and length of each
section, in this layout (DESIGN CHOICE, log 15). -/
def State.imageHeader (s : State) (l : List (Nat × Nat)) (section_ k : Nat) : List Byte :=
  let lens : List Nat := [section_, 0x10000 * k, 0x60000000, hbmEnd]
  let offs := (upto 4).map fun i => 4096 + (lens.take i).foldl (· + ·) 0
  padTo 4096 (bytesOf 4 0x5356434B ++ bytesOf 4 Config.impl.toNat ++ s.plat.topo.flatMap bytes64 ++
    bytesOf 8 l.length ++ padTo 384 (l.flatMap fun e => bytesOf 8 e.1 ++ bytesOf 8 e.2) ++
    ((offs.zip lens).flatMap fun e => bytesOf 8 e.1 ++ bytesOf 8 e.2))

/-- The header, and the section whose bytes are free values, of an image of `n` bytes (R405; log 15). -/
def State.imageHead (s : State) (l : List (Nat × Nat)) (n : Nat) : List Byte :=
  let k := (savedOnes s.strands).length
  s.imageHeader l (n - fixedBytes k) k ++ (upto (n - fixedBytes k)).map fun i => Config.imageByte s.fresh (4096 + i)

/-- Bytes of a virtual range as the device can read them: 0 in a part that no access is made to (R390, R408). -/
def State.readOpen (s : State) (c : Ctx) (va n : Nat) : List Byte :=
  (partsOf va n).flatMap fun p =>
    match s.checkPart c .none p with
    | .ok (pa, _) => s.physRead pa p.n
    | .error _ => List.replicate p.n 0

/-- The rest of an image (R405): strand images in the layout of R65, tile SRAM, and HBM4E. -/
def State.imageRest (s : State) : List Byte :=
  ((savedOnes s.strands).flatMap fun m => s.readOpen (s.ctx m.ctx) (s.imageBase m) 0x10000) ++
  s.sram.read 0 0x60000000 ++ s.mem.read 0 hbmEnd

/-- The instant that a checkpoint image records (R405; log 15). -/
def State.snapshot (s : State) (l : List (Nat × Nat)) (head : List Byte) : CkptImage where
  list := l
  head := head
  topo := s.plat.topo
  strands := s.strands
  ctxs := s.ctxs
  regions := s.regions
  slog := s.slog
  barriers := s.barriers
  faults := s.faults
  faultSeq := s.faultSeq
  objs := s.objs
  asgens := s.asgens
  sramPoison := s.sramPoison
  copies := s.mem.since objWindow
  hbmPoison := marksBelow 32 s.poison hbmEnd ++ marksSince 32 s.poison objWindow
  linePoison := marksBelow 8 s.linePoison hbmEnd ++ marksSince 8 s.linePoison objWindow
  events := s.events
  faultQs := s.faultQs
  inbox := s.inbox
  outbox := s.outbox
  gone := s.gone
  nextId := s.nextId
  admCount := s.admCount
  lastServed := s.lastServed

/-- Every strand of a launch that goes on has left its slot (R391). -/
def State.allOut (s : State) : Bool := s.strands.all fun m => !m.inSlot || m.halted || s.ended m.ctx

/-- The image is written, and the held requests of the host go on (R391). A checkpoint that a fence met is FENCED, and
its image is invalid (R408). -/
def execCheckpointComplete (s : State) : Out :=
  .next (match s.ckpt with
    | none => s
    | some c =>
      if !s.allOut then s
      else
        let head := s.imageHead c.list c.need
        let images := if c.fenced then s.images else s.images ++ [s.snapshot c.list head]
        let s1 : State := ({ s with ckpt := none, images := images, fresh := s.fresh + 1 } : State).layImage
          (s.stripes c.list c.need) (head ++ s.imageRest)
        let s2 := s1.hostHeld.foldl State.hostWrite { s1 with hostHeld := [] }
        let pg : Fin 16 := ⟨c.page % 16, Nat.mod_lt _ (by decide)⟩
        let p := s2.pages[pg]
        s2.setPage pg { p with pendRes := (if c.fenced then Status.fenced else Status.done).code })

/-- Every unit that an image records as enabled is enabled (R405). -/
def topoOk (img now : List W64) : Bool := (img.zip now).all fun p => p.1 &&& ~~~ p.2 == 0

/-- Bytes of an image after its header and section (R405). -/
def CkptImage.restLen (x : CkptImage) : Nat := fixedBytes (savedOnes x.strands).length - 4096

/-- The image that RESTORE accepts (R405): the latest that the extents of the list hold. -/
def State.restorable_ (s : State) (addr : Nat) : Option CkptImage :=
  if !s.plat.cold || s.plat.lcs != 2 || !s.liveCtxs.isEmpty then none
  else match s.targetList addr with
    | none => none
    | some l => s.images.reverse.find? fun x =>
        x.list = l && topoOk x.topo s.plat.topo && s.stripesOpen (s.stripes l (x.head.length + x.restLen)) &&
        s.readImage (s.stripes l x.head.length) = x.head

/-- Save images of an image's strands return to their save areas. -/
def State.putImages (s : State) : List Strand → List Byte → State
  | [], _ => s
  | m :: ms, bs => (s.writeVa (s.ctx m.ctx) (s.imageBase m) (bs.take 0x10000)).putImages ms (bs.drop 0x10000)

/-- What an image restores (R405): its section of the context table and queue state, and from the bytes `rest` after it the
strand images, tile SRAM and HBM4E. MTIME is not restored. -/
def State.restoreImage (s : State) (x : CkptImage) (rest : List Byte) : State :=
  let n := 0x10000 * (savedOnes x.strands).length
  let mid := (s.mem.below objWindow).since hbmEnd
  let midP := marksSince 32 (marksBelow 32 s.poison objWindow) hbmEnd
  let midL := marksSince 8 (marksBelow 8 s.linePoison objWindow) hbmEnd
  ({ s with
      me := Strand.blank, others := x.strands, nextId := Nat.max s.nextId x.nextId, ctxs := x.ctxs, regions := x.regions,
      slog := x.slog, barriers := x.barriers, faults := x.faults, faultSeq := x.faultSeq, objs := x.objs,
      asgens := x.asgens, sramPoison := x.sramPoison, inbox := x.inbox, outbox := x.outbox, gone := x.gone,
      events := x.events, faultQs := x.faultQs, admCount := x.admCount, lastServed := x.lastServed,
      sram := Memory.write [] 0 ((rest.drop n).take 0x60000000),
      mem := Memory.write (mid ++ x.copies.since objWindow) 0 ((rest.drop (n + 0x60000000)).take hbmEnd),
      poison := marksBelow 32 x.hbmPoison hbmEnd ++ midP ++ marksSince 32 x.hbmPoison objWindow,
      linePoison := marksBelow 8 x.linePoison hbmEnd ++ midL ++ marksSince 8 x.linePoison objWindow } : State).putImages
    (savedOnes x.strands) rest

/-- RESTORE: the target list (R405). -/
def restoreCmd : Cmd := fun a s =>
  match s.restorable_ (arg a 0).toNat with
  | none => (s, .baddesc)
  | some x =>
    let n := x.head.length
    (s.restoreImage x ((s.readImage (s.stripes x.list (n + x.restLen))).drop n), .done)

def execRestore (pg : Fin 16) (s : State) : Out := .next (postCommand pg 16 restoreCmd s)

/-! ### Life cycle -/

/-- The 16 bytes that a life-cycle signature covers (R403). -/
def State.lcMessage (s : State) (target : Nat) : List Byte :=
  bytesOf 2 Config.impl.toNat ++ bytes64 Config.serialNumber ++ bytesOf 1 target ++ bytesOf 1 s.plat.lcs.toNat ++
  bytes32 s.plat.lccnt

/-- The key digest that an accepted change leaves fused; none for a change that is DENIED (R403). -/
def State.lcAccept (s : State) (target sig key : Nat) : Option (List Byte) := do
  let n ← s.physGet sig 29792
  let signature := bytesOf 29792 n
  if s.plat.lcs = 0 && target = 1 then
    let d ← s.physGet key 32
    if slhVerify Config.vendorKey (s.lcMessage target) signature then some (bytesOf 32 d) else none
  else if (s.plat.lcs = 1 && (target = 2 || target = 3)) || (s.plat.lcs = 2 && (target = 1 || target = 3)) then
    let k ← s.physGet key 64
    let pub := bytesOf 64 k
    if shake256 pub 32 = s.plat.ownerHash && slhVerify pub (s.lcMessage target) signature then some s.plat.ownerHash
    else none
  else none

/-- LC-CHANGE: target, signature, key operand (R403). The device is wiped as by a cold reset; the command stays pending
on its page until READY (log 32). -/
def lcChange (pg : Fin 16) : Cmd := fun a s =>
  let target := (arg a 0).toNat
  match s.lcAccept target (arg a 1).toNat (arg a 2).toNat with
  | none => (s, .denied)
  | some hash =>
    if !s.liveCtxs.isEmpty then (s, .busy)
    else
      let p := s.plat
      let t : State := { s with plat := { p with
        lcs := BitVec.ofNat 2 target, lccnt := p.lccnt + 1, ownerHash := hash,
        deviceKey := if target = 3 then false else p.deviceKey || p.lcs = 0 } }
      ((t.wipe true).setPage pg CmdPage.blank, .done)

def execLcChange (pg : Fin 16) (s : State) : Out := .next (postCommand pg 18 (lcChange pg) s)

/-- ATTEST: nonce address, output address (R404); without a device key there is nothing to sign with (log 33). -/
def attest : Cmd := fun a s =>
  if !s.plat.deviceKey then (s, .denied)
  else match s.physGet (arg a 0).toNat 32 with
    | none => (s, .baddesc)
    | some n =>
      let entries := s.measLog.flatMap Meas.bytes
      let out := (arg a 1).toNat
      let sig := Config.deviceSign (shake256 (bytesOf 32 n ++ s.logHash ++ entries) 64)
      let bs := entries ++ s.logHash ++ sig
      if objWindow < out + bs.length then (s, .baddesc) else (s.putPhys out bs, .done)

def execAttest (pg : Fin 16) (s : State) : Out := .next (postCommand pg 19 attest s)

/-! ### Other opcodes, and completion -/

/-- An opcode that names no command completes with BADCMD (R395). -/
def execBadcmd (pg : Fin 16) (op : BitVec 16) (s : State) : Out :=
  .next (if 1 ≤ op.toNat && decide (op.toNat ≤ 19) then s else postCommand pg op (fun _ s => (s, .badcmd)) s)

/-- What a pending command waits for before it returns (R36, R37, R391). -/
def State.commandDone (s : State) (pg : Fin 16) (op : BitVec 16) (a : List W64) : Bool :=
  let k := hKey (argH a)
  match op.toNat with
  | 5 => !s.current (argH a) || (match (s.ctx k).cur with
      | some l => l.ending.isNone
      | none => true)
  | 6 => !s.current (argH a) || (s.ctxStrands k).all fun m => m.saveReq.isNone
  | 15 => match s.ckpt with
      | some c => c.page != pg.val
      | none => true
  | _ => true

/-- A pending command returns its status (R394). -/
def execSupervisorCommandComplete (pg : Fin 16) (s : State) : Out :=
  .next (
    let p := s.pages[pg]
    match p.pendOp with
    | none => s
    | some op =>
      if s.plat.ready && s.commandDone pg op p.pendArgs then
        s.setPage pg { p with pendOp := none, pendArgs := [], code := p.pendRes, pendRes := 0 }
      else s)

end Sys2Proof.Machine
end

