-- ==== Sys2Proof/Machine/Regs.lean ====
section
/-!
DEFINITION. The register window of port 0 (spec/16, R392): writes of the registers that act (spec/11, R287, R288; spec/13,
R346; spec/14, R367; spec/15, R377, R384 to R386, R389; spec/16, R393, R396, R399, R406), of the others by offset, and what
a read gives. Before READY every request is refused (R405).
-/

namespace Sys2Proof.Machine

/-- A write that reaches the window. -/
def regWrite (f : State → State) (s : State) : Out := .next (if s.plat.ready then f s else s)

/-! ### Residency and TSRAM -/

def retKey (die : Fin 4) (n : Fin 8) : Nat := 8 * die.val + n.val

def State.ret (s : State) (die : Fin 4) (n : Fin 8) : Reten := tget Reten.blank s.reten (retKey die n)
def State.setRet (s : State) (die : Fin 4) (n : Fin 8) (r : Reten) : State :=
  { s with reten := tset Reten.blank s.reten (retKey die n) r }

/-- EN, SAMP and WAYS of RETCTL (R287). -/
def retOn (r : Reten) : Bool := r.ctl.getLsbD 63
def retWays (r : Reten) : Nat := fieldN r.ctl 0 5

/-- Ways of the enabled ranges of a die other than `n`. -/
def State.waysBut (s : State) (die : Fin 4) (n : Fin 8) : Nat :=
  ((List.finRange 8).map fun (k : Fin 8) => if k != n && retOn (s.ret die k) then retWays (s.ret die k) else 0).foldl (· + ·) 0

/-- A write of RETCTL (R288). RETAINED restarts when EN rises from 0; a write that leaves EN at 1 keeps it (R287; DESIGN
CHOICE, log 100). -/
def State.writeRetctl (s : State) (die : Fin 4) (n : Fin 8) (v : W64) : State :=
  let r := s.ret die n
  let ways := fieldN v 0 5
  let samp := fieldN v 8 4
  let kept := v &&& 0x8000000000000F1F
  if v.getLsbD 63 then
    if decide (r.lim.toNat < r.base.toNat) || decide (8 < samp) || ways = 0 || decide (12 < ways) ||
        decide (12 < s.waysBut die n + ways)
    then s.setRet die n { r with ctl := (r.ctl &&& 0x0000000000000F1F) ||| 0x4000000000000000 }
    else s.setRet die n { r with ctl := kept, cnt := if retOn r then r.cnt else 0 }
  else s.setRet die n { r with ctl := kept }

def execRetctlWrite (die : Fin 4) (n : Fin 8) (v : W64) (s : State) : Out := regWrite (fun t => t.writeRetctl die n v) s

/-- A write of L1CFG (R377). -/
def State.writeL1cfg (s : State) (tile : Nat) (v : W64) : State :=
  let t := tget Tsram.blank s.tsram tile
  let g := fieldN v 0 3
  let held := s.strands.any fun m => m.tile = tile && ((m.inSlot && !m.halted) || m.winSize != 0)
  let t1 := if decide (6 < g) || held then { t with refused := true } else { t with g := BitVec.ofNat 3 g, refused := false }
  { s with tsram := tset Tsram.blank s.tsram tile t1 }

def execL1cfgWrite (tile : Fin 256) (v : W64) (s : State) : Out := regWrite (fun t => t.writeL1cfg tile.val v) s

/-! ### Ephemeris -/

/-- A write of EPHCTL (R346). -/
def State.writeEphctl (s : State) (v : W64) : State :=
  let e := s.eph
  if v.getLsbD 63 then
    if e.oclim.toNat < e.ocbase.toNat || hbmEnd < (e.oclim.toNat + 1) * 65536 then
      { s with eph := { e with en := false, refused := true } }
    else { s with eph := { e with en := true, refused := false } }
  else
    let s1 := if e.en then s.objs.foldl State.demote s else s
    { s1 with eph := { s1.eph with en := false, refused := false } }

def execEphctlWrite (v : W64) (s : State) : Out := regWrite (fun t => t.writeEphctl v) s

/-- A write of ALMCAP (R346). -/
def State.writeAlmcap (s : State) (die : Nat) (v : W64) : State :=
  let cap := fieldN v 0 16
  if 1024 < cap || cap * 2 ^ 20 < s.almUsed die then s
  else { s with eph := { s.eph with almcap := s.eph.almcap.set die (BitVec.ofNat 16 cap) } }

def execAlmcapWrite (die : Fin 4) (v : W64) (s : State) : Out := regWrite (fun t => t.writeAlmcap die.val v) s

/-! ### Meridian -/

/-- A write of MCTL (spec/14, R367, R368): a reserved SRC is ignored, and SRC 0 gives FREE. -/
def State.writeMctl (s : State) (v : W64) : State :=
  let m := s.mer
  let src : BitVec 4 := v.extractLsb' 0 4
  if 4 < src.toNat then s
  else
    { s with mer := { m with
        stepen := v.getLsbD 9, gm := v.getLsbD 8, src := src, state := if src = 0 then mFree else m.state,
        good := if src = 0 then 0 else m.good } }

def execMctlWrite (v : W64) (s : State) : Out := regWrite (fun t => t.writeMctl v) s

/-- A write of MEPOCH is ignored unless STATE is FREE (R367). -/
def State.writeMepoch (s : State) (v : W64) : State :=
  if s.mer.state = mFree then { s with mer := { s.mer with epoch := v.setWidth 48 } } else s

def execMepochWrite (v : W64) (s : State) : Out := regWrite (fun t => t.writeMepoch v) s

/-- A write of MSLEW outside 1 to 500 is ignored (R367). -/
def State.writeMslew (s : State) (v : W64) : State :=
  let p := fieldN v 0 9
  if p = 0 || 500 < p then s else { s with mer := { s.mer with ppm := BitVec.ofNat 9 p } }

def execMslewWrite (v : W64) (s : State) : Out := regWrite (fun t => t.writeMslew v) s

/-! ### HBM and pool limiters -/

/-- A write of SCRCTL (spec/15, R385). -/
def State.writeScrctl (s : State) (v : W64) : State :=
  let p := fieldN v 0 5
  if p = 0 || 24 < p then s
  else { s with hbm := { s.hbm with scren := v.getLsbD 63, period := BitVec.ofNat 5 p } }

def execScrctlWrite (v : W64) (s : State) : Out := regWrite (fun t => t.writeScrctl v) s

/-- A write of 0 to MISS r clears it (R384). -/
def State.writeMiss (s : State) (r : Nat) (v : W64) : State :=
  if v = 0 then { s with hbm := { s.hbm with miss := tset 0 s.hbm.miss r 0 } } else s

def execMissWrite (r : Fin 277) (v : W64) (s : State) : Out := regWrite (fun t => t.writeMiss r.val v) s

/-- A write of 0 to the first doubleword of a row-log entry frees it (R386). -/
def State.writeRowLog (s : State) (k : Nat) (v : W64) : State :=
  if v = 0 then { s with hbm := { s.hbm with rows := tset RowEnt.blank s.hbm.rows k RowEnt.blank } } else s

def execRowLogWrite (die : Fin 4) (e : Fin 64) (v : W64) (s : State) : Out :=
  regWrite (fun t => t.writeRowLog (64 * die.val + e.val) v) s

/-- A write of PLIM (R389); a checkpoint holds CUR at MAX (R391). -/
def State.writePlim (s : State) (k : Nat) (v : W64) : State :=
  let p := tget Plim.blank s.plims k
  let stp : BitVec 8 := v.extractLsb' 48 8
  let mx : BitVec 8 := v.extractLsb' 16 8
  let mn : BitVec 8 := v.extractLsb' 0 8
  if mx.toNat < mn.toNat || mn = 0 || stp = 0 then s
  else s.setPlim k ⟨stp, if s.ckpt.isSome || decide (mx.toNat < p.cur.toNat) then mx else p.cur, mx, mn⟩

def execPlimWrite (port : Fin 12) (d : Fin 8) (v : W64) (s : State) : Out :=
  regWrite (fun t => t.writePlim (limKey port d) v) s

/-! ### Decoders -/

def State.dec (s : State) (k : Nat) : Decoder := tget Decoder.blank s.decs k
def State.setDec (s : State) (k : Nat) (d : Decoder) : State := { s with decs := tset Decoder.blank s.decs k d }

/-- A write of DBASE: ignored while EN is 1 (spec/16, R399). -/
def State.writeDbase (s : State) (port d : Nat) (v : W64) : State :=
  let k := decKey port d
  if (s.dec k).en then s else s.setDec k { s.dec k with base := v.extractLsb' 28 24 }

/-- A write of DLIM (R399). -/
def State.writeDlim (s : State) (port d : Nat) (v : W64) : State :=
  let k := decKey port d
  let x := s.dec k
  let lim : BitVec 24 := v.extractLsb' 28 24
  let b := x.base.toNat
  let bad := decide (lim.toNat < b) || decide (b * 2 ^ 28 < hbmEnd) || decide (objWindow < (lim.toNat + 1) * 2 ^ 28) ||
    (s.decs.any fun p => p.1 != k && p.2.en && decide (p.2.base.toNat ≤ lim.toNat) && decide (b ≤ p.2.lim.toNat)) ||
    !s.plat.cxlen.getLsbD port
  if x.en || (v.getLsbD 0 && bad) then s else s.setDec k { x with lim := lim, en := v.getLsbD 0 }

def execDlimWrite (port : Fin 12) (d : Fin 8) (v : W64) (s : State) : Out :=
  regWrite (fun t => t.writeDlim (1 + port.val) d.val v) s

/-! ### Queues -/

/-- The event queue is number 0, and the fault queue of die d is number d + 1 (R396). -/
def State.evq (s : State) (q : Fin 5) : EvQueue :=
  if q.val = 0 then s.events else s.faultQs.toList.getD (q.val - 1) EvQueue.blank

/-- Change a queue, and write what it holds while its ring has room (R396). -/
def State.onQueue (s : State) (q : Fin 5) (f : EvQueue → EvQueue) : State :=
  if q.val = 0 then ({ s with events := f s.events } : State).flushEvents
  else
    let die : Fin 4 := ⟨(q.val - 1) % 4, Nat.mod_lt _ (by decide)⟩
    ({ s with faultQs := s.faultQs.set die.val (f s.faultQs[die]) die.isLt } : State).flushFaults die

/-- A write of QBASE (R396). -/
def State.writeQbase (s : State) (q : Fin 5) (v : W64) : State :=
  s.onQueue q fun e => { e with qbase := v &&& ~~~ 0xFFF, qtail := 0, qhead := 0 }

def execQbaseWrite (q : Fin 5) (v : W64) (s : State) : Out := regWrite (fun t => t.writeQbase q v) s

/-- A write of QLOG outside 6 to 16 is ignored (R396). -/
def State.writeQlog (s : State) (q : Fin 5) (v : W64) : State :=
  if v.toNat < 6 || 16 < v.toNat then s else s.onQueue q fun e => { e with qlog := v, qtail := 0, qhead := 0 }

def execQlogWrite (q : Fin 5) (v : W64) (s : State) : Out := regWrite (fun t => t.writeQlog q v) s

/-- A write of QHEAD below its value or above QTAIL is ignored (R396). -/
def State.writeQhead (s : State) (q : Fin 5) (v : W64) : State :=
  let e := s.evq q
  if v.toNat < e.qhead.toNat || e.qtail.toNat < v.toNat then s else s.onQueue q fun x => { x with qhead := v }

def execQheadWrite (q : Fin 5) (v : W64) (s : State) : Out := regWrite (fun t => t.writeQhead q v) s

/-! ### Identity and platform -/

/-- A write of PKGNUM is ignored while any context exists (R393). -/
def State.writePkgnum (s : State) (v : W64) : State :=
  if s.liveCtxs.isEmpty then { s with plat := { s.plat with pkgnum := v.setWidth 16 } } else s

def execPkgnumWrite (v : W64) (s : State) : Out := regWrite (fun t => t.writePkgnum v) s

/-- A write of PCAP outside 1,200 to 2,400 W is ignored (R406). -/
def State.writePcap (s : State) (v : W64) : State :=
  let w := fieldN v 0 12
  if w < 1200 || 2400 < w then s else { s with plat := { s.plat with pcap := BitVec.ofNat 12 w } }

def execPcapWrite (v : W64) (s : State) : Out := regWrite (fun t => t.writePcap v) s

/-! ### Every other register -/

/-- The first row of a command page that an offset falls in. -/
def pageOff (off base stride n : Nat) : Option (Nat × Nat) :=
  if base ≤ off && off < base + stride * n then some ((off - base) / stride, (off - base) % stride) else none

/-- Set an element of a list. -/
def setAt {α : Type} (l : List α) (i : Nat) (v : α) : List α := l.set i v

/-- A write of an opcode to CMD posts a command (R394, R395). -/
def State.writeCmd (s : State) (pg : Fin 16) (v : W64) : State :=
  let op : BitVec 16 := v.setWidth 16
  let run : Cmd := match op.toNat with
    | 1 => loadRegion
    | 2 => unloadRegion
    | 3 => createContext pg
    | 4 => onHandle destroyContext
    | 5 => onHandle killLaunch
    | 6 => onHandle swapContext
    | 7 => onHandle fun k a t => (t.updCtx k fun c => { c with wake := arg a 1, wokeFor := 0 }, .done)
    | 8 => faultReply
    | 9 => onHandle debugStopCmd
    | 10 => onHandle debugResume
    | 11 => setAsgen
    | 12 => onHandle objBind
    | 13 => onHandle objUnbind
    | 14 => onHandle pswap
    | 15 => startCheckpoint pg
    | 16 => restoreCmd
    | 17 => fenceCmd
    | 18 => lcChange pg
    | 19 => attest
    | _ => fun _ t => (t, .badcmd)
  postCommand pg op run s

/-- A write to a command page (R394): ARG0 to ARG4, and CMD. -/
def State.writePage (s : State) (pg : Fin 16) (o : Nat) (v : W64) : State :=
  let p := s.pages[pg]
  if o < 0x28 then s.setPage pg { p with args := p.args.set (o / 8) v }
  else if o = 0x38 then s.writeCmd pg v
  else s

/-- A write of a queue block (R396). -/
def State.writeQueue (s : State) (q : Fin 5) (o : Nat) (v : W64) : State :=
  match o with
  | 0x00 => s.writeQbase q v
  | 0x08 => s.writeQlog q v
  | 0x10 => s.writeQhead q v
  | _ => s

/-- A write of the Meridian block. -/
def State.writeMeridian (s : State) (o : Nat) (v : W64) : State :=
  match o with
  | 0x00 => s.writeMctl v
  | 0x10 => s.writeMepoch v
  | 0x28 => s.writeMslew v
  | _ => s

/-- A write of the Ephemeris block; OCBASE and OCLIM are held while EN is 1 (R346). -/
def State.writeEphemeris (s : State) (o : Nat) (v : W64) : State :=
  match o with
  | 0x00 => if s.eph.en then s else { s with eph := { s.eph with ocbase := v.extractLsb' 16 36 } }
  | 0x08 => if s.eph.en then s else { s with eph := { s.eph with oclim := v.extractLsb' 16 36 } }
  | 0x10 => s.writeEphctl v
  | 0x38 => s.writeAlmcap 0 v
  | 0x40 => s.writeAlmcap 1 v
  | 0x48 => s.writeAlmcap 2 v
  | 0x50 => s.writeAlmcap 3 v
  | _ => s

/-- A write of the HBM block (R382 to R386). -/
def State.writeHbm (s : State) (o : Nat) (v : W64) : State :=
  let b := s.hbm
  let put (x : Hbm) : State := { s with hbm := x }
  if o = 0x40 then s.writeScrctl v
  else if o = 0x50 then put { b with cethr := v.setWidth 32 }
  else if o = 0xB8 then put { b with hclass := v.setWidth 2 }
  else if 0xC0 ≤ o && o < 0xE0 then put { b with hdly := setAt b.hdly ((o - 0xC0) / 8) (v.setWidth 48) }
  else if 0x100 ≤ o && o < 0x200 then
    if o % 16 = 0 then put { b with hgbase := setAt b.hgbase ((o - 0x100) / 16) (v.extractLsb' 16 23) }
    else put { b with hglim := setAt b.hglim ((o - 0x100) / 16) (v.extractLsb' 16 23) }
  else if 0x400 ≤ o && o < 0x400 + 8 * 277 then s.writeMiss ((o - 0x400) / 8) v
  else if 0x2000 ≤ o && o < 0x4000 && o % 32 = 0 then s.writeRowLog ((o - 0x2000) / 32) v
  else s

/-- A write of a die's residency block (R287, R288). -/
def State.writeResidency (s : State) (die : Fin 4) (o : Nat) (v : W64) : State :=
  if 0x100 ≤ o then s
  else
    let n : Fin 8 := ⟨o / 32 % 8, Nat.mod_lt _ (by decide)⟩
    let r := s.ret die n
    let unit : W64 := v &&& 0x000FFFFFFFFF0000
    match o % 32 with
    | 0x00 => if retOn r then s else s.setRet die n { r with base := unit }
    | 0x08 => if retOn r then s else s.setRet die n { r with lim := unit }
    | 0x10 => s.writeRetctl die n v
    | _ => s

/-- A write of a CXL port block (R399). -/
def State.writeCxl (s : State) (n o : Nat) (v : W64) : State :=
  if n = 0 || o < 0x10 || 0x90 ≤ o then s
  else if o % 16 = 0 then s.writeDbase n ((o - 0x10) / 16) v
  else s.writeDlim n ((o - 0x10) / 16) v

/-- A write of the platform block (R406). -/
def State.writePlatform (s : State) (o : Nat) (v : W64) : State :=
  match o with
  | 0x08 => s.writePcap v
  | 0x20 => { s with plat := { s.plat with measen := v.getLsbD 0 } }
  | _ => s

/-- A write to an offset of the window (R392): an offset that is not listed, or not a multiple of 8, is ignored. -/
def State.writeReg (s : State) (off : Nat) (v : W64) : State :=
  if off % 8 != 0 then s
  else if off = 0x08 then s.writePkgnum v
  else match pageOff off 0x10000 0x1000 16 with
  | some (k, o) => s.writePage ⟨k % 16, Nat.mod_lt _ (by decide)⟩ o v
  | none => match pageOff off 0x20000 0x1000 1 with
  | some (_, o) => s.writeQueue 0 o v
  | none => match pageOff off 0x30000 0x1000 4 with
  | some (d, o) => s.writeQueue ⟨(d % 4) + 1, by omega⟩ o v
  | none => match pageOff off 0x40000 0x1000 1 with
  | some (_, o) => s.writeMeridian o v
  | none => match pageOff off 0x50000 0x1000 1 with
  | some (_, o) => s.writeEphemeris o v
  | none => match pageOff off 0x60000 0x4000 1 with
  | some (_, o) => s.writeHbm o v
  | none => match pageOff off 0x68800 8 96 with
  | some (k, _) => s.writePlim k v
  | none => match pageOff off 0x70000 0x1000 4 with
  | some (d, o) => s.writeResidency ⟨d % 4, Nat.mod_lt _ (by decide)⟩ o v
  | none => match pageOff off 0x80000 0x100 256 with
  | some (t, o) => if o = 0 then s.writeL1cfg t v else s
  | none => match pageOff off 0x90000 0x100 13 with
  | some (n, o) => s.writeCxl n o v
  | none => match pageOff off 0xB0000 0x1000 1 with
  | some (_, o) => s.writePlatform o v
  | none => s

def execRegisterWrite (off : BitVec 26) (v : W64) (s : State) : Out := regWrite (fun t => t.writeReg off.toNat v) s

/-! ### Reads -/

def w64 (l : List (Nat × Nat)) : W64 := BitVec.ofNat 64 (pack l)

/-- The identity and topology block (R393). -/
def State.readIdentity (s : State) (o : Nat) : W64 :=
  let p := s.plat
  if o = 0x00 then w64 [(0, p.form.toNat), (16, 3), (32, Config.stepping.toNat), (48, Config.impl.toNat)]
  else if o = 0x08 then p.pkgnum.setWidth 64
  else if 0x10 ≤ o && o < 0x30 then p.tileen.getD ((o - 0x10) / 8) 0
  else if 0x30 ≤ o && o < 0x70 then p.pcen.getD ((o - 0x30) / 8) 0
  else if o = 0x70 then w64 [(0, p.ualen.toNat), (8, p.cxlen.toNat)]
  else if o = 0x78 then p.fencegen.setWidth 64
  else if o = 0x80 then Config.serialNumber
  else 0

/-- A command page (R394); CMD is write-only. -/
def CmdPage.read (p : CmdPage) (o : Nat) : W64 :=
  if o < 0x28 then p.args.getD (o / 8) 0
  else if o = 0x28 then p.result
  else if o = 0x30 then w64 [(0, p.code.toNat), (62, b2n p.ovr), (63, b2n p.pendOp.isSome)]
  else 0

/-- A queue block (R396); LOST belongs to the event queue. -/
def EvQueue.read (q : EvQueue) (ev : Bool) (o : Nat) : W64 :=
  match o with
  | 0x00 => q.qbase
  | 0x08 => q.qlog
  | 0x10 => q.qhead
  | 0x18 => q.qtail
  | 0x20 => if ev then q.lost else 0
  | _ => 0

/-- The Meridian block (spec/14, R367). -/
def State.readMeridian (s : State) (o : Nat) : W64 :=
  let m := s.mer
  match o with
  | 0x00 => w64 [(0, m.src.toNat), (8, b2n m.gm), (9, b2n m.stepen)]
  | 0x08 => w64 [(0, m.state.toNat), (8, b2n m.pps), (9, b2n m.todv), (10, b2n (m.gm && m.peerGm))]
  | 0x10 => m.epoch.setWidth 64
  | 0x18 => m.ofs
  | 0x20 => s.mtime
  | 0x28 => m.ppm.setWidth 64
  | 0x30 => m.mhold
  | _ => 0

/-- The Ephemeris block (spec/13, R346). -/
def State.readEphemeris (s : State) (o : Nat) : W64 :=
  let e := s.eph
  match o with
  | 0x00 => w64 [(16, e.ocbase.toNat)]
  | 0x08 => w64 [(16, e.oclim.toNat)]
  | 0x10 => w64 [(62, b2n e.refused), (63, b2n e.en)]
  | 0x18 => BitVec.ofNat 64 s.areaUsed
  | 0x20 => e.promoted
  | 0x28 => e.demoted
  | 0x30 => e.late
  | 0x78 => e.silent
  | 0x80 => e.silmax
  | _ =>
    if 0x38 ≤ o && o < 0x58 then (e.almcap.getD ((o - 0x38) / 8) 0).setWidth 64
    else if 0x58 ≤ o && o < 0x78 then BitVec.ofNat 64 (s.almUsed ((o - 0x58) / 8))
    else 0

/-- A row-log entry (spec/15, R386). -/
def RowEnt.read (r : RowEnt) (o : Nat) : W64 :=
  match o with
  | 0x00 => w64 [(5, r.addr.toNat), (63, b2n r.valid)]
  | 0x08 => w64 [(0, r.count.toNat), (32, r.row.toNat), (50, r.bank.toNat), (55, r.pc.toNat)]
  | 0x10 => r.last
  | _ => 0

/-- The HBM block (R382 to R386, R391). -/
def State.readHbm (s : State) (o : Nat) : W64 :=
  let b := s.hbm
  if o = 0x40 then w64 [(0, b.period.toNat), (63, b2n b.scren)]
  else if o = 0x48 then b.scrpass
  else if o = 0x50 then b.cethr.setWidth 64
  else if o = 0x58 then BitVec.ofNat 64 s.ckptNeed
  else if o = 0xB8 then b.hclass.setWidth 64
  else if 0xC0 ≤ o && o < 0xE0 then (b.hdly.getD ((o - 0xC0) / 8) 0).setWidth 64
  else if 0x100 ≤ o && o < 0x200 then
    w64 [(16, ((if o % 16 = 0 then b.hgbase else b.hglim).getD ((o - 0x100) / 16) 0).toNat)]
  else if 0x400 ≤ o && o < 0x400 + 8 * 277 then tget 0 b.miss ((o - 0x400) / 8)
  else if 0x1000 ≤ o && o < 0x2000 then (tget 0 b.cecnt ((o - 0x1000) / 8)).setWidth 64
  else if 0x2000 ≤ o && o < 0x4000 then (tget RowEnt.blank b.rows ((o - 0x2000) / 32)).read (o % 32)
  else 0

/-- A retention range (spec/11, R287). -/
def Reten.read (r : Reten) (o : Nat) : W64 :=
  match o with
  | 0x00 => r.base
  | 0x08 => r.lim
  | 0x10 => r.ctl
  | 0x18 => r.cnt
  | _ => 0

/-- A CXL port block (R399). -/
def State.readCxl (s : State) (n o : Nat) : W64 :=
  if o = 0 then
    let p := s.cxl.toList.getD n CxlPort.blank
    w64 [(0, p.width.toNat), (8, p.speed.toNat), (63, b2n p.up)]
  else if n = 0 || o < 0x10 || 0x90 ≤ o then 0
  else
    let d := s.dec (decKey n ((o - 0x10) / 16))
    if o % 16 = 0 then w64 [(28, d.base.toNat)] else w64 [(0, b2n d.en), (28, d.lim.toNat)]

/-- The platform block (R406). -/
def State.readPlatform (s : State) (o : Nat) : W64 :=
  let p := s.plat
  match o with
  | 0x00 => w64 [(0, p.lcs.toNat), (63, b2n p.ready)]
  | 0x08 => p.pcap.setWidth 64
  | 0x10 => (Config.maxTemp s.fresh s.mtime).setWidth 64
  | 0x18 => (Config.power s.fresh s.mtime).setWidth 64
  | 0x20 => BitVec.ofNat 64 (b2n p.measen)
  | 0x28 => p.lccnt.setWidth 64
  | _ => 0

/-- What an aligned 8-byte read of the window gives (R392); every other offset reads 0. -/
def State.readReg (s : State) (off : Nat) : W64 :=
  if off % 8 != 0 then 0
  else if off < 0x1000 then s.readIdentity off
  else match pageOff off 0x10000 0x1000 16 with
  | some (k, o) => (s.pages.toList.getD k CmdPage.blank).read o
  | none => match pageOff off 0x20000 0x1000 1 with
  | some (_, o) => s.events.read true o
  | none => match pageOff off 0x30000 0x1000 4 with
  | some (d, o) => (s.faultQs.toList.getD d EvQueue.blank).read false o
  | none => match pageOff off 0x40000 0x1000 1 with
  | some (_, o) => s.readMeridian o
  | none => match pageOff off 0x50000 0x1000 1 with
  | some (_, o) => s.readEphemeris o
  | none => match pageOff off 0x60000 0x4000 1 with
  | some (_, o) => s.readHbm o
  | none => match pageOff off 0x68800 8 96 with
  | some (k, _) =>
    let p := tget Plim.blank s.plims k
    w64 [(0, p.min.toNat), (16, p.max.toNat), (32, p.cur.toNat), (48, p.step.toNat)]
  | none => match pageOff off 0x70000 0x1000 4 with
  | some (d, o) => if 0x100 ≤ o then 0 else (tget Reten.blank s.reten (8 * d + o / 32)).read (o % 32)
  | none => match pageOff off 0x80000 0x100 256 with
  | some (t, o) =>
    let x := tget Tsram.blank s.tsram t
    if o = 0 then w64 [(0, x.g.toNat), (63, b2n x.refused)] else if o = 8 then x.srce else if o = 16 then x.srue else 0
  | none => match pageOff off 0x90000 0x100 13 with
  | some (n, o) => s.readCxl n o
  | none => match pageOff off 0xA0000 0x100 8 with
  | some (u, o) =>
    let p := s.ual.toList.getD u UalPort.blank
    if o = 0 then w64 [(0, p.resets.toNat), (62, b2n p.cmp), (63, b2n p.up)] else if o = 8 then p.retry else 0
  | none => match pageOff off 0xB0000 0x1000 1 with
  | some (_, o) => s.readPlatform o
  | none => 0

/-- What the host's read of `n` bytes at an offset of the window gives: nothing before READY (R405) and after PKG-FATAL
(R397), and 0 for a size other than 8 bytes (R392). -/
def State.hostRead (s : State) (off n : Nat) : Option W64 :=
  if !s.plat.ready || s.fatal then none else some (if n = 8 then s.readReg off else 0)

/-- The host's write of `n` bytes at an offset of the window: refused before READY, and ignored for a size other than 8
bytes (R392). -/
def State.hostRegWrite (s : State) (off n : Nat) (v : W64) : State :=
  if s.plat.ready && n = 8 then s.writeReg off v else s

end Sys2Proof.Machine
end

