-- ==== Sys2Proof/Machine/Dispatch.lean ====
section
/-! DEFINITION. One arm per constructor of Instr: the meaning of the instruction, or its rejection by name. -/

namespace Sys2Proof.Machine

def exec (i : Instr) (s : State) : Host.Outcome State Fault Refusal :=
  match i with
  | .add h d a b => Sys2Proof.Machine.execAdd h d a b s
  | .addi h d a imm => Sys2Proof.Machine.execAddi h d a imm s
  | .sub h d a b => Sys2Proof.Machine.execSub h d a b s
  | .mul h d a b => Sys2Proof.Machine.execMul h d a b s
  | .mulh h d a b => Sys2Proof.Machine.execMulh h d a b s
  | .mulhn h d a b => Sys2Proof.Machine.execMulhn h d a b s
  | .div h d a b => Sys2Proof.Machine.execDiv h d a b s
  | .divn h d a b => Sys2Proof.Machine.execDivn h d a b s
  | .rem h d a b => Sys2Proof.Machine.execRem h d a b s
  | .remn h d a b => Sys2Proof.Machine.execRemn h d a b s
  | .and h d a b => Sys2Proof.Machine.execAnd h d a b s
  | .andi h d a imm => Sys2Proof.Machine.execAndi h d a imm s
  | .or h d a b => Sys2Proof.Machine.execOr h d a b s
  | .ori h d a imm => Sys2Proof.Machine.execOri h d a imm s
  | .xor h d a b => Sys2Proof.Machine.execXor h d a b s
  | .xori h d a imm => Sys2Proof.Machine.execXori h d a imm s
  | .andn h d a b => Sys2Proof.Machine.execAndn h d a b s
  | .shl h d a b => Sys2Proof.Machine.execShl h d a b s
  | .shlI h d a n => Sys2Proof.Machine.execShlI h d a n s
  | .shr h d a b => Sys2Proof.Machine.execShr h d a b s
  | .shrI h d a n => Sys2Proof.Machine.execShrI h d a n s
  | .sar h d a b => Sys2Proof.Machine.execSar h d a b s
  | .sarI h d a n => Sys2Proof.Machine.execSarI h d a n s
  | .rol h d a b => Sys2Proof.Machine.execRol h d a b s
  | .rolI h d a n => Sys2Proof.Machine.execRolI h d a n s
  | .clz h d a => Sys2Proof.Machine.execClz h d a s
  | .ctz h d a => Sys2Proof.Machine.execCtz h d a s
  | .popc h d a => Sys2Proof.Machine.execPopc h d a s
  | .min h d a b => Sys2Proof.Machine.execMin h d a b s
  | .max h d a b => Sys2Proof.Machine.execMax h d a b s
  | .minn h d a b => Sys2Proof.Machine.execMinn h d a b s
  | .maxn h d a b => Sys2Proof.Machine.execMaxn h d a b s
  | .sel h d a b c => Sys2Proof.Machine.execSel h d a b c s
  | .movi h d imm => Sys2Proof.Machine.execMovi h d imm s
  | .movih h d imm => Sys2Proof.Machine.execMovih h d imm s
  | .mov h d a => Sys2Proof.Machine.execMov h d a s
  | .lea h d a imm => Sys2Proof.Machine.execLea h d a imm s
  | .bfx h d a pos wid => Sys2Proof.Machine.execBfx h d a pos wid s
  | .bfi h d a pos wid => Sys2Proof.Machine.execBfi h d a pos wid s
  | .cmp h pt pf a c m b => Sys2Proof.Machine.execCmp h pt pf a c m b s
  | .cmpi h pt pf a c m imm => Sys2Proof.Machine.execCmpi h pt pf a c m imm s
  | .tstb h pt pf a m bit => Sys2Proof.Machine.execTstb h pt pf a m bit s
  | .plop h pt pf p1 p2 p3 ft m => Sys2Proof.Machine.execPlop h pt pf p1 p2 p3 ft m s
  | .prep h bt tgt => Sys2Proof.Machine.execPrep h bt tgt s
  | .prepReg h bt a => Sys2Proof.Machine.execPrepReg h bt a s
  | .xfer h bt dly => Sys2Proof.Machine.execXfer h bt dly s
  | .xferL h lnk bt dly => Sys2Proof.Machine.execXferL h lnk bt dly s
  | .loop h cnt len st => Sys2Proof.Machine.execLoop h cnt len st s
  | .lbrk h => Sys2Proof.Machine.execLbrk h s
  | .vany h pt pf a m => Sys2Proof.Machine.execVany h pt pf a m s
  | .vall h pt pf a m => Sys2Proof.Machine.execVall h pt pf a m s
  | .mfsr h d n => Sys2Proof.Machine.execMfsr h d n s
  | .mtsr h n a => Sys2Proof.Machine.execMtsr h n a s
  | .trap h n => Sys2Proof.Machine.execTrap h n s
  | .rft h => Sys2Proof.Machine.execRft h s
  | .cswYield h => Sys2Proof.Machine.execCswYield h s
  | .cswParkt h a => Sys2Proof.Machine.execCswParkt h a s
  | .cswParka h a => Sys2Proof.Machine.execCswParka h a s
  | .halt h => Sys2Proof.Machine.execHalt h s
  | .waitt h a => Sys2Proof.Machine.execWaitt h a s
  | .live h a b => Sys2Proof.Machine.execLive h a b s
  | .liveP h imm => Sys2Proof.Machine.execLiveP h imm s
  | .liveVl h imm => Sys2Proof.Machine.execLiveVl h imm s
  | .liveVh h imm => Sys2Proof.Machine.execLiveVh h imm s
  | .phase h => Sys2Proof.Machine.execPhase h s
  | .nop h => Sys2Proof.Machine.execNop h s
  | .bkpt h => Sys2Proof.Machine.execBkpt h s
  | .viadd h d a b ty sat z => Sys2Proof.Machine.execViadd h d a b ty sat z s
  | .visub h d a b ty sat z => Sys2Proof.Machine.execVisub h d a b ty sat z s
  | .vimul h d a b ty sat z => Sys2Proof.Machine.execVimul h d a b ty sat z s
  | .vimad h d a b c ty sat z => Sys2Proof.Machine.execVimad h d a b c ty sat z s
  | .vand h d a b ty z => Sys2Proof.Machine.execVand h d a b ty z s
  | .vor h d a b ty z => Sys2Proof.Machine.execVor h d a b ty z s
  | .vxor h d a b ty z => Sys2Proof.Machine.execVxor h d a b ty z s
  | .vshl h d a b ty z => Sys2Proof.Machine.execVshl h d a b ty z s
  | .vshlI h d a n ty z => Sys2Proof.Machine.execVshlI h d a n ty z s
  | .vshr h d a b ty z => Sys2Proof.Machine.execVshr h d a b ty z s
  | .vshrI h d a n ty z => Sys2Proof.Machine.execVshrI h d a n ty z s
  | .vsar h d a b ty z => Sys2Proof.Machine.execVsar h d a b ty z s
  | .vsarI h d a n ty z => Sys2Proof.Machine.execVsarI h d a n ty z s
  | .vmov h d a z => Sys2Proof.Machine.execVmov h d a z s
  | .vbcast h d a ty z => Sys2Proof.Machine.execVbcast h d a ty z s
  | .vbcastI h d a k ty z => Sys2Proof.Machine.execVbcastI h d a k ty z s
  | .vextr h d a b ty => Sys2Proof.Machine.execVextr h d a b ty s
  | .vextrI h d a k ty => Sys2Proof.Machine.execVextrI h d a k ty s
  | .viota h d a stp ty z => Sys2Proof.Machine.execViota h d a stp ty z s
  | .vperm h d a b ty z => Sys2Proof.Machine.execVperm h d a b ty z s
  | .vrot h d a b ty z => Sys2Proof.Machine.execVrot h d a b ty z s
  | .vrotI h d a k ty z => Sys2Proof.Machine.execVrotI h d a k ty z s
  | .vcomp h d a c ty z => Sys2Proof.Machine.execVcomp h d a c ty z s
  | .vbtst h mt mf b c m => Sys2Proof.Machine.execVbtst h mt mf b c m s
  | .mlop h mt mf a b c ft m => Sys2Proof.Machine.execMlop h mt mf a b c ft m s
  | .mcnt h d a => Sys2Proof.Machine.execMcnt h d a s
  | .mfirst h d a => Sys2Proof.Machine.execMfirst h d a s
  | .mfirstM h d a z => Sys2Proof.Machine.execMfirstM h d a z s
  | .vadd h d a b ty rm z => Sys2Proof.Machine.execVadd h d a b ty rm z s
  | .vsub h d a b ty rm z => Sys2Proof.Machine.execVsub h d a b ty rm z s
  | .vmul h d a b ty rm z => Sys2Proof.Machine.execVmul h d a b ty rm z s
  | .vfma h d a b c ty rm z => Sys2Proof.Machine.execVfma h d a b c ty rm z s
  | .vfms h d a b c ty rm z => Sys2Proof.Machine.execVfms h d a b c ty rm z s
  | .vabs h d a ty z => Sys2Proof.Machine.execVabs h d a ty z s
  | .vneg h d a ty z => Sys2Proof.Machine.execVneg h d a ty z s
  | .vmin h d a b ty k z => Sys2Proof.Machine.execVmin h d a b ty k z s
  | .vmax h d a b ty k z => Sys2Proof.Machine.execVmax h d a b ty k z s
  | .vdiv h d a b ty rm z => Sys2Proof.Machine.execVdiv h d a b ty rm z s
  | .vsqrt h d a ty rm z => Sys2Proof.Machine.execVsqrt h d a ty rm z s
  | .vrcp h d a ty rm z => Sys2Proof.Machine.execVrcp h d a ty rm z s
  | .vrsq h d a ty rm z => Sys2Proof.Machine.execVrsq h d a ty rm z s
  | .vexp2 h d a ty rm z => Sys2Proof.Machine.execVexp2 h d a ty rm z s
  | .vlog2 h d a ty rm z => Sys2Proof.Machine.execVlog2 h d a ty rm z s
  | .vcvt h d a dst src p rm sat nan z => Sys2Proof.Machine.execVcvt h d a dst src p rm sat nan z s
  | .vqnt h d sc a q src p z => Sys2Proof.Machine.execVqnt h d sc a q src p z s
  | .vdqt h d a b dst p rm nan z => Sys2Proof.Machine.execVdqt h d a b dst p rm nan z s
  | .vcmp h mt mf b c cc ty m k => Sys2Proof.Machine.execVcmp h mt mf b c cc ty m k s
  | .vthr h mt mf b c cc m k => Sys2Proof.Machine.execVthr h mt mf b c cc m k s
  | .vsel h d a b c k z => Sys2Proof.Machine.execVsel h d a b c k z s
  | .vred h d a c op ty rm sat => Sys2Proof.Machine.execVred h d a c op ty rm sat s
  | .vscan h d a c op ty rm sat z => Sys2Proof.Machine.execVscan h d a c op ty rm sat z s
  | .chainFull sid c => Sys2Proof.Machine.execChainFull sid c s
  | .ld h d a off ty sem sc => Sys2Proof.Machine.execLd h d a off ty sem sc s
  | .st h d a off ty sem sc => Sys2Proof.Machine.execSt h d a off ty sem sc s
  | .ldv h d a off sem sc z => Sys2Proof.Machine.execLdv h d a off sem sc z s
  | .stv h d a off sem sc => Sys2Proof.Machine.execStv h d a off sem sc s
  | .ldg h d a off b ty z => Sys2Proof.Machine.execLdg h d a off b ty z s
  | .stg h d a off b ty => Sys2Proof.Machine.execStg h d a off b ty s
  | .ldl h d a off ty => Sys2Proof.Machine.execLdl h d a off ty s
  | .stl h d a off ty => Sys2Proof.Machine.execStl h d a off ty s
  | .vldl h d a off z => Sys2Proof.Machine.execVldl h d a off z s
  | .vstl h d a off => Sys2Proof.Machine.execVstl h d a off s
  | .memoryAccessComplete sid => Sys2Proof.Machine.execMemoryAccessComplete sid s
  | .sideLogDrain k => Sys2Proof.Machine.execSideLogDrain k s
  | .aadd h d a off b ty sem sc ret => Sys2Proof.Machine.execAadd h d a off b ty sem sc ret s
  | .amax h d a off b ty sem sc ret => Sys2Proof.Machine.execAmax h d a off b ty sem sc ret s
  | .amin h d a off b ty sem sc ret => Sys2Proof.Machine.execAmin h d a off b ty sem sc ret s
  | .aand h d a off b ty sem sc ret => Sys2Proof.Machine.execAand h d a off b ty sem sc ret s
  | .aor h d a off b ty sem sc ret => Sys2Proof.Machine.execAor h d a off b ty sem sc ret s
  | .axor h d a off b ty sem sc ret => Sys2Proof.Machine.execAxor h d a off b ty sem sc ret s
  | .axchg h d a off b ty sem sc ret => Sys2Proof.Machine.execAxchg h d a off b ty sem sc ret s
  | .acas h d a off b ty sem sc => Sys2Proof.Machine.execAcas h d a off b ty sem sc s
  | .vared h d a off b op ty sc => Sys2Proof.Machine.execVared h d a off b op ty sc s
  | .fenceAcq h sc => Sys2Proof.Machine.execFenceAcq h sc s
  | .fenceRel h sc => Sys2Proof.Machine.execFenceRel h sc s
  | .fenceFull h sc => Sys2Proof.Machine.execFenceFull h sc s
  | .waita h d a b cc form sc bound => Sys2Proof.Machine.execWaita h d a b cc form sc bound s
  | .waitaSatisfied sid => Sys2Proof.Machine.execWaitaSatisfied sid s
  | .barSync h n b sc bound => Sys2Proof.Machine.execBarSync h n b sc bound s
  | .barArv h n b sc => Sys2Proof.Machine.execBarArv h n b sc s
  | .barWait h n sc bound => Sys2Proof.Machine.execBarWait h n sc bound s
  | .cinv h a off sc => Sys2Proof.Machine.execCinv h a off sc s
  | .cwb h a off sc => Sys2Proof.Machine.execCwb h a off sc s
  | .pref h a off sc => Sys2Proof.Machine.execPref h a off sc s
  | .tidset h t a => Sys2Proof.Machine.execTidset h t a s
  | .tidsetReg h b a => Sys2Proof.Machine.execTidsetReg h b a s
  | .tidget h d t => Sys2Proof.Machine.execTidget h d t s
  | .tidgetReg h d b => Sys2Proof.Machine.execTidgetReg h d b s
  | .mma h e ac tida tidb sco acct sat => Sys2Proof.Machine.execMma h e ac tida tidb sco acct sat s
  | .mmas h e ac tida sco acct sat => Sys2Proof.Machine.execMmas h e ac tida sco acct sat s
  | .mmat h e ac tida tidb sco fill => Sys2Proof.Machine.execMmat h e ac tida tidb sco fill s
  | .aclr h e mask => Sys2Proof.Machine.execAclr h e mask s
  | .acvt h e tidd ac sco acct sat rm nan => Sys2Proof.Machine.execAcvt h e tidd ac sco acct sat rm nan s
  | .amov h e ac acs => Sys2Proof.Machine.execAmov h e ac acs s
  | .amovTid h e ac tid sco => Sys2Proof.Machine.execAmovTid h e ac tid sco s
  | .cpy h e sb dir nsc d2 noff => Sys2Proof.Machine.execCpy h e sb dir nsc d2 noff s
  | .gthr h e tidd tids sb => Sys2Proof.Machine.execGthr h e tidd tids sb s
  | .gidx h e tidp sb => Sys2Proof.Machine.execGidx h e tidp sb s
  | .xrun h e sb entry => Sys2Proof.Machine.execXrun h e sb entry s
  | .xpost h e ev => Sys2Proof.Machine.execXpost h e ev s
  | .xwait h e sc bound ev => Sys2Proof.Machine.execXwait h e sc bound ev s
  | .waitk h e bound => Sys2Proof.Machine.execWaitk h e bound s
  | .kvh h e sb => Sys2Proof.Machine.execKvh h e sb s
  | .kvlk h e sb => Sys2Proof.Machine.execKvlk h e sb s
  | .kvins h e sb => Sys2Proof.Machine.execKvins h e sb s
  | .kvpin h e sb => Sys2Proof.Machine.execKvpin h e sb s
  | .kvunp h e sb => Sys2Proof.Machine.execKvunp h e sb s
  | .kvmap h e sb => Sys2Proof.Machine.execKvmap h e sb s
  | .kvmapRel h e sb => Sys2Proof.Machine.execKvmapRel h e sb s
  | .kvpub h e sb => Sys2Proof.Machine.execKvpub h e sb s
  | .attn h e tidq tido sb kb4 vb4 => Sys2Proof.Machine.execAttn h e tidq tido sb kb4 vb4 s
  | .cred h e sb op ty tag => Sys2Proof.Machine.execCred h e sb op ty tag s
  | .cgth h e sb tag => Sys2Proof.Machine.execCgth h e sb tag s
  | .csnd h e sb peer tag => Sys2Proof.Machine.execCsnd h e sb peer tag s
  | .crcv h e sb peer tag => Sys2Proof.Machine.execCrcv h e sb peer tag s
  | .launch h e sb => Sys2Proof.Machine.execLaunch h e sb s
  | .atTimeReached sid seq => Sys2Proof.Machine.execAtTimeReached sid seq s
  | .commandStart sid seq => Sys2Proof.Machine.execCommandStart sid seq s
  | .engineMicroStep sid seq => Sys2Proof.Machine.execEngineMicroStep sid seq s
  | .engineCommandComplete sid seq => Sys2Proof.Machine.execEngineCommandComplete sid seq s
  | .collectiveMessage m => Sys2Proof.Machine.execCollectiveMessage m s
  | .xld xd xa imm => Sys2Proof.Machine.execXld xd xa imm s
  | .xst xa xb imm => Sys2Proof.Machine.execXst xa xb imm s
  | .xmov xd imm => Sys2Proof.Machine.execXmov xd imm s
  | .xmovA xd xa imm => Sys2Proof.Machine.execXmovA xd xa imm s
  | .xmovR xd xa xb => Sys2Proof.Machine.execXmovR xd xa xb s
  | .xmovH xd imm => Sys2Proof.Machine.execXmovH xd imm s
  | .xdec xd xa n p => Sys2Proof.Machine.execXdec xd xa n p s
  | .xenc xd xa n p => Sys2Proof.Machine.execXenc xd xa n p s
  | .xqnt xd xa xb src q n => Sys2Proof.Machine.execXqnt xd xa xb src q n s
  | .xbp xd xa xb ty kt => Sys2Proof.Machine.execXbp xd xa xb ty kt s
  | .xloop xa len => Sys2Proof.Machine.execXloop xa len s
  | .xsXpost ev => Sys2Proof.Machine.execXsXpost ev s
  | .xsXwait ev xc bound => Sys2Proof.Machine.execXsXwait ev xc bound s
  | .xend => Sys2Proof.Machine.execXend s
  | .stallBound sid => Sys2Proof.Machine.execStallBound sid s
  | .timedWaitExpiry sid => Sys2Proof.Machine.execTimedWaitExpiry sid s
  | .parkaWake sid => Sys2Proof.Machine.execParkaWake sid s
  | .regionLoad pg => Sys2Proof.Machine.execRegionLoad pg s
  | .regionUnload pg => Sys2Proof.Machine.execRegionUnload pg s
  | .create pg => Sys2Proof.Machine.execCreate pg s
  | .destroy pg => Sys2Proof.Machine.execDestroy pg s
  | .kill pg => Sys2Proof.Machine.execKill pg s
  | .swapout pg => Sys2Proof.Machine.execSwapout pg s
  | .setwake pg => Sys2Proof.Machine.execSetwake pg s
  | .faultReply pg => Sys2Proof.Machine.execFaultReply pg s
  | .debugStop pg => Sys2Proof.Machine.execDebugStop pg s
  | .debugResume pg => Sys2Proof.Machine.execDebugResume pg s
  | .setasgen pg => Sys2Proof.Machine.execSetasgen pg s
  | .objBind pg => Sys2Proof.Machine.execObjBind pg s
  | .objUnbind pg => Sys2Proof.Machine.execObjUnbind pg s
  | .pswap pg => Sys2Proof.Machine.execPswap pg s
  | .checkpoint pg => Sys2Proof.Machine.execCheckpoint pg s
  | .checkpointComplete => Sys2Proof.Machine.execCheckpointComplete s
  | .restore pg => Sys2Proof.Machine.execRestore pg s
  | .fenceUnit pg => Sys2Proof.Machine.execFenceUnit pg s
  | .lcChange pg => Sys2Proof.Machine.execLcChange pg s
  | .attest pg => Sys2Proof.Machine.execAttest pg s
  | .badcmd pg op => Sys2Proof.Machine.execBadcmd pg op s
  | .supervisorCommandComplete pg => Sys2Proof.Machine.execSupervisorCommandComplete pg s
  | .retctlWrite die n v => Sys2Proof.Machine.execRetctlWrite die n v s
  | .l1cfgWrite tile v => Sys2Proof.Machine.execL1cfgWrite tile v s
  | .ephctlWrite v => Sys2Proof.Machine.execEphctlWrite v s
  | .almcapWrite die v => Sys2Proof.Machine.execAlmcapWrite die v s
  | .mctlWrite v => Sys2Proof.Machine.execMctlWrite v s
  | .mepochWrite v => Sys2Proof.Machine.execMepochWrite v s
  | .mslewWrite v => Sys2Proof.Machine.execMslewWrite v s
  | .scrctlWrite v => Sys2Proof.Machine.execScrctlWrite v s
  | .missWrite r v => Sys2Proof.Machine.execMissWrite r v s
  | .rowLogWrite die e v => Sys2Proof.Machine.execRowLogWrite die e v s
  | .plimWrite port d v => Sys2Proof.Machine.execPlimWrite port d v s
  | .dlimWrite port d v => Sys2Proof.Machine.execDlimWrite port d v s
  | .qbaseWrite q v => Sys2Proof.Machine.execQbaseWrite q v s
  | .qlogWrite q v => Sys2Proof.Machine.execQlogWrite q v s
  | .qheadWrite q v => Sys2Proof.Machine.execQheadWrite q v s
  | .pkgnumWrite v => Sys2Proof.Machine.execPkgnumWrite v s
  | .pcapWrite v => Sys2Proof.Machine.execPcapWrite v s
  | .registerWrite off v => Sys2Proof.Machine.execRegisterWrite off v s
  | .coldReset => Sys2Proof.Machine.execColdReset s
  | .reset => Sys2Proof.Machine.execReset s
  | .wipeComplete => Sys2Proof.Machine.execWipeComplete s
  | .ppsEdge => Sys2Proof.Machine.execPpsEdge s
  | .todFrame f => Sys2Proof.Machine.execTodFrame f s
  | .referenceMeasurement ofs rate => Sys2Proof.Machine.execReferenceMeasurement ofs rate s
  | .holdover => Sys2Proof.Machine.execHoldover s
  | .ucieFailure => Sys2Proof.Machine.execUcieFailure s
  | .thermal die temp => Sys2Proof.Machine.execThermal die temp s
  | .thermalTrip die temp => Sys2Proof.Machine.execThermalTrip die temp s
  | .unitFailure kind idx => Sys2Proof.Machine.execUnitFailure kind idx s
  | .ualinkLinkReset u => Sys2Proof.Machine.execUalinkLinkReset u s
  | .dcExtentRelease base len => Sys2Proof.Machine.execDcExtentRelease base len s
  | .extentReleaseResponse base => Sys2Proof.Machine.execExtentReleaseResponse base s
  | .devloadInterval port d l => Sys2Proof.Machine.execDevloadInterval port d l s
  | .hostMemoryRequest write pa n data => Sys2Proof.Machine.execHostMemoryRequest write pa n data s
  | .tailRead qid => Sys2Proof.Machine.execTailRead qid s
  | .queueCandidate qid => Sys2Proof.Machine.execQueueCandidate qid s
  | .admissionDecision pl => Sys2Proof.Machine.execAdmissionDecision pl s
  | .strandSaveComplete sid => Sys2Proof.Machine.execStrandSaveComplete sid s
  | .notbeforeReached ctx => Sys2Proof.Machine.execNotbeforeReached ctx s
  | .quantumExpiry tile => Sys2Proof.Machine.execQuantumExpiry tile s
  | .launchComplete ctx => Sys2Proof.Machine.execLaunchComplete ctx s
  | .ephemerisPromotion ctx => Sys2Proof.Machine.execEphemerisPromotion ctx s
  | .silence ctx => Sys2Proof.Machine.execSilence ctx s
  | .silenceWritebackComplete ctx => Sys2Proof.Machine.execSilenceWritebackComplete ctx s
  | .scrubAtom pa r bank row => Sys2Proof.Machine.execScrubAtom pa r bank row s
  | .ppsTimeout => Sys2Proof.Machine.execPpsTimeout s
  | .linkUp ual n cmp width speed => Sys2Proof.Machine.execLinkUp ual n cmp width speed s
  | .hostWriteRejected pa => Sys2Proof.Machine.execHostWriteRejected pa s
  | .moveCommit o => Sys2Proof.Machine.execMoveCommit o s

end Sys2Proof.Machine
end

