-- ==== Sys2Proof/Machine/Input.lean ====
section
/-!
DEFINITION. What reaches the package from outside it, or from its own error checks, and that no row of the opcode table
names (log 80): the errors of SRAM, LLC and HBM4E (spec/15, R376, R378, R380, R385), deadlines missed (R384), allocations
retained (spec/11, R287), what the host and the fabric do (spec/14, R370; spec/16, R392, R398 to R402).
-/

namespace Sys2Proof.Machine

def State.setTsram (s : State) (tile : Nat) (f : Tsram → Tsram) : State :=
  { s with tsram := tset Tsram.blank s.tsram tile (f (tget Tsram.blank s.tsram tile)) }

/-- An agent outside coherence writes memory that a pool device holds (spec/11, R304); a device read sees the bytes only after
CINV.SY. -/
def State.outsideWrite (s : State) (pa : Nat) (bs : List Byte) : State :=
  if (upto bs.length).all fun i => (s.decoderOf (pa + i)).isSome then
    { s with foreign := s.foreign ++ bs.mapIdx fun i b => (pa + i, b) }
  else s

/-- One more in a counter of `w` bits that saturates. -/
def satInc (w : Nat) (x : W64) : W64 := BitVec.ofNat 64 (Nat.min (2 ^ w - 1) (x.toNat + 1))

/-- A single-bit error of a tile's SRAM is corrected (R376, R378). -/
def State.sramCorrected (s : State) (tile : Fin 256) : State := s.setTsram tile.val fun t => { t with srce := t.srce + 1 }

/-- A word of a cached line, which holds a physical address, is marked: every reader of the address meets the mark, for the
caches are coherent (spec/11, R286), until a write covers the word (R378, R380; DESIGN CHOICE, log 105). -/
def State.markWord (s : State) (pa : Nat) : State := { s with linePoison := tset false s.linePoison (s.place pa / 8) true }

/-- Bytes of a tile's SRAM that are scratchpad, in groups 0 to 11 - G; the groups above are L1 (R377). -/
def State.padBytes (s : State) (tile : Nat) : Nat := (12 - (tget Tsram.blank s.tsram tile).g.toNat) * 0x80000

/-- A double-bit error marks the word of a tile's SRAM that holds an offset: of scratchpad, or of the line that an L1 word
holds (R376 to R378). -/
def State.sramDouble (s : State) (tile : Fin 256) (off : Nat) (held : Option W64) : State :=
  if 0x600000 ≤ off then s
  else
    let s1 := s.setTsram tile.val fun t => { t with srue := t.srue + 1 }
    if off < s.padBytes tile.val then { s1 with sramPoison := tset false s1.sramPoison (tileByte tile.val off / 8) true }
    else match held with
      | some pa => s1.markWord pa.toNat
      | none => s1

/-- A double-bit error marks the word of the LLC that holds a physical address (R380). -/
def State.llcDouble (s : State) (pa : Nat) : State := s.markWord pa

/-- A demand read reaches an atom of HBM4E (R385). -/
def State.readError (s : State) (pa : Nat) (r : EccResult) (bank : BitVec 5) (row : BitVec 18) : State :=
  let a := s.unitOf (s.place pa)
  if hbmEnd ≤ a || s.fencedAt pa then s else s.eccFound a r bank row

/-- The host completes the device's reads of an address with an error, or no longer does (R398). -/
def State.setHostBad (s : State) (pa : Nat) (bad : Bool) : State :=
  { s with hostBad := if bad then pa :: s.hostBad else s.hostBad.filter fun x => x != pa }

/-- An enabled retention range of a die has retained an allocation (R287). -/
def State.countRetained (s : State) (die : Fin 4) (n : Fin 8) : State :=
  let r := s.ret die n
  if retOn r then s.setRet die n { r with cnt := satInc 48 r.cnt } else s

/-- A request has missed its deadline (R384). -/
def State.countMiss (s : State) (r : Nat) : State :=
  { s with hbm := { s.hbm with miss := tset 0 s.hbm.miss r (satInc 48 (tget 0 s.hbm.miss r)) } }

/-- A UALink port has replayed a flit (R400). -/
def State.countReplay (s : State) (u : Fin 8) : State :=
  let p := s.ual[u]
  { s with ual := s.ual.set u.val { p with retry := p.retry + 1 } u.isLt }

/-- The link of a CXL port is down, which fences a pool port (R399, R408). -/
def State.cxlDown (s : State) (n : Fin 13) : State :=
  let s1 := s.dropLink false n.val
  if n.val = 0 then s1 else s1.fence 4 n.val

def State.input (s : State) (x : Input) : State :=
  match x with
  | .sramCorrected tile => s.sramCorrected tile
  | .sramDouble tile off held => s.sramDouble tile off held
  | .llcDouble pa => s.llcDouble pa
  | .readError pa r bank row => s.readError pa r bank row
  | .hostRead pa bad => s.setHostBad pa bad
  | .peerGm on => { s with mer := { s.mer with peerGm := on } }
  | .retained die n => s.countRetained die n
  | .miss r => s.countMiss r.val
  | .replay u => s.countReplay u
  | .cxlMode on => { s with plat := { s.plat with cxlMem := on } }
  | .linkDown n => s.cxlDown n
  | .ptm sec => { s with mer := { s.mer with ptm := some sec } }
  | .fabricSend u peer payload => s.sendPayload u peer payload
  | .fabricRecv u peer len bs => s.recvPayload u peer len bs
  | .collSend u peer n => s.sendMessage u peer n
  | .collAck u peer x => s.ackMessage u peer x
  | .collRecv u peer len head bs => s.recvMessage u peer len head bs
  | .windowWrite off n v => s.hostRegWrite off.toNat n v
  | .outsideWrite pa n data => s.outsideWrite pa.toNat (bytesOf n.val data.toNat)

end Sys2Proof.Machine
end

