-- ==== Sys2Proof/Machine/Time.lean ====
section
/-!
DEFINITION. The passing of time, and what the device does of itself as it passes: commands that became startable are noted
(spec/09, R231, R250), queues that began to wait are marked (spec/14, R361), stall counters rise (spec/12, R326), pinned
objects go to HBM4E (spec/13, R350), and copies of a region over its budget are demoted (R348).
-/

namespace Sys2Proof.Machine

/-- The strand is in a wait whose stall counter runs while its context is RUNNING (R34, R327). -/
def Strand.bounded (m : Strand) : Bool :=
  !m.debug &&
  match m.wait with
  | .waita .. | .bar .. | .barSlot .. | .waitk .. | .xwait .. | .phase => true
  | .none | .waitt _ | .csw | .journalFull | .slogRoom _ _ | .relDrain | .ownDrain _ _ | .faultEntry | .fault
  | .stepLaunch _ _ => false

/-- The wait of a strand is bounded and not satisfied (R326). -/
def State.counts (s : State) (m : Strand) : Bool := m.bounded && !s.waitaMet m && (s.waitDone m).isNone

/-- The selector of a tile after `cycles` more: its count rises while its slot's strand may issue and another strand of the tile
could, and any other cycle ends the row of consecutive ones (R320). -/
def State.selPass (s : State) (cycles tile : Nat) : TileSel :=
  let x := s.selNext tile
  let other := (upto 4).any fun k => k != x.slot && (s.slotStrand tile k).isSome
  ⟨x.slot, if other && (s.slotStrand tile x.slot).isSome then x.cycles + cycles else 0⟩

/-- Time passes: MTIME units and tile cycles (R326; spec/09, R256; spec/14, R367). -/
def State.tick (s : State) (units cycles : Nat) : State :=
  let run (m : Strand) : Bool := (s.ctx m.ctx).state = .running
  let s1 := s.mapStrands fun m =>
    if m.id != 0 && m.inSlot && run m then
      { m with stallcnt := if s.counts m then m.stallcnt + BitVec.ofNat 64 cycles else m.stallcnt
               stleft := BitVec.ofNat 4 (m.stleft.toNat - cycles) }
    else m
  { s1 with
    mtime := s.mtime + BitVec.ofNat 64 units
    cycles := s.cycles + cycles
    sels := s.strands.foldl (fun t m => tset ⟨0, 0⟩ t m.tile (s.selPass cycles m.tile)) s.sels
    xs := s.xs.map fun p => (p.1, p.2.map fun r =>
      if r.waiting.isSome && (s.strands.any fun m => m.id = r.sid && run m) then
        { r with stallcnt := r.stallcnt + BitVec.ofNat 64 cycles } else r) }

/-- What Ephemeris and Almanac do without an event of their own (spec/13, R348, R350). -/
def State.residency (s : State) : State := s.keepAlm.settle s.objs.length

/-- Time passes: MTIME units and tile cycles. A bound that is reached inside the piece of time traps in the cycle after it
(DEDUCED, log 86). -/
def State.pass (s : State) (units cycles : Nat) : State :=
  (((s.stamp.markAll s.mtime).tick units cycles).markAll s.mtime).residency

end Sys2Proof.Machine
end

