-- ==== Sys2Proof/Machine/Order.lean ====
section
/-!
DEFINITION. The agenda: what one action does, and the order of the actions of one cycle that meet the same context
(spec/01, R35; spec/12, R308, R312). The actions of the agenda up to the next passage of time belong to one cycle (DEDUCED,
log 85).
-/

namespace Sys2Proof.Machine

/-- Execute what an issue yields. -/
def runIssue (r : State × Option Instr) : Host.Outcome State Fault Refusal :=
  match r.2 with
  | none => .next r.1
  | some i => exec i r.1

/-- The move of one action. -/
def act (a : Action) (s : State) : Host.Outcome State Fault Refusal :=
  match a with
  | .issue sid => runIssue (s.issue sid)
  | .xs tile => runIssue (s.issueXs tile)
  | .event i => if isEvent i then exec i s else .next s
  | .input x => .next (s.input x)
  | .time u c => .next (s.pass u c)

/-- Time passes with this action. -/
def Action.isTime (a : Action) : Bool :=
  match a with
  | .time _ _ => true
  | .issue _ => false
  | .xs _ => false
  | .event _ => false
  | .input _ => false

/-- The state after an action. -/
def State.after (s : State) (a : Action) : State :=
  match act a s with
  | .next t => t
  | .fault _ => s
  | .refused _ => s

/-! ### Agents -/

/-- Who takes an action. The actions of one agent keep their order: the posts of a command page (spec/16, R394), the host's
writes to other places of the window, what the fabric brings, and the steps of one strand, one command and one transform
sequencer. -/
inductive Agent
  | page (pg : Nat)
  | window
  | fabric
  | strand (sid : Nat)
  | command (sid : Nat) (seq : W32)
  | xs (tile : Nat)
  | device
  deriving DecidableEq, Repr

/-- The writer of an offset of the window (spec/16, R392). -/
def windowAgent (off : Nat) : Agent :=
  match pageOff off 0x10000 0x1000 16 with
  | some (pg, _) => .page pg
  | none => .window

/-- The agent of an event. -/
def eventAgent (i : Instr) : Agent :=
  match i with
  | .regionLoad pg => .page pg.val
  | .regionUnload pg => .page pg.val
  | .create pg => .page pg.val
  | .destroy pg => .page pg.val
  | .kill pg => .page pg.val
  | .swapout pg => .page pg.val
  | .setwake pg => .page pg.val
  | .faultReply pg => .page pg.val
  | .debugStop pg => .page pg.val
  | .debugResume pg => .page pg.val
  | .setasgen pg => .page pg.val
  | .objBind pg => .page pg.val
  | .objUnbind pg => .page pg.val
  | .pswap pg => .page pg.val
  | .checkpoint pg => .page pg.val
  | .restore pg => .page pg.val
  | .fenceUnit pg => .page pg.val
  | .lcChange pg => .page pg.val
  | .attest pg => .page pg.val
  | .badcmd pg _ => .page pg.val
  | .supervisorCommandComplete pg => .page pg.val
  | .registerWrite off _ => windowAgent off.toNat
  | .retctlWrite .. => .window
  | .l1cfgWrite .. => .window
  | .ephctlWrite .. => .window
  | .almcapWrite .. => .window
  | .mctlWrite .. => .window
  | .mepochWrite .. => .window
  | .mslewWrite .. => .window
  | .scrctlWrite .. => .window
  | .missWrite .. => .window
  | .rowLogWrite .. => .window
  | .plimWrite .. => .window
  | .dlimWrite .. => .window
  | .qbaseWrite .. => .window
  | .qlogWrite .. => .window
  | .qheadWrite .. => .window
  | .pkgnumWrite .. => .window
  | .pcapWrite .. => .window
  | .collectiveMessage _ => .fabric
  | .atTimeReached sid q => .command sid q
  | .commandStart sid q => .command sid q
  | .engineMicroStep sid q => .command sid q
  | .engineCommandComplete sid q => .command sid q
  | .waitaSatisfied sid => .strand sid
  | .stallBound sid => .strand sid
  | .timedWaitExpiry sid => .strand sid
  | .parkaWake sid => .strand sid
  | .strandSaveComplete sid => .strand sid
  | _ => .device

def Action.agent (a : Action) : Agent :=
  match a with
  | .issue sid => .strand sid
  | .xs tile => .xs tile
  | .event i => eventAgent i
  | .input (.windowWrite off _ _) => windowAgent off.toNat
  | .input (.fabricSend ..) => .fabric
  | .input (.fabricRecv ..) => .fabric
  | .input (.collSend ..) => .fabric
  | .input (.collAck ..) => .fabric
  | .input (.collRecv ..) => .fabric
  | .input _ => .device
  | .time _ _ => .device

/-- Places of a cycle's actions that are the first of their agent; the device has no order of its own. -/
def firsts (l : List Action) : List Nat :=
  (upto l.length).filter fun i => match l[i]? with
    | none => false
    | some a => a.agent = .device || (l.take i).all fun b => b.agent != a.agent

/-! ### The order of a cycle -/

/-- Open waits of a context (R33). -/
def State.openWaits (s : State) (k : Nat) : Nat :=
  ((s.ctxStrands k).filter fun m => m.openWait || m.wait = .fault || m.journal.any fun e => e.hold != 0).length + s.outcur k

/-- The current launch of a context has a cause, or everything of it has ended (R44, R48); a context without one counts. -/
def State.launchOver (s : State) (k : Nat) : Bool :=
  match (s.ctx k).cur with
  | none => true
  | some l => (s.endingOf k l).isSome

/-- What an action is to a context that it meets, in the order of R35. -/
inductive Meet
  | destroy
  /-- It ends the launch. A cause of a strand or a command has a place in the order of R308. -/
  | ends (place : Option Nat)
  /-- PREEMPT or SWAPOUT. -/
  | saves
  /-- It satisfies a wait. -/
  | satisfies
  /-- It parks a strand or stops it for the debugger. -/
  | stops
  | other
  deriving DecidableEq, Repr

/-- The first of two events takes place first: DESTROY, then what ends the launch, then PREEMPT or SWAPOUT, then wait
satisfaction (R35). Of two causes that of the lower strand index, and a strand's own before one of its commands; a cause comes
before a park or a debug stop (spec/12, R308). -/
def Meet.before : Meet → Meet → Bool
  | .destroy, .destroy => false
  | .destroy, _ => true
  | .ends (some i), .ends (some j) => decide (i < j)
  | .ends _, .saves => true
  | .ends _, .satisfies => true
  | .ends _, .stops => true
  | .saves, .satisfies => true
  | _, _ => false

/-- The place of a cause that an action meets (spec/12, R308): twice the index of the strand it is attributed to, and one more
for a cause of one of its commands. A drain's cause is its strand's (spec/15, R390). -/
def State.causePlace (s : State) (a : Action) : Option Nat :=
  let at_ (sid n : Nat) : Option Nat := (s.strand sid).map fun m => 2 * m.index + n
  match a with
  | .event (.sideLogDrain k) => s.slog[k]?.bind fun e => at_ e.sid 0
  | .event (.stallBound sid) => (s.strand sid).map fun m => 2 * m.index + b2n m.boundInfo.isNone
  | _ => match a.agent with
    | .strand sid => at_ sid 0
    | .command sid _ => at_ sid 1
    | .xs tile => (tget none s.xs tile).bind fun r => at_ r.sid 1
    | .page _ => none
    | .window => none
    | .fabric => none
    | .device => none

/-- The command page and opcode of DESTROY, KILL, SWAPOUT and DEBUG-STOP, and of a write of an opcode to CMD (spec/16, R394). -/
def Action.posts (a : Action) : Option (Fin 16 × Nat) :=
  let cmd (off : Nat) (v : W64) : Option (Fin 16 × Nat) :=
    match pageOff off 0x10000 0x1000 16 with
    | some (pg, 0x38) => some (⟨pg % 16, Nat.mod_lt _ (by decide)⟩, fieldN v 0 16)
    | _ => none
  match a with
  | .event (.destroy pg) => some (pg, 4)
  | .event (.kill pg) => some (pg, 5)
  | .event (.swapout pg) => some (pg, 6)
  | .event (.debugStop pg) => some (pg, 9)
  | .event (.registerWrite off v) => cmd off.toNat v
  | .input (.windowWrite off n v) => if n = 8 then cmd off.toNat v else none
  | _ => none

/-- What a command that its page takes now is to context `k` by its kind, whatever its effect would be (R35): DESTROY, KILL of a
current launch, SWAPOUT, and DEBUG-STOP that names a strand. -/
def State.commands (s : State) (a : Action) (k : Nat) : Option Meet :=
  match a.posts with
  | none => none
  | some (pg, op) =>
    let p := s.pages[pg]
    if !s.plat.ready || p.pendOp.isSome || !s.current (argH p.args) || hKey (argH p.args) != k then none
    else if op = 4 then some .destroy
    else if op = 5 && (s.ctx k).cur.isSome then some (.ends none)
    else if op = 6 then some .saves
    else if op = 9 && (s.ctx k).cur.isSome && !(s.named k (arg p.args 1)).isEmpty then some .stops
    else none

/-- What an action is to context `k`: a command by its kind, and anything else by what it does there. -/
def State.meetOf (s : State) (a : Action) (k : Nat) : Meet :=
  match s.commands a k with
  | some x => x
  | none =>
    let t := s.after a
    if (t.ctx k).gen != (s.ctx k).gen then .destroy
    else if t.launchOver k && !s.launchOver k then .ends (s.causePlace a)
    else if t.saving k && !s.saving k then .saves
    else if t.openWaits k < s.openWaits k then .satisfies
    else if s.openWaits k < t.openWaits k then .stops
    else .other

/-- At some context that both meet, `b` comes before `a` (R35). -/
def State.precedes (s : State) (b a : Action) : Bool :=
  s.liveCtxs.any fun k => (s.meetOf b k).before (s.meetOf a k)

/-- The place in a cycle of the action that takes place first. -/
def State.firstOf (s : State) (cyc : List Action) : Nat :=
  (firsts cyc).foldl (fun i j => match cyc[i]?, cyc[j]? with
    | some a, some b => if s.precedes b a then j else i
    | _, _ => i) 0

/-! ### Faults that arise together -/

/-- Fault-record entries of `t` that `s` does not have. -/
def State.raised (s t : State) : List FaultEntry := t.faults.filter fun f => s.faults.all fun g => g.slot != f.slot || g.ftag != f.ftag

/-- The selector of its tile turned to the strand that an action issues. Strands of one tile meet absent pages in one cycle too
(the worked example of spec/12; DEDUCED, log 85). -/
def State.turnTo (s : State) (a : Action) : State :=
  match a with
  | .issue sid =>
    match s.strand sid with
    | some m => { s with sels := tset ⟨0, 0⟩ s.sels m.tile ⟨m.slot, 0⟩ }
    | none => s
  | _ => s

/-- The entries that an action raises. -/
def State.raises (s : State) (a : Action) : List FaultEntry := s.raised ((s.turnTo a).after a)

/-- The actions of a cycle that raise faults beside its first action `a`: the next ones of the other agents (spec/12, R312). -/
def State.faultTogether (s : State) (a : Action) (cyc : List Action) : List Action :=
  if cyc.isEmpty || (s.raised (s.after a)).isEmpty then []
  else (firsts (a :: cyc)).filterMap fun i =>
    if i = 0 then none else (a :: cyc)[i]?.bind fun b => if (s.raises b).isEmpty then none else some b

/-- Contexts that ran at `s` run, for an action of the same cycle. -/
def State.asRunning (s t : State) : State :=
  s.liveCtxs.foldl (fun u k =>
    if (s.ctx k).state = .running && (u.ctx k).state = .parked then u.updCtx k fun c => { c with state := .running } else u) t

/-- Several actions of one cycle that raise faults: every entry is allocated in increasing page order, the strand of lower
index first, and then the agents stop on them (spec/12, R312). -/
def State.allTogether (s : State) (l : List Action) : State :=
  let le (a b : FaultEntry) : Bool := decide (a.page < b.page) || (a.page = b.page && decide (a.strand ≤ b.strand))
  let s1 := (sortBy le (l.flatMap s.raises)).foldl (fun t f =>
    match t.faultPage f.ctx f.addr f.kind f.strand f.pc f.waited with
    | .ok u => u
    | .noEntry => t
    | .recFail => t) s
  let s2 := l.foldl (fun t a => ((s.asRunning t).turnTo a).after a) s1
  s2.liveCtxs.foldl State.reconsider s2

/-! ### The turn -/

/-- The bounds that stall counters have reached trap in this cycle, by strand index (spec/12, R308, R326). -/
def State.bounds (s : State) : List Action := (byIndex (s.strands.filter s.boundDue)).map fun m => .event (.stallBound m.id)

/-- What takes place now and the agenda after it: a bound that is reached, the head, or what R35 puts before them in their
cycle, with the actions whose faults arise together with its own. -/
def State.turn (s : State) (a : Action) (as : List Action) : Action × List Action × List Action :=
  let due := s.bounds
  let cyc := due ++ (a :: as).takeWhile fun b => !b.isTime
  let i := if cyc.isEmpty then 0 else s.firstOf cyc
  if i < due.length then (cyc.getD i a, [], a :: as)
  else
    let j := i - due.length
    let b := (a :: as).getD j a
    let rest := (a :: as).eraseIdx j
    let more := if b.isTime then [] else s.faultTogether b (rest.takeWhile fun x => !x.isTime)
    (b, more, more.foldl List.erase rest)

/-- The actions of a turn take place. -/
def State.play (s : State) (a : Action) (more : List Action) : Host.Outcome State Fault Refusal :=
  match more with
  | [] => act a s
  | _ => .next (s.allTogether (a :: more))

/-- After PKG-FATAL the package accepts nothing but a reset (spec/16, R397). -/
def allowed (a : Action) : Bool :=
  match a with
  | .event i => isReset i
  | .issue _ => false
  | .xs _ => false
  | .input _ => false
  | .time _ _ => false

end Sys2Proof.Machine
end

