-- ==== Sys2Proof/Machine/Step.lean ====
section
/-!
DEFINITION. One step of the machine. The agenda says which agent moves next, in the order of spec/01, R35 within a
cycle; with an empty agenda a bound that is reached traps, the strand in focus issues when it can, and otherwise time
passes. A word that is fetched and accepted is executed by exec. After PKG-FATAL nothing moves but a reset (spec/16, R397), and MTIME stands still too
(DESIGN CHOICE, log 89).
-/

namespace Sys2Proof.Machine

def step (s : State) : Host.Outcome State Fault Refusal :=
  match s.agenda with
  | [] =>
    if s.fatal then .next s
    else match s.bounds with
      | b :: _ => act b s
      | [] => if s.eligible s.me then runIssue (s.issue s.me.id) else .next (s.pass 1 1)
  | a :: as =>
    if s.fatal then (if allowed a then act a { s with agenda := as } else .next { s with agenda := as })
    else
      let r := ({ s with agenda := [] } : State).turn a as
      ({ s with agenda := r.2.2 } : State).play r.1 r.2.1

/-- The state with one instruction where the next step runs it. -/
def State.withFetchWord (s : State) (nbits w : Nat) : State := s.placeWord (tableWord nbits w)

end Sys2Proof.Machine
end

