-- ==== Sys2Proof/Safety.lean ====
section
/-!
DEFINITION. What counts as a safe run in the terms the claims use: a step that answers a next state, a run whose every step
does, a word that executes, and the state in which a word has retired.
-/

namespace Sys2Proof.Machine

/-- The step answers a next state. -/
def Goes (s : State) : Prop := ∃ t, step s = .next t

/-- A predicate is kept by every step that answers a next state. -/
def Kept (p : State → Prop) : Prop := ∀ s t, p s → step s = .next t → p t

/-- `n` steps answer next states from `s`. -/
def SafeFor : Nat → State → Prop
  | 0, _ => True
  | n + 1, s => ∃ t, step s = .next t ∧ SafeFor n t

end Sys2Proof.Machine

namespace Sys2Proof.Claims

open Sys2Proof.Machine

/-! ### Words that execute -/

/-- The state as a word of the strand in focus finds it: its registers have settled (spec/04, R104). -/
def settled (s : State) : State := s.setMe s.me.settle

/-- No STALL-CHECK stops a word of header `h` on its guard registers or on the registers `rs` it reads (spec/04,
R105). -/
def NotEarly (s : State) (h : Hdr) (rs : List Dest) : Prop :=
  s.me.settle.early (hdrReads h) = false ∧ s.me.settle.early rs = false

/-- A scalar-guarded word executes: its guard holds (spec/05, R129) and nothing stops it. -/
def Runs (s : State) (h : Hdr) (rs : List Dest) : Prop :=
  s.me.settle.guard h = true ∧ NotEarly s h rs

/-- A lane-guarded word executes: some lane is enabled, nothing stops it, and none of its chain sources `cs` is SPENT
(spec/05, R129; spec/04, R108). -/
def RunsLane (s : State) (h : Hdr) (rs : List Dest) (cs : List CReg) : Prop :=
  s.me.settle.laneGuard h ≠ 0 ∧ NotEarly s h rs ∧ cs.any s.me.settle.spent = false

/-- The word of header `h` retires from `t`; the STEP bit is the one it found (spec/12, R330). `chn` is the first chain
source it names, which an END-OF-CHAIN reports (spec/04, R116). -/
def retiredTo (h : Hdr) (s t : State) (chn : Option CReg := none) : State := t.retire h.stall s.me.settle.step chn

/-- The word of header `h` changed the settled strand by `f` and retired. -/
def retired (h : Hdr) (s : State) (f : Strand → Strand) (chn : Option CReg := none) : State :=
  retiredTo h s (s.setMe (f s.me.settle)) chn

/-- Whenever the word executes, `d` takes `v` of the settled strand with full-result latency `l`, and the word retires. -/
def WritesS (i : Instr) (h : Hdr) (rs : List Dest) (l : Nat) (d : SReg) (v : Strand → W64) : Prop :=
  ∀ s, Runs s h rs → exec i s = .next (retired h s fun m => m.setS l d (v m))

/-! ### Invariants -/

/-- Physical memory and tile SRAM, and the copies in checkpoint images, are in canonical form: addresses strictly rising, and no
byte equal to what an unlisted address reads as. -/
def Canonical (s : State) : Prop :=
  s.mem.wf = true ∧ s.sram.wf = true ∧ ∀ x ∈ s.images, x.copies.wf = true

end Sys2Proof.Claims
end

