-- ==== Sys2Proof/Certificates/Slice0/Obligations.lean ====
section
/-!
DEFINITION. The statements for the provers, each with the rules of spec/ it formalises or rests on, after the few words they
share beside those of Sys2Proof/Safety.lean.
-/

namespace Sys2Proof.Claims

open Sys2Proof.Machine

/-- COND on two 64-bit values (spec/05, R135; spec/06, R150). UN and ORD are not accepted for integers. -/
def intCond (c : Cond) (x y : W64) : Bool :=
  match c with
  | .eq => x == y
  | .ne => x != y
  | .lt => x.slt y
  | .ge => !x.slt y
  | .le => !y.slt x
  | .gt => y.slt x
  | .ltn => x.ult y
  | .gen => !x.ult y
  | .len => !y.ult x
  | .gtn => y.ult x
  | .un => false
  | .ord => false

/-- No register among `qs` is a stage predicate of an active pipelined level 0 (spec/06, R162). -/
def StageFree (m : Strand) (qs : List QReg) : Prop :=
  ∀ q ∈ qs, ¬ (m.l0.act = true ∧ 1 < m.l0.st.toNat ∧ 8 ≤ q.val ∧ q.val < 8 + m.l0.st.toNat)

/-- The word writes the predicate pair of R149 for the condition `c`, with full-result latency `l`; under .U its guard is an
operand. -/
def WritesPair (i : Instr) (h : Hdr) (rs : List Dest) (l : Nat) (pt pf : QReg) (mode : PMode) (g c : Strand → Bool) : Prop :=
  ∀ s, NotEarly s h rs → StageFree s.me.settle [pt, pf] →
    (mode = .n → g s.me.settle = true →
      exec i s = .next (retired h s fun m => (m.setQ l pt (c m)).setQ l pf (!c m))) ∧
    (mode = .u → exec i s = .next (retired h s fun m => (m.setQ l pt (g m && c m)).setQ l pf (g m && !c m))) ∧
    (mode = .o → g s.me.settle = true →
      exec i s = .next (retired h s fun m => if c m then m.setQ l pt true else m.setQ l pf true))

/-- The state once the lines that Seq(PC, n) reads have been fetched (spec/05, R429; spec/13, R345). -/
def afterSeq (s : State) (n : Nat) : State := (settled s).seqTouch s.me.settle n s.me.settle.pc s.me.settle.link

/-- A word that sets the PC itself: from `u` the strand goes on as `m`, and the STEP stop is taken (spec/12, R330). -/
def landsOn (s : State) (m : Strand) (u : State := s) : State :=
  u.land s.me.settle.pc s.me.settle.xfer.valid s.me.settle.step (.to m)

/-- The word raises cause `c` from `u` with its own PC and every lane (spec/12, R309). -/
def raises (s : State) (c : Cause) (u : State := settled s) : State := u.endTrap s.me.settle c { pc := s.me.settle.pc }

/-- No delay window and no hardware loop is open. -/
def Straight (m : Strand) : Prop := m.xfer.valid = false ∧ m.l0.act = false ∧ m.l1.act = false

/-! ### Lanes -/

/-- The number an element of a type stands for (spec/03, R78). -/
def numOf (ty : ETy) (x : Nat) : Int :=
  if ty.isSigned then (BitVec.ofNat ty.width x).toInt else ((x % 2 ^ ty.width : Nat) : Int)

/-- An exact integer in a type: clamped to its range under SAT, otherwise its low bits (spec/07, R187). -/
def fitted (ty : ETy) (sat : Bool) (x : Int) : Nat :=
  let lo : Int := if ty.isSigned then -(2 ^ (ty.width - 1)) else 0
  let hi : Int := if ty.isSigned then 2 ^ (ty.width - 1) - 1 else 2 ^ ty.width - 1
  (BitVec.ofInt ty.width (if sat then max lo (min hi x) else x)).toNat

/-- Element `j` of an operand that is a V register, or an S register in every element (spec/07, R176). -/
def argAt (w : Nat) (m : Strand) (b : OpVS) (j : Nat) : Nat :=
  match b with
  | .v n => elemAt w (m.readV n) j
  | .s n => (m.readS n).toNat % 2 ^ w

/-- Whenever the word executes, the elements of `d` whose lane is enabled take `f` of the settled strand, and the others keep
theirs, or become 0 under .Z (spec/07, R175, R177); latency `l`. -/
def WritesLanes (i : Instr) (h : Hdr) (rs : List Dest) (l w : Nat) (d : VReg) (z : Bool) (f : Strand → Nat → Nat) : Prop :=
  ∀ s, RunsLane s h rs [] → ∃ v : Lanes,
    exec i s = .next (retired h s fun m => m.setV l d (if z then allLanes else enabled w (m.laneGuard h)) v) ∧
    ∀ j, j < 2048 / w →
      elemAt w v j = if (s.me.settle.laneGuard h).getLsbD (j * w / 32) then f s.me.settle j % 2 ^ w else 0

/-- A write of an M register: with latency 2, or interlocked where a chain register is a source (spec/04, R101). -/
def putM (cs : List CReg) (m : Strand) (n : MReg) (mask v : W64) : Strand :=
  if cs.isEmpty then m.setM 2 n mask v else m.writeIl (.m n) mask (v.setWidth 2048)

/-- The word writes the lane predicate pair of R189 for the condition `c` of each lane. -/
def WritesMasks (i : Instr) (h : Hdr) (rs : List Dest) (cs : List CReg) (k : Bool) (mt mf : MReg) (mode : PMode)
    (c : Strand → Nat → Bool) : Prop :=
  ∀ s, NotEarly s h rs → (s.me.settle.laneGuard h ≠ 0 ∨ mode = .u) →
    (s.me.settle.laneGuard h ≠ 0 → cs.any s.me.settle.spent = false) →
    ∃ b : W64, (∀ j, j < 64 → b.getLsbD j = c s.me.settle j) ∧
      exec i s = .next (retired h s (fun m =>
        let g := m.laneGuard h
        let x := if g = 0 then m else m.readChains k cs
        match mode with
        | .n => putM cs (putM cs x mt g b) mf g (~~~ b)
        | .u => putM cs (putM cs x mt allLanes (g &&& b)) mf allLanes (g &&& ~~~ b)
        | .o => putM cs (putM cs x mt (g &&& b) allLanes) mf (g &&& ~~~ b) allLanes) cs.head?)

/-! ### Floating point -/

/-- The words that may name a chain source (R106), each with what it reads and with its chain sources in operand
order: the floating words of R180 to R183, VMOV (R111), and the deciding VCMP, VTHR and VSEL (R190, R191, R193). -/
def chainConsumers (h : Hdr) (d a : OpVC) (b c : OpVSC) (e : VReg) (x y : OpVS) (sl : OpSel) (mt mf : MReg) (cc : Cond)
    (ty : ETy) (rm : Rm) (mode : PMode) (k z : Bool) : List (Instr × List Dest × List CReg) :=
  let two (i : Instr) := (i, vcReads a ++ vscReads b, vcChains a ++ vscChains b)
  let one (i : Instr) := (i, vcReads a, vcChains a)
  let three (i : Instr) := (i, vcReads a ++ vscReads b ++ vscReads c, vcChains a ++ vscChains b ++ vscChains c)
  [two (.vadd h d a b ty rm z), two (.vsub h d a b ty rm z), two (.vmul h d a b ty rm z), two (.vdiv h d a b ty rm z),
    two (.vmin h d a b ty k z), two (.vmax h d a b ty k z), three (.vfma h d a b c ty rm z), three (.vfms h d a b c ty rm z),
    one (.vabs h d a ty z), one (.vneg h d a ty z), one (.vsqrt h d a ty rm z), one (.vrcp h d a ty rm z),
    one (.vrsq h d a ty rm z), one (.vexp2 h d a ty rm z), one (.vlog2 h d a ty rm z), one (.vmov h d a z),
    two (.vcmp h mt mf a b cc ty mode k), (.vthr h mt mf a x cc mode k, vcReads a ++ vsReads x, vcChains a),
    (.vsel h e x y sl k z, vsReads x ++ vsReads y ++ selReads sl, selChains sl)]

/-- 2^e as a rational number. -/
def pow2 (e : Int) : Rat := if 0 ≤ e then ((2 ^ e.toNat : Nat) : Rat) else 1 / ((2 ^ (-e).toNat : Nat) : Rat)

/-- Exponent bits, mantissa bits and bias (spec/03, R76). -/
def format (ty : ETy) : Nat × Nat × Nat :=
  match ty with
  | .bf16 => (8, 7, 127)
  | .f16 => (5, 10, 15)
  | .e4m3 => (4, 3, 7)
  | .e5m2 => (5, 2, 15)
  | _ => (8, 23, 127)

/-- Sign, exponent field and mantissa field of a pattern (spec/03, R76). -/
def signOf (ty : ETy) (x : Nat) : Bool := x / 2 ^ (ty.width - 1) % 2 == 1
def expOf (ty : ETy) (x : Nat) : Nat := x / 2 ^ (format ty).2.1 % 2 ^ (format ty).1
def mantOf (ty : ETy) (x : Nat) : Nat := x % 2 ^ (format ty).2.1

/-- ±0, ±∞ and the canonical NaN of F32, BF16 and F16 (spec/03, R76). -/
def zeroPat (ty : ETy) (neg : Bool) : Nat := if neg then 2 ^ (ty.width - 1) else 0
def infPat (ty : ETy) (neg : Bool) : Nat := zeroPat ty neg + (2 ^ (format ty).1 - 1) * 2 ^ (format ty).2.1
def nanPat (ty : ETy) : Nat :=
  match ty with
  | .bf16 => 0x7FC0
  | .f16 => 0x7E00
  | _ => 0x7FC00000

/-- The pattern is a NaN (spec/03, R76). -/
def IsNan (ty : ETy) (x : Nat) : Prop := expOf ty x = 2 ^ (format ty).1 - 1 ∧ mantOf ty x ≠ 0

/-- The value of a finite pattern (spec/03, R77). -/
def valueOf (ty : ETy) (x : Nat) : Rat :=
  let (_, mw, bias) := format ty
  let e := expOf ty x
  let m : Rat := mantOf ty x
  let v := if e = 0 then pow2 (1 - bias) * (m / 2 ^ mw) else pow2 ((e : Int) - bias) * (1 + m / 2 ^ mw)
  if signOf ty x then -v else v

/-- A finite pattern of the type. -/
def Finite (ty : ETy) (x : Nat) : Prop :=
  x < 2 ^ ty.width ∧ if ty = .e4m3 then x % 128 ≠ 127 else expOf ty x ≠ 2 ^ (format ty).1 - 1

/-- The least magnitude that RNE rounds past the largest finite value: half a step above it (spec/03, R80, R82). -/
def rneLimit (ty : ETy) : Rat :=
  pow2 (format ty).2.2 * (2 - pow2 (-((format ty).2.1 : Int) - 1))

/-- `r` is Round(e), once, to the type under the mode (spec/03, R80 to R83, R85), for the exact value e that `le y` (y ≤ e) and
`ge y` (e ≤ y) place among the rational numbers: the nearest value under RNE, ties to an even mantissa field, and otherwise the
nearest one on the mode's side; an infinity where that side has no finite value, or from half a step above the largest; a
result 0 has the sign of e, or `zneg` for e = 0. -/
def Rounds (ty : ETy) (rm : Rm) (le ge : Rat → Prop) (zneg : Bool) (r : Nat) : Prop :=
  let v := valueOf ty r
  let down := Finite ty r ∧ le v ∧ ∀ y, Finite ty y → le (valueOf ty y) → valueOf ty y ≤ v
  let up := Finite ty r ∧ ge v ∧ ∀ y, Finite ty y → ge (valueOf ty y) → v ≤ valueOf ty y
  (match rm with
    | .rne => (le (rneLimit ty) ∧ r = infPat ty false) ∨ (ge (-rneLimit ty) ∧ r = infPat ty true) ∨
        (¬ le (rneLimit ty) ∧ ¬ ge (-rneLimit ty) ∧ Finite ty r ∧ ∀ y, Finite ty y →
          let mid := (v + valueOf ty y) / 2
          (v < valueOf ty y → ge mid ∧ (le mid → r % 2 = 0)) ∧ (valueOf ty y < v → le mid ∧ (ge mid → r % 2 = 0)))
    | .rtz => (le 0 → down) ∧ (¬ le 0 → up)
    | .rdn => down ∨ (r = infPat ty true ∧ ∀ y, Finite ty y → ¬ le (valueOf ty y))
    | .rup => up ∨ (r = infPat ty false ∧ ∀ y, Finite ty y → ¬ ge (valueOf ty y))) ∧
  (Finite ty r → v = 0 → (signOf ty r = true ↔ (le 0 ∧ ge 0 ∧ zneg = true) ∨ ¬ le 0))

/-- `r` is Round(q) of a rational number (spec/07, R180). -/
def RoundsTo (ty : ETy) (rm : Rm) (q : Rat) (zneg : Bool) (r : Nat) : Prop := Rounds ty rm (· ≤ q) (q ≤ ·) zneg r

/-- `r` is Round(q) to E4M3, which has no infinity: an overflow, by rounding past 464 in RNE and past 448 on the mode's own side in
RUP and RDN, gives ±448, or the NaN under .NAN (spec/03, R82). -/
def RoundsE4 (rm : Rm) (nan : Bool) (q : Rat) (zneg : Bool) (r : Nat) : Prop :=
  if (rm = .rne ∧ (464 < q ∨ q < -464)) ∨ (rm = .rup ∧ 448 < q) ∨ (rm = .rdn ∧ q < -448) then
    r = if nan then 0x7F else if q < 0 then 0xFE else 0x7E
  else Finite .e4m3 r ∧ (signOf .e4m3 r = true ↔ q < 0 ∨ (q = 0 ∧ zneg = true)) ∧ ∀ y, Finite .e4m3 y →
    let v := valueOf .e4m3 r
    let w := valueOf .e4m3 y
    match rm with
    | .rne => (v < w → q ≤ (v + w) / 2 ∧ (q = (v + w) / 2 → r % 2 = 0)) ∧ (w < v → (v + w) / 2 ≤ q ∧ (q = (v + w) / 2 → r % 2 = 0))
    | .rtz => (0 ≤ q → v ≤ q ∧ (w ≤ q → w ≤ v)) ∧ (q < 0 → q ≤ v ∧ (q ≤ w → v ≤ w))
    | .rdn => v ≤ q ∧ (w ≤ q → w ≤ v)
    | .rup => q ≤ v ∧ (q ≤ w → v ≤ w)

/-- `r` is a rational number in a float type, under .NAN for E4M3 (spec/03, R82, R86). -/
def Converts (dst : ETy) (rm : Rm) (nan : Bool) (q : Rat) (zneg : Bool) (r : Nat) : Prop :=
  if dst = .e4m3 then RoundsE4 rm nan q zneg r else RoundsTo dst rm q zneg r

/-- `k` is `q` rounded to an integer (spec/03, R80, R86). -/
def RoundsInt (rm : Rm) (q : Rat) (k : Int) : Prop :=
  match rm with
  | .rne => 2 * (k - q) ≤ 1 ∧ 2 * (q - k) ≤ 1 ∧ ((2 * (k - q) = 1 ∨ 2 * (q - k) = 1) → k % 2 = 0)
  | .rtz => (0 ≤ q → (k : Rat) ≤ q ∧ q < k + 1) ∧ (q < 0 → q ≤ k ∧ (k : Rat) - 1 < q)
  | .rdn => (k : Rat) ≤ q ∧ q < k + 1
  | .rup => q ≤ k ∧ (k : Rat) - 1 < q

/-- A pattern is a NaN, or an infinity, of a float type (spec/03, R76). -/
def NanPat (ty : ETy) (x : Nat) : Prop := if ty = .e4m3 then x % 128 = 127 else IsNan ty x
def InfPat (ty : ETy) (x : Nat) : Prop := ty ≠ .e4m3 ∧ expOf ty x = 2 ^ (format ty).1 - 1 ∧ mantOf ty x = 0
def canonicalNan (ty : ETy) : Nat :=
  match ty with
  | .e4m3 => 0x7F
  | .e5m2 => 0x7E
  | _ => nanPat ty

/-- Twice the decoded value D of a 4-bit code (spec/03, R88), and twice the largest one of a type (R90). -/
def twiceCode (q : B4Ty) (code : Nat) : Int :=
  match q with
  | .uni => [0, 2, 4, 6, 8, 10, 12, 14, -16, -14, -12, -10, -8, -6, -4, -2].getD code 0
  | .e2m1 => [0, 1, 2, 3, 4, 6, 8, 12, 0, -1, -2, -3, -4, -6, -8, -12].getD code 0
  | .pow => [0, 2, 4, 8, 16, 32, 64, 128, 0, -2, -4, -8, -16, -32, -64, -128].getD code 0
  | .hyb => [0, 2, 4, 6, 8, 16, 32, 64, 0, -2, -4, -6, -8, -16, -32, -64].getD code 0
def twiceMax (q : B4Ty) : Int :=
  match q with
  | .uni => 14
  | .e2m1 => 12
  | .pow => 128
  | .hyb => 64

/-- The value of a code in a block of exponent E (spec/03, R87). -/
def b4Value (q : B4Ty) (e code : Nat) : Rat := (twiceCode q code : Rat) * pow2 ((e : Int) - 33)

/-- `e` is the block exponent of 32 elements, and `code j` their codes (spec/03, R90). -/
def Quantised (q : B4Ty) (src : ETy) (el : Nat → Nat) (e : Nat) (code : Nat → Nat) : Prop :=
  let max (e : Nat) : Rat := (twiceMax q : Rat) * pow2 ((e : Int) - 33)
  let beyond (e j : Nat) : Prop := Finite src (el j) ∧ (max e < valueOf src (el j) ∨ valueOf src (el j) < -max e)
  e < 64 ∧ (∀ f, f < e → ∃ j, j < 32 ∧ beyond f j) ∧ (e < 63 → ∀ j, j < 32 → ¬ beyond e j) ∧
  ∀ j, j < 32 →
    (NanPat src (el j) → code j = 0) ∧
    (InfPat src (el j) → code j = if signOf src (el j) then (if q = .uni then 8 else 15) else 7) ∧
    (Finite src (el j) → let x := valueOf src (el j)
      (twiceCode q (code j) = 0 → code j = 0) ∧ ∀ c, c < 16 →
        let v := b4Value q e (code j)
        let w := b4Value q e c
        (v < w → x ≤ (v + w) / 2 ∧ (x = (v + w) / 2 → code j % 2 = 0)) ∧
          (w < v → (v + w) / 2 ≤ x ∧ (x = (v + w) / 2 → code j % 2 = 0)))

/-- A number that grows with the value of a pattern that is no NaN, −0 below +0 (spec/07, R183). -/
def orderOf (ty : ETy) (x : Nat) : Int := if signOf ty x then -1 - ((x % 2 ^ (ty.width - 1) : Nat) : Int) else x

/-! ### Reductions -/

/-- Two inputs of a step, of which either may be absent (spec/03, R93). -/
def combined (f : Nat → Nat → Nat) (a b : Option Nat) : Option Nat :=
  match a, b with
  | some x, some y => some (f x y)
  | some x, none => some x
  | none, y => y

/-- The tree of spec/03, R92, over 2^k elements: element i combines with element i + s, for s = 2^(k−1), …, 1. -/
def treeOf (f : Nat → Nat → Nat) : Nat → (Nat → Option Nat) → Option Nat
  | 0, n => n 0
  | k + 1, n => treeOf f k fun i => combined f (n i) (n (i + 2 ^ k))

/-- The inclusive prefix of spec/03, R94: `k` steps d, 2d, 4d, …, each making every element i from d on Op(y[i−d], y[i]). -/
def prefixOf (f : Nat → Nat → Nat) : Nat → Nat → (Nat → Option Nat) → Nat → Option Nat
  | 0, _, y => y
  | k + 1, d, y => prefixOf f k (2 * d) fun i => if d ≤ i then combined f (y (i - d)) (y i) else y i

/-- The step of VRED and VSCAN (spec/07, R199): a float step is that of VADD, VMIN or VMAX. -/
def foldStep (op : RedOp) (ty : ETy) (rm : Rm) (sat : Bool) (x y : Nat) : Nat :=
  let h : Hdr := ⟨0, 0, 0, 0, 0⟩
  let u : OpVC := .v 0
  let v : OpVSC := .v 0
  match op with
  | .sum => if ty.isFloat then laneOp (.vadd h u u v ty rm false) x y 0 else fitted ty sat (numOf ty x + numOf ty y)
  | .min => laneOp (.vmin h u u v ty false false) x y 0
  | .max => laneOp (.vmax h u u v ty false false) x y 0
  | .and => x &&& y
  | .or => x ||| y
  | .xor => x ^^^ y

/-- The value when every element is absent (spec/07, R199). -/
def identityOf (op : RedOp) (ty : ETy) : Nat :=
  match op with
  | .sum | .or | .xor => 0
  | .and => 2 ^ ty.width - 1
  | .min => if ty.isFloat then infPat ty false else if ty.isSigned then 2 ^ (ty.width - 1) - 1 else 2 ^ ty.width - 1
  | .max => if ty.isFloat then infPat ty true else if ty.isSigned then 2 ^ (ty.width - 1) else 0

/-- A result element, the canonical NaN for every NaN (spec/03, R84). -/
def canonical (ty : ETy) (x : Nat) : Nat :=
  if ty.isFloat ∧ expOf ty x = 2 ^ (format ty).1 - 1 ∧ mantOf ty x ≠ 0 then nanPat ty else x

/-! ### Memory -/

/-- The context of the strand in focus. -/
def ctxOf (s : State) : Ctx := s.ctx s.me.settle.ctx

/-- A launch-ending trap takes place: the context has a current launch without a cause yet (spec/12, R308). -/
def CanEnd (s : State) : Prop :=
  s.me.id ≠ 0 ∧ (s.ctx s.me.settle.ctx).cur.isSome = true ∧ s.ended s.me.settle.ctx = false

/-- The next state is the launch-ending trap of the strand in focus: the launch has an ending, and the trap record holds the
cause's code, the PC and the address (spec/12, R305, R309; spec/01, R48). -/
def EndsWith (i : Instr) (s : State) (code : Nat) (addr : Nat) : Prop :=
  ∃ t, exec i s = .next t ∧ t.ended s.me.settle.ctx = true ∧ t.me.trap.valid = true ∧
    t.me.trap.cause = BitVec.ofNat 16 code ∧ t.me.trap.pc = s.me.settle.pc ∧ t.me.trap.addr = BitVec.ofNat 64 addr

/-- No side-log entry of the strand in focus holds back accesses: none is on a page that they touch, and none holds an SO access
when one of them is SO (spec/08, R212). -/
def NoOwn (s : State) (k : Acc) (l : List Access) : Prop :=
  (∀ e ∈ (settled s).slogOf s.me.settle.id, ∀ x ∈ l, ∀ p ∈ partsOf x.ea x.n, e.page ≠ pageOf p.va) ∧
  ((∃ e ∈ (settled s).slogOf s.me.settle.id, (settled s).slogHoldsSo e = true) →
    ∀ leaf ∈ (settled s).leaves (ctxOf s) k l, pteOrd leaf ≠ 1)

/-- A release has no side-log entry of its strand left to wait for (spec/08, R214). -/
def Released (s : State) (sem : Sem) : Prop := sem = .rel → (settled s).slogOf s.me.settle.id = []

/-- Accesses of the strand in focus that pass their checks, and that no side-log entry of it holds back. -/
def Ready (s : State) (k : Acc) (l : List Access) : Prop :=
  (settled s).checkAll (ctxOf s) k l = .fine ∧ NoOwn s k l

/-- The state once the accesses have touched the objects behind them (spec/13, R345). -/
def touched (s : State) (k : Acc) (l : List Access) : State := (settled s).touchAll (ctxOf s) k l

/-- The byte of memory at the place that the walk of a virtual address gives (spec/13, R334, R344, R345). -/
def byteVa (s : State) (c : Ctx) (va : Nat) : Byte :=
  match s.walk c va .none with
  | .ok (pa, _) => s.mem.byte (s.place pa)
  | .error _ => 0

/-- The little-endian number of `n` bytes at a virtual address (spec/08, R204). -/
def numberAt (s : State) (c : Ctx) (va n : Nat) : Nat := natOf ((List.range n).map fun i => byteVa s c (va + i))

/-- That number for the strand in focus, once the accesses of its word have touched what they reach. -/
def bytesAt (s : State) (k : Acc) (l : List Access) (va n : Nat) : Nat := numberAt (touched s k l) (ctxOf s) va n

/-- Index of a virtual address in a table of a level, and the size of the leaf page of a level (spec/13, R332). -/
def tableIndex (va l : Nat) : Nat :=
  match l with
  | 0 => va / 2 ^ 12 % 16
  | 1 => va / 2 ^ 16 % 32
  | 2 => va / 2 ^ 21 % 512
  | 3 => va / 2 ^ 30 % 512
  | 4 => va / 2 ^ 39 % 512
  | _ => va / 2 ^ 48 % 512
def pageSize (l : Nat) : Nat :=
  match l with
  | 0 => 2 ^ 12
  | 1 => 2 ^ 16
  | 2 => 2 ^ 21
  | _ => 2 ^ 30

/-- Size and alignment of a table of a level (spec/13, R332). -/
def tableSize (l : Nat) : Nat :=
  match l with
  | 0 => 128
  | 1 => 256
  | _ => 4096

/-- ADDR of an entry (spec/13, R333). -/
def entryAddr (e : W64) : Nat := (e.extractLsb' 7 45).toNat * 128

/-- A present entry is malformed at a level (spec/13, R336). -/
def Malformed (s : State) (e : W64) (l : Nat) : Prop :=
  let a := entryAddr e
  let leaf := e.getLsbD 1 = true
  let kv := e.getLsbD 54 = true
  let tier := e.extractLsb' 52 2
  (leaf ∧ 4 ≤ l) ∨ (¬ leaf ∧ l = 0) ∨
  (¬ leaf ∧ (e.getLsbD 55 = true ∨ kv ∨ tier ≠ 0 ∨ e.extractLsb' 2 5 ≠ 0 ∨ a % tableSize (l - 1) ≠ 0)) ∨
  (leaf ∧ (a % pageSize l ≠ 0 ∨ e.extractLsb' 5 2 = 3 ∨ tier = 3)) ∨
  (leaf ∧ ¬ kv ∧ (tier ≠ 0 ∨ 2 ^ 51 ≤ a)) ∨
  (leaf ∧ kv ∧ (a < 2 ^ 51 ∨ l = 3 ∨ l = 2 ∨ ∀ o ∈ s.objs, a < o.addr ∨ o.addr + o.size ≤ a))

/-- A leaf grants the rights of an access (spec/13, R337). -/
def Granted (k : Acc) (e : W64) : Prop :=
  match k with
  | .r => e.getLsbD 2 = true
  | .w => e.getLsbD 3 = true
  | .rw => e.getLsbD 2 = true ∧ e.getLsbD 3 = true
  | .drain => e.getLsbD 3 = true
  | .x => e.getLsbD 4 = true
  | .none => True

/-- An element as 64 bits: sign-extended for an I type, otherwise zero-extended (spec/08, R206). -/
def widened (ty : ETy) (x : Nat) : W64 :=
  if ty.isSigned then (BitVec.ofNat ty.width x).signExtend 64 else BitVec.ofNat 64 (x % 2 ^ ty.width)

/-- Address of lane `i` of a gather (spec/08, R208): base plus the lane's signed index times the element size, modulo 2^64. -/
def laneAddr (m : Strand) (a : SReg) (off : BitVec w) (b : VReg) (n i : Nat) : Nat :=
  (m.readS a + off.signExtend 64 + (BitVec.ofNat 32 (laneAt (m.readV b) i)).signExtend 64 * BitVec.ofNat 64 n).toNat

/-- The enabled lanes in increasing order. -/
def onLanes (g : W64) : List Nat := (List.range 64).filter fun i => g.getLsbD i

/-- The value that an integer atomic leaves (spec/08, R215, R216). -/
def newValue (ty : ETy) (op : Rmw) (old v : Nat) : Nat :=
  match op with
  | .add => (old + v) % 2 ^ ty.width
  | .max => if numOf ty old < numOf ty v then v else old
  | .min => if numOf ty v < numOf ty old then v else old
  | .and => old &&& v
  | .or => old ||| v
  | .xor => old ^^^ v
  | .xchg => v
  | .cas e => if old = e.toNat % 2 ^ ty.width then v else old

/-! ### Engine commands -/

/-- `n` consecutive S registers. -/
def span (r : SReg) (n : Nat) : List SReg := (List.range n).map fun k => r + Fin.ofNat 64 k

/-- Header, token fields and captured registers of an engine command (spec/05, R139; spec/09, R223). -/
def command : Instr → Option (Hdr × EnH × List SReg)
  | .mma h e _ _ _ sco _ _ => some (h, e, span sco 2)
  | .mmas h e _ _ sco _ _ => some (h, e, span sco 3)
  | .mmat h e _ _ _ sco _ => some (h, e, span sco 3)
  | .aclr h e _ => some (h, e, [])
  | .acvt h e _ _ sco _ _ _ _ => some (h, e, span sco 1)
  | .amov h e _ _ => some (h, e, [])
  | .amovTid h e _ _ sco => some (h, e, span sco 1)
  | .cpy h e sb _ _ _ _ => some (h, e, span sb 4)
  | .gthr h e _ _ sb => some (h, e, span sb 2)
  | .gidx h e _ sb => some (h, e, span sb 2)
  | .xrun h e sb _ => some (h, e, span sb 4)
  | .xpost h e _ => some (h, e, [])
  | .xwait h e sc _ _ => some (h, e, [sc])
  | .waitk h e _ => some (h, e, [])
  | .kvh h e sb => some (h, e, span sb 3)
  | .kvlk h e sb => some (h, e, span sb 2)
  | .kvins h e sb => some (h, e, span sb 2)
  | .kvpin h e sb => some (h, e, span sb 2)
  | .kvunp h e sb => some (h, e, span sb 2)
  | .kvmap h e sb => some (h, e, span sb 2)
  | .kvmapRel h e sb => some (h, e, span sb 2)
  | .kvpub h e sb => some (h, e, span sb 4)
  | .attn h e _ _ sb _ _ => some (h, e, span sb 3)
  | .cred h e sb _ _ _ => some (h, e, span sb 3)
  | .cgth h e sb _ => some (h, e, span sb 4)
  | .csnd h e sb _ _ => some (h, e, span sb 2)
  | .crcv h e sb _ _ => some (h, e, span sb 3)
  | .launch h e sb => some (h, e, span sb 2)
  | _ => none

/-- The high and low word of captured doubleword `k`. -/
def hiOf (o : List W64) (k : Nat) : Nat := (o.getD k 0).toNat / 2 ^ 32
def loOf (o : List W64) (k : Nat) : Nat := (o.getD k 0).toNat % 2 ^ 32

/-- Each window range (offset, length) is aligned to its number, and lies in the window unless it is empty (spec/10, R261). -/
def Ranges (m : Strand) (l : List (Nat × Nat × Nat)) : Prop :=
  ∀ p ∈ l, p.1 % p.2.2 = 0 ∧ (p.2.1 = 0 ∨ p.1 + p.2.1 ≤ m.winSize)

/-- What journaling asks of a command's captured doublewords `o` and tensor entries `ts` (spec/09, R234 to R250; spec/10, R261
to R283). -/
def Accepts (s : State) (i : Instr) (o : List W64) (ts : List Tid) : Prop :=
  match i with
  | .mma _ _ _ _ _ _ acct sat => mmaCheck acct sat s o ts = none
  | .mmas _ _ _ _ _ acct sat => mmasCheck acct sat s o ts = none
  | .mmat .. => mmaCheck false false s o ts = none
  | .aclr .. => s.matrixOk = true
  | .acvt _ _ _ _ _ acct sat rm nan => s.matrixOk = true ∧ ∃ d, ts = [d] ∧ d.ty ≠ .b4 ∧ d.bpt = false ∧
      (rm = .rne ∨ acct = false ∨ d.ty.isFloat = true) ∧ (sat = true → acct = true ∧ d.ty.isFloat = false) ∧
      (nan = true → d.ty = .e4m3)
  | .amov .. => s.matrixOk = true
  | .amovTid .. => s.matrixOk = true ∧ ∃ t, ts = [t] ∧ t.ty ∈ [ETy.f32, .i32, .n32] ∧ t.bpt = false
  | .cpy _ _ _ _ nsc d2 noff => (d2 = false → hiOf o 2 = 0) ∧ (nsc ≠ .off → 16 * noff.toNat + 8 ≤ s.me.winSize)
  | .gthr .. => ∃ d x, ts = [d, x] ∧ d.ty = x.ty ∧ d.cols = x.cols ∧ d.bpt = false ∧ x.bpt = false
  | .gidx .. => ∃ t, ts = [t] ∧ t.ty = .n32 ∧ t.rows = 1 ∧ t.bpt = false
  | .xrun _ _ _ entry => ∃ l, s.launchOf s.me = some l ∧ l.xform = true ∧ (entry ≠ 0 ∨ l.xentry ≠ 0)
  | .xpost .. => s.me.evs ≠ []
  | .xwait .. => s.me.evs ≠ []
  | .waitk .. => True
  | .kvh .. => 1 ≤ hiOf o 0 ∧ hiOf o 0 ≤ 65536 ∧ fieldN (o.getD 2 0) 55 8 = 0 ∧
      Ranges s.me [(loOf o 0, 64 * hiOf o 0, 4), (fieldN (o.getD 2 0) 32 23, if (o.getD 2 0).getLsbD 63 then 16 else 0, 16),
        (loOf o 2, 16 * hiOf o 0, 16)]
  | .kvlk .. => 1 ≤ hiOf o 0 ∧ hiOf o 0 ≤ 256 ∧ Ranges s.me [(loOf o 0, 16 * hiOf o 0, 16), (loOf o 1, 8 + 8 * hiOf o 0, 8)]
  | .kvins .. => 1 ≤ hiOf o 0 ∧ hiOf o 0 ≤ 256 ∧ Ranges s.me [(loOf o 0, 32 * hiOf o 0, 32), (loOf o 1, 8 + hiOf o 0, 8)]
  | .kvpin .. => 1 ≤ hiOf o 0 ∧ hiOf o 0 ≤ 256 ∧ Ranges s.me [(loOf o 0, 16 * hiOf o 0, 16), (loOf o 1, 8, 8)]
  | .kvunp .. => 1 ≤ hiOf o 0 ∧ hiOf o 0 ≤ 256 ∧ Ranges s.me [(loOf o 0, 16 * hiOf o 0, 16), (loOf o 1, 8, 8)]
  | .kvmap .. => (o.getD 0 0).toNat % 64 = 0 ∧ Ranges s.me [(loOf o 1, 24, 8)]
  | .kvmapRel .. => (o.getD 0 0).toNat % 64 = 0
  | .kvpub .. => (o.getD 0 0).toNat % 64 = 0 ∧ (o.getD 2 0).toNat % 8 = 0 ∧ Ranges s.me [(hiOf o 3, 8, 8)]
  | .attn .. => ∃ q x, ts = [q, x] ∧ (∀ t ∈ [q, x], t.pad = true → ∀ r, r < q.rows →
      t.base + r * t.stride + (t.cols * t.w + 7) / 8 ≤ s.me.winSize) ∧ (o.getD 0 0).toNat % 64 = 0 ∧ q.ty ∈ [ETy.f32, .bf16] ∧ q.pad = true ∧ q.bpt = false ∧
      1 ≤ q.rows ∧ q.rows ≤ 32 ∧ q.cols % 32 = 0 ∧ 32 ≤ q.cols ∧ q.cols ≤ 256 ∧ x.ty ∈ [ETy.f32, .bf16] ∧ x.bpt = false ∧
      q.rows ≤ x.rows ∧ x.cols = q.cols
  | .cred _ _ _ op ty tag => s.callClash tag (.cred op ty (loOf o 2)) = false ∧ hiOf o 2 ≤ loOf o 2 ∧ loOf o 2 ≤ 2 ^ 24 ∧ (o.getD 0 0).toNat % 4 = 0 ∧ (o.getD 1 0).toNat % 4 = 0
  | .cgth _ _ _ tag => s.callClash tag .cgth = false ∧ Ranges s.me [(loOf o 3, 8, 8)]
  | .csnd _ _ _ p _ => s.peerOk p = true
  | .crcv _ _ _ p _ => s.peerOk p = true ∧ Ranges s.me [(loOf o 2, 8, 8)]
  | .launch .. => (o.getD 0 0).toNat % 128 = 0 ∧ Ranges s.me [(loOf o 1, 8, 8)]
  | _ => False

/-- The wait that follows a command of sequence number `q`: WAITK and XWAIT wait for their own completion, and a stepped LAUNCH
for its stop (spec/09, R252; spec/10, R284; spec/12, R330). -/
def waitOf (m : Strand) (i : Instr) (q : W32) : Wait :=
  match i with
  | .waitk _ _ b => .waitk q b
  | .xwait _ _ _ b ev => .xwait q ev b
  | .launch .. => if m.step then .stepLaunch q m.xfer.valid else .none
  | _ => .none

/-- LAUNCH takes its STEP stop at the end of that wait (spec/12, R330). -/
def stepsLater (i : Instr) : Bool :=
  match i with
  | .launch .. => true
  | _ => false

/-- A step of the transform sequencer leaves the run `r` after its word. -/
def xsGoes (s : State) (r : XRunning) : State := s.xsLand s.me r (r.advance 3)

/-- Block `q` of XDEC, XENC, XQNT and XBP (spec/09, R257, R258). -/
def decBlock (m : Strand) (d a : W64) (p q : Nat) : EM Unit := do
  let bs ← xRead m false (sumAddr a (p * q)) p 1
  match qzDecode p bs with
  | none => eTrap .compressOverflow 0
  | some out => xWrite m true (sumAddr d (512 * q)) 1 out
def encBlock (m : Strand) (d a : W64) (p q : Nat) : EM Unit := do
  if a.toNat % 64 != 0 then eTrap .align a.toNat
  if d.toNat % 32 != 0 then eTrap .align d.toNat
  let bs ← xRead m true (sumAddr a (512 * q)) 512 1
  match qzEncode p bs with
  | none => eTrap .compressOverflow 0
  | some out => xWrite m false (sumAddr d (p * q)) 1 out
def qntBlock (m : Strand) (d a b : W64) (src : ETy) (q : B4Ty) (k : Nat) : EM Unit := do
  let w := src.width
  let x := natOf (← xRead m true (sumAddr a (4 * w * k)) (4 * w) (w / 8))
  let y := b4Quant q ((upto 32).map fun i => fdec src (x / 2 ^ (w * i) % 2 ^ w))
  xWrite m true (sumAddr d (16 * k)) 1 (bytesOf 16 (packN 4 (fun i => y.2.getD i 0) 32))
  xWrite m true (sumAddr b k) 1 (bytesOf 1 (b4Scale q y.1))
def bpBlock (m : Strand) (d a b : W64) (ty : ETy) (k : Nat) : EM Unit := do
  let w := ty.width
  if d.toNat % 64 != 0 then eTrap .align d.toNat
  let rows ← (upto 32).mapM fun i => do
    return natOf (← xRead m true (sumAddr a (i * b.toNat + 48 * k)) 48 (Nat.max 1 (w / 8)))
  xWrite m true (sumAddr d (1536 * k)) 1 (planes w rows)

/-! ### What engine commands do -/

/-- Entry `q` of a strand, on which an engine works: its strand is resident (or halted beside a resident context), its launch
runs, and a gang of several packages has a link (spec/09, R224 to R226; spec/10, R282). -/
def Works (s : State) (m : Strand) (e : JEntry) (q : W32) : Prop :=
  s.strand m.id = some m ∧ m.jfind q = some e ∧ s.engineLive m e = true ∧ e.eng ≠ 0 ∧
  (engineOf e.cmd = 6 → s.npkg m ≤ 1 ∨ s.plat.ualen ≠ 0)

/-- A micro-step of the entry answers `t`, with the entry's new fields (spec/09, R225). -/
def Steps (s : State) (m : Strand) (q : W32) (e1 : JEntry) (t : State) : Prop :=
  exec (.engineMicroStep m.id q) s = .next (t.setEntry m.id e1)

/-- The command completes with its last effects in `t` (spec/09, R225). -/
def Completes (s : State) (m : Strand) (q : W32) (t : State) : Prop :=
  exec (.engineCommandComplete m.id q) s = .next (t.completeEntry m.id q)

/-- `n` bytes of the strand's window from offset `a`: as a number, readable, and in the window (spec/08, R209). -/
def padNat (s : State) (m : Strand) (a n : Nat) : Nat := natOf (s.sram.read (m.winAddr a) n)
def Within (m : Strand) (a n : Nat) : Prop := a + n ≤ m.winSize
def OnPad (s : State) (m : Strand) (a n : Nat) : Prop :=
  Within m a n ∧ ∀ i, i < n → tget false s.sramPoison (m.winAddr (a + i) / 8) = false

/-- Only tile SRAM differs, and only `n` bytes from offset `a` of the window, which hold `bs`. -/
def PadBecomes (s t : State) (m : Strand) (a n : Nat) (bs : Nat → Byte) : Prop :=
  t = { s with sram := t.sram, sramPoison := t.sramPoison } ∧
  (s.sram.wf = true → (∀ i, i < n → t.sram.byte (m.winAddr a + i) = bs i) ∧
    ∀ x, (x < m.winAddr a ∨ m.winAddr a + n ≤ x) → t.sram.byte x = s.sram.byte x)

/-- Byte `i` of a number. -/
def byteOf (x i : Nat) : Byte := BitVec.ofNat 8 (x / 2 ^ (8 * i))

/-- The accesses of a step have only started moves of objects (spec/13, R345). -/
def OnlyTouched (s u : State) : Prop :=
  u = { s with objs := u.objs } ∧ ∀ o ∈ u.objs, ∃ p ∈ s.objs, o = { p with moveTo := o.moveTo, moveWake := o.moveWake }

/-- `n` bytes at a virtual address are readable, or writable, by the context of a strand (spec/08, R210). -/
def MemOk (s : State) (m : Strand) (k : Acc) (a n : Nat) : Prop :=
  s.checkAll (s.ctx m.ctx) k [⟨none, a, n, 1⟩] = .fine
def memByte (s : State) (m : Strand) (a : Nat) : Byte := byteVa s (s.ctx m.ctx) a
def memNat (s : State) (m : Strand) (a n : Nat) : Nat := numberAt s (s.ctx m.ctx) a n

/-! #### Matrix commands -/

/-- The number that a finite exact value stands for. -/
def ratOf (v : FV) : Rat :=
  match v with
  | .fin neg m e => (if neg then -1 else 1) * (m : Rat) * pow2 e
  | .nan => 0
  | .inf _ => 0

def IsFin (v : FV) : Prop := ∃ n m e, v = .fin n m e

/-- The decoded value of a B4 code (spec/03, R88). -/
def codeValue (q : B4Ty) (c : Nat) : Rat :=
  let mag : List Rat := match q with
    | .uni => []
    | .e2m1 => [0, 1 / 2, 1, 3 / 2, 2, 3, 4, 6]
    | .pow => [0, 1, 2, 4, 8, 16, 32, 64]
    | .hyb => [0, 1, 2, 3, 4, 8, 16, 32]
  match q with
  | .uni => if c % 16 < 8 then (c % 16 : Nat) else ((c % 16 : Nat) : Rat) - 16
  | _ => if c % 16 < 8 then mag.getD (c % 8) 0 else -(mag.getD (c % 8) 0)

/-- What the elements of tensors stand for, and their exact products (spec/03, R77, R78, R87, R88, R95; spec/02, R63). -/
def ElementValues : Prop :=
  (∀ ty x, ty.isFloat = true → Finite ty x → IsFin (fdec ty x) ∧ ratOf (fdec ty x) = valueOf ty x) ∧
  (∀ (t : Tid) (x sc : Nat), t.planes = 0 → x < 2 ^ t.w →
    (t.ty = .b4 → sc < 256 → IsFin (t.val x sc) ∧
      ratOf (t.val x sc) = codeValue (B4Ty.ofCode (BitVec.ofNat 2 (sc / 64))) x * pow2 ((sc % 64 : Nat) - 32)) ∧
    (t.ty.isInt = true → IsFin (t.val x sc) ∧ ratOf (t.val x sc) = numOf t.ty x) ∧
    (t.ty.isFloat = true → t.val x sc = fdec t.ty x)) ∧
  (∀ (t : Tid) (x sc : Nat), t.planes ≤ t.w → t.planes ≠ 0 → x < 2 ^ t.w → t.ty.isInt = true →
    ratOf (t.val x sc) = numOf t.ty (x - x % 2 ^ (t.w - t.planes))) ∧
  (∀ a b, IsFin a → IsFin b → IsFin (fvMul a b) ∧ ratOf (fvMul a b) = ratOf a * ratOf b)

/-- The accumulation of K products into one element (spec/03, R96 to R98). -/
def Accumulation : Prop :=
  (∀ (b4 : Bool) (acc : Nat) (ps : List FV) (w : Rat), acc < 2 ^ 32 → Finite .f32 acc → (∀ p ∈ ps, IsFin p) →
    let sum := (ps.map ratOf).sum
    ((b4 = true ∨ ∀ p ∈ ps, ratOf p = 0) → w = sum → RoundsTo .f32 .rne (valueOf .f32 acc + w) false (accF32 b4 acc ps)) ∧
    (b4 = false → ∀ e : Int, (∃ p ∈ ps, ratOf p ≤ -pow2 e ∨ pow2 e ≤ ratOf p) →
      (∀ p ∈ ps, -pow2 (e + 1) < ratOf p ∧ ratOf p < pow2 (e + 1)) →
      w = ((sum / pow2 (e - 95)).floor : Rat) * pow2 (e - 95) →
      RoundsTo .f32 .rne (valueOf .f32 acc + w) false (accF32 b4 acc ps))) ∧
  (∀ (b4 : Bool) (acc : Nat) (ps : List FV), acc < 2 ^ 32 →
    let bad := IsNan .f32 acc ∨ FV.nan ∈ ps ∨ (FV.inf false ∈ ps ∧ FV.inf true ∈ ps) ∨
      ∃ n, FV.inf n ∈ ps ∧ acc = infPat .f32 (!n)
    (bad → accF32 b4 acc ps = 0x7FC00000) ∧
    (¬ bad → ∀ n, FV.inf n ∈ ps → accF32 b4 acc ps = infPat .f32 n) ∧
    (¬ bad → (∀ n, FV.inf n ∉ ps) → ∀ n, acc = infPat .f32 n → accF32 b4 acc ps = acc)) ∧
  (∀ (sat : Bool) (acc : Nat) (zs : List Int), acc < 2 ^ 32 →
    accI32 sat acc (zs.map fun z => .fin (decide (z < 0)) z.natAbs 0) = fitted .i32 sat (numOf .i32 acc + zs.sum))

/-- Element `x` of row `r` of an A tile (plane layout, spec/09, R235), and of row `c` of a B tile (row layout, spec/03, R89;
spec/09, R236): exact values, 0 beyond the tensor. -/
def tileA (s : State) (m : Strand) (t : Tid) (i kk r x : Nat) : FV :=
  let w := t.w
  let k := 384 / w
  if t.rows ≤ 32 * i + r ∨ t.cols ≤ kk * k + x then .fin false 0 0
  else
    let bit (p : Nat) : Nat :=
      padNat s m (t.base + 32 * t.stride * i + 1536 * kk + (w - 1 - p) * (1536 / w) + r * (k / 8) + x / 8) 1 / 2 ^ (x % 8) % 2
    t.val (((List.range w).map fun p => if w - t.prec ≤ p then 2 ^ p * bit p else 0).sum)
      (if t.ty = .b4 then padNat s m (t.sbase + (32 * i + r) * (t.cols / 32) + (kk * k + x) / 32) 1 else 0)
def tileB (s : State) (m : Strand) (t : Tid) (j kk c x : Nat) : FV :=
  let w := t.w
  if t.rows ≤ 32 * j + c ∨ t.cols ≤ kk * (384 / w) + x then .fin false 0 0
  else
    t.val (padNat s m (t.base + (32 * j + c) * t.stride + 48 * kk) 48 / 2 ^ (w * x) % 2 ^ w)
      (if t.ty = .b4 then padNat s m (t.sbase + (32 * j + c) * (t.cols / 32) + (kk * (384 / w) + x) / 32) 1 else 0)

/-- The element after one K step: the products of K pairs accumulated into it. -/
def accumulated (acct sat b4 : Bool) (old : Nat) (ps : List FV) : Nat :=
  if acct then accI32 sat old ps else accF32 b4 old ps

/-- The elements of an accumulator after one K step of MMA and MMAS whose operands are readable (spec/09, R236, R239, R241). -/
def MatrixSteps : Prop :=
  (∀ (s : State) (m : Strand) (a b : Tid) (i j kk : Nat) (acct sat : Bool) (acc : List Nat),
    let k := 384 / a.w
    a.pad = true → b.pad = true → a.w ∈ [4, 8, 16] → a.w = b.w → a.prec ≤ a.w →
    32 * i < a.rows → kk * k < a.cols → 32 * j < b.rows → kk * k < b.cols →
    OnPad s m (a.base + 32 * a.stride * i + 1536 * kk) 1536 →
    (∀ c, c < 32 → 32 * j + c < b.rows → OnPad s m (b.base + (32 * j + c) * b.stride + 48 * kk) 48) →
    (a.ty = .b4 → ∀ r, r < 32 → 32 * i + r < a.rows → OnPad s m (a.sbase + (32 * i + r) * (a.cols / 32) + 3 * kk) 3) →
    (b.ty = .b4 → ∀ c, c < 32 → 32 * j + c < b.rows → OnPad s m (b.sbase + (32 * j + c) * (b.cols / 32) + 3 * kk) 3) →
    mmaStep m a b i j kk acct sat acc s = .ok (acc.mapIdx fun q x => accumulated acct sat (decide (a.ty = .b4)) x
      ((List.range k).map fun n => fvMul (tileA s m a i kk (q / 32) n) (tileB s m b j kk (q % 32) n)), s)) ∧
  (∀ (s : State) (m : Strand) (a tp ti tv : Tid) (i j kk : Nat) (acct sat : Bool) (acc : List Nat),
    let k := 384 / a.w
    let ptr (b : Nat) : Nat := padNat s m (tp.base + 4 * b) 4
    let idx (q : Nat) : Nat := padNat s m (ti.base + 4 * q) 4
    let row (c : Nat) : List Nat :=
      ((List.range (ptr (32 * j + c + 1) - ptr (32 * j + c))).map (ptr (32 * j + c) + ·)).filter fun q => idx q / k = kk
    a.pad = true → tp.pad = true → ti.pad = true → tv.pad = true → tp.ty = .n32 → ti.ty = .n32 → tp.planes = 0 → ti.planes = 0 →
    a.w ∈ [8, 16] → a.ty ≠ .b4 → tv.w = a.w → a.prec ≤ a.w → 32 * i < a.rows → kk * k < a.cols →
    OnPad s m (a.base + 32 * a.stride * i + 1536 * kk) 1536 →
    (∀ c, c < 32 → 32 * j + c + 1 < tp.cols → OnPad s m (tp.base + 4 * (32 * j + c)) 8 ∧
      ptr (32 * j + c) ≤ ptr (32 * j + c + 1) ∧ ptr (32 * j + c + 1) ≤ ti.cols ∧
      ∀ q, ptr (32 * j + c) ≤ q → q < ptr (32 * j + c + 1) → OnPad s m (ti.base + 4 * q) 4 ∧ idx q < a.cols ∧
        OnPad s m (tv.base + q * (tv.w / 8)) (tv.w / 8)) →
    mmasStep m a tp ti tv i j kk acct sat acc s = .ok (acc.mapIdx fun p x =>
      if tp.cols - 1 ≤ 32 * j + p % 32 then x else accumulated acct sat false x
        ((row (p % 32)).map fun q => fvMul (tileA s m a i kk (p / 32) (idx q - kk * k))
          (tv.val (padNat s m (tv.base + q * (tv.w / 8)) (tv.w / 8)) 0)), s))

/-- Where accumulator `n` begins, its elements, and that its 4,096 bytes are readable (spec/09, R237). -/
def accAt (s : State) (m : Strand) (n : Nat) : Nat :=
  (match s.launchOf m with
    | some l => l.spneed * 4096
    | none => 0) + 4096 * n
def accs (s : State) (m : Strand) (n : Nat) : List Nat := (List.range 1024).map fun k => padNat s m (accAt s m n + 4 * k) 4
def AccReady (s : State) (m : Strand) (n : Nat) : Prop := OnPad s m (accAt s m n) 4096

/-- Only accumulator `n` differs: element `k` is `f k`. -/
def AccBecomes (s t : State) (m : Strand) (n : Nat) (f : Nat → Nat) : Prop :=
  PadBecomes s t m (accAt s m n) 4096 fun i => byteOf (f (i / 4)) (i % 4)

/-- The matrix commands (spec/09, R239 to R244), on entries whose operands lie readable in the window. -/
def MatrixCommands : Prop :=
  ∀ (s : State) (m : Strand) (e : JEntry) (q : W32) (h : Hdr) (en : EnH) (ac acs : AcReg) (ta tb mask : Byte) (sco : SReg)
    (acct sat fill nan : Bool) (rm : Rm), Works s m e q →
  let i := e.hi 0
  let j := e.lo 0
  let n := e.upc.toNat
  let t := e.tid 0
  let nr := min 32 (t.rows - 32 * i)
  let nc := min 32 (t.cols - 32 * j)
  let place (r : Nat) : Nat := t.base + (32 * i + r) * t.stride + 32 * j * (t.w / 8)
  (∀ v, e.cmd = .mma h en ac ta tb sco acct sat → n ≤ e.hi 1 → AccReady s m ac.val →
    mmaStep m t (e.tid 1) i j (e.lo 1 + n) acct sat (accs s m ac.val) s = .ok (v, s) →
    ∃ u, Steps s m q { e with upc := e.upc + 1 } u ∧ AccBecomes s u m ac.val fun k => v.getD k 0) ∧
  (∀ v, e.cmd = .mmas h en ac ta sco acct sat → n ≤ e.hi 1 → AccReady s m ac.val →
    mmasStep m t (e.tid 1) (e.tid 2) (e.tid 3) i j (e.lo 1 + n) acct sat (accs s m ac.val) s = .ok (v, s) →
    ∃ u, Steps s m q { e with upc := e.upc + 1 } u ∧ AccBecomes s u m ac.val fun k => v.getD k 0) ∧
  ((e.cmd = .mma h en ac ta tb sco acct sat ∨ e.cmd = .mmas h en ac ta sco acct sat) → e.hi 1 < n → Completes s m q s) ∧
  (∀ f : Nat → List Nat, e.cmd = .mmat h en ac ta tb sco fill → Within m (accAt s m ac.val) 4096 →
    (∀ k, k < 1024 → (f 0).getD k 0 = natOf ((e.cap.drop (4 * k)).take 4)) → (f 0).length = 1024 →
    (∀ k, k ≤ e.hi 1 → mmaStep m t (e.tid 1) i j (e.lo 1 + k) false false (f k) s = .ok (f (k + 1), s)) →
    ∃ u, Completes s m q u ∧ AccBecomes s u m ac.val fun k =>
      let x := (f (e.hi 1 + 1)).getD k 0
      if condF .lt (fdec .f32 x) (fdec .f32 (e.lo 2)) then (if fill then e.hi 2 else 0xFF800000) else x) ∧
  (e.cmd = .aclr h en mask → (∀ k, k < 8 → mask.getLsbD k = true → Within m (accAt s m k) 4096) →
    ∃ u, Completes s m q u ∧ u = { s with sram := u.sram, sramPoison := u.sramPoison } ∧ (s.sram.wf = true → ∀ x,
      let hit := ∃ k, k < 8 ∧ mask.getLsbD k = true ∧ m.winAddr (accAt s m k) ≤ x ∧ x < m.winAddr (accAt s m k) + 4096
      (hit → u.sram.byte x = 0) ∧ (¬ hit → u.sram.byte x = s.sram.byte x))) ∧
  (e.cmd = .amov h en ac acs → AccReady s m acs.val → Within m (accAt s m ac.val) 4096 →
    ∃ u, Completes s m q u ∧ AccBecomes s u m ac.val fun k => (accs s m acs.val).getD k 0) ∧
  (e.cmd = .amovTid h en ac ta sco → t.pad = true → t.w = 32 → t.planes = 0 → 32 * i < t.rows → 32 * j < t.cols →
    (∀ r, r < nr → OnPad s m (place r) (4 * nc)) → Within m (accAt s m ac.val) 4096 →
    ∃ u, Completes s m q u ∧ AccBecomes s u m ac.val fun k =>
      if k / 32 < nr ∧ k % 32 < nc then padNat s m (place (k / 32) + 4 * (k % 32)) 4 else 0) ∧
  (e.cmd = .acvt h en ta ac sco acct sat rm nan → t.pad = true → t.ty ≠ .b4 → 32 * i < t.rows → 32 * j < t.cols →
    nc * (t.w / 8) ≤ t.stride → AccReady s m ac.val → (∀ r, r < nr → Within m (place r) (nc * (t.w / 8))) →
    ∃ u, Completes s m q u ∧ u = { s with sram := u.sram, sramPoison := u.sramPoison } ∧ (s.sram.wf = true →
      (∀ r c, r < nr → c < nc → padNat u m (place r + c * (t.w / 8)) (t.w / 8) =
        cvtElem t.ty (if acct then .i32 else .f32) rm sat nan ((accs s m ac.val).getD (32 * r + c) 0) % 2 ^ t.w) ∧
      ∀ x, (∀ r, r < nr → x < m.winAddr (place r) ∨ m.winAddr (place r) + nc * (t.w / 8) ≤ x) →
        u.sram.byte x = s.sram.byte x))

/-! #### Copy, gather and index expansion -/

/-- CPY, GTHR and GIDX (spec/09, R245 to R249). -/
def CopyCommands : Prop :=
  ∀ (s : State) (m : Strand) (e : JEntry) (q : W32) (h : Hdr) (en : EnH) (sb : SReg) (nsc : NoteSc) (d2 : Bool)
    (noff : BitVec 19) (t0 t1 : Byte), Works s m e q →
  let len := if d2 then e.hi 2 else e.lo 2
  let rows := if d2 then e.lo 2 else 1
  let row := e.upc.toNat / 2 ^ 32
  let x := e.upc.toNat % 2 ^ 32
  let k := min (4096 - x % 4096) (len - x)
  let src := e.op 1 + row * e.lo 3 + x
  let dst := e.op 0 + row * e.hi 3 + x
  let next : JEntry := { e with upc := BitVec.ofNat 64 (if x + k = len then (row + 1) * 2 ^ 32 else row * 2 ^ 32 + x + k) }
  let is (d : CpyDir) : Prop := e.cmd = .cpy h en sb d nsc d2 noff
  (row < rows → x < len →
    (is .ss → OnPad s m src k → Within m dst k → ∃ u, Steps s m q next u ∧
      u = { s with sram := u.sram, sramPoison := u.sramPoison } ∧ (s.sram.wf = true → ∀ y, u.sram.byte y =
        ((List.range k).foldl (fun w i => w.write (m.winAddr (dst + i)) [w.byte (m.winAddr (src + i))]) s.sram).byte y)) ∧
    (is .ms → MemOk s m .r src k → Within m dst k → ∃ u v, Steps s m q next u ∧ OnlyTouched s v ∧
      PadBecomes v u m dst k fun i => memByte s m (src + i)) ∧
    (is .sm → OnPad s m src k → MemOk s m .w dst k → ∃ v, OnlyTouched s v ∧
      Steps s m q next (v.writeVa (s.ctx m.ctx) dst (s.sram.read (m.winAddr src) k))) ∧
    (is .mm → MemOk s m .r src k → MemOk s m .w dst k →
      (∀ a b, a < k → b < k → s.byteKey m false (src + a) ≠ s.byteKey m false (dst + b)) → ∃ v, OnlyTouched s v ∧
      Steps s m q next (v.writeVa (s.ctx m.ctx) dst ((List.range k).map fun i => memByte s m (src + i))))) ∧
  (∀ d, is d → (len = 0 ∨ rows ≤ row) →
    (nsc = .off → Completes s m q s) ∧
    (nsc ≠ .off → Within m (16 * noff.toNat) 8 →
      ∃ u, Completes s m q u ∧ PadBecomes s u m (16 * noff.toNat) 8 fun i => byteOf (e.op 3) i)) ∧
  (e.cmd = .gthr h en t0 t1 sb →
    let td := e.tid 0
    let ts := e.tid 1
    let p := e.upc.toNat
    let w := padNat s m (e.lo 0 + 4 * p) 4
    let d := e.lo 1 + p
    let n := (td.cols * td.w + 7) / 8
    (p < e.hi 0 → e.lo 0 % 4 = 0 → OnPad s m (e.lo 0 + 4 * p) 4 →
      ((2 ^ 31 ≤ w ∨ ts.rows ≤ w ∨ td.rows ≤ d) →
        exec (.engineMicroStep m.id q) s = .next (s.engFail m e (.ends .gatherIndex 0 false))) ∧
      (w < 2 ^ 31 → w < ts.rows → d < td.rows → ts.pad = true → td.pad = true → td.ty ≠ .b4 → td.ty = ts.ty → ts.planes = 0 →
        OnPad s m (ts.base + w * ts.stride) n → Within m (td.base + d * td.stride) n →
        (ts.base + w * ts.stride + n ≤ td.base + d * td.stride ∨ td.base + d * td.stride + n ≤ ts.base + w * ts.stride) →
        ∃ u, Steps s m q { e with upc := e.upc + 1 } u ∧
          PadBecomes s u m (td.base + d * td.stride) n fun i => s.sram.byte (m.winAddr (ts.base + w * ts.stride) + i))) ∧
    (e.hi 0 ≤ p → Completes s m q s)) ∧
  (e.cmd = .gidx h en t0 sb →
    let t := e.tid 0
    let ptr (b : Nat) : Nat := padNat s m (t.base + 4 * b) 4
    let p := e.upc.toNat
    let b := e.lo 0 + p
    (0 < p → p < e.hi 0 → t.pad = true → t.w = 32 → t.planes = 0 → OnPad s m (t.base + 4 * e.lo 0) 4 →
      OnPad s m (t.base + 4 * b) 8 → Within m (e.lo 1 + 4 * (ptr b - ptr (e.lo 0))) (4 * (ptr (b + 1) - ptr b)) →
      ∃ u, Steps s m q { e with upc := e.upc + 1 } u ∧
        PadBecomes s u m (e.lo 1 + 4 * (ptr b - ptr (e.lo 0))) (4 * (ptr (b + 1) - ptr b)) fun i => byteOf b (i % 4)) ∧
    (0 < e.hi 0 → e.hi 0 ≤ p → Completes s m q s))

/-! #### Hashes, directory, maps and attention -/

/-- H of spec/10, R264. -/
def mixed (x : W64) : W64 :=
  let x := (x ^^^ (x >>> 31)) * 0xA3C59B17E64D2F0B
  let x := (x ^^^ (x >>> 27)) * 0x8E2761D94B3FC5A5
  x ^^^ (x >>> 33)
def hashOf (h : BitVec 128) (tag : W64) (t : Nat → Nat) : BitVec 128 :=
  let r := (List.range 8).foldl (fun (p : W64 × W64) i =>
      let a := mixed (p.1 ^^^ BitVec.ofNat 64 (t (2 * i) + t (2 * i + 1) * 2 ^ 32) ^^^ p.2)
      (a, p.2.rotateLeft 23 + a + BitVec.ofNat 64 (i + 1)))
    (mixed (h.extractLsb' 0 64 ^^^ tag), mixed (h.extractLsb' 64 64 ^^^ tag * 0x6F1D83A9C25E7B39))
  mixed (r.2 ^^^ r.1.rotateLeft 32) ++ mixed (r.1 + r.2)

/-- The slot in which a hash is present: the first of its eight probes with its tag (spec/10, R265). -/
def presentIn (r : Region) (x : Nat) : Option Nat :=
  ((List.range 8).map fun k => (x + k) % 2 ^ r.pdsz).find? fun n => (r.slot n).valid && decide ((r.slot n).tag.toNat = x)

/-- KVH, the directory commands, the map commands and ATTN (spec/10, R263 to R277). -/
def PrefixCommands : Prop :=
  ∀ (s : State) (m : Strand) (e : JEntry) (q : W32) (h : Hdr) (en : EnH) (sb : SReg), Works s m e q →
  let n := e.hi 0
  let hs := (List.range n).map fun i => padNat s m (e.lo 0 + 16 * i) 16
  let once : JEntry := { e with once := true }
  (e.cmd = .kvh h en sb → (n ≤ e.upc.toNat → Completes s m q s) ∧
    ∀ i prev, i = e.upc.toNat → i < n → OnPad s m (e.lo 0 + 64 * i) 64 → Within m (e.lo 2 + 16 * i) 16 →
      (0 < i → OnPad s m (e.lo 2 + 16 * (i - 1)) 16 ∧ prev = padNat s m (e.lo 2 + 16 * (i - 1)) 16) →
      (i = 0 → e.op 2 / 2 ^ 63 % 2 = 1 → OnPad s m (e.op 2 / 2 ^ 32 % 2 ^ 23) 16 ∧ prev = padNat s m (e.op 2 / 2 ^ 32 % 2 ^ 23) 16) →
      (i = 0 → e.op 2 / 2 ^ 63 % 2 = 0 → prev = 0) →
      ∃ u, Steps s m q { e with upc := e.upc + 1 } u ∧ PadBecomes s u m (e.lo 2 + 16 * i) 16 fun b => byteOf
        (hashOf (BitVec.ofNat 128 prev) (e.opv.getD 1 0) fun k => padNat s m (e.lo 0 + 64 * i + 4 * k) 4).toNat b) ∧
  (∀ r, s.dirOf m = some r →
    (∀ x, r.slotOf x = presentIn r x) ∧
    (e.cmd = .kvlk h en sb → (∀ i, i < n → OnPad s m (e.lo 0 + 16 * i) 16) →
      let vs := (hs.takeWhile fun x => (presentIn r x).isSome).map fun x => (r.slot ((presentIn r x).getD 0)).value
      Within m (e.lo 1) (8 + 8 * vs.length) →
      ∃ u, Completes s m q u ∧ PadBecomes s u m (e.lo 1) (8 + 8 * vs.length) fun i =>
        if i < 8 then byteOf vs.length i else byteOf (vs.getD (i / 8 - 1) 0).toNat (i % 8)) ∧
    (∀ r2 c, e.once = false → (∀ i, i < n → OnPad s m (e.lo 0 + 16 * i) 16) → Within m (e.lo 1) 8 →
      ((e.cmd = .kvpin h en sb ∧ (r2, c) = pinAll r 0 hs) ∨ (e.cmd = .kvunp h en sb ∧ (r2, c) = unpinAll r 0 hs)) →
      ∃ u, Steps s m q once u ∧ PadBecomes (s.updRegion r.addr fun _ => r2) u m (e.lo 1) 8 fun i => byteOf c i) ∧
    (∀ k x xs, (presentIn r x = none → pinAll r k (x :: xs) = (r, k) ∧ unpinAll r k (x :: xs) = unpinAll r k xs) ∧
      ∀ p, presentIn r x = some p →
        let d := r.slot p
        (d.pin = 0xFFFF → pinAll r k (x :: xs) = (r, k)) ∧
        (d.pin ≠ 0xFFFF → pinAll r k (x :: xs) = pinAll (r.setSlot p { d with pin := d.pin + 1 }) (k + 1) xs) ∧
        (d.pin = 0 → unpinAll r k (x :: xs) = unpinAll r k xs) ∧
        (d.pin ≠ 0 → unpinAll r k (x :: xs) = unpinAll (r.setSlot p { d with pin := d.pin - 1 }) (k + 1) xs)) ∧
    (e.cmd = .kvins h en sb → e.once = false → (∀ i, i < n → OnPad s m (e.lo 0 + 32 * i) 32 ∧
        padNat s m (e.lo 0 + 32 * i + 24) 8 < 2) → Within m (e.lo 1) (8 + n) →
      let recs : List InsRec := (List.range n).map fun i => ⟨padNat s m (e.lo 0 + 32 * i) 16,
        BitVec.ofNat 64 (padNat s m (e.lo 0 + 32 * i + 16) 8), decide (padNat s m (e.lo 0 + 32 * i + 24) 8 = 1)⟩
      let x := insertAll r recs
      ∃ u, Steps s m q once u ∧ PadBecomes (s.updRegion r.addr fun _ => x.1) u m (e.lo 1) (8 + n) fun i =>
        if i < 8 then byteOf (x.2.countP (· == 0)) i else BitVec.ofNat 8 (x.2.getD (i - 8) 0)) ∧
    (∀ x : InsRec, let ps := (List.range 8).map fun k => (x.tag + k) % 2 ^ r.pdsz
      let new : DirSlot := ⟨true, BitVec.ofNat 128 x.tag, x.value, if x.pinf then 1 else 0⟩
      (∀ p, presentIn r x.tag = some p → insertOne r x = (if x.pinf && (r.slot p).pin != 0xFFFF then
        r.setSlot p { r.slot p with pin := (r.slot p).pin + 1 } else r, 1)) ∧
      (presentIn r x.tag = none → ∀ p, ps.find? (fun n => !(r.slot n).valid) = some p → insertOne r x = (r.setSlot p new, 0)) ∧
      (presentIn r x.tag = none → (∀ n ∈ ps, (r.slot n).valid = true) →
        insertOne r x = match ps.find? fun n => (r.slot n).pin = 0 with
          | some p => (r.setSlot p new, 0)
          | none => (r, 2)))) ∧
  (∀ d : MapDesc, e.once = false → MemOk s m .r (e.op 0) 64 → MemOk s m .w (e.op 0) 64 →
    (∀ pa leaf, s.walk (s.ctx m.ctx) (e.op 0) .none = .ok (pa, leaf) → pteOrd leaf ≠ 2) → d = mapOf (memNat s m (e.op 0) 64) →
    let wr (u : State) (x : MapDesc) : State := u.writeVa (s.ctx m.ctx) (e.op 0) x.bytes
    (e.cmd = .kvmap h en sb → Within m (e.lo 1) 24 → (d.cver ≠ 0 → d.crd ≠ 2 ^ 32 - 1) → ∃ u v, OnlyTouched s v ∧ Steps s m q once u ∧
      PadBecomes (if d.cver = 0 then v else wr v { d with crd := d.crd + 1 }) u m (e.lo 1) 24 fun i =>
        byteOf (if i < 8 then d.cver else if i < 16 then d.ctab else d.cnpos) (i % 8)) ∧
    (e.cmd = .kvmapRel h en sb → ∀ x : MapDesc,
      (e.op 1 ≠ 0 ∧ e.op 1 = d.cver ∧ 0 < d.crd ∧ x = { d with crd := d.crd - 1 }) ∨
      (e.op 1 ≠ 0 ∧ ¬ (e.op 1 = d.cver ∧ 0 < d.crd) ∧ e.op 1 = d.pver ∧ 0 < d.prd ∧
        x = if d.prd = 1 then { d with freed := max d.freed d.pver, pver := 0, ptab := 0, prd := 0, pnpos := 0 }
          else { d with prd := d.prd - 1 }) →
      ∃ v, OnlyTouched s v ∧ Steps s m q once (wr v x)) ∧
    (e.cmd = .kvpub h en sb → s.pubReady m e = true → e.op 1 ≠ 0 → Within m (e.hi 3) 8 → ∀ p, p = s.publisher m →
      let v := e.op 1
      let kept : MapDesc := if d.cver ≠ 0 ∧ 0 < d.crd then { d with pver := d.cver, ptab := d.ctab, prd := d.crd, pnpos := d.cnpos }
        else if d.cver ≠ 0 then { d with freed := max d.freed d.cver } else d
      let code := if v < d.cver then 2 else if v = d.cver then (if p = d.pub then 5 else 3)
        else if d.cver ≠ 0 ∧ 0 < d.crd ∧ d.pver ≠ 0 then 4 else 1
      ∃ u w, OnlyTouched s w ∧ Steps s m q once u ∧ PadBecomes
        (if code = 1 then wr w { kept with cver := v, ctab := e.op 2, crd := 0, cnpos := e.lo 3, pub := p } else w)
        u m (e.hi 3) 8 fun i => byteOf code i)) ∧
  (e.once = true → (∃ x, e.cmd ∈ [Instr.kvins h en x, .kvpin h en x, .kvunp h en x, .kvmap h en x, .kvmapRel h en x,
    .kvpub h en x]) → Completes s m q s) ∧
  (∀ (t0 t1 : Byte) (tab : Nat), e.cmd = .attn h en t0 t1 sb false false →
    let tq := e.tid 0
    let tx := e.tid 1
    let d := tq.cols
    let l := e.hi 2
    let blk (p : Nat) : Nat := memNat s m (tab + 8 * (p / 16)) 8
    let elem (a p y : Nat) : FV := fdec .bf16 (memNat s m (a + p % 16 * (2 * d) + 2 * y) 2)
    let out (r : Nat) : List Nat := attnOut (fdec .f32 (e.lo 2))
      ((List.range d).map fun y => fdec .f32 (padNat s m (tq.base + r * tq.stride + 4 * y) 4))
      ((List.range l).map fun p => (List.range d).map fun y => elem (blk p) p y)
      ((List.range l).map fun p => (List.range d).map fun y => elem (blk p + 32 * d) p y) d
    MemOk s m .r (e.op 0) 64 → attnTable (mapOf (memNat s m (e.op 0) 64)) (e.op 1) l = some tab → d % 32 = 0 → tq.pad = true → tx.pad = true → tq.ty = .f32 → tx.ty = .f32 →
    tq.planes = 0 → 4 * d ≤ tx.stride →
    (∀ p, p < l → MemOk s m .r (tab + 8 * (p / 16)) 8 ∧ blk p % 64 = 0 ∧ MemOk s m .r (blk p + p % 16 * (2 * d)) (2 * d) ∧
      MemOk s m .r (blk p + 32 * d + p % 16 * (2 * d)) (2 * d)) →
    (∀ r, r < tq.rows → OnPad s m (tq.base + r * tq.stride) (4 * d) ∧ Within m (tx.base + r * tx.stride) (4 * d)) →
    ∃ u v, Completes s m q u ∧ OnlyTouched s v ∧ u = { v with sram := u.sram, sramPoison := u.sramPoison } ∧
      (s.sram.wf = true → (∀ r y, r < tq.rows → y < d → padNat u m (tx.base + r * tx.stride + 4 * y) 4 =
          fvCvt .f32 .rne false (fdec .f32 ((out r).getD y 0)) % 2 ^ 32) ∧
        ∀ x, (∀ r, r < tq.rows → x < m.winAddr (tx.base + r * tx.stride) ∨ m.winAddr (tx.base + r * tx.stride) + 4 * d ≤ x) →
          u.sram.byte x = s.sram.byte x))

/-- The values of an output row of ATTN (spec/10, R276): scores rounded once, their exponentials against the greatest, and the
quotient of two sums rounded once; no position gives +0, and a NaN anywhere gives NaN. -/
def AttentionValues : Prop :=
  ∀ (c : FV) (q : List FV) (keys vals : List (List FV)) (d : Nat), keys.length = vals.length →
  let h : Hdr := ⟨0, 0, 0, 0, 0⟩
  let sub (x y : Nat) : Nat := laneOp (.vsub h (.v 0) (.v 0) (.v 0) .f32 .rne false) x y 0
  let exp2 (x : Nat) : Nat := laneOp (.vexp2 h (.v 0) (.v 0) .f32 .rne false) x 0 0
  let div (x y : Nat) : Nat := laneOp (.vdiv h (.v 0) (.v 0) (.v 0) .f32 .rne false) x y 0
  let out (y : Nat) : Nat := (attnOut c q keys vals d).getD y 0
  let n := keys.length
  (attnOut c q keys vals d).length = d ∧
  (n = 0 → ∀ y, out y = 0) ∧
  (n ≠ 0 → (c = .nan ∨ ∃ k ∈ keys, .nan ∈ List.zipWith fvMul q k) → ∀ y, y < d → out y = 0x7FC00000) ∧
  (n ≠ 0 → IsFin c → (∀ x ∈ q, IsFin x) → (∀ k ∈ keys, k.length = q.length ∧ ∀ x ∈ k, IsFin x) →
    ∃ sc : Nat → Nat, (∀ p, p < n → ∃ z, RoundsTo .f32 .rne
        (ratOf c * (List.zipWith (fun x y => ratOf x * ratOf y) q (keys.getD p [])).sum) z (sc p)) ∧
      ((∀ p, p < n → sc p = infPat .f32 true) → ∀ y, out y = 0) ∧
      ((∀ p, p < n → Finite .f32 (sc p)) → (∀ v ∈ vals, d ≤ v.length ∧ ∀ x ∈ v, IsFin x) →
        ∃ mx den, (∃ p, p < n ∧ mx = sc p) ∧ (∀ p, p < n → orderOf .f32 (sc p) ≤ orderOf .f32 mx) ∧
          let e (p : Nat) : Nat := exp2 (sub (sc p) mx)
          RoundsTo .f32 .rne ((List.range n).map fun p => valueOf .f32 (e p)).sum false den ∧
          ∀ y, y < d → ∃ num z, RoundsTo .f32 .rne
              ((List.range n).map fun p => valueOf .f32 (e p) * ratOf ((vals.getD p []).getD y .nan)).sum z num ∧ out y = div num den))

/-! #### The transform sequencer -/

/-- The lines of a transform program from line `n` on, as memory holds them (spec/05, R119; spec/09, R250). -/
def ChainAt (s : State) (m : Strand) : Nat → List (Nat × Line) → Prop
  | _, [] => False
  | n, (k, l) :: ls => k = n ∧ s.fetchLine m n = .ok l ∧
      (let w := lineLink l
       linkOwner w = 1 ∧ 1 ≤ linkNslot w ∧ linkNslot w ≤ 5 ∧ linkRsv w = 0 ∧
       (if linkLast w = true then ls = [] else ChainAt s m (linkNext w).toNat ls))

/-! #### Collectives and LAUNCH -/

/-- CRED, CGTH, CSND, CRCV and LAUNCH (spec/10, R278 to R283; spec/14, R359). -/
def GangCommands : Prop :=
  ∀ (s : State) (m : Strand) (e : JEntry) (q : W32) (h : Hdr) (en : EnH) (sb : SReg) (op : CrOp) (ty : ETy) (peer : Fin 8)
    (tag : BitVec 16), Works s m e q →
  let own (p : CollMsg → Bool) : Option CollMsg := s.message m (s.slice m) tag e.ord p
  let call (x : CollMsg) : Bool := match x.kind with
    | .cred .. => true | .cgth => true | .csnd => false | .written => false | .barrier .. => false
  let sends (dst : Nat) (k : CollKind) (v : State) (bs : List Byte) : State := { v with outbox := s.outbox ++
    [⟨(s.gangOf m).1, (s.gangOf m).2, s.slice m, dst, tag, e.ord, k, bs⟩] }
  let bytes (a n : Nat) : List Byte := (List.range n).map fun i => memByte s m (a + i)
  let kind := CollKind.cred op ty (e.lo 2)
  (e.cmd = .cred h en sb op ty tag →
    (own call = none → MemOk s m .r (e.op 1) (4 * e.hi 2) ∨ e.hi 2 = 0 → ∃ v, OnlyTouched s v ∧
      Steps s m q e (sends 0 kind v (bytes (e.op 1) (4 * e.hi 2)))) ∧
    (∀ l j, (own call).isSome = true → s.calls m tag e.ord = some l → (∀ x ∈ l, x.kind = kind) →
      (∀ x, s.message m 0 tag e.ord call = some x → x.kind = kind) → j = e.upc.toNat / 4 →
      (j < e.lo 2 → MemOk s m .w (e.op 0 + 4 * j) 4 → ∃ v, OnlyTouched s v ∧ Steps s m q { e with upc := e.upc + 4 }
        (v.writeVa (s.ctx m.ctx) (e.op 0 + 4 * j) (bytesOf 4 (credElem op ty (l.filterMap fun x =>
          if 4 * j + 4 ≤ x.data.length then some (natOf ((x.data.drop (4 * j)).take 4)) else none))))) ∧
      (e.lo 2 ≤ j → Completes s m q s))) ∧
  (∀ xs : List Nat, (∀ x ∈ xs, x < 2 ^ 32) →
    (ty.isInt = true → credElem .sum ty xs = xs.sum % 2 ^ 32) ∧
    (xs ≠ [] → (∀ x ∈ xs, Finite .f32 x) → RoundsTo .f32 .rne (xs.map (valueOf .f32)).sum (xs.all fun x => x == 0x80000000)
      (credElem .sum .f32 xs)) ∧
    (∀ x, xs = [] → (ty = .f32 ∨ ty.isInt = true) → credElem .sum ty xs = 0 ∧ credElem .max ty [x] = canonical ty x ∧ credElem .min ty [x] = canonical ty x)) ∧
  (e.cmd = .cgth h en sb tag →
    (own call = none → MemOk s m .r (e.op 1) (e.lo 2) ∨ e.lo 2 = 0 → ∃ v, OnlyTouched s v ∧
      Steps s m q e (sends 0 .cgth v (bytes (e.op 1) (e.lo 2)))) ∧
    (∀ l, (own call).isSome = true → s.calls m tag e.ord = some l → (∀ x ∈ l, x.kind = .cgth) →
      (∀ x, s.message m 0 tag e.ord call = some x → x.kind = .cgth) →
      let all := l.flatMap fun x => x.data
      let u := e.upc.toNat
      let k := min (4096 - (e.op 0 + u) % 4096) (all.length - u)
      all.length ≤ e.hi 2 →
      (u < all.length → MemOk s m .w (e.op 0 + u) k → ∃ v, OnlyTouched s v ∧
        Steps s m q { e with upc := e.upc + BitVec.ofNat 64 k } (v.writeVa (s.ctx m.ctx) (e.op 0 + u) ((all.drop u).take k))) ∧
      (all.length ≤ u → Within m (e.lo 3) 8 → ∃ t, Completes s m q t ∧ PadBecomes s t m (e.lo 3) 8 fun i => byteOf all.length i))) ∧
  (e.cmd = .csnd h en sb peer tag →
    let sent (x : CollMsg) : Bool := x.kind = .csnd && x.dst = peer.val
    (own sent = none → MemOk s m .r (e.op 0) (e.lo 1) ∨ e.lo 1 = 0 → ∃ v, OnlyTouched s v ∧
      Steps s m q { e with upc := BitVec.ofNat 64 (e.lo 1) } (sends peer.val .csnd v (bytes (e.op 0) (e.lo 1)))) ∧
    ((own sent).isSome = true → (s.message m peer.val tag e.ord fun x => x.kind = .written && x.dst = s.slice m).isSome = true →
      Completes s m q s)) ∧
  (∀ x, e.cmd = .crcv h en sb peer tag → s.payload m e peer tag = some x → x.data.length ≤ e.lo 1 →
    let u := e.upc.toNat
    let k := min (4096 - (e.op 0 + u) % 4096) (x.data.length - u)
    (u < x.data.length → MemOk s m .w (e.op 0 + u) k → ∃ v, OnlyTouched s v ∧
      Steps s m q { e with upc := e.upc + BitVec.ofNat 64 k } (v.writeVa (s.ctx m.ctx) (e.op 0 + u) ((x.data.drop u).take k))) ∧
    (x.data.length ≤ u → Within m (e.lo 2) 8 → ∃ t, Completes s m q (sends peer.val .written t []) ∧
      PadBecomes s t m (e.lo 2) 8 fun i => byteOf x.data.length i)) ∧
  (e.cmd = .launch h en sb → (e.once = true → Completes s m q s) ∧
    ∀ r v t, e.once = false → MemOk s m .r (e.op 0) 128 → Within m (e.lo 1) 8 → s.region (s.ctx m.ctx).region = some r →
      (s.current (BitVec.ofNat 32 (memNat s m (e.op 0 + 12) 4)) = true →
        (s.ctx (hKey (BitVec.ofNat 32 (memNat s m (e.op 0 + 12) 4)))).region = (s.ctx m.ctx).region) →
      ((r.qen && r.qon) = false → ∃ u w, OnlyTouched s w ∧ Steps s m q { e with once := true } u ∧
        PadBecomes w u m (e.lo 1) 8 fun i => byteOf 2 i) ∧
      (r.qen = true → r.qon = true → s.ringRead (r.ring + 16) 8 = some v → s.ringRead r.ring 8 = some t →
        let n := 2 ^ r.logn
        (n ≤ (BitVec.ofNat 64 v - r.head).toNat → ∃ u w, OnlyTouched s w ∧ Steps s m q { e with once := true } u ∧
          PadBecomes w u m (e.lo 1) 8 fun i => byteOf 2 i) ∧
        ((BitVec.ofNat 64 v - r.head).toNat < n → ∃ u w y, OnlyTouched s w ∧ Steps s m q { e with once := true } u ∧
          y = ((w.physWrite (r.ring + 16) (bytesOf 8 (v + 1))).physWrite (r.ring + 128 + 128 * (v % n)) (bytes (e.op 0) 128)).physWrite
            (r.ring + 128 * (n + 1) + 8 * (v % n)) (bytesOf 8 (v + 1)) ∧
          PadBecomes (if t < v + 1 then y.physWrite r.ring (bytesOf 8 (v + 1)) else y) u m (e.lo 1) 8 fun i => byteOf 1 i)))

/-! ### Whole-machine words -/

/-- Words of a predicate pair under .U, which their guard does not suppress (spec/06, R149; spec/07, R189). -/
def unconditional : Instr → Bool
  | .cmp _ _ _ _ _ mode _ => mode == .u
  | .cmpi _ _ _ _ _ mode _ => mode == .u
  | .tstb _ _ _ _ mode _ => mode == .u
  | .plop _ _ _ _ _ _ _ mode => mode == .u
  | .vany _ _ _ _ mode => mode == .u
  | .vall _ _ _ _ mode => mode == .u
  | .vbtst _ _ _ _ _ mode => mode == .u
  | .mlop _ _ _ _ _ _ _ mode => mode == .u
  | .vcmp _ _ _ _ _ _ _ mode _ => mode == .u
  | .vthr _ _ _ _ _ _ mode _ => mode == .u
  | _ => false

/-- The places (first byte and length) that the parts of a store, or atomic steps, write when made in order; each part
lies in one page (spec/08, R204). -/
def storedTo (c : Ctx) : List LogAct → State → List (Nat × Nat)
  | [], _ => []
  | x :: l, s =>
    (match s.walk c x.access.ea .none with
      | .ok (pa, _) => [(s.place pa, x.access.n)]
      | .error _ => []) ++ storedTo c l (s.applyAct c x)

/-! ### The order of a cycle -/

/-- The class of R35 of a command that its page takes now and that names context `k`, by its kind: 0 DESTROY, 1 KILL of a launch,
2 SWAPOUT, 4 DEBUG-STOP of a strand. -/
def commandClass (u : State) (x : Action) (k : Nat) : Option Nat :=
  match x.posts with
  | none => none
  | some (pg, op) =>
    let a := u.pages[pg].args
    let here := u.plat.ready && u.pages[pg].pendOp.isNone && u.current (argH a) && decide (hKey (argH a) = k)
    if here = false then none
    else if op = 4 then some 0
    else if op = 5 ∧ (u.ctx k).cur ≠ none then some 1
    else if op = 6 then some 2
    else if op = 9 ∧ (u.ctx k).cur ≠ none ∧ u.named k (arg a 1) ≠ [] then some 4
    else none

/-- The class of R35 in which an action of state `u` meets context `k`: a command by its kind, and anything else by what it does:
0 DESTROY, 1 the end of the launch, 2 a save, 3 the end of a wait, 4 a park or a debug stop, 5 none of these. -/
def classOf (u : State) (x : Action) (k : Nat) : Nat :=
  let t := u.after x
  match commandClass u x k with
  | some n => n
  | none =>
    if (t.ctx k).gen ≠ (u.ctx k).gen then 0
    else if t.launchOver k = true ∧ u.launchOver k = false then 1
    else if t.saving k = true ∧ u.saving k = false then 2
    else if t.openWaits k < u.openWaits k then 3
    else if u.openWaits k < t.openWaits k then 4
    else 5

/-- At some live context action `x` takes place before action `y` (spec/01, R35): by their classes, a cause before a park or a
debug stop, and of two causes that of the lower strand, a strand's own before one of its commands (spec/12, R308). -/
def Earlier (u : State) (x y : Action) : Prop :=
  ∃ k ∈ u.liveCtxs, ∃ p q, p = classOf u x k ∧ q = classOf u y k ∧
    ((p < q ∧ (p = 0 ∨ q ≤ 3 ∨ (p = 1 ∧ q = 4))) ∨
      (p = 1 ∧ q = 1 ∧ commandClass u x k = none ∧ commandClass u y k = none ∧
        ∃ i j, u.causePlace x = some i ∧ u.causePlace y = some j ∧ i < j))

/-- Place `j` of a cycle is the first of its agent's actions; the device keeps no order of its own. -/
def FirstOfAgent (cyc : List Action) (j : Nat) : Prop :=
  ∃ x, cyc[j]? = some x ∧ (x.agent = .device ∨ ∀ y ∈ cyc.take j, y.agent ≠ x.agent)

/-- The entries that actions of one cycle raise together, in increasing page order, the strand of lower index first (spec/12,
R312). -/
def raisedTogether (u : State) (l : List Action) : List FaultEntry :=
  sortBy (fun a b => decide (a.page < b.page) || (a.page = b.page && decide (a.strand ≤ b.strand)))
    (l.flatMap u.raises)

/-! ### The device -/

/-- The word stops in a wait: the strand stays at it, and nothing else changes but the state of its context. -/
def Waits (i : Instr) (s : State) (w : Wait) : Prop :=
  ∃ t, exec i s = .next t ∧ t.me = { s.me.settle with wait := w } ∧ t.mem = s.mem ∧ t.slog = s.slog ∧ t.faults = s.faults ∧
    t.objs = s.objs

/-- The words that load, or store with a returned value or an entry, each with what it reads, whether it works by lanes, the KIND of
its fault, the right it needs and its accesses (spec/08, R206 to R208, R211, R215, R218, R222). -/
def loadWords (s : State) (h : Hdr) (ds x b : SReg) (d y : VReg) (off : BitVec 24) (ty : ETy) (sem : Sem) (sc : Scope)
    (z wide : Bool) (cc : Cond) (bound : BitVec 6) (tid : Byte) : List (Instr × List Dest × Bool × Nat × Acc × List Access) :=
  let m := s.me.settle
  let n := ty.width / 8
  let ea := (m.readS x + off.signExtend 64).toNat
  let g := m.laneGuard h
  let at_ (t : Nat) : Nat := ((ctxOf s).tidbase.toNat + 32 * t) % 2 ^ 64
  let len : Nat := if wide then 8 else 4
  [(.ld h ds x off ty sem sc, [.s x], false, 1, .r, [⟨none, ea, n, 1⟩]),
   (.ldv h d x off sem sc z, [.s x], true, 1, .r, (onLanes g).map fun j => ⟨some j, ea + 4 * j, 4, 1⟩),
   (.ldg h d x off y ty z, [.s x, .v y], true, 1, .r, (onLanes g).map fun j => ⟨some j, laneAddr m x off y n j, n, 1⟩),
   (.aadd h ds x off b ty sem sc true, [.s x, .s b], false, 2, .rw, [⟨none, ea, n, n⟩]),
   (.amax h ds x off b ty sem sc true, [.s x, .s b], false, 2, .rw, [⟨none, ea, n, n⟩]),
   (.amin h ds x off b ty sem sc true, [.s x, .s b], false, 2, .rw, [⟨none, ea, n, n⟩]),
   (.aand h ds x off b ty sem sc true, [.s x, .s b], false, 2, .rw, [⟨none, ea, n, n⟩]),
   (.aor h ds x off b ty sem sc true, [.s x, .s b], false, 2, .rw, [⟨none, ea, n, n⟩]),
   (.axor h ds x off b ty sem sc true, [.s x, .s b], false, 2, .rw, [⟨none, ea, n, n⟩]),
   (.axchg h ds x off b ty sem sc true, [.s x, .s b], false, 2, .rw, [⟨none, ea, n, n⟩]),
   (.acas h ds x off b ty sem sc, [.s x, .s b, .s ds], false, 2, .rw, [⟨none, ea, n, n⟩]),
   (.waita h ds x b cc (if wide then .d else .w) sc bound, [.s x, .s b], false, 2, .r, [⟨none, (m.readS x).toNat, len, len⟩]),
   (.tidset h tid x, [.s x, .s (x + 1), .s (x + 2), .s (x + 3)], false, 2, .w, [⟨none, at_ tid.toNat, 32, 1⟩]),
   (.tidsetReg h b x, [.s b, .s x, .s (x + 1), .s (x + 2), .s (x + 3)], false, 2, .w,
     [⟨none, at_ ((m.readS b).toNat % 256), 32, 1⟩])]

/-- The stores and reductions that may enter the side log, each with what it reads, whether it works by lanes, the right it
needs, its accesses with what each part of one records, and whether it is a release (spec/08, R206 to R208, R211 to R216). -/
def loggedWords (s : State) (h : Hdr) (ds a b : SReg) (d x : VReg) (off : BitVec 24) (off21 : BitVec 21) (ty : ETy) (sem : Sem)
    (sc : Scope) (va : VaOp) : List (Instr × List Dest × Bool × Acc × List (Access × (Part → LogAct)) × Bool) :=
  let m := s.me.settle
  let n := ty.width / 8
  let ea := (m.readS a + off.signExtend 64).toNat
  let lanes := onLanes (m.laneGuard h)
  let lane (r : VReg) (i : Nat) : Nat := laneAt (m.readV r) i
  let put (y : Access) (v : Nat) : Access × (Part → LogAct) := (y, fun q => .store q.va (((bytesOf y.n v).drop (q.va - y.ea)).take q.n))
  let one (op : Rmw) : List (Access × (Part → LogAct)) := [(⟨none, ea, n, n⟩, fun _ => .rmw ea ty op (m.readS b) sc)]
  let rel := decide (sem = .rel)
  [(.st h ds a off ty sem sc, [.s a, .s ds], false, .w, [put ⟨none, ea, n, 1⟩ (m.readS ds).toNat], rel),
   (.stv h d a off sem sc, [.s a, .v d], true, .w, lanes.map fun i => put ⟨some i, ea + 4 * i, 4, 1⟩ (lane d i), rel),
   (.stg h d a off x ty, [.s a, .v d, .v x], true, .w, lanes.map fun i => put ⟨some i, laneAddr m a off x n i, n, 1⟩ (lane d i), false),
   (.aadd h ds a off b ty sem sc false, [.s a, .s b], false, .rw, one .add, rel),
   (.amax h ds a off b ty sem sc false, [.s a, .s b], false, .rw, one .max, rel),
   (.amin h ds a off b ty sem sc false, [.s a, .s b], false, .rw, one .min, rel),
   (.aand h ds a off b ty sem sc false, [.s a, .s b], false, .rw, one .and, rel),
   (.aor h ds a off b ty sem sc false, [.s a, .s b], false, .rw, one .or, rel),
   (.axor h ds a off b ty sem sc false, [.s a, .s b], false, .rw, one .xor, rel),
   (.axchg h ds a off b ty sem sc false, [.s a, .s b], false, .rw, one .xchg, rel),
   (.vared h d a off21 x va ty sc, [.s a, .v d, .v x], true, .rw, lanes.map fun i =>
     (⟨some i, laneAddr m a off21 x 4 i, 4, 4⟩, fun q => .rmw q.va ty (varedOp va) (BitVec.ofNat 64 (lane d i)) sc), false)]

/-- An entry appended to a queue of the host while nothing is held (spec/16, R396): it takes the place of its count in the ring,
with the PASS of that count in the bit given, or is held while the ring has no room. -/
def Appended (q q' : EvQueue) (m m' : Memory) (e : List W64) (dw place : Nat) : Prop :=
  let n := 2 ^ q.qlog.toNat
  let c := q.qtail.toNat
  let room := q.qlog ≠ 0 ∧ c - q.qhead.toNat < n
  let pass : W64 := if c / n % 2 = 0 then BitVec.ofNat 64 (2 ^ place) else 0
  (room → m' = m.write (q.qbase.toNat + 32 * (c % n)) ((e.set dw (e.getD dw 0 ||| pass)).flatMap bytes64) ∧
    q' = { q with qtail := q.qtail + 1 }) ∧
  (¬ room → m' = m ∧ q' = { q with held := [e] })

/-- What raising the fault of a page does (spec/12, R312 to R315): it joins the OPEN entry of the page that the launch has, or takes
the lowest entry of the context and the lowest package fault slot, writes the entry and then the header of the record, and
notifies the home die. -/
def FaultRecord : Prop :=
  (∀ (s : State) (k addr kind strand : Nat) (pc : W32) (waits : Bool) (l : Launch), (s.ctx k).cur = some l →
    let page := addr / 4096 % 2 ^ 45
    let joins (f : FaultEntry) : Bool := f.ctx = k && f.serial = l.serial && f.page = page
    let res := s.faultPage k addr kind strand pc waits
    let head (u : State) (c : Ctx) : List Byte := [(u.faults.filter fun f => f.ctx = k && f.serial = l.serial && f.waited).length +
      (u.faults.filter fun f => f.ctx = k).length * 2 ^ 32, c.nraised.toNat, c.nreplied.toNat].flatMap (bytesOf 8)
    (∀ f, s.faults.find? joins = some f →
      (f.waited = true ∨ waits = false → res = .ok s) ∧
      (f.waited = false → waits = true → ∀ u : State,
        u = { s with faults := s.faults.map fun g => if g = f then { g with waited := true } else g } →
        (∀ w, u.devWrite (s.ctx k) (s.ctx k).frec.toNat (head u (s.ctx k)) = .ok w → res = .ok w) ∧
        ∀ x, u.devWrite (s.ctx k) (s.ctx k).frec.toNat (head u (s.ctx k)) = .error x → res = .recFail)) ∧
    (s.faults.find? joins = none →
      (512 ≤ (s.openOf k).length ∨ 4096 ≤ s.faults.length → res = .noEntry) ∧
      ((s.openOf k).length < 512 → s.faults.length < 4096 → ∀ i j,
        (∀ f ∈ s.faults, f.ctx = k → f.idx ≠ i) → (∀ n, n < i → ∃ f ∈ s.faults, f.ctx = k ∧ f.idx = n) →
        (∀ f ∈ s.faults, f.slot ≠ j) → (∀ n, n < j → ∃ f ∈ s.faults, f.slot = n) →
        let seq := tget 0 s.faultSeq j
        let tag : W32 := BitVec.ofNat 32 (seq.toNat * 4096 + j)
        ∀ (u : State) (c : Ctx), u = ({ s with
            faults := s.faults ++ [⟨k, i, j, tag, page, l.serial, strand, pc, kind, s.mtime, waits, addr⟩],
            faultSeq := tset 0 s.faultSeq j (seq + 1) } : State).updCtx k (fun c => { c with nraised := c.nraised + 1 }) →
          c = u.ctx k →
          let entry : List Byte := [(if page.testBit 44 then 2 ^ 52 - 2 ^ 45 + page else page) * 4096,
            tag.toNat + l.serial.toNat * 2 ^ 32, 1 + kind * 2 ^ 8 + strand * 2 ^ 16 + pc.toNat * 2 ^ 32, s.mtime.toNat].flatMap (bytesOf 8)
          (∀ v w, u.devWrite c (c.frec.toNat + 0x40 + 32 * i) entry = .ok v → v.devWrite c c.frec.toNat (head u c) = .ok w →
            res = .ok (w.pushFault (homeDie k) [BitVec.ofNat 64 (tag.toNat + (s.handle k).toNat * 2 ^ 32), BitVec.ofNat 64 addr,
              BitVec.ofNat 64 (kind * 2 ^ 8 + c.asid.toNat * 2 ^ 48), s.mtime])) ∧
          (∀ x, u.devWrite c (c.frec.toNat + 0x40 + 32 * i) entry = .error x → res = .recFail) ∧
          ∀ v x, u.devWrite c (c.frec.toNat + 0x40 + 32 * i) entry = .ok v → v.devWrite c c.frec.toNat (head u c) = .error x →
            res = .recFail))) ∧
  (∀ (s : State) (die : Fin 4) (e : List W64), 3 ≤ e.length → s.faultQs[die].held = [] →
    ∃ t : State, t = s.pushFault die e ∧ Appended s.faultQs[die] t.faultQs[die] s.mem t.mem e 2 0) ∧
  (∀ (s : State) (code : Nat) (ctxh : W32) (a b : W64), s.events.held = [] → ∃ t : State, t = s.pushEvent code ctxh a b ∧
    Appended s.events t.events s.mem t.mem [BitVec.ofNat 64 (code + ctxh.toNat * 2 ^ 32), a, b, s.mtime] 0 16) ∧
  ∀ l : List Nat, ((absentPages l).map pageOf).Pairwise (· < ·) ∧ (∀ a ∈ l, ∃ b ∈ absentPages l, pageOf b = pageOf a) ∧
    ∀ b ∈ absentPages l, l.find? (fun a => pageOf a = pageOf b) = some b

/-- The row log of a die and CE-THRESHOLD (spec/15, R386). -/
def RowLog : Prop :=
  (∀ (s : State) (pa : Nat) (bank : BitVec 5) (row : BitVec 18),
    let q := 2 * hbmChannel pa + pa / 32 % 2
    let at_ (i : Nat) : Nat := 64 * (q / 128) + i
    let ent (i : Nat) : RowEnt := tget RowEnt.blank s.hbm.rows (at_ i)
    let hit (i : Nat) : Prop := (ent i).valid = true ∧ (ent i).pc.toNat = q ∧ (ent i).bank = bank ∧ (ent i).row = row
    let older (i j : Nat) : Prop := (ent i).count.toNat < (ent j).count.toNat ∨ ((ent i).count = (ent j).count ∧
      ((ent i).last.toNat < (ent j).last.toNat ∨ ((ent i).last = (ent j).last ∧ i < j)))
    ∃ (t : State) (i : Nat), t = s.logRow pa bank row ∧ t = { s with hbm := { s.hbm with rows := t.hbm.rows } } ∧ i < 64 ∧
      (∀ n, n ≠ at_ i → tget RowEnt.blank t.hbm.rows n = tget RowEnt.blank s.hbm.rows n) ∧
      ((∃ j, j < 64 ∧ hit j) → hit i ∧ (∀ j, j < i → ¬ hit j) ∧ tget RowEnt.blank t.hbm.rows (at_ i) =
        { ent i with count := BitVec.ofNat 16 (min 0xFFFF ((ent i).count.toNat + 1)), last := s.mtime }) ∧
      ((∀ j, j < 64 → ¬ hit j) →
        tget RowEnt.blank t.hbm.rows (at_ i) = ⟨true, BitVec.ofNat 47 (pa / 32), BitVec.ofNat 9 q, bank, row, 1, s.mtime⟩ ∧
        ((∃ j, j < 64 ∧ (ent j).valid = false) → (ent i).valid = false ∧ ∀ j, j < i → (ent j).valid = true) ∧
        ((∀ j, j < 64 → (ent j).valid = true) → ∀ j, j < 64 → j ≠ i → older i j))) ∧
  (∀ (s : State) (q : Nat),
    let c := (tget 0 s.hbm.cecnt q).toNat
    let t := s.hbm.cethr.toNat
    ∃ u : State, u = { s with hbm := { s.hbm with cecnt := tset 0 s.hbm.cecnt q (BitVec.ofNat 32 (min 0xFFFFFFFF (c + 1))) } } ∧
      s.countCe q = if t ≠ 0 ∧ c < 0xFFFFFFFF ∧ (c + 1) % t = 0 then u.pushEvent 4 0 (BitVec.ofNat 64 q) 0 else u)

/-- The selector of a phase boundary and its release (spec/01, R42, R43; spec/14, R366). VARIANT becomes the variant of the
least cost, which is the greatest of T_g times its ratio to the ratio of the current variant, and the lowest of equal ones; T_g is
the longest time of a strand of the group that had not halted before the phase. Every strand that waits goes on. -/
def VariantSelection : Prop :=
  (∀ (ts : List Nat) (vars : List (List Nat)) (u : Nat),
    let n := ts.length
    let ratio (v g : Nat) : Nat := (vars.getD v []).getD g 0
    let cost (v g : Nat) : Rat := (ts.getD g 0 : Rat) * (ratio v g : Rat) / (ratio u g : Rat)
    let atMost (v w : Nat) : Prop := ∀ g, g < n → ∃ g', g' < n ∧ cost v g ≤ cost w g'
    n ≠ 0 → u < vars.length → (∀ v, v < vars.length → n ≤ (vars.getD v []).length) → (∀ g, g < n → ratio u g ≠ 0) →
    ∃ b, pickVariant ts vars u = b ∧ b < vars.length ∧ (∀ v, v < vars.length → atMost b v) ∧ ∀ v, v < b → ¬ atMost v b) ∧
  (∀ (s : State) (k g : Nat) (l : Launch), g ≤ l.rec_.ngrp →
    let counts (m : Strand) : Prop := m ∈ s.ctxStrands k ∧ m.group = g ∧ m.phaseHalt = false
    ∃ t, (s.groupTimes k l)[g]? = some t ∧ (∀ m, counts m → m.phaseAt - l.phaseT0 ≤ t) ∧
      (t = 0 ∨ ∃ m, counts m ∧ t = m.phaseAt - l.phaseT0)) ∧
  (∀ (s : State) (k self : Nat) (l : Launch), (s.ctx k).cur = some l → (s.strands.map fun m => m.id).Nodup →
    ∃ t : State, t = s.phaseRelease k self ∧
      (t.ctx k).cur.map (fun x => (x.variant, x.phaseT0)) = some (if 2 ≤ l.rec_.varcnt then
          BitVec.ofNat 2 (pickVariant (s.groupTimes k l) (l.rec_.vars.take l.rec_.varcnt) l.variant.toNat)
        else l.variant, s.cycles) ∧
      ∀ m ∈ s.strands, ∃ y, t.strand m.id = some y ∧ (m.ctx ≠ k → y = m) ∧
        (m.ctx = k → m.halted = true → y.phase = m.phase ∧ y.phaseHalt = true) ∧
        (m.ctx = k → m.halted = false → y.atPhase = false ∧
          (m.wait = .phase ∨ m.id = self → y.phase = m.phase + 1) ∧ (m.wait = .phase → m.id ≠ self → y.wait = .none) ∧
          (m.wait ≠ .phase → m.id ≠ self → y.phase = m.phase ∧ y.phaseGo = m.atPhase)))

/-- STATUS codes (spec/01, R47). -/
def statusCode : LStatus → Nat
  | .ok => 1 | .fault => 2 | .faultDomain => 3 | .version => 4 | .badrec => 5 | .staleHandle => 6 | .budget => 7
  | .killed => 8 | .discarded => 9 | .tidtable => 10

/-- The parts of a record written in order through a context's translation, at offsets from an address: the cause that the
first part meets which fails, after which nothing more is written (spec/01, R46). -/
def writesAll (c : Ctx) (a : Nat) : State → List (Nat × List Byte) → State × Option Cause
  | s, [] => (s, none)
  | s, p :: ps => match s.devWrite c ((a + p.1) % 2 ^ 64) p.2 with
    | .ok t => writesAll c a t ps
    | .error q => (s, some q.1)

/-- The completion record of a launch and the slice record before it (spec/01, R45 to R47; spec/14, R374): FPC, ENDT and TAG are
written first and the doubleword with STATUS last, and COMPL-LOST is raised when a part cannot be written. -/
def CompletionRecord : Prop :=
  ∀ (s : State) (k : Nat) (l : Launch) (e : Ending),
    let slice : List Nat := [l.startT.toNat, l.slipT.toNat, (if l.slipped then 1 else 0) + (if l.disp then 2 else 0), 0]
    let parts : List (Nat × List Byte) := (if 1 < l.rec_.npkg then [(0x20, slice.flatMap (bytesOf 8))] else []) ++
      [(8, [e.fpc.toNat, s.mtime.toNat, l.rec_.tag.toNat].flatMap (bytesOf 8)),
       (0, bytesOf 8 (statusCode e.status + e.cause.toNat * 2 ^ 16 + e.fstrand.toNat * 2 ^ 32))]
    let r := writesAll (s.ctx k) l.rec_.compl.toNat s parts
    let w := match r.2 with
      | none => r.1
      | some q => r.1.pushEvent 8 (s.handle k) l.rec_.tag (BitVec.ofNat 64 q.code)
    s.openOf k = [] → ∃ t, t = s.finishLaunch k l e ∧ t.mem = w.mem ∧ t.events = w.events

/-- The byte that the writes of an image put at an offset, and the number that `n` of them hold. -/
def chunkByte (l : List (Nat × List Byte)) (o : Nat) : Option Byte :=
  l.findSome? fun p => if p.1 ≤ o then p.2[o - p.1]? else none
def chunkNat (l : List (Nat × List Byte)) (o n : Nat) : Nat := natOf ((List.range n).map fun i => (chunkByte l (o + i)).getD 0)

def bit (b : Bool) : Nat := if b then 1 else 0

/-- Status codes of a chain register (spec/02, R54). -/
def chainCode : ChStat → Nat
  | .empty => 0 | .filling => 1 | .full => 2 | .spent => 3

/-- A loop level that an image may hold: the fields of an active one are in range (spec/02, R57, R68). -/
def LevelInRange (outer : Bool) (l : Level) : Prop :=
  (l.act = true → l.len ≠ 0 ∧ 1 ≤ l.st.toNat ∧ l.st.toNat ≤ if outer then 1 else 8) ∧
  (l.drain = true → outer = false ∧ l.act = true ∧ 1 < l.st.toNat)

/-- What the image of a strand holds, by the layout of spec/02, R65 to R72: each field at its offset, nothing for what is dead,
empty or reserved as never written, and the doubleword with MAGIC last. -/
def ImageHolds (s : State) (m : Strand) (why : Why) : Prop :=
  let l := s.imageChunks m why
  let img := chunkNat l
  let unwritten (o n : Nat) : Prop := ∀ i, i < n → chunkByte l (o + i) = none
  l.getLast? = some (0, bytesOf 8 (0x53565349 + 2 ^ 32 + Config.impl.toNat * 2 ^ 48)) ∧
  img 8 8 = (s.handle m.ctx).toNat ∧ img 0x10 8 = m.index % 256 + m.serial.toNat * 2 ^ 32 ∧
  img 0x18 8 % 2 ^ 32 = m.plive.toNat ∧ img 0x18 8 < 2 ^ 48 ∧
  (∀ n : CReg, img 0x18 8 / 2 ^ (32 + 2 * n.val) % 4 = chainCode m.cRegs[n].stat) ∧
  img 0x20 8 = m.vlive.toNat ∧ img 0x28 8 = m.saveT.toNat ∧
  img 0x30 8 = (match why with | .preempt => 1 | .swap => 2 | .checkpoint => 3) ∧ img 0x38 8 = 0 ∧
  (∀ n : SReg, img (0x40 + 8 * n.val) 8 = (m.readS n).toNat) ∧
  (∀ n : QReg, (m.plive.getLsbD n.val = true → (img 0x240 8).testBit n.val = m.readQ n) ∧
    (n ≠ 0 → m.plive.getLsbD n.val = false → (∀ q ∈ m.l0.stages, q ≠ n) → (img 0x240 8).testBit n.val = false)) ∧
  img 0x240 8 < 2 ^ 16 ∧ (∀ i, i < 0x38 → chunkByte l (0x248 + i) = some 0) ∧
  (∀ n : MReg, (n = 0 ∨ m.plive.getLsbD (16 + n.val) = true → img (0x280 + 8 * n.val) 8 = (m.readM n).toNat) ∧
    (n ≠ 0 → m.plive.getLsbD (16 + n.val) = false → unwritten (0x280 + 8 * n.val) 8)) ∧
  (∀ n : BReg, img (0x300 + 8 * n.val) 8 = (m.readB n).toNat) ∧
  (∀ p ∈ [(0x340, m.l0), (0x360, m.l1)], img p.1 8 = p.2.count.toNat ∧ img (p.1 + 8) 8 = p.2.start.toNat + p.2.len.toNat * 2 ^ 32 +
    p.2.st.toNat * 2 ^ 44 + bit p.2.act * 2 ^ 48 + bit p.2.drain * 2 ^ 49) ∧
  img 0x380 4 = m.pc.toNat ∧ img 0x384 4 = m.xfer.tgt.toNat ∧
  img 0x388 8 = m.xfer.rem.toNat + bit m.xfer.valid * 4 + bit m.stallchk * 2 ^ 8 + bit m.step * 2 ^ 9 + m.stleft.toNat * 2 ^ 12 ∧
  img 0x390 4 = m.traph.toNat ∧ img 0x394 4 = m.phase.toNat ∧ img 0x398 4 = m.jhead.toNat ∧ img 0x39C 4 = m.jdone.toNat ∧
  img 0x3A0 8 = (s.slogOf m.id).length % 2 ^ 64 ∧ img 0x3A8 8 = (if m.debug then 3 else m.wkind.toNat) ∧
  img 0x3B0 8 = m.wval.toNat ∧ img 0x3B8 8 = m.wold.toNat ∧ img 0x3C0 8 = (if m.wait = .none then 0 else m.stallcnt.toNat) ∧
  img 0x400 8 = m.trap.cause.toNat + bit m.trap.indly * 2 ^ 16 + bit m.trap.attgt * 2 ^ 17 + bit m.trap.valid * 2 ^ 18 +
    bit m.trap.engv * 2 ^ 19 + m.trap.pc.toNat * 2 ^ 32 ∧
  img 0x408 8 = m.trap.lmask.toNat ∧ img 0x410 8 = m.trap.addr.toNat ∧
  img 0x418 8 = m.trap.engine.toNat + m.trap.seq.toNat * 2 ^ 32 ∧ img 0x420 8 = m.trap.upc.toNat ∧
  img 0x428 8 = m.trap.wname.toNat ∧ img 0x430 8 = m.trap.pchn.toNat + bit m.trap.pvld * 8 + m.trap.pndig.toNat * 2 ^ 8 ∧
  img 0x438 8 = m.trap.tmtime.toNat ∧
  img 0x440 8 = m.hrpc.toNat + m.tnum.toNat * 2 ^ 32 + bit m.hvalid * 2 ^ 40 ∧ img 0x448 8 = m.drpc.toNat + m.dptgt.toNat * 2 ^ 32 ∧
  img 0x450 8 = m.dpdly.toNat + bit m.dpval * 4 + bit m.dvalid * 8 ∧
  (∀ n : VReg, (m.vlive.getLsbD n.val = true → img (0x1000 + 0x100 * n.val) 256 = m.vRegs[n].toNat) ∧
    (m.vlive.getLsbD n.val = false → unwritten (0x1000 + 0x100 * n.val) 256)) ∧
  (∀ n : CReg,
    let c := m.cRegs[n]
    let o := 0x5000 + 0xC00 * n.val;
    (c.stat = .empty ∨ c.stat = .spent → unwritten o 0xC00) ∧
    (c.stat = .filling ∨ c.stat = .full → img o 16 = c.pword.toNat ∧ img (o + 0x10) 8 % 2 ^ 8 = chainCode c.stat ∧
      img (o + 0x18) 8 = c.pmask.toNat ∧ img (o + 0x40) 256 = c.opa.toNat ∧ img (o + 0x140) 256 = c.opb.toNat ∧
      img (o + 0x240) 256 = c.opc.toNat ∧ (c.stat = .full → img (o + 0x740) 0x400 = 0))) ∧
  ((m.journal.map fun e => e.seq.toNat % 256).Nodup → ∀ e ∈ m.journal,
    let o := 0xB000 + 0x40 * (e.seq.toNat % 256)
    img o 12 = (encode e.cmd).toNat ∧ img (o + 0xC) 4 = e.seq.toNat ∧ img (o + 0x10) 8 = e.upc.toNat ∧
    (e.eng < 16 → img (o + 0x18) 8 = (match e.st with | .queued => 0 | .stopped => 1 | .complete => 2 | .null => 3) +
      bit e.once * 2 ^ 8 + e.eng * 2 ^ 9) ∧
    ∀ i, i < 4 → img (o + 0x20 + 8 * i) 8 = (e.opv.getD i 0).toNat) ∧
  (∀ k, k < 14 →
    let (a, b) := (0xF000 + 0x110 * k, 0x480 + 0x20 * k)
    let record (w : PWrite) : Nat := w.dest.code.toNat + (w.due - m.tick) * 2 ^ 8 + 2 ^ 16
    ((byWord m.pend)[k]? = none → img a 8 = 0 ∧ img b 8 = 0) ∧
    ∀ x y, (byWord m.pend)[k]? = some (x, y) →
      (x.due - m.tick < 256 → img a 8 = record x) ∧ img (a + 8) 8 = x.mask.toNat ∧ img (a + 16) 256 = x.val.toNat ∧
      (y = none → img b 8 = 0) ∧ ∀ w, y = some w → (w.due - m.tick < 256 → img b 8 = record w) ∧
        img (b + 8) 8 = w.mask.toNat ∧ img (b + 16) 8 = w.val.toNat % 2 ^ 64) ∧
  unwritten 0x640 0x9C0 ∧ unwritten 0xFEE0 0x120

/-- The image of a strand as a save writes it, and the strand that a restore reads from it (spec/02, R65 to R73). -/
def SaveImage : Prop :=
  ∀ (s u : State) (m kept : Strand) (why : Why),
    let img := chunkNat (s.imageChunks m why)
    ImageHolds s m why ∧
    (∀ (c : Ctx) (base : Nat) (l : List (Nat × List Byte)),
      s.writeImage c base l = l.foldlM (fun t p => t.saveWrite c ((base + p.1) % 2 ^ 64) p.2) s) ∧
    (kept.ctx = m.ctx → kept.index = m.index → u.handle m.ctx = s.handle m.ctx →
      (LevelInRange false m.l0 → LevelInRange true m.l1 → (s.slogOf m.id).length ≤ 64 → m.journal = [] → m.jdone = m.jhead →
        m.pend = [] → (∀ n : CReg, m.cRegs[n].stat = .empty ∨ m.cRegs[n].stat = .spent) → (u.readStrand kept img).isSome = true) ∧
      ∀ y, u.readStrand kept img = some y →
        (∀ n, y.readS n = m.readS n) ∧ (∀ n : QReg, m.plive.getLsbD n.val = true → y.readQ n = m.readQ n) ∧
        (∀ n : VReg, (m.vlive.getLsbD n.val = true → y.vRegs[n] = m.vRegs[n]) ∧ (m.vlive.getLsbD n.val = false → y.vRegs[n] = 0)) ∧
        (∀ n : MReg, m.plive.getLsbD (16 + n.val) = true → y.readM n = m.readM n) ∧ (∀ n, y.readB n = m.readB n) ∧
        (∀ n : CReg, y.cRegs[n].stat = m.cRegs[n].stat ∧ (m.cRegs[n].stat = .filling ∨ m.cRegs[n].stat = .full →
          y.cRegs[n].pword = m.cRegs[n].pword ∧ y.cRegs[n].pmask = m.cRegs[n].pmask ∧ y.cRegs[n].opa = m.cRegs[n].opa ∧
          y.cRegs[n].opb = m.cRegs[n].opb ∧ y.cRegs[n].opc = m.cRegs[n].opc)) ∧
        { y.l0 with pos := m.l0.pos } = m.l0 ∧ { y.l1 with pos := m.l1.pos } = m.l1 ∧ y.xfer = m.xfer ∧ y.pc = m.pc ∧
        y.stallchk = m.stallchk ∧ y.step = m.step ∧ y.stleft = m.stleft ∧ y.traph = m.traph ∧ y.phase = m.phase ∧
        y.plive = m.plive ∧ y.vlive = m.vlive ∧ y.jhead = m.jhead ∧ y.trap = m.trap ∧ y.hrpc = m.hrpc ∧ y.tnum = m.tnum ∧
        y.hvalid = m.hvalid ∧ y.drpc = m.drpc ∧ y.dptgt = m.dptgt ∧ y.dpdly = m.dpdly ∧ y.dpval = m.dpval ∧
        y.dvalid = m.dvalid ∧ y.wval = m.wval ∧ y.wold = m.wold ∧ y.debug = (m.debug || m.wkind == 3) ∧
        (m.pend = [] → y.pend = []) ∧ (m.journal = [] → m.jdone = m.jhead → y.journal = [] ∧ y.jdone = m.jdone))

/-- What a reset of `s` leaves in `t`, and what a change of the life cycle does (spec/16, R403, R405): every launch, register file,
queue and register is wiped, READY is 0, and a cold one zeroes HBM4E and clears every fence. -/
def Wiped (s t : State) (cold : Bool) : Prop :=
  t.me = State.reset.me ∧ t.others = [] ∧ t.ctxs = [] ∧ t.regions = [] ∧ t.slog = [] ∧ t.barriers = [] ∧ t.faults = [] ∧
  t.faultSeq = [] ∧ t.xs = [] ∧ t.sels = [] ∧ t.linePoison = [] ∧ t.sramPoison = [] ∧ t.objs = [] ∧ t.asgens = [] ∧ t.sram = [] ∧
  t.mtime = 0 ∧ t.lastServed = none ∧ t.admCount = 0 ∧ t.inbox = [] ∧ t.outbox = [] ∧ t.gone = [] ∧ t.hostHeld = [] ∧
  t.fatal = false ∧ t.ckpt = none ∧ t.measLog = [] ∧ t.logHash = State.reset.logHash ∧ t.events = State.reset.events ∧
  t.faultQs = State.reset.faultQs ∧ t.pages = State.reset.pages ∧ t.mer = State.reset.mer ∧ t.eph = State.reset.eph ∧
  t.hbm = State.reset.hbm ∧ t.plims = [] ∧ t.reten = [] ∧ t.tsram = [] ∧ t.decs = [] ∧ t.cxl = State.reset.cxl ∧
  t.ual = State.reset.ual ∧ t.hbmgang = 0 ∧ t.foreign = [] ∧
  t.plat.form = s.plat.form ∧ t.plat.tested = s.plat.tested ∧ t.plat.cxlMem = s.plat.cxlMem ∧ t.plat.ready = false ∧
  t.plat.lcs = s.plat.lcs ∧ t.plat.lccnt = s.plat.lccnt ∧ t.plat.ownerHash = s.plat.ownerHash ∧
  t.plat.deviceKey = s.plat.deviceKey ∧ t.plat.pkgnum = 0 ∧ t.plat.pcap = 2400 ∧ t.plat.measen = true ∧ t.plat.cold = cold ∧
  (s.mem.wf = true →
    (∀ a, a < hbmEnd → (∀ p ∈ s.foreign, p.1 ≠ a) → t.mem.byte a = if cold then 0 else s.mem.byte a) ∧
    (∀ a, hbmEnd ≤ a → a < objWindow → (∀ p ∈ s.foreign, p.1 ≠ a) → t.mem.byte a = s.mem.byte a) ∧
    ∀ p ∈ s.foreign, (∀ q ∈ s.foreign, q.1 = p.1 → q = p) → t.mem.byte p.1 = p.2) ∧
  (cold = true → t.plat.tileen = s.plat.tested ∧ t.plat.pcen = State.reset.plat.pcen ∧
    t.plat.cxlen = BitVec.allOnes 13 ∧ t.plat.ualen = BitVec.allOnes 8 ∧ t.plat.fencegen = 0) ∧
  (cold = false → t.plat.tileen = s.plat.tileen ∧ t.plat.pcen = s.plat.pcen ∧ t.plat.cxlen = s.plat.cxlen ∧
    t.plat.ualen = s.plat.ualen ∧ t.plat.fencegen = s.plat.fencegen)

/-- A strand but for the waits that end and the engine commands that go on by themselves (spec/12, R315, R326). -/
def runsOn (m : Strand) : Strand :=
  { m with wait := .none, stallcnt := 0, journal := m.journal.map fun e => { e with hold := 0 } }

/-- A command that was posted to an idle page has had its effect `t` and its status `code`, which the page returns when the
command completes (spec/16, R394, R395). -/
def posted (pg : Fin 16) (op : BitVec 16) (a : List W64) (t : State) (code : BitVec 16) : State :=
  t.setPage pg { t.pages[pg] with ovr := false, pendOp := some op, pendArgs := a, pendRes := code }

/-- The page takes a command now: the package is READY, and none is pending (spec/16, R394, R405). -/
def Idle (s : State) (pg : Fin 16) : Prop := s.plat.ready = true ∧ s.pages[pg].pendOp = none

end Sys2Proof.Claims

open Sys2Proof Sys2Proof.Machine Sys2Proof.Claims


/-- Sums and products of family 0 modulo 2^64 (R147, R101, R146). ADD, ADDI, SUB, MUL, MULH and MULHN, whenever the word
executes, answer the state in which Sd takes the result of R147 with the latency of R101 (1, and 3 for the
products): the sum, difference or product modulo 2^64, and bits 127:64 of the signed or unsigned 128-bit product.
Nothing else changes but by retirement. -/
def Obligations.ScalarSumsAndProducts : Prop :=
  ∀ (h : Hdr) (d a b : SReg) (imm : W32),
    WritesS (.add h d a b) h [.s a, .s b] 1 d (fun m => BitVec.ofNat 64 ((m.readS a).toNat + (m.readS b).toNat)) ∧
    WritesS (.addi h d a imm) h [.s a] 1 d (fun m => BitVec.ofInt 64 ((m.readS a).toInt + imm.toInt)) ∧
    WritesS (.sub h d a b) h [.s a, .s b] 1 d (fun m => BitVec.ofInt 64 ((m.readS a).toInt - (m.readS b).toInt)) ∧
    WritesS (.mul h d a b) h [.s a, .s b] 3 d (fun m => BitVec.ofNat 64 ((m.readS a).toNat * (m.readS b).toNat)) ∧
    WritesS (.mulh h d a b) h [.s a, .s b] 3 d
      (fun m => ((m.readS a).signExtend 128 * (m.readS b).signExtend 128).extractLsb' 64 64) ∧
    WritesS (.mulhn h d a b) h [.s a, .s b] 3 d
      (fun m => ((m.readS a).setWidth 128 * (m.readS b).setWidth 128).extractLsb' 64 64)

/-- Quotients and remainders, and what a divisor of 0 gives (R148). For DIV, DIVN, REM and REMN, whenever the word
executes, the state answered is that in which Sd takes with latency 12 a value q (quotient) or r (remainder) that
meets R148. By a divisor other than 0, except −2^63 by −1: A = q × B + r, |r| < |B|, and r is 0 or has the sign of
A. By 0 the quotient is all ones and the remainder is A. −2^63 by −1 gives −2^63 and 0. -/
def Obligations.DivisionFollowsR148 : Prop :=
  ∀ (h : Hdr) (d a b : SReg) (s : State), Runs s h [.s a, .s b] →
    let m := s.me.settle
    let x := m.readS a
    let y := m.readS b
    (∃ q r : W64,
      exec (.div h d a b) s = .next (retired h s fun m => m.setS 12 d q) ∧
      exec (.rem h d a b) s = .next (retired h s fun m => m.setS 12 d r) ∧
      (y = 0 → q = BitVec.allOnes 64 ∧ r = x) ∧
      (x = BitVec.intMin 64 ∧ y = BitVec.allOnes 64 → q = BitVec.intMin 64 ∧ r = 0) ∧
      (y ≠ 0 ∧ ¬(x = BitVec.intMin 64 ∧ y = BitVec.allOnes 64) →
        x.toInt = q.toInt * y.toInt + r.toInt ∧ r.toInt.natAbs < y.toInt.natAbs ∧ (r = 0 ∨ (r.toInt < 0 ↔ x.toInt < 0)))) ∧
    (∃ q r : W64,
      exec (.divn h d a b) s = .next (retired h s fun m => m.setS 12 d q) ∧
      exec (.remn h d a b) s = .next (retired h s fun m => m.setS 12 d r) ∧
      (y = 0 → q = BitVec.allOnes 64 ∧ r = x) ∧
      (y ≠ 0 → x.toNat = q.toNat * y.toNat + r.toNat ∧ r.toNat < y.toNat))

/-- Logic, selection, moves, minima and maxima of family 0 (R147, R101). AND, ANDI, OR, ORI, XOR, XORI, ANDN, SEL, MOVI,
MOVIH, MOV and LEA, whenever the word executes, answer the state in which Sd takes the result of R147 with latency
1. Immediates are sign-extended; MOVIH keeps bits 47:0 of its destination; LEA adds CODE, the image base of the
launch. MIN, MAX, MINN and MAXN, whenever the word executes, answer the state in which Sd takes with latency 1 one
of the two operands that is no larger, or no smaller, than either, as signed or unsigned 64-bit values. -/
def Obligations.ScalarLogicAndMoves : Prop :=
  (∀ (h : Hdr) (d a b : SReg) (c : QReg) (imm : W32) (i48 : BitVec 48) (i16 : BitVec 16),
     WritesS (.and h d a b) h [.s a, .s b] 1 d (fun m => m.readS a &&& m.readS b) ∧
     WritesS (.andi h d a imm) h [.s a] 1 d (fun m => m.readS a &&& imm.signExtend 64) ∧
     WritesS (.or h d a b) h [.s a, .s b] 1 d (fun m => m.readS a ||| m.readS b) ∧
     WritesS (.ori h d a imm) h [.s a] 1 d (fun m => m.readS a ||| imm.signExtend 64) ∧
     WritesS (.xor h d a b) h [.s a, .s b] 1 d (fun m => m.readS a ^^^ m.readS b) ∧
     WritesS (.xori h d a imm) h [.s a] 1 d (fun m => m.readS a ^^^ imm.signExtend 64) ∧
     WritesS (.andn h d a b) h [.s a, .s b] 1 d (fun m => m.readS a &&& ~~~ m.readS b) ∧
     WritesS (.sel h d a b c) h [.s a, .s b, .q c] 1 d (fun m => if m.readQ c then m.readS a else m.readS b) ∧
     WritesS (.movi h d i48) h [] 1 d (fun _ => i48.signExtend 64) ∧
     WritesS (.movih h d i16) h [.s d] 1 d (fun m => i16 ++ (m.readS d).extractLsb' 0 48) ∧
     WritesS (.mov h d a) h [.s a] 1 d (fun m => m.readS a) ∧
     (∀ s l, Runs s h [.s a] → (s.ctx s.me.settle.ctx).cur = some l →
       exec (.lea h d a imm) s =
         .next (retired h s fun m => m.setS 1 d (l.rec_.code + m.readS a + imm.signExtend 64)))) ∧
  (∀ (h : Hdr) (d a b : SReg),
     WritesS (.min h d a b) h [.s a, .s b] 1 d (fun m => if (m.readS b).slt (m.readS a) then m.readS b else m.readS a) ∧
     WritesS (.max h d a b) h [.s a, .s b] 1 d (fun m => if (m.readS a).slt (m.readS b) then m.readS b else m.readS a) ∧
     WritesS (.minn h d a b) h [.s a, .s b] 1 d (fun m => if (m.readS b).ult (m.readS a) then m.readS b else m.readS a) ∧
     WritesS (.maxn h d a b) h [.s a, .s b] 1 d (fun m => if (m.readS a).ult (m.readS b) then m.readS b else m.readS a))

/-- Shifts and rotates by B[5:0] or by an immediate (R147, R101). SHL, SHR, SAR and ROL, by a register or under .I,
whenever the word executes, answer the state in which Sd takes with latency 1 the value whose bit k is: under SHL
bit k − amt of A, or 0 below amt; under SHR bit k + amt, or 0 past bit 63; under SAR bit k + amt, or bit 63 past it;
under ROL bit (k − amt) mod 64. amt is B[5:0], or the immediate. -/
def Obligations.ScalarShiftsAndRotates : Prop :=
  ∀ (h : Hdr) (d a b : SReg) (n : Fin 64),
    (∀ (i : Instr) (rs : List Dest) (amt : Strand → Nat),
      (i = .shl h d a b ∧ rs = [.s a, .s b] ∧ amt = (fun m => (m.readS b).toNat % 64)) ∨
        (i = .shlI h d a n ∧ rs = [.s a] ∧ amt = (fun _ => n.val)) →
      ∃ v : Strand → W64, WritesS i h rs 1 d v ∧
        ∀ m k, k < 64 → (v m).getLsbD k = (decide (amt m ≤ k) && (m.readS a).getLsbD (k - amt m))) ∧
    (∀ (i : Instr) (rs : List Dest) (amt : Strand → Nat),
      (i = .shr h d a b ∧ rs = [.s a, .s b] ∧ amt = (fun m => (m.readS b).toNat % 64)) ∨
        (i = .shrI h d a n ∧ rs = [.s a] ∧ amt = (fun _ => n.val)) →
      ∃ v : Strand → W64, WritesS i h rs 1 d v ∧
        ∀ m k, k < 64 → (v m).getLsbD k = (decide (k + amt m < 64) && (m.readS a).getLsbD (k + amt m))) ∧
    (∀ (i : Instr) (rs : List Dest) (amt : Strand → Nat),
      (i = .sar h d a b ∧ rs = [.s a, .s b] ∧ amt = (fun m => (m.readS b).toNat % 64)) ∨
        (i = .sarI h d a n ∧ rs = [.s a] ∧ amt = (fun _ => n.val)) →
      ∃ v : Strand → W64, WritesS i h rs 1 d v ∧
        ∀ m k, k < 64 → (v m).getLsbD k = (m.readS a).getLsbD (min 63 (k + amt m))) ∧
    (∀ (i : Instr) (rs : List Dest) (amt : Strand → Nat),
      (i = .rol h d a b ∧ rs = [.s a, .s b] ∧ amt = (fun m => (m.readS b).toNat % 64)) ∨
        (i = .rolI h d a n ∧ rs = [.s a] ∧ amt = (fun _ => n.val)) →
      ∃ v : Strand → W64, WritesS i h rs 1 d v ∧
        ∀ m k, k < 64 → (v m).getLsbD k = (m.readS a).getLsbD ((k + 64 - amt m) % 64))

/-- Leading and trailing zeros, one bits, and bit fields (R147, R101). CLZ, CTZ, POPC, BFX and BFI, whenever the word
executes, answer the state in which Sd takes with latency 1: the count of leading zeros (64 for 0, else the top n
bits are 0 and the next is 1), of trailing zeros (likewise from bit 0), of one bits; bits [pos+wid−1:pos] of A zero-
extended; or D with those bits replaced by A[wid−1:0]. -/
def Obligations.ScalarBitCountsAndFields : Prop :=
  ∀ (h : Hdr) (d a : SReg) (pos : BitVec 6) (wid : BitVec 7),
    (∃ v : Strand → W64, WritesS (.clz h d a) h [.s a] 1 d v ∧ ∀ m,
      if m.readS a = 0 then v m = 64
      else (v m).toNat < 64 ∧ (m.readS a).getLsbD (63 - (v m).toNat) = true ∧
        ∀ k, 63 - (v m).toNat < k → (m.readS a).getLsbD k = false) ∧
    (∃ v : Strand → W64, WritesS (.ctz h d a) h [.s a] 1 d v ∧ ∀ m,
      if m.readS a = 0 then v m = 64
      else (v m).toNat < 64 ∧ (m.readS a).getLsbD (v m).toNat = true ∧
        ∀ k, k < (v m).toNat → (m.readS a).getLsbD k = false) ∧
    WritesS (.popc h d a) h [.s a] 1 d
      (fun m => BitVec.ofNat 64 ((List.range 64).countP fun k => (m.readS a).getLsbD k)) ∧
    (∃ v : Strand → W64, WritesS (.bfx h d a pos wid) h [.s a] 1 d v ∧ ∀ m k, k < 64 →
      (v m).getLsbD k = (decide (k < wid.toNat) && (m.readS a).getLsbD (pos.toNat + k))) ∧
    (∃ v : Strand → W64, WritesS (.bfi h d a pos wid) h [.s d, .s a] 1 d v ∧ ∀ m k, k < 64 →
      (v m).getLsbD k = if pos.toNat ≤ k ∧ k < pos.toNat + wid.toNat then (m.readS a).getLsbD (k - pos.toNat)
        else (m.readS d).getLsbD k)

/-- The predicate pair of CMP, CMPI, TSTB, PLOP, VANY and VALL (R149, R150, R151, R152, R135, R162). Each of the six
words whose destinations are no stage predicate of R162, and that reads nothing early, answers the state in which PT
and PF take the pair of R149 for its condition: under .N the condition and its complement, under .OR only a 1 into
the one that holds, both when the guard is true; under .U always, with the guard as an operand. The conditions are
COND on 64-bit values, bit #bit of A, FT[4a + 2b + c'], (m and G) /= 0 and (m and G) = G; for VANY and VALL the
guard is that some lane is enabled, and the latency is 2, else 1. While level 0 is active with ST > 1, each of the
six that names one of Q8 to Q(7+ST) as PT or PF, and is not suppressed (its guard is true, or it is under .U), ends
the launch with ILLEGAL at its own PC. -/
def Obligations.PredicatePairsOfR149 : Prop :=
  (∀ (h : Hdr) (pt pf p1 p2 p3 : QReg) (a b : SReg) (x : MReg) (c : Cond) (mode : PMode) (imm : BitVec 28) (bit : Fin 64)
       (ft : BitVec 8),
     (c.isInt = true →
       WritesPair (.cmp h pt pf a c mode b) h [.s a, .s b] 1 pt pf mode (fun m => m.guard h)
         (fun m => intCond c (m.readS a) (m.readS b)) ∧
       WritesPair (.cmpi h pt pf a c mode imm) h [.s a] 1 pt pf mode (fun m => m.guard h)
         (fun m => intCond c (m.readS a) (imm.signExtend 64))) ∧
     WritesPair (.tstb h pt pf a mode bit) h [.s a] 1 pt pf mode (fun m => m.guard h)
       (fun m => (m.readS a).getLsbD bit.val) ∧
     WritesPair (.plop h pt pf p1 p2 p3 ft mode) h [.q p1, .q p2, .q p3] 1 pt pf mode (fun m => m.guard h)
       (fun m => ft.getLsbD ((if m.readQ p1 then 4 else 0) + (if m.readQ p2 then 2 else 0) + (if m.readQ p3 then 1 else 0))) ∧
     WritesPair (.vany h pt pf x mode) h [.m x] 2 pt pf mode (fun m => m.laneGuard h != 0)
       (fun m => m.readM x &&& m.laneGuard h != 0) ∧
     WritesPair (.vall h pt pf x mode) h [.m x] 2 pt pf mode (fun m => m.laneGuard h != 0)
       (fun m => m.readM x &&& m.laneGuard h == m.laneGuard h)) ∧
  (∀ (h : Hdr) (pt pf p1 p2 p3 : QReg) (a b : SReg) (c : Cond) (mode : PMode) (imm : BitVec 28) (bit : Fin 64) (ft : BitVec 8)
       (x : MReg) (s : State), ¬ StageFree s.me.settle [pt, pf] →
     (s.me.settle.guard h = true ∨ mode = .u →
       (NotEarly s h [.s a, .s b] → exec (.cmp h pt pf a c mode b) s = .next (raises s .illegal)) ∧
       (NotEarly s h [.s a] → exec (.cmpi h pt pf a c mode imm) s = .next (raises s .illegal)) ∧
       (NotEarly s h [.s a] → exec (.tstb h pt pf a mode bit) s = .next (raises s .illegal)) ∧
       (NotEarly s h [.q p1, .q p2, .q p3] → exec (.plop h pt pf p1 p2 p3 ft mode) s = .next (raises s .illegal))) ∧
     (s.me.settle.laneGuard h ≠ 0 ∨ mode = .u → NotEarly s h [.m x] →
       exec (.vany h pt pf x mode) s = .next (raises s .illegal) ∧ exec (.vall h pt pf x mode) s = .next (raises s .illegal)))

/-- PREP writes a target; XFER takes it at once or after its delay words (R153, R154, R429). PREP writes TGT, or
A[31:0], to Bt with latency 1. XFER and XFER.L outside a window and a loop: with DLY 0 the strand continues at the
target Bt holds; with DLY d the next word in chain order follows and the transfer is pending with d words owed.
XFER.L also writes Seq(PC, DLY + 1) to its link register with latency 1; the lines it reads for that are fetched
first. While a loop level is active and no window is open, both raise ILLEGAL. -/
def Obligations.PreparedTransfers : Prop :=
  ∀ (h : Hdr) (bt : BReg) (a : SReg) (tgt : W32) (d : Fin 4) (lnk : OpLink) (s : State),
    let m := s.me.settle
    (Runs s h [] → exec (.prep h bt tgt) s = .next (retired h s fun m => m.setB 1 bt tgt)) ∧
    (Runs s h [.s a] → exec (.prepReg h bt a) s = .next (retired h s fun m => m.setB 1 bt ((m.readS a).setWidth 32))) ∧
    (Runs s h [.b bt] → Straight m → d = 0 →
      exec (.xfer h bt d) s = .next (landsOn s { m.clock h.stall with pc := m.readB bt, attgt := true })) ∧
    (∀ p, Runs s h [.b bt] → Straight m → d ≠ 0 → chainNext m.pc m.link = some p →
      exec (.xfer h bt d) s =
        .next (landsOn s { m.clock h.stall with pc := p, xfer := ⟨true, m.readB bt, BitVec.ofNat 2 d.val⟩ })) ∧
    (∀ k, Runs s h [.b bt] → Straight m → (settled s).seq m (d.val + 1) = .ok k →
      let x := match lnk with | .s n => m.setS 1 n (k.setWidth 64) | .b n => m.setB 1 n k
      (d = 0 → exec (.xferL h lnk bt d) s =
        .next (landsOn s { x.clock h.stall with pc := m.readB bt, attgt := true } (afterSeq s (d.val + 1)))) ∧
      (∀ p, d ≠ 0 → chainNext m.pc m.link = some p → exec (.xferL h lnk bt d) s =
        .next (landsOn s { x.clock h.stall with pc := p, xfer := ⟨true, m.readB bt, BitVec.ofNat 2 d.val⟩ }
          (afterSeq s (d.val + 1))))) ∧
    (Runs s h [.b bt] → m.xfer.valid = false → m.l0.act = true ∨ m.l1.act = true →
      exec (.xfer h bt d) s = .next (raises s .illegal) ∧ exec (.xferL h lnk bt d) s = .next (raises s .illegal))

/-- After its d delay words the transfer takes effect (R154, R120). A strand with a pending transfer that owes d words,
d from 1 to 3, whose line holds them all, advances d times: the first d − 1 words of the window step through the
line, and after the last one the PC is the target and no transfer is pending. -/
def Obligations.DelayWindowEndsAtTarget : Prop :=
  ∀ (m : Strand) (d : Nat), m.xfer.valid = true → m.xfer.rem.toNat = d → 1 ≤ d →
    fieldN m.pc 0 3 + d ≤ linkNslot m.link → m.pc.toNat + d < 2 ^ 32 →
    ∃ f : Nat → Strand, f 0 = m ∧
      (∀ k, k < d → (f k).advance = .to (f (k + 1))) ∧
      (∀ k, k < d → (f k).pc = m.pc + BitVec.ofNat 32 k ∧ (f k).xfer.valid = true) ∧
      (f d).pc = m.xfer.tgt ∧ (f d).xfer.valid = false ∧ (f d).attgt = true

/-- Transfer-class words, PHASE and WAITT raise ILLEGAL inside a delay window (R155, R309, R305). XFER, XFER.L, LOOP,
LBRK, RFT, CSW.YIELD, CSW.PARKT, CSW.PARKA, HALT, TRAP, PHASE and WAITT whose guard is true, executed inside the
delay window of a taken XFER, end the launch with ILLEGAL: the trap record of the strand holds the word's PC, cause
7 and INDLY 1, and the launch has an ending. -/
def Obligations.TransferClassInsideWindow : Prop :=
  ∀ (h : Hdr) (bt : BReg) (lnk : OpLink) (a : SReg) (d : Fin 4) (len : BitVec 12) (st : BitVec 4) (n : Byte) (s : State)
      (i : Instr),
    i ∈ [.xfer h bt d, .xferL h lnk bt d, .loop h a len st, .lbrk h, .rft h, .cswYield h, .cswParkt h a, .cswParka h a,
      .halt h, .trap h n, .phase h, .waitt h a] →
    Runs s h [.b bt, .s a] → s.me.settle.xfer.valid = true → s.ended s.me.settle.ctx = false →
    (s.ctx s.me.settle.ctx).cur.isSome = true → s.me.id ≠ 0 →
    ∃ t, exec i s = .next t ∧ t.ended s.me.settle.ctx = true ∧
      t.me.trap.valid = true ∧ t.me.trap.cause = 7 ∧ t.me.trap.pc = s.me.settle.pc ∧ t.me.trap.indly = true

/-- LOOP opens level 0, or skips its body (R158, R159, R429). LOOP outside a window, where a level may open, with count
n at most 2^64 − ST: for n = 0 the strand continues at Seq(PC, LEN + 1) (unless the body ends where the active level
0 ends), and raises END-OF-CHAIN with its own PC where the chain ends first; for n > 0 the strand continues at
START, the next word in chain order, level 0 is active with LEN and ST and COUNT n + ST − 2 after its first
iteration start, an active level 0 becomes level 1, and with ST from 2 to 8 the next word reads Q8 as 1 and Q9 to
Q(7+ST) as 0. Where no level may open (two are active, level 0 is pipelined, the body runs past the end of level
0's, or n exceeds 2^64 − ST), LOOP raises ILLEGAL. -/
def Obligations.LoopOpensLevel : Prop :=
  ∀ (h : Hdr) (c : SReg) (len : BitVec 12) (st : BitVec 4) (s : State) (p : W32),
    let m := s.me.settle
    let n := m.readS c
    (Runs s h [.s c] → m.xfer.valid = false →
      (m.l0.act = true ∧ m.l1.act = true) ∨ (m.l0.act = true ∧ 1 < m.l0.st.toNat) ∨
        (m.l0.act = true ∧ m.l0.len.toNat < m.l0.pos + len.toNat) ∨ 2 ^ 64 - st.toNat < n.toNat →
      exec (.loop h c len st) s = .next (raises s .illegal)) ∧
    (Runs s h [.s c] → m.xfer.valid = false → m.step = false → 1 ≤ st.toNat → st.toNat ≤ 8 → n.toNat ≤ 2 ^ 64 - st.toNat →
    (m.l0.act = false ∨ (m.l1.act = false ∧ m.l0.st.toNat ≤ 1 ∧ m.l0.pos + len.toNat ≤ m.l0.len.toNat)) →
    (n = 0 → (m.l0.act = true → m.l0.pos + len.toNat ≠ m.l0.len.toNat) →
      (settled s).seq m (len.toNat + 1) = .ok p → p ≠ 0 →
      ∃ t, exec (.loop h c len st) s = .next t ∧ t.me.pc = p ∧ t.me.l0.act = m.l0.act ∧ t.me.l1 = m.l1) ∧
    (n = 0 → (m.l0.act = true → m.l0.pos + len.toNat ≠ m.l0.len.toNat) →
      (settled s).seq m (len.toNat + 1) = .ok 0 →
      exec (.loop h c len st) s = .next (raises s .endOfChain (afterSeq s (len.toNat + 1)))) ∧
    (n ≠ 0 → chainNext m.pc m.link = some p →
      ∃ t, exec (.loop h c len st) s = .next t ∧ t.me.pc = p ∧
        t.me.l0 = ⟨n + BitVec.ofNat 64 st.toNat - 2, p, len, st, true, false, 1⟩ ∧
        (if m.l0.act = true then t.me.l1 = { m.l0 with pos := m.l0.pos + len.toNat } else t.me.l1 = m.l1) ∧
        (1 < st.toNat → t.me.settle.readQ 8 = true ∧
          ∀ q : QReg, 9 ≤ q.val → q.val < 8 + st.toNat → t.me.settle.readQ q = false)))

/-- LBRK closes level 0 and continues after its body (R161, R160). LBRK outside a window with level 0 active, whose
enclosing level 1, if active, does not end at the same word, closes level 0: level 1 becomes level 0, and the strand
continues at the word after the closed body, Seq(PC, LEN − Pos + 1); where level 1 ends at the same word and its
COUNT is above 0, that level's next iteration follows instead. Where the chain ends right after the closed body,
LBRK raises END-OF-CHAIN with its own PC and does not retire: R161 is silent there, and this is the model's choice
(log 73). With no active level it raises ILLEGAL. -/
def Obligations.LbrkClosesLevel : Prop :=
  ∀ (h : Hdr) (s : State) (p : W32),
    let m := s.me.settle
    Runs s h [] → m.xfer.valid = false →
    (m.l0.act = false → exec (.lbrk h) s = .next (raises s .illegal)) ∧
    (m.l0.act = true → (m.l1.act = true → m.l1.pos ≠ m.l1.len.toNat) →
      (settled s).seq m (m.l0.len.toNat - m.l0.pos + 1) = .ok p → p ≠ 0 →
      exec (.lbrk h) s = .next (landsOn s { m.clock h.stall with
        pc := p, l0 := if m.l1.act then { m.l1 with pos := m.l1.pos + 1 } else m.l1, l1 := Level.idle }
        (afterSeq s (m.l0.len.toNat - m.l0.pos + 1)))) ∧
    (m.l0.act = true → (m.l1.act = true → m.l1.pos ≠ m.l1.len.toNat) →
      (settled s).seq m (m.l0.len.toNat - m.l0.pos + 1) = .ok 0 →
      exec (.lbrk h) s = .next (raises s .endOfChain (afterSeq s (m.l0.len.toNat - m.l0.pos + 1)))) ∧
    (m.l0.act = true → m.l1.act = true → m.l1.pos = m.l1.len.toNat → 0 < m.l1.count.toNat → m.l1.st.toNat ≤ 1 →
      exec (.lbrk h) s = .next (landsOn s { (m.clock h.stall).settle with
        pc := m.l1.start, l0 := { m.l1 with count := m.l1.count - 1, pos := 1 }, l1 := Level.idle }))

/-- Where a strand goes after a word retires (R120, R154, R159, R160, R163, R102, R330). A strand whose STEP bit is 0
retires a word. With a pending transfer that owes one word the PC takes the target; with more the next word in chain
order and one fewer owed. With no transfer, inside a line the PC takes the next slot, and after the last slot slot 0
of line NEXT; after a LAST line's last slot the launch ends with END-OF-CHAIN. At the last word of an active level 0
with ST 1 and COUNT above 0 the PC takes START and COUNT falls by 1. With COUNT 0 the level closes, level 1 becomes
level 0 and the next word in chain order follows; where level 1 ends at the same word the rule applies to it at
once. With ST from 2 to 8 and COUNT above 0, where the level does not drain, COUNT falls by 1, the next word reads
Q8 as 1 while COUNT was at least ST, and Q(9+k) as Q(8+k) was; where it drains, Q8 reads 0 and COUNT holds, until
the start that would leave every stage predicate 0: that one leaves them 0 with the level unchanged at START when a
save is requested, and is an ordinary one otherwise. The exposure clock always passes the word. -/
def Obligations.RetirementMovesThePc : Prop :=
  ∀ (s : State) (n : Fin 16),
    let m := s.me
    let c := m.clock n
    let last := m.l0.act = true ∧ m.l0.pos = m.l0.len.toNat
    let pos : Level := if m.l0.act then { m.l0 with pos := m.l0.pos + 1 } else m.l0
    c.tick = m.tick + 1 + n.val ∧
    (m.xfer.valid = true → m.xfer.rem.toNat ≤ 1 →
      s.retire n false = s.setMe { c with pc := m.xfer.tgt, attgt := true, xfer := Xfer.none }) ∧
    (∀ p, m.xfer.valid = true → 1 < m.xfer.rem.toNat → chainNext m.pc m.link = some p →
      s.retire n false = s.setMe { c with pc := p, xfer := { m.xfer with rem := m.xfer.rem - 1 } }) ∧
    (m.xfer.valid = false → ¬ last → fieldN m.pc 0 3 + 1 < linkNslot m.link →
      s.retire n false = s.setMe { c with pc := m.pc + 1, l0 := pos }) ∧
    (m.xfer.valid = false → ¬ last → linkNslot m.link ≤ fieldN m.pc 0 3 + 1 → linkLast m.link = false →
      s.retire n false = s.setMe { c with pc := BitVec.ofNat 32 ((linkNext m.link).toNat * 8), l0 := pos }) ∧
    (¬ last → linkNslot m.link ≤ fieldN m.pc 0 3 + 1 → linkLast m.link = true → m.xfer.valid = false →
      s.retire n false = (s.setMe c).endTrap c .endOfChain { pc := m.pc }) ∧
    (m.xfer.valid = false → last → 0 < m.l0.count.toNat → m.l0.st.toNat ≤ 1 →
      ∃ q, s.retire n false = s.setMe { q with pc := m.l0.start, l0 := { m.l0 with count := m.l0.count - 1, pos := 1 } } ∧
        q = c.settle) ∧
    (∀ p, m.xfer.valid = false → last → m.l0.count = 0 → (m.l1.act = true → m.l1.pos ≠ m.l1.len.toNat) →
      (chainNext m.pc m.link = some p → s.retire n false = s.setMe { c with
        pc := p, l0 := if m.l1.act then { m.l1 with pos := m.l1.pos + 1 } else m.l1, l1 := Level.idle }) ∧
      (chainNext m.pc m.link = none →
        s.retire n false = (s.setMe { c with l0 := m.l1, l1 := Level.idle }).endTrap { c with l0 := m.l1, l1 := Level.idle }
          .endOfChain { pc := m.pc })) ∧
    (m.xfer.valid = false → last → m.l0.count = 0 → m.l1.act = true → m.l1.pos = m.l1.len.toNat →
      (0 < m.l1.count.toNat → m.l1.st.toNat ≤ 1 → s.retire n false = s.setMe { c.settle with
        pc := m.l1.start, l0 := { m.l1 with count := m.l1.count - 1, pos := 1 }, l1 := Level.idle }) ∧
      (∀ p, m.l1.count = 0 → chainNext m.pc m.link = some p →
        s.retire n false = s.setMe { c with pc := p, l0 := Level.idle, l1 := Level.idle })) ∧
    (m.xfer.valid = false → last → 0 < m.l0.count.toNat → 1 < m.l0.st.toNat → m.l0.st.toNat ≤ 8 →
      ∃ q, s.retire n false = s.setMe q ∧ q.pc = m.l0.start ∧ q.l1 = m.l1 ∧
        let old (k : Nat) : Bool := c.settle.readQ ⟨(8 + k) % 16, Nat.mod_lt _ (by decide)⟩
        let new (k : Nat) : Bool := q.settle.readQ ⟨(8 + k) % 16, Nat.mod_lt _ (by decide)⟩
        let busy : Bool := (List.range (m.l0.st.toNat - 1)).any old
        let drain : Bool := m.l0.drain || m.saveReq.isSome
        let first : Bool := decide (m.l0.st.toNat ≤ m.l0.count.toNat)
        (drain = false ∨ (busy = false ∧ m.saveReq = none) →
          q.l0 = { m.l0 with count := m.l0.count - 1, drain := false, pos := 1 } ∧ new 0 = first ∧
          ∀ k, k + 1 < m.l0.st.toNat → new (k + 1) = old k) ∧
        (drain = true → busy = true →
          q.l0 = { m.l0 with drain := true, pos := 1 } ∧ new 0 = false ∧ ∀ k, k + 1 < m.l0.st.toNat → new (k + 1) = old k) ∧
        (m.saveReq.isSome = true → busy = false →
          q.l0 = { m.l0 with drain := false, pos := 1 } ∧ ∀ k, k < m.l0.st.toNat → new k = false))

/-- MFSR reads the special registers of R59, and MTSR writes the writable ones (R59, R164, R101, R372, R60, R361, R365).
MFSR, whenever it executes, answers the state in which Sd takes with latency 1 the value of the numbered special
register, each field at the place R59 gives it: for numbers 1 and 3, the gang shape and AGE the fields are read back
from the value. AGE holds BASE, the effective PRIO of the queue that the launch was taken from, and its EFF, which
is BASE and the ageing intervals since it began to wait, or since its launch to restore became READY, at most 7.
MTSR, whenever it executes, answers the state in which STALLCHK or STEP takes bit 0 of A, TRAPH or PLIVE bits 31:0,
VLIVE all 64, or HBMGANG bits 15:0; the word after it reads the new value. -/
def Obligations.SpecialRegisters : Prop :=
  (∀ (h : Hdr) (d : SReg) (n : Fin 21) (s : State) (l : Launch), Runs s h [] →
     let m := s.me.settle
     (s.ctx m.ctx).cur = some l →
     ∃ v : W64, exec (.mfsr h d n) s = .next (retired h s fun m => m.setS 1 d v) ∧
       (n = 0 → v = s.mtime) ∧
       (n = 1 → v.getLsbD 63 = m.sup ∧ (v.extractLsb' 8 3).toNat = m.group % 8 ∧ (v.extractLsb' 0 8).toNat = m.index % 256) ∧
       (n = 2 → 1 ≤ l.rec_.npkg → l.rec_.npkg ≤ 8 → l.rec_.ngrp < 8 → 1 ≤ l.rec_.nstr → l.rec_.nstr ≤ 256 → l.rec_.varcnt < 8 →
         (v.extractLsb' 24 3).toNat = l.rec_.varcnt ∧ (v.extractLsb' 16 8).toNat = l.rec_.nstr - 1 ∧
         (v.extractLsb' 8 3).toNat = l.rec_.ngrp ∧ (v.extractLsb' 4 3).toNat = l.rec_.npkg - 1 ∧
         v.extractLsb' 0 3 = if l.rec_.npkg = 1 then 0 else l.rec_.tag.extractLsb' 0 3) ∧
       (n = 3 → (v.extractLsb' 8 2).toNat = m.slot % 4 ∧ (v.extractLsb' 0 8).toNat = m.tile % 256) ∧
       (n = 4 → v.toNat = m.tile / 64 % 4) ∧
       (n = 5 → v = s.plat.pkgnum.setWidth 64) ∧
       (n = 6 → v = (s.handle m.ctx).setWidth 64) ∧
       (n = 7 → v = m.serial.setWidth 64) ∧
       (n = 8 → v = l.variant.setWidth 64) ∧
       (n = 9 → v = m.phase.setWidth 64) ∧
       (n = 10 → v = if m.stallchk then 1 else 0) ∧
       (n = 11 → v = if m.step then 1 else 0) ∧
       (n = 12 → v = m.traph.setWidth 64) ∧
       (n = 13 → v = m.plive.setWidth 64) ∧
       (n = 14 → v = m.vlive) ∧
       (n = 15 → v = m.jhead.setWidth 64) ∧
       (n = 16 → v = m.jdone.setWidth 64) ∧
       (n = 17 → v = BitVec.ofNat 64 (s.slog.countP fun e => e.sid = m.id)) ∧
       (n = 18 → v = (s.ctx m.ctx).tidbase) ∧
       (n = 19 → ∀ q, s.regions.filter (fun r => r.qen && r.qid = l.qid) = [q] →
         let base := s.effAt q.addr 5 Region.prio
         let since : Option W64 := if q.restFrom.isSome then q.restFrom else q.waitFrom
         let eff := match since with
           | none => base
           | some t => min 7 (base + (s.mtime.toNat - t.toNat) / (s.effAt q.addr 6 Region.age * 16000))
         (eff < 8 → (v.extractLsb' 0 3).toNat = eff) ∧ (base < 8 → (v.extractLsb' 8 3).toNat = base)) ∧
       (n = 20 → v = s.hbmgang.setWidth 64)) ∧
  (∀ (h : Hdr) (a : SReg) (s : State), Runs s h [.s a] →
     let v := s.me.settle.readS a
     exec (.mtsr h 10 a) s = .next (retired h s fun m => { m with stallchk := v.getLsbD 0 }) ∧
     exec (.mtsr h 11 a) s = .next (retired h s fun m => { m with step := v.getLsbD 0 }) ∧
     exec (.mtsr h 12 a) s = .next (retired h s fun m => { m with traph := v.setWidth 32 }) ∧
     exec (.mtsr h 13 a) s = .next (retired h s fun m => { m with plive := v.setWidth 32 }) ∧
     exec (.mtsr h 14 a) s = .next (retired h s fun m => { m with vlive := v }) ∧
     exec (.mtsr h 20 a) s = .next (retiredTo h s { settled s with hbmgang := v.setWidth 16 }))

/-- TRAP #n enters the handler or ends the launch, and RFT returns (R165, R73, R74, R166, R309, R167). Outside a window,
a loop and a handler: with TRAPH 0 the word ends the launch with TRAP. With TRAPH set, STEP 0, and a trap record
that can be written, the state answered has HRPC = Seq(PC, 1), TNUM = n and HVALID = 1, the trap record with cause
TRAP, its PC and every lane, and its PC is TRAPH. Inside a window, a loop or a handler the word ends the launch with
ILLEGAL. RFT with HVALID 1, outside a window and a loop, answers the state in which HVALID is 0 and the strand
continues at HRPC; otherwise it ends the launch with ILLEGAL. -/
def Obligations.TrapAndReturn : Prop :=
  (∀ (h : Hdr) (n : Byte) (s : State), Runs s h [] →
     let m := s.me.settle
     ((m.xfer.valid = true ∨ m.l0.act = true ∨ m.l1.act = true ∨ m.hvalid = true) →
       exec (.trap h n) s = .next (raises s .illegal)) ∧
     (Straight m → m.hvalid = false → m.traph = 0 → exec (.trap h n) s = .next (raises s .trap)) ∧
     (∀ (p : W32) (r : TrapRec) (s1 : State), Straight m → m.hvalid = false → m.traph ≠ 0 → m.step = false →
       (settled s).seq m 1 = .ok p →
       r = (afterSeq s 1).mkRec { m with hrpc := p, tnum := n, hvalid := true } .trap { pc := m.pc } →
       (afterSeq s 1).writeTrapRec { m with hrpc := p, tnum := n, hvalid := true, trap := r } = some s1 →
       r.cause = 22 ∧ r.pc = m.pc ∧ r.lmask = BitVec.allOnes 64 ∧ r.indly = false ∧
       ∃ t, exec (.trap h n) s = .next t ∧ t.me.hrpc = p ∧ t.me.tnum = n ∧ t.me.hvalid = true ∧ t.me.trap = r ∧
         t.me.pc = m.traph ∧ t.me.attgt = true ∧ t.mem = s1.mem)) ∧
  (∀ (h : Hdr) (s : State), Runs s h [] →
     let m := s.me.settle
     (Straight m → m.hvalid = true →
       exec (.rft h) s = .next (landsOn s { m.clock h.stall with hvalid := false, pc := m.hrpc, attgt := true })) ∧
     (¬ Straight m ∨ m.hvalid = false → exec (.rft h) s = .next (raises s .illegal)))

/-- LIVE, WAITT, CSW.YIELD, CSW.PARKT and CSW.PARKA (R61, R168, R170, R171, R320, R371). LIVE writes PLIVE and VLIVE
from registers, its forms from immediates, and retires. WAITT and CSW.PARKT, outside a window, retire at once when
MTIME has reached A; otherwise the strand stays at the word in a wait that holds A (WKIND 1, WVAL A for CSW.PARKT).
CSW.PARKA whose word can be read waits with WKIND 2, its address and the word it read. CSW.YIELD retires, and the
tile's selector turns to the next slot whose strand is eligible, if any. -/
def Obligations.LivenessWaitsAndSwitches : Prop :=
  ∀ (h : Hdr) (a b : SReg) (imm : W32) (s : State),
    let m := s.me.settle
    (Runs s h [.s a, .s b] → exec (.live h a b) s =
      .next (retired h s fun m => { m with plive := (m.readS a).setWidth 32, vlive := m.readS b })) ∧
    (Runs s h [] →
      exec (.liveP h imm) s = .next (retired h s fun m => { m with plive := imm }) ∧
      exec (.liveVl h imm) s = .next (retired h s fun m => { m with vlive := m.vlive.extractLsb' 32 32 ++ imm }) ∧
      exec (.liveVh h imm) s = .next (retired h s fun m => { m with vlive := imm ++ m.vlive.extractLsb' 0 32 }) ∧
      (m.xfer.valid = false →
        (∀ k, k < 3 → (settled s).slotStrand m.tile ((m.slot + 1 + k) % 4) = none) →
        exec (.cswYield h) s = .next (retired h s id)) ∧
      (∀ k x, m.xfer.valid = false → k < 3 → (settled s).slotStrand m.tile ((m.slot + 1 + k) % 4) = some x →
        (∀ j, j < k → (settled s).slotStrand m.tile ((m.slot + 1 + j) % 4) = none) →
        exec (.cswYield h) s = .next (retiredTo h s ((settled s).select m.tile x.slot)))) ∧
    (Runs s h [.s a] → m.xfer.valid = false →
      ((m.readS a).toNat ≤ s.mtime.toNat →
        exec (.waitt h a) s = .next (retired h s id) ∧ exec (.cswParkt h a) s = .next (retired h s id)) ∧
      (s.mtime.toNat < (m.readS a).toNat →
        (∃ t, exec (.waitt h a) s = .next t ∧ t.me.wait = .waitt (m.readS a) ∧ t.me.pc = m.pc ∧ t.mem = s.mem) ∧
        ∃ t, exec (.cswParkt h a) s = .next t ∧ t.me.wait = .csw ∧ t.me.wkind = 1 ∧ t.me.wval = m.readS a ∧
          t.me.pc = m.pc ∧ t.mem = s.mem) ∧
      ((settled s).checkAll (s.ctx m.ctx) .r [⟨none, (m.readS a).toNat, 8, 8⟩] = .fine →
        NoOwn s .r [⟨none, (m.readS a).toNat, 8, 8⟩] →
        ∃ t, exec (.cswParka h a) s = .next t ∧ t.me.wait = .csw ∧ t.me.wkind = 2 ∧ t.me.wval = m.readS a ∧
          t.me.wold = BitVec.ofNat 64 (natOf ((settled s).readVa (s.ctx m.ctx) (m.readS a).toNat 8)) ∧
          t.me.pc = m.pc ∧ t.mem = s.mem))

/-- HALT frees its slot, and PHASE waits for every strand of the gang (R169, R44, R172, R32, R42, R43, R366). HALT
outside a window leaves a halted strand without slot, pending writes, loops or filling chain registers, after which
a boundary that waited for it alone releases, and a save that waited for it alone ends. PHASE marks the strand;
unless it was released already, it retires with the release when every strand of its context has arrived or halted,
and otherwise waits. The release sets VARIANT, with VARCNT 2 or more, to the variant of the least cost of R366, the
lowest of equal ones, for the times T_g of R43 of the phase that ends, starts the clock of the next phase, and
raises PHASE of every strand that waits by 1; each goes on. What phaseRelease measures in agenda cycles, and how a
strand goes on that is saved or stopped at the release (atPhase, phaseGo, phaseAt), are the model's choices (log
45), and so is the state that reconsider gives a context (log 23). -/
def Obligations.HaltAndPhase : Prop :=
  ∀ (h : Hdr) (s : State), Runs s h [] → s.me.settle.xfer.valid = false →
    let m := s.me.settle
    let x : Strand := { m.clock h.stall with
      halted := true, inSlot := false, saveReq := none, pend := [], l0 := Level.idle, l1 := Level.idle, phaseAt := s.cycles,
      cRegs := m.cRegs.map fun c => if c.stat = .filling then Chain.empty else c }
    let s2 := (settled s).setMe x
    let y : Strand := if m.atPhase then m else { m with atPhase := true, phaseAt := s.cycles }
    let s3 := (settled s).setMe y
    let s4 := (if s2.phaseDone m.ctx then s2.phaseRelease m.ctx m.id else s2).reconsider m.ctx
    exec (.halt h) s = .next (if m.saveReq.isSome then s4.afterSaves m.ctx else s4) ∧
    (m.phaseGo = true →
      exec (.phase h) s = .next (retired h s fun m => { m with phaseGo := false, phase := m.phase + 1 })) ∧
    (m.phaseGo = false → s3.phaseDone m.ctx = true →
      exec (.phase h) s = .next (retiredTo h s (s3.phaseRelease m.ctx m.id))) ∧
    (m.phaseGo = false → s3.phaseDone m.ctx = false →
      ∃ t, exec (.phase h) s = .next t ∧ t.me.wait = .phase ∧ t.me.atPhase = true ∧ t.me.pc = m.pc) ∧
    VariantSelection

/-- BKPT stops the strand with its debug block (R174, R329, R330, R73, R74). BKPT that is not the last word of a loop
body, of a launch without a cause, when its trap record can be written, answers the state in which the strand is
stopped: WKIND 3, DVALID 1, DRPC Seq(PC, 1), the pending transfer in DPVAL, DPTGT and DPDLY with one word fewer
owed, and a trap record with cause BKPT and the word's PC. When the record cannot be written, the launch ends with
PROT. The last word of a loop body first wraps or closes its level, and the strand stops where it continues; DRPC is
0 where the chain ends there. That DPVAL is 1 with DPDLY 0 at the last word of a window is the model's reading (log
52). -/
def Obligations.BreakpointStops : Prop :=
  ∀ (h : Hdr) (s : State) (p : W32), Runs s h [] →
    let m := s.me.settle
    (∀ x, m.l0.act = true → m.l0.pos = m.l0.len.toNat → (m.clock h.stall).endOfBody = .to x →
      exec (.bkpt h) s = .next (((settled s).setMe x).debugStop x .bkpt m.pc x.pc m.xfer.valid)) ∧
    (∀ x, m.l0.act = true → m.l0.pos = m.l0.len.toNat → (m.clock h.stall).endOfBody = .chainEnd x →
      exec (.bkpt h) s = .next (((settled s).setMe x).debugStop x .bkpt m.pc 0 m.xfer.valid)) ∧
    (s.ended m.ctx = false → ¬ (m.l0.act = true ∧ m.l0.pos = m.l0.len.toNat) → (settled s).seq m 1 = .ok p →
    ∃ (t : State) (r : TrapRec) (x : Strand), exec (.bkpt h) s = .next t ∧ r.cause = 21 ∧ r.pc = m.pc ∧
      x.drpc = p ∧ x.pc = p ∧ x.dvalid = true ∧ x.wkind = 3 ∧ x.debug = true ∧ x.dpval = m.xfer.valid ∧
      x.dptgt = m.xfer.tgt ∧ x.dpdly = (if m.xfer.valid then m.xfer.rem - 1 else m.xfer.rem) ∧
      (∀ s1, ((afterSeq s 1).setMe x).writeTrapRec { x with trap := r } = some s1 → s1.others = s.others →
        t.me = { x with trap := r }) ∧
      (((afterSeq s 1).setMe x).writeTrapRec { x with trap := r } = none → s.me.id ≠ 0 → (s.ctx m.ctx).cur.isSome = true →
        t.ended m.ctx = true))

/-- Lane sums, differences and products (R187). VIADD, VISUB, VIMUL and VIMAD, whenever the word executes, answer the
state in which each enabled element of Vd takes the exact sum, difference, product or product and sum of its
operands as numbers of the type, clamped under SAT and otherwise cut to the type's width, with latency 2 or 4; an S
operand stands in every element. -/
def Obligations.LaneIntegerArithmetic : Prop :=
  ∀ (h : Hdr) (d a : VReg) (b c : OpVS) (ty : ETy) (sat z : Bool),
    let x (m : Strand) (j : Nat) : Int := numOf ty (elemAt ty.width (m.readV a) j)
    let y (o : OpVS) (m : Strand) (j : Nat) : Int := numOf ty (argAt ty.width m o j)
    WritesLanes (.viadd h d a b ty sat z) h (.v a :: vsReads b) 2 ty.width d z (fun m j => fitted ty sat (x m j + y b m j)) ∧
    WritesLanes (.visub h d a b ty sat z) h (.v a :: vsReads b) 2 ty.width d z (fun m j => fitted ty sat (x m j - y b m j)) ∧
    WritesLanes (.vimul h d a b ty sat z) h (.v a :: vsReads b) 4 ty.width d z (fun m j => fitted ty sat (x m j * y b m j)) ∧
    WritesLanes (.vimad h d a b c ty sat z) h (.v a :: (vsReads b ++ vsReads c)) 4 ty.width d z
      (fun m j => fitted ty sat (x m j * y b m j + y c m j))

/-- Lane logic and lane shifts (R188). VAND, VOR and VXOR, and VSHL, VSHR and VSAR by an element, a register or an
immediate, whenever the word executes, answer the state in which each enabled element of Vd takes, with latency 2,
the bitwise result, or A shifted by the whole count: a count of the width or more gives 0, or the sign in every bit
for VSAR. -/
def Obligations.LaneLogicAndShifts : Prop :=
  ∀ (h : Hdr) (d a : VReg) (b : OpVS) (n : Fin 64) (ty : ETy) (z : Bool),
    let w := ty.width
    let x (m : Strand) (j : Nat) : BitVec w := BitVec.ofNat w (elemAt w (m.readV a) j)
    let y (m : Strand) (j : Nat) : Nat := argAt w m b j
    WritesLanes (.vand h d a b ty z) h (.v a :: vsReads b) 2 w d z (fun m j => (x m j &&& BitVec.ofNat w (y m j)).toNat) ∧
    WritesLanes (.vor h d a b ty z) h (.v a :: vsReads b) 2 w d z (fun m j => (x m j ||| BitVec.ofNat w (y m j)).toNat) ∧
    WritesLanes (.vxor h d a b ty z) h (.v a :: vsReads b) 2 w d z (fun m j => (x m j ^^^ BitVec.ofNat w (y m j)).toNat) ∧
    WritesLanes (.vshl h d a b ty z) h (.v a :: vsReads b) 2 w d z (fun m j => (x m j <<< y m j).toNat) ∧
    WritesLanes (.vshr h d a b ty z) h (.v a :: vsReads b) 2 w d z (fun m j => (x m j >>> y m j).toNat) ∧
    WritesLanes (.vsar h d a b ty z) h (.v a :: vsReads b) 2 w d z (fun m j => ((x m j).sshiftRight (y m j)).toNat) ∧
    WritesLanes (.vshlI h d a n ty z) h [.v a] 2 w d z (fun m j => (x m j <<< n.val).toNat) ∧
    WritesLanes (.vshrI h d a n ty z) h [.v a] 2 w d z (fun m j => (x m j >>> n.val).toNat) ∧
    WritesLanes (.vsarI h d a n ty z) h [.v a] 2 w d z (fun m j => ((x m j).sshiftRight n.val).toNat)

/-- Moving elements between lanes (R194, R195, R196, R197, R198, R177, R101). VMOV of a V register, VBCAST, VBCAST.I,
VIOTA, VPERM, VROT and VROT.I, whenever the word executes, answer the state in which each enabled element j of Vd
takes the source element, the scalar, element #k, A + j × #step, element B(j) mod N, or element (j + k) mod N,
modulo 2^w. VCOMP packs the lanes that Mc and the guard select toward lane 0, in order; the lanes above keep their
values, or become 0 under .Z. -/
def Obligations.LaneMovement : Prop :=
  ∀ (h : Hdr) (d a b : VReg) (x : SReg) (c : MReg) (k stp : BitVec 12) (ty : ETy) (z : Bool),
    let w := ty.width
    let n := 2048 / w
    WritesLanes (.vmov h (.v d) (.v a) z) h [.v a] 2 32 d z (fun m j => elemAt 32 (m.readV a) j) ∧
    WritesLanes (.vbcast h d x ty z) h [.s x] 2 w d z (fun m _ => (m.readS x).toNat) ∧
    WritesLanes (.vbcastI h d a k ty z) h [.v a] 2 w d z (fun m _ => elemAt w (m.readV a) k.toNat) ∧
    WritesLanes (.viota h d x stp ty z) h [.s x] 2 w d z (fun m j => (m.readS x).toNat + j * stp.toNat) ∧
    WritesLanes (.vperm h d a b ty z) h [.v a, .v b] 3 w d z (fun m j => elemAt w (m.readV a) (elemAt w (m.readV b) j % n)) ∧
    WritesLanes (.vrot h d a x ty z) h [.v a, .s x] 3 w d z (fun m j => elemAt w (m.readV a) ((j + (m.readS x).toNat) % n)) ∧
    WritesLanes (.vrotI h d a k ty z) h [.v a] 3 w d z (fun m j => elemAt w (m.readV a) ((j + k.toNat) % n)) ∧
    (∀ s, RunsLane s h [.v a, .m c] [] → w = 32 →
      let m := s.me.settle
      let src := (List.range 64).filter fun i => (m.readM c).getLsbD i && (m.laneGuard h).getLsbD i
      ∃ (v : Lanes) (e : W64), exec (.vcomp h d a c ty z) s = .next (retired h s fun m => m.setV 3 d e v) ∧
        ∀ i, i < 64 → e.getLsbD i = (z || decide (i < src.length)) ∧
          laneAt v i = if i < src.length then laneAt (m.readV a) (src.getD i 0) else 0)

/-- Elements and mask counts to scalar registers (R195, R202, R177, R101). VEXTR and VEXTR.I, when the lane of the
element is on, answer the state in which Sd takes the element with latency 3, sign-extended for an I type and
otherwise zero-extended; when it is off the word only retires. MCNT and MFIRST give with latency 2 the number of one
bits of (m and G) and the index of the lowest, 64 for none; MFIRST.M writes only that bit into the enabled lanes of
Md, and under .Z clears the others. -/
def Obligations.LaneExtraction : Prop :=
  ∀ (h : Hdr) (d b : SReg) (md a : MReg) (v : VReg) (k : BitVec 12) (ty : ETy) (z : Bool) (s : State),
    let m := s.me.settle
    let g := m.laneGuard h
    let el (j : Nat) : W64 := if ty.isSigned then (BitVec.ofNat ty.width (elemAt ty.width (m.readV v) j)).signExtend 64
      else BitVec.ofNat 64 (elemAt ty.width (m.readV v) j)
    let low := m.readM a &&& g
    (∀ j, RunsLane s h [.v v, .s b] [] → j = (m.readS b).toNat % (2048 / ty.width) →
      exec (.vextr h d v b ty) s = .next (retired h s fun m => if g.getLsbD (j * ty.width / 32) then m.setS 3 d (el j) else m)) ∧
    (RunsLane s h [.v v] [] →
      exec (.vextrI h d v k ty) s =
        .next (retired h s fun m => if g.getLsbD (k.toNat * ty.width / 32) then m.setS 3 d (el k.toNat) else m)) ∧
    (RunsLane s h [.m a] [] →
      exec (.mcnt h d a) s =
        .next (retired h s fun m => m.setS 2 d (BitVec.ofNat 64 ((List.range 64).countP fun i => low.getLsbD i))) ∧
      exec (.mfirst h d a) s = .next (retired h s fun m => m.setS 2 d
        (match (List.range 64).find? fun i => low.getLsbD i with | some i => BitVec.ofNat 64 i | none => 64)) ∧
      exec (.mfirstM h md a z) s = .next (retired h s fun m => m.setM 2 md (if z then allLanes else g) (low &&& -low)))

/-- The lane predicate pair of VCMP, VTHR, VBTST and MLOP (R189, R190, R191, R192, R201, R104, R101). Each of the four,
unless it reads early or a chain source of an enabled lane is SPENT, answers the state in which Mt and Mf take the
pair of R189: under .N the condition and its complement in the enabled lanes, under .U in every lane with the guard
as an operand, under .OR only ones. The conditions are COND on 32-bit lanes, COND on |b| and c as F32, bit B of the
bitmap, and FT[4a + 2b + c]; a chain source makes the writes interlocked, otherwise the latency is 2. -/
def Obligations.LanePredicatePairs : Prop :=
  ∀ (h : Hdr) (mt mf x1 x2 x3 : MReg) (a : VReg) (b : OpVC) (c : OpVSC) (y : OpVS) (cc : Cond) (ft : Byte) (ty : ETy)
      (mode : PMode) (k : Bool),
    (ty.width = 32 → (ty.isFloat = false → cc.isInt = true) →
      WritesMasks (.vcmp h mt mf b c cc ty mode k) h (vcReads b ++ vscReads c) (vcChains b ++ vscChains c) k mt mf mode
        (fun m i =>
          let p := laneAt (vcRead m b) i
          let q := laneAt (vscRead m 32 c) i
          if ty.isFloat then condF cc (fdec ty p) (fdec ty q)
          else intCond cc ((BitVec.ofNat 32 p).signExtend 64) ((BitVec.ofNat 32 q).signExtend 64))) ∧
    WritesMasks (.vthr h mt mf b y cc mode k) h (vcReads b ++ vsReads y) (vcChains b) k mt mf mode
      (fun m i => condF cc (fvAbs (fdec .f32 (laneAt (vcRead m b) i))) (fdec .f32 (argAt 32 m y i))) ∧
    WritesMasks (.vbtst h mt mf a y mode) h (.v a :: vsReads y) [] false mt mf mode
      (fun m i => match y with
        | .v n => (m.readV n).getLsbD (laneAt (m.readV a) i % 2048)
        | .s n => (m.readS n).getLsbD (laneAt (m.readV a) i % 64)) ∧
    WritesMasks (.mlop h mt mf x1 x2 x3 ft mode) h [.m x1, .m x2, .m x3] [] false mt mf mode
      (fun m i => ft.getLsbD ((if (m.readM x1).getLsbD i then 4 else 0) + (if (m.readM x2).getLsbD i then 2 else 0) +
        (if (m.readM x3).getLsbD i then 1 else 0)))

/-- Which elements the floating words and VMOV read and write (R180, R181, R182, R183, R194, R177, R107, R101). VADD,
VSUB, VMUL, VFMA, VFMS, VABS, VNEG, VMIN, VMAX, VDIV, VSQRT, VRCP, VRSQ, VEXP2, VLOG2 and VMOV, for every V, S and C
operand and a V or C destination, whenever the word executes, answer the state in which element j of the destination
takes the operation of the word on element j of its operands, with the latency of R101; VMOV takes the element. The
values of the other operations are those that FloatSpecialValues states. -/
def Obligations.LaneFloatingPoint : Prop :=
  ∀ (h : Hdr) (d a : OpVC) (b c : OpVSC) (ty : ETy) (rm : Rm) (k z : Bool) (s : State),
    let rd (o : OpVSC) (m : Strand) : Lanes := vscRead m ty.width o
    let out (i : Instr) (cs : List CReg) (k : Bool) (l w : Nat) (ops : Strand → Opnds) : Out :=
      .next (retired h s (fun m => m.putVC i cs k l w d z (m.laneGuard h) (ops m)
        (ofElems w fun j => laneOp i (elemAt w (ops m).a j) (elemAt w (ops m).b j) (elemAt w (ops m).c j))) cs.head?)
    let one (m : Strand) : Opnds := ⟨vcRead m a, 0, 0⟩
    let two (m : Strand) : Opnds := ⟨vcRead m a, rd b m, 0⟩
    let three (m : Strand) : Opnds := ⟨vcRead m a, rd b m, rd c m⟩
    let ca := vcChains a
    let cab := vcChains a ++ vscChains b
    let cabc := vcChains a ++ vscChains b ++ vscChains c
    (RunsLane s h (vcReads a) ca → ∀ i, ∀ l,
      (i, l) ∈ [(Instr.vabs h d a ty z, 2), (.vneg h d a ty z, 2), (.vsqrt h d a ty rm z, 10), (.vrcp h d a ty rm z, 9),
        (.vrsq h d a ty rm z, 9), (.vexp2 h d a ty rm z, 14), (.vlog2 h d a ty rm z, 14)] →
      exec i s = out i ca false l ty.width one) ∧
    (RunsLane s h (vcReads a) ca → exec (.vmov h d a z) s = out (.vmov h d a z) ca false 2 32 one) ∧
    (∀ x y v, laneOp (.vmov h d a z) x y v = x) ∧
    (RunsLane s h (vcReads a ++ vscReads b) cab → ∀ i, ∀ l,
      (i, l) ∈ [(Instr.vadd h d a b ty rm z, 5), (.vsub h d a b ty rm z, 5), (.vmul h d a b ty rm z, 6),
        (.vdiv h d a b ty rm z, 10)] →
      exec i s = out i cab false l ty.width two) ∧
    (RunsLane s h (vcReads a ++ vscReads b) cab → ∀ i, i ∈ [Instr.vmin h d a b ty k z, .vmax h d a b ty k z] →
      exec i s = out i cab k 5 ty.width two) ∧
    (RunsLane s h (vcReads a ++ vscReads b ++ vscReads c) cabc → ∀ i,
      i ∈ [Instr.vfma h d a b c ty rm z, .vfms h d a b c ty rm z] → exec i s = out i cabc false 7 ty.width three)

/-- Exact values rounded once, and the special values of the floating words (R180, R181, R182, R183, R76, R77, R80, R81,
R82, R83, R84, R85). On elements of F32, BF16 and F16. A NaN operand, the third of VFMA and VFMS too, gives the
canonical NaN. For finite operands VADD, VSUB, VMUL, VFMA, VFMS and VDIV by a nonzero value give Round of the exact
sum, difference, product, product and sum, or quotient, with the zero signs of R85; VSQRT, VRCP and VRSQ give Round
of the exact root, reciprocal and reciprocal root. Infinite operands, invalid operations and zeros give the values
of R84, R180 and R181's table. VEXP2 of an integer n gives Round(2^n), VLOG2 of 2^n Round(n), and every other result
inside the exponent range lies between those of the integers about it (its last bits rest on log 25; that the
operands of a difference are a and −b in R85's rule of a zero sum is log 94). VABS clears the sign and VNEG inverts
it. VMIN gives the smaller and VMAX the larger operand, −0 below +0, or the canonical NaN; on integers in the order
of the type. -/
def Obligations.FloatSpecialValues : Prop :=
  ∀ (h : Hdr) (d a : OpVC) (b c : OpVSC) (ty : ETy) (rm : Rm) (k z : Bool) (x y w : Nat),
    let vadd := Instr.vadd h d a b ty rm z
    let vsub := Instr.vsub h d a b ty rm z
    let vmul := Instr.vmul h d a b ty rm z
    let vfma := Instr.vfma h d a b c ty rm z
    let vfms := Instr.vfms h d a b c ty rm z
    let vdiv := Instr.vdiv h d a b ty rm z
    let vsqrt := Instr.vsqrt h d a ty rm z
    let vrcp := Instr.vrcp h d a ty rm z
    let vrsq := Instr.vrsq h d a ty rm z
    let vexp2 := Instr.vexp2 h d a ty rm z
    let vlog2 := Instr.vlog2 h d a ty rm z
    let vmin := Instr.vmin h d a b ty k z
    let vmax := Instr.vmax h d a b ty k z
    let p := valueOf ty x
    let q := valueOf ty y
    let t := valueOf ty w
    let sx := signOf ty x
    let sy := signOf ty y
    let sw := signOf ty w
    let inf := infPat ty
    let zero := zeroPat ty
    let nan := nanPat ty
    (ty.isFl = true → x < 2 ^ ty.width → y < 2 ^ ty.width → w < 2 ^ ty.width →
      -- NaN operands
      (IsNan ty x → ∀ i ∈ [vadd, vsub, vmul, vfma, vfms, vdiv, vsqrt, vrcp, vrsq, vexp2, vlog2, .vabs h d a ty z, .vneg h d a ty z,
        vmin, vmax], laneOp i x y w = nan) ∧
      (IsNan ty y → ∀ i ∈ [vadd, vsub, vmul, vfma, vfms, vdiv, vmin, vmax], laneOp i x y w = nan) ∧
      (IsNan ty w → ∀ i ∈ [vfma, vfms], laneOp i x y w = nan) ∧
      -- one rounding of the exact value
      (Finite ty x → Finite ty y →
        RoundsTo ty rm (p + q) (if p = 0 ∧ q = 0 ∧ sx = sy then sx else rm == .rdn) (laneOp vadd x y w) ∧
        RoundsTo ty rm (p - q) (if p = 0 ∧ q = 0 ∧ sx ≠ sy then sx else rm == .rdn) (laneOp vsub x y w) ∧
        RoundsTo ty rm (p * q) (sx != sy) (laneOp vmul x y w) ∧
        (q ≠ 0 → RoundsTo ty rm (p / q) (sx != sy) (laneOp vdiv x y w)) ∧
        (q = 0 → laneOp vdiv x y w = if p = 0 then nan else inf (sx != sy))) ∧
      (Finite ty x → Finite ty y → Finite ty w →
        RoundsTo ty rm (p * q + t) (if p * q = 0 ∧ t = 0 ∧ (sx != sy) = sw then sw else rm == .rdn) (laneOp vfma x y w) ∧
        RoundsTo ty rm (p * q - t) (if p * q = 0 ∧ t = 0 ∧ (sx != sy) = !sw then !sw else rm == .rdn) (laneOp vfms x y w)) ∧
      (Finite ty x → 0 < p →
        Rounds ty rm (fun v => v ≤ 0 ∨ v * v ≤ p) (fun v => 0 ≤ v ∧ p ≤ v * v) false (laneOp vsqrt x y w) ∧
        Rounds ty rm (fun v => v ≤ 0 ∨ v * v * p ≤ 1) (fun v => 0 ≤ v ∧ 1 ≤ v * v * p) false (laneOp vrsq x y w)) ∧
      (Finite ty x → p ≠ 0 → RoundsTo ty rm (1 / p) false (laneOp vrcp x y w)) ∧
      (Finite ty x →
        let n := p.floor
        (p = n → RoundsTo ty rm (pow2 n) false (laneOp vexp2 x y w)) ∧
        (1 - ((format ty).2.2 : Int) ≤ n → n < (format ty).2.2 → Finite ty (laneOp vexp2 x y w) ∧
          pow2 n ≤ valueOf ty (laneOp vexp2 x y w) ∧ valueOf ty (laneOp vexp2 x y w) ≤ pow2 (n + 1)) ∧
        ∀ e : Int, (p = pow2 e → RoundsTo ty rm e false (laneOp vlog2 x y w)) ∧
          (pow2 e ≤ p → p ≤ pow2 (e + 1) → Finite ty (laneOp vlog2 x y w) ∧ (e : Rat) ≤ valueOf ty (laneOp vlog2 x y w) ∧
            valueOf ty (laneOp vlog2 x y w) ≤ e + 1)) ∧
      -- infinite operands and invalid operations
      (∀ sa, x = inf sa →
        (∀ sb, y = inf sb → laneOp vadd x y w = (if sa = sb then inf sa else nan) ∧
          laneOp vsub x y w = (if sa = sb then nan else inf sa) ∧ laneOp vmul x y w = inf (sa != sb) ∧ laneOp vdiv x y w = nan) ∧
        (Finite ty y → laneOp vadd x y w = inf sa ∧ laneOp vsub x y w = inf sa ∧ laneOp vdiv x y w = inf (sa != sy) ∧
          laneOp vmul x y w = (if q = 0 then nan else inf (sa != sy)) ∧
          (q = 0 → laneOp vfma x y w = nan ∧ laneOp vfms x y w = nan)) ∧
        laneOp vsqrt x y w = (if sa then nan else inf false) ∧ laneOp vrcp x y w = zero sa ∧
        laneOp vrsq x y w = (if sa then nan else zero false) ∧ laneOp vexp2 x y w = (if sa then zero false else inf false) ∧
        laneOp vlog2 x y w = (if sa then nan else inf false)) ∧
      (∀ sb, y = inf sb → Finite ty x → laneOp vadd x y w = inf sb ∧ laneOp vsub x y w = inf (!sb) ∧
        laneOp vmul x y w = (if p = 0 then nan else inf (sx != sb)) ∧ laneOp vdiv x y w = zero (sx != sb) ∧
        (p = 0 → laneOp vfma x y w = nan ∧ laneOp vfms x y w = nan)) ∧
      (∀ s : Bool, (∃ sa, x = inf sa ∧ (y = inf (sa != s) ∨ Finite ty y ∧ q ≠ 0 ∧ (sa != sy) = s)) ∨
          (Finite ty x ∧ p ≠ 0 ∧ y = inf (sx != s)) →
        (Finite ty w → laneOp vfma x y w = inf s ∧ laneOp vfms x y w = inf s) ∧
        ∀ sc, w = inf sc → laneOp vfma x y w = (if s = sc then inf s else nan) ∧
          laneOp vfms x y w = (if s = sc then nan else inf s)) ∧
      (∀ sc, w = inf sc → Finite ty x → Finite ty y → laneOp vfma x y w = inf sc ∧ laneOp vfms x y w = inf (!sc)) ∧
      (Finite ty x → p < 0 → ∀ i ∈ [vsqrt, vrsq, vlog2], laneOp i x y w = nan) ∧
      (∀ sa, x = zero sa → laneOp vsqrt x y w = zero sa ∧ laneOp vrcp x y w = inf sa ∧ laneOp vrsq x y w = inf sa ∧
        laneOp vlog2 x y w = inf true) ∧
      -- signs and order
      (¬ IsNan ty x → laneOp (.vabs h d a ty z) x y w = x % 2 ^ (ty.width - 1) ∧
        laneOp (.vneg h d a ty z) x y w = (x + 2 ^ (ty.width - 1)) % 2 ^ ty.width) ∧
      (¬ IsNan ty x → ¬ IsNan ty y → laneOp vmin x y w = (if orderOf ty y < orderOf ty x then y else x) ∧
        laneOp vmax x y w = (if orderOf ty x < orderOf ty y then y else x))) ∧
    (ty.isInt = true → x < 2 ^ ty.width → y < 2 ^ ty.width →
      laneOp vmin x y w = (if numOf ty y < numOf ty x then y else x) ∧
      laneOp vmax x y w = (if numOf ty x < numOf ty y then y else x))

/-- VCVT, VQNT, VDQT and VSEL (R184, R185, R186, R193, R86, R82, R87, R88, R90, R91, R177, R101). Whenever the word
executes: VCVT converts the elements of A into part p of D, or those of part p of A into all of D, with latency 4;
the value of a finite element is rounded once to a float type (E4M3 overflows to ±448, or to its NaN under .NAN), or
to an integer and clamped; NaN and the infinities give those of R86; an integer is rounded to a float type, and
wraps, or clamps under .SAT, in an integer type. VQNT writes the 4-bit codes of each block of 32 elements into part
p of D and its scale byte, type and smallest exponent, into Sc, whose bits above the scale bytes are 0; every finite
element takes the nearest code, an even one at equal distance, and code 0 for a value 0. VDQT gives element j the
value of code 32·p·nb + j under its block's scale byte, the exact value converted to the destination type; VSEL
takes A where the selector is 1 and B elsewhere, with latency 2 or interlocked. -/
def Obligations.LaneConversionAndSelection : Prop :=
  ∀ (h : Hdr) (d v : VReg) (sc : SReg) (dst src : ETy) (q : B4Ty) (p : BitVec 3) (rm : Rm) (sat nan k z : Bool) (a b : OpVS)
      (c : OpSel) (s : State),
    let m := s.me.settle
    let g := m.laneGuard h
    (RunsLane s h [.v v] [] →
      let wd := dst.width
      let ws := src.width
      let n := 2048 / max ws wd
      let f (j : Nat) : Nat := cvtElem dst src rm sat nan (elemAt ws (m.readV v) j) % 2 ^ wd
      (p.toNat + 1) * n * wd ≤ 2048 ∨ ws < wd →
      ∃ (x : Lanes) (part : W64), exec (.vcvt h d v dst src p rm sat nan z) s =
          .next (retired h s fun m => m.putV false 4 d z part (enabled wd g) x) ∧
        (wd ≤ ws → (∀ j, j < n → elemAt wd x (p.toNat * n + j) = f j) ∧
          ∀ i, i < 64 → part.getLsbD i = decide (n * wd / 32 * p.toNat ≤ i ∧ i < n * wd / 32 * (p.toNat + 1))) ∧
        (ws < wd → part = allLanes ∧ ∀ j, j < n → elemAt wd x j = f (p.toNat * n + j))) ∧
    (RunsLane s h [.v v] [] →
      let ws := src.width
      let nb := 2048 / ws / 32
      nb ≤ 8 → 4 * nb * (p.toNat + 1) ≤ 64 →
      ∃ (x : Lanes) (part y : W64), exec (.vqnt h d sc v q src p z) s =
          .next (retired h s fun m => (m.putV false 4 d z part g x).setS 4 sc y) ∧
        (src ∈ [.f32, .bf16, .f16] → ∀ i, i < nb → ∃ e, (y.toNat / 2 ^ (8 * i)) % 256 = q.code.toNat * 64 + e ∧
          Quantised q src (fun j => elemAt ws (m.readV v) (32 * i + j)) e
            fun j => elemAt 4 x (32 * (nb * p.toNat + i) + j)) ∧
        y.toNat / 2 ^ (8 * nb) = 0 ∧
        ∀ i, i < 64 → part.getLsbD i = decide (4 * nb * p.toNat ≤ i ∧ i < 4 * nb * (p.toNat + 1))) ∧
    WritesLanes (.vdqt h d v sc dst p rm nan z) h [.v v, .s sc] 4 dst.width d z (fun m j =>
      dyCvt dst rm nan (b4Deq ((m.readS sc).toNat / 2 ^ (8 * (j / 32)) % 256)
        (elemAt 4 (m.readV v) (32 * (2048 / (32 * dst.width)) * p.toNat + j)))) ∧
    (∀ x, x < 2 ^ src.width →
      let r := cvtElem dst src rm sat nan x
      (src.isFloat = true → dst.isFloat = true →
        (NanPat src x → r = canonicalNan dst) ∧
        (InfPat src x → r = if dst = .e4m3 then (if nan then 0x7F else if signOf src x then 0xFE else 0x7E)
          else infPat dst (signOf src x)) ∧
        (Finite src x → Converts dst rm nan (valueOf src x) (signOf src x) r)) ∧
      (src.isFloat = true → dst.isFloat = false →
        (NanPat src x → r = 0) ∧
        (InfPat src x → r = fitted dst true (if signOf src x then -(2 ^ dst.width) else 2 ^ dst.width)) ∧
        (Finite src x → ∃ n, RoundsInt rm (valueOf src x) n ∧ r = fitted dst true n)) ∧
      (src.isFloat = false → dst.isFloat = true → Converts dst rm nan (numOf src x) false r) ∧
      (src.isFloat = false → dst.isFloat = false → r = fitted dst (sat && decide (dst.width ≤ src.width)) (numOf src x))) ∧
    (∀ e code, dst.isFloat = true → e < 64 → code < 16 →
      Converts dst rm nan (b4Value q e code) false (dyCvt dst rm nan (b4Deq (q.code.toNat * 64 + e) code))) ∧
    (RunsLane s h (vsReads a ++ vsReads b ++ selReads c) (selChains c) →
      ∃ x : Lanes, exec (.vsel h d a b c k z) s =
          .next (retired h s (fun m => (m.readChains k (selChains c)).putV (!(selChains c).isEmpty) 2 d z allLanes g x)
            (selChains c).head?) ∧
        ∀ i, i < 64 →
          let one : Bool := match c with
            | .m n => (m.readM n).getLsbD i
            | .v n => (m.readV n).getLsbD (32 * i + 31)
            | .c n => (m.chainVal n).getLsbD (32 * i + 31)
          laneAt x i = if one then argAt 32 m a i else argAt 32 m b i)

/-- VRED and VSCAN fold the present elements in the tree order (R199, R200, R92, R93, R94, R84, R101). VRED of 8-, 16-
or 32-bit integers, F32, BF16 or F16, whenever it executes, answers the state in which Sd takes with latency 12 the
value of the tree of R92 over the elements that Mc and the guard turn on, an absent one passing the other through,
or the identity of R199 for none; NaN is canonical, and the element is extended to 64 bits. VSCAN writes with
latency 14 the inclusive prefix of R94 into the present elements of Vd, and the others keep their values or become 0
under .Z. The steps are those of R199. -/
def Obligations.ReductionsAndScans : Prop :=
  ∀ (h : Hdr) (ds : SReg) (d a : VReg) (c : MReg) (op : RedOp) (ty : ETy) (rm : Rm) (sat z : Bool) (s : State),
    let m := s.me.settle
    let on := m.readM c &&& m.laneGuard h
    let f := foldStep op ty rm sat
    let xs (j : Nat) : Option Nat :=
      if j < 2048 / ty.width ∧ on.getLsbD (j * ty.width / 32) = true then some (elemAt ty.width (m.readV a) j) else none
    RunsLane s h [.v a, .m c] [] → (ty.isFl = true ∨ ty.isInt = true ∧ ty.width ≤ 32) →
    ∀ k, 2 ^ k = 2048 / ty.width →
    exec (.vred h ds a c op ty rm sat) s = .next (retired h s fun m => m.setS 12 ds
      (widened ty (canonical ty ((treeOf f k xs).getD (identityOf op ty))))) ∧
    ∃ v : Lanes, exec (.vscan h d a c op ty rm sat z) s = .next (retired h s fun m => m.putV false 14 d z allLanes on v) ∧
      ∀ j, j < 2048 / ty.width → elemAt ty.width v j = canonical ty ((prefixOf f k 1 xs j).getD 0) % 2 ^ ty.width

/-- Producers fill a chain register, consumers read it, and .K spends it (R54, R106, R107, R108, R110, R112). (That a
consumer without .K leaves a FILLING source FULL is the model's choice of the moment, log 19, and no rule of the
spec.) A producer leaves its destination FILLING, with its value in the enabled lanes and 0 in the others, its word,
its lane mask and its operand values. A consumer under .K leaves its source SPENT, and without .K a FILLING source
FULL; an EMPTY register reads as 0. Each of VADD, VSUB, VMUL, VFMA, VFMS, VABS, VNEG, VMIN, VMAX, VDIV, VSQRT, VRCP,
VRSQ, VEXP2, VLOG2, VMOV, VCMP, VTHR and VSEL, of every form, with an enabled lane and a SPENT source raises CHAIN-
SPENT with PCHN of its first chain source. The end of a producer makes a FILLING register of the named strand FULL
and changes no other status. -/
def Obligations.ChainRegisterLifetime : Prop :=
  ∀ (h : Hdr) (i : Instr) (n c : CReg) (d a : OpVC) (b b2 : OpVSC) (v : VReg) (p q : OpVS) (sl : OpSel) (mt mf : MReg)
      (cc : Cond) (ty : ETy) (rm : Rm) (mode : PMode) (k z : Bool) (l w : Nat) (o : Opnds) (val : Lanes) (g : W64) (m : Strand)
      (s : State),
    (let x := m.putVC i [] k l w (.c n) z g o val
     x.cRegs[n] = ⟨.filling, val &&& laneMask g, encode i, g, o.a, o.b, o.c⟩ ∧ x.pend = m.pend ∧ x.vRegs = m.vRegs ∧
       ∀ j : CReg, j ≠ n → x.cRegs[j] = m.cRegs[j]) ∧
    (((m.readChains true [c]).cRegs[c]).stat = .spent) ∧
    ((m.readChains false [c]).cRegs[c] =
      { m.cRegs[c] with stat := if m.cRegs[c].stat = .filling then .full else m.cRegs[c].stat }) ∧
    (m.cRegs[c].stat = .empty → m.chainVal c = 0) ∧
    (∀ e ∈ chainConsumers h d a b b2 v p q sl mt mf cc ty rm mode k z,
      s.me.settle.laneGuard h ≠ 0 → NotEarly s h e.2.1 → e.2.2.any s.me.settle.spent = true →
      exec e.1 s = .next ((settled s).endTrap s.me.settle .chainSpent { pc := s.me.settle.pc, chn := e.2.2.head? })) ∧
    (∀ sid : Nat, exec (.chainFull sid c) s = .next (s.updStrand sid fun m => m.setC c
      { m.cRegs[c] with stat := if m.cRegs[c].stat = .filling then .full else m.cRegs[c].stat }))

/-- LD, LDV and LDG of present bytes (R203, R204, R205, R206, R207, R208, R101). With no side-log entry of the strand on
the pages touched (nor, for an SO access, one that holds another) and every checked byte present, the three words
retire, and their interlocked destination takes: the element at A + offset widened to 64 bits; the 32-bit word at A
+ offset + 4i in each enabled lane i; or the element at the lane's gathered address, widened. Memory is unchanged. -/
def Obligations.Loads : Prop :=
  ∀ (h : Hdr) (ds a : SReg) (d b : VReg) (off : BitVec 24) (ty : ETy) (sem : Sem) (sc : Scope) (z : Bool) (s : State),
    let m := s.me.settle
    let g := m.laneGuard h
    let n := ty.width / 8
    let ea := (m.readS a + off.signExtend 64).toNat
    (Runs s h [.s a] → Ready s .r [⟨none, ea, n, 1⟩] →
      ∃ t, exec (.ld h ds a off ty sem sc) s = .next (retiredTo h s t) ∧ t.mem = s.mem ∧
        t.me = m.writeIl (.s ds) 1 ((widened ty (bytesAt s .r [⟨none, ea, n, 1⟩] ea n)).setWidth 2048)) ∧
    (∀ l, l = (onLanes g).map (fun i => (⟨some i, ea + 4 * i, 4, 1⟩ : Access)) → RunsLane s h [.s a] [] → Ready s .r l →
      ∃ t v, exec (.ldv h d a off sem sc z) s = .next (retiredTo h s t) ∧ t.mem = s.mem ∧
        t.me = m.putV true 0 d z allLanes g v ∧
        ∀ i, i < 64 → g.getLsbD i = true → laneAt v i = bytesAt s .r l (ea + 4 * i) 4 % 2 ^ 32) ∧
    (∀ l, l = (onLanes g).map (fun i => (⟨some i, laneAddr m a off b n i, n, 1⟩ : Access)) →
      RunsLane s h [.s a, .v b] [] → Ready s .r l →
      ∃ t v, exec (.ldg h d a off b ty z) s = .next (retiredTo h s t) ∧ t.mem = s.mem ∧
        t.me = m.putV true 0 d z allLanes g v ∧
        ∀ i, i < 64 → g.getLsbD i = true → laneAt v i = (widened ty (bytesAt s .r l (laneAddr m a off b n i) n)).toNat % 2 ^ 32)

/-- ST, STV and STG to present bytes (R203, R204, R207, R208, R210, R212, R214). With no side-log entry of the strand on
the pages touched (none at all for a release, none that holds an SO access for an SO store) and every checked byte
writable and present, the three words retire after storing the low bytes of the register or of each enabled lane at
A + offset, A + offset + 4i, or the lane's gathered address. The parts are made in increasing address and lane, each
translated as it is made: that order is the model's choice (log 12, log 53), where R207 admits any and R291 leaves
the parts unordered. What the parts change is stated in StoresChangeOnlyTheirBytes. -/
def Obligations.Stores : Prop :=
  ∀ (h : Hdr) (ds a : SReg) (d b : VReg) (off : BitVec 24) (ty : ETy) (sem : Sem) (sc : Scope) (s : State),
    let m := s.me.settle
    let g := m.laneGuard h
    let n := ty.width / 8
    let ea := (m.readS a + off.signExtend 64).toNat
    let put (l : List Access) (bs : Access → List Byte) : State :=
      (touched s .w l).applyActs (ctxOf s) (l.flatMap fun x => (partsOf x.ea x.n).map fun p =>
        LogAct.store p.va (((bs x).drop (p.va - x.ea)).take p.n))
    (∀ l, l = [⟨none, ea, n, 1⟩] → Runs s h [.s a, .s ds] → Ready s .w l → Released s sem →
      exec (.st h ds a off ty sem sc) s = .next (retiredTo h s (put l fun _ => bytesOf n (m.readS ds).toNat))) ∧
    (∀ l, l = (onLanes g).map (fun i => (⟨some i, ea + 4 * i, 4, 1⟩ : Access)) → RunsLane s h [.s a, .v d] [] → Ready s .w l →
      Released s sem → exec (.stv h d a off sem sc) s = .next (retiredTo h s (put l fun x => bytesOf 4 (laneAt (m.readV d) (x.lane.getD 0))))) ∧
    (∀ l, l = (onLanes g).map (fun i => (⟨some i, laneAddr m a off b n i, n, 1⟩ : Access)) →
      RunsLane s h [.s a, .v d, .v b] [] → Ready s .w l →
      exec (.stg h d a off b ty) s = .next (retiredTo h s (put l fun x => bytesOf n (laneAt (m.readV d) (x.lane.getD 0)))))

/-- The side log: what enters it, and what waits for it (R207, R208, R211, R212, R213, R214, R215, R216, R222). ST, STV,
STG, the seven atomics without a return, and VARED, when no part has a launch-ending cause: the parts to absent
pages, and to pages on which the strand already has an entry, become entries at the end of the log, one for each
page in increasing order, with this strand, launch and tile and the parts that fall on the page; the other parts are
made; and the word retires. With every part made it retires as from present pages. Before any part is made, it waits
while the tile's log has no room for every entry or no fault entry is free for an absent page, and, with an SO part
to be made, while an entry of the strand holds an SO access; a release waits first for all entries of the strand. A
fault record that cannot be written ends the launch with PROT (its fields: log 75). LD, LDV, LDG, the returning
atomics, ACAS, WAITA of memory, TIDSET and CSW.PARKA wait while the strand has an entry on a page they touch, or,
with an SO part, one that holds an SO access. A wait changes nothing else, and it is over when its condition is. -/
def Obligations.StoresToAbsentPagesAreLogged : Prop :=
  ∀ (h : Hdr) (ds a b : SReg) (d x : VReg) (off : BitVec 24) (off21 : BitVec 21) (ty : ETy) (sem : Sem) (sc : Scope) (va : VaOp)
      (z wide : Bool) (cc : Cond) (bound : BitVec 6) (tid : Byte) (s : State),
    let m := s.me.settle
    let own := s.slog.filter fun e => e.sid = m.id
    let holdsSo := ∃ e ∈ own, (settled s).slogHoldsSo e = true
    let runs (lanes : Bool) (rs : List Dest) : Prop := if lanes = true then RunsLane s h rs [] else Runs s h rs
    (∀ i rs lanes k l rel, (i, rs, lanes, k, l, rel) ∈ loggedWords s h ds a b d x off off21 ty sem sc va → runs lanes rs →
      let accs := l.map fun p => p.1
      let parts := l.flatMap fun p => (partsOf p.1.ea p.1.n).map fun q => (q, p.2 q)
      (rel = true → own ≠ [] → (∀ y ∈ accs, y.ea % y.al = 0) → Waits i s .relDrain) ∧
      ((rel = false ∨ own = []) → (∀ c lm y, (settled s).checkAll (ctxOf s) k accs ≠ .ends c lm y) →
        ∀ (gone late : Part → Bool) (pages : List Nat),
          (∀ q, gone q = true ↔ ∃ y, (settled s).checkPart (ctxOf s) k q = .error (.pageAbsent, y)) →
          (∀ q, late q = true ↔ gone q = true ∨ ∃ e ∈ own, e.page = pageOf q.va) →
          pages.Pairwise (· < ·) → (∀ p, p ∈ pages ↔ ∃ q ∈ parts, late q.1 = true ∧ pageOf q.1.va = p) →
          let now := parts.filter fun p => !late p.1
          let acts := now.map fun p => p.2
          let so := ∃ q ∈ now, ∃ pa leaf, (settled s).walk (ctxOf s) q.1.va .none = .ok (pa, leaf) ∧ pteOrd leaf = 1
          (so → holdsSo → Waits i s (.ownDrain [] true)) ∧
          (¬ (so ∧ holdsSo) →
            (pages = [] → exec i s = .next (retiredTo h s ((touched s k accs).applyActs (ctxOf s) acts))) ∧
            (pages ≠ [] → Config.slogEntries < (settled s).tileLog m.tile + pages.length →
              Waits i s (.slogRoom pages.length false)) ∧
            (pages ≠ [] → (settled s).tileLog m.tile + pages.length ≤ Config.slogEntries → ∀ res,
              res = (settled s).faultPages m.ctx 4 m.index 0 false
                (absentPages ((parts.filter fun p => late p.1 && gone p.1).map fun p => p.1.va)) →
              (res = none → exec i s = .next ((settled s).endTrap m .prot { pc := m.pc })) ∧
              (∀ u, res = some (u, false) → Waits i s (.slogRoom pages.length true)) ∧
              ∀ u, res = some (u, true) → ∃ t, exec i s = .next (retiredTo h s t) ∧ t.me = m ∧
                t.mem = ((u.touchAll (ctxOf s) k accs).applyActs (ctxOf s) acts).mem ∧
                t.slog = s.slog ++ pages.map fun p => ⟨m.id, m.ctx, m.serial, m.tile, p, m.jhead,
                  (parts.filter fun q => late q.1 && pageOf q.1.va == p).map fun q => q.2⟩)))) ∧
    (∀ i rs lanes kind q acc, (i, rs, lanes, kind, q, acc) ∈ loadWords s h ds a b d x off ty sem sc z wide cc bound tid →
      runs lanes rs → sem ≠ .rel → (∀ c lm y, (settled s).checkAll (ctxOf s) q acc ≠ .ends c lm y) →
      let pages := acc.flatMap fun y => (partsOf y.ea y.n).map fun p => pageOf p.va
      let so := ((settled s).leaves (ctxOf s) q acc).any fun e => pteOrd e = 1
      ((∃ e ∈ own, e.page ∈ pages) ∨ (so = true ∧ holdsSo) → Waits i s (.ownDrain pages so))) ∧
    (Runs s h [.s a] → m.xfer.valid = false →
      let acc : List Access := [⟨none, (m.readS a).toNat, 8, 8⟩]
      (∀ c lm y, (settled s).checkAll (ctxOf s) .r acc ≠ .ends c lm y) →
      let pages := acc.flatMap fun y => (partsOf y.ea y.n).map fun p => pageOf p.va
      let so := ((settled s).leaves (ctxOf s) .r acc).any fun e => pteOrd e = 1
      ((∃ e ∈ own, e.page ∈ pages) ∨ (so = true ∧ holdsSo) → Waits (.cswParka h a) s (.ownDrain pages so))) ∧
    (∀ (y : Strand) (n : Nat) (entry so : Bool) (pages : List Nat),
      (y.wait = .relDrain → (s.waitOver y = true ↔ ∀ e ∈ s.slog, e.sid ≠ y.id)) ∧
      (y.wait = .slogRoom n entry → (s.waitOver y = true ↔
        s.tileLog y.tile + n ≤ Config.slogEntries ∧ (entry = true → (s.openOf y.ctx).length < 512 ∧ s.faults.length < 4096))) ∧
      (y.wait = .ownDrain pages so → (s.waitOver y = true ↔
        ∀ e ∈ s.slog, e.sid = y.id → e.page ∉ pages ∧ (so = true → s.slogHoldsSo e = false))))

/-- LDL, STL, VLDL and VSTL (R209, R210). With aligned offsets inside the window and no poisoned word, LDL and VLDL
retire with an interlocked destination that takes the little-endian elements or lanes of the window, and STL and
VSTL write them: every written byte reads as stored and every other byte of tile SRAM as before. A misaligned one of
the four raises ALIGN, one past the window PROT, and a load of a poisoned word POISON: for a lane word the cause is
that of the lowest enabled lane that has one, LMASK holds every enabled lane with it, and ADDR is that lane's. -/
def Obligations.ScratchpadAccesses : Prop :=
  ∀ (h : Hdr) (ds a : SReg) (d : VReg) (off : BitVec 24) (ty : ETy) (z : Bool) (s : State),
    let m := s.me.settle
    let g := m.laneGuard h
    let n := ty.width / 8
    let o := (m.readS a + off.signExtend 64).toNat
    let whole (k : Nat) : Bool := (List.range k).all fun i => !tget false s.sramPoison (m.winAddr (o + i) / 8)
    (Runs s h [.s a] → o % n = 0 → o + n ≤ m.winSize → whole n = true →
      ∃ t, exec (.ldl h ds a off ty) s = .next (retiredTo h s t) ∧ t.sram = s.sram ∧
        t.me = m.writeIl (.s ds) 1 ((widened ty (natOf (s.sram.read (m.winAddr o) n))).setWidth 2048)) ∧
    (Runs s h [.s a, .s ds] → o % n = 0 → o + n ≤ m.winSize → s.sram.wf = true →
      ∃ t, exec (.stl h ds a off ty) s = .next (retiredTo h s t) ∧ t.me = m ∧ t.mem = s.mem ∧
        (∀ i, i < n → t.sram.byte (m.winAddr o + i) = BitVec.ofNat 8 ((m.readS ds).toNat / 2 ^ (8 * i))) ∧
        ∀ x, (x < m.winAddr o ∨ m.winAddr o + n ≤ x) → t.sram.byte x = s.sram.byte x) ∧
    (∀ (r : Bool) (i : Instr) (rs : List Dest), (r, i, rs) ∈ [(true, Instr.ldl h ds a off ty, [Dest.s a]),
        (false, .stl h ds a off ty, [.s a, .s ds])] → Runs s h rs →
      let ends (c : Cause) : Out := .next ((settled s).endTrap m c { pc := m.pc, addr := BitVec.ofNat 64 o })
      (o % n ≠ 0 → exec i s = ends .align) ∧
      (o % n = 0 → m.winSize < o + n → exec i s = ends .prot) ∧
      (o % n = 0 → o + n ≤ m.winSize → r = true → whole n = false → exec i s = ends .poison)) ∧
    (∀ (r : Bool) (x : Instr) (rs : List Dest), (r, x, rs) ∈ [(true, Instr.vldl h d a off z, [Dest.s a]),
        (false, .vstl h d a off, [.s a, .v d])] → RunsLane s h rs [] →
      let cause (i : Nat) : Option Cause :=
        if o % 4 ≠ 0 then some .align else if m.winSize < o + 4 * i + 4 then some .prot
        else if r = true ∧ ((List.range 4).any fun b => tget false s.sramPoison (m.winAddr (o + 4 * i + b) / 8)) = true
        then some .poison else none
      ∀ i c lm, i < 64 → g.getLsbD i = true → cause i = some c → (∀ j, j < i → g.getLsbD j = true → cause j = none) →
        (∀ j, j < 64 → lm.getLsbD j = (g.getLsbD j && decide (cause j = some c))) →
        exec x s = .next ((settled s).endTrap m c { pc := m.pc, lmask := lm, addr := BitVec.ofNat 64 (o + 4 * i) })) ∧
    (RunsLane s h [.s a] [] → o % 4 = 0 → o + 256 ≤ m.winSize → whole 256 = true →
      ∃ t v, exec (.vldl h d a off z) s = .next (retiredTo h s t) ∧ t.sram = s.sram ∧ t.me = m.putV true 0 d z allLanes g v ∧
        ∀ i, i < 64 → g.getLsbD i = true → laneAt v i = natOf (s.sram.read (m.winAddr (o + 4 * i)) 4)) ∧
    (RunsLane s h [.s a, .v d] [] → o % 4 = 0 → o + 256 ≤ m.winSize → s.sram.wf = true →
      ∃ t, exec (.vstl h d a off) s = .next (retiredTo h s t) ∧ t.me = m ∧ t.mem = s.mem ∧
        (∀ i k, i < 64 → k < 4 → t.sram.byte (m.winAddr o + 4 * i + k) =
          if g.getLsbD i then BitVec.ofNat 8 (laneAt (m.readV d) i / 2 ^ (8 * k)) else s.sram.byte (m.winAddr o + 4 * i + k)) ∧
        ∀ x, (x < m.winAddr o ∨ m.winAddr o + 256 ≤ x) → t.sram.byte x = s.sram.byte x)

/-- Scalar atomics and VARED (R215, R216, R210, R214, R101). AADD, AMAX, AMIN, AAND, AOR, AXOR and AXCHG at an aligned
address of present bytes, with no side-log entry that they wait for, perform one read-modify-write of the element
with B; with a return Sd takes the old element, interlocked. ACAS writes B when the element equals the old Sd, and
always returns it. VARED performs one such step for each enabled lane in increasing order. After the step the bytes
at the element's place in memory are those of the new value, and memory is as it was where ACAS meets another
element than the one it expects. The new value of an integer element is that of its operation, and of a float one
its step of VADD under RNE, VMAX or VMIN. A misaligned address of any of the nine raises ALIGN. -/
def Obligations.Atomics : Prop :=
  ∀ (h : Hdr) (ds a b : SReg) (off : BitVec 24) (off21 : BitVec 21) (d x : VReg) (ty : ETy) (sem : Sem) (sc : Scope) (va : VaOp)
      (s : State),
    let m := s.me.settle
    let n := ty.width / 8
    let ea := (m.readS a + off.signExtend 64).toNat
    let l : List Access := [⟨none, ea, n, n⟩]
    let c := ctxOf s
    let out (op : Rmw) : State := (touched s .rw l).applyAct c (.rmw ea ty op (m.readS b) sc)
    let old (u : State) : State :=
      u.setMe (u.me.writeIl (.s ds) 1 ((widened ty (bytesAt s .rw l ea n)).setWidth 2048))
    let misaligned (x : Access) : State := (settled s).endTrap m .align { pc := m.pc, addr := BitVec.ofNat 64 x.ea }
    let g := m.laneGuard h
    let lanes : List Access := (onLanes g).map fun i => ⟨some i, laneAddr m a off21 x 4 i, 4, 4⟩
    (∀ ret i op, (i, op) ∈ [(Instr.aadd h ds a off b ty sem sc ret, Rmw.add), (.amax h ds a off b ty sem sc ret, .max),
        (.amin h ds a off b ty sem sc ret, .min), (.aand h ds a off b ty sem sc ret, .and), (.aor h ds a off b ty sem sc ret, .or),
        (.axor h ds a off b ty sem sc ret, .xor), (.axchg h ds a off b ty sem sc ret, .xchg)] →
      Runs s h [.s a, .s b] →
      (ea % n ≠ 0 → ∀ x ∈ l, exec i s = .next (misaligned x)) ∧
      (0 < n → ea % n = 0 → n ≤ 8 → Ready s .rw l → Released s sem →
        exec i s = .next (retiredTo h s (if ret then old (out op) else out op)))) ∧
    (Runs s h [.s a, .s b, .s ds] → ea % n ≠ 0 → ∀ x ∈ l, exec (.acas h ds a off b ty sem sc) s = .next (misaligned x)) ∧
    (RunsLane s h [.s a, .v d, .v x] [] → ∀ (i : Nat) (lm : W64), i ∈ onLanes g → laneAddr m a off21 x 4 i % 4 ≠ 0 →
      (∀ j ∈ onLanes g, j < i → (settled s).accessCause c .rw ⟨some j, laneAddr m a off21 x 4 j, 4, 4⟩ = none) →
      (∀ j, j < 64 → lm.getLsbD j = (g.getLsbD j && decide (laneAddr m a off21 x 4 j % 4 ≠ 0))) →
      exec (.vared h d a off21 x va ty sc) s = .next ((settled s).endTrap m .align
        { pc := m.pc, lmask := lm, addr := BitVec.ofNat 64 (laneAddr m a off21 x 4 i) })) ∧
    (Runs s h [.s a, .s b, .s ds] → ea % n = 0 → Ready s .rw l → Released s sem →
      exec (.acas h ds a off b ty sem sc) s = .next (retiredTo h s (old (out (.cas (m.readS ds)))))) ∧
    (RunsLane s h [.s a, .v d, .v x] [] → Ready s .rw lanes →
      exec (.vared h d a off21 x va ty sc) s = .next (retiredTo h s ((touched s .rw lanes).applyActs c ((onLanes g).map fun i =>
        .rmw (laneAddr m a off21 x 4 i) ty (varedOp va) (BitVec.ofNat 64 (laneAt (m.readV d) i)) sc)))) ∧
    (∀ op pa leaf, Ready s .rw l → 0 < n → n ≤ 8 → ea % n = 0 → (settled s).walk c ea .none = .ok (pa, leaf) → s.hostRejects = [] →
      s.mem.wf = true →
      let o := bytesAt s .rw l ea n
      let place := (settled s).place pa
      (∀ y, rmwVal ty op o ((m.readS b).toNat % 2 ^ ty.width) = some y →
        (∀ j, j < n → (out op).mem.byte (place + j) = BitVec.ofNat 8 (y / 2 ^ (8 * j))) ∧
        ∀ q, (q < place ∨ place + n ≤ q) → (out op).mem.byte q = s.mem.byte q) ∧
      (rmwVal ty op o ((m.readS b).toNat % 2 ^ ty.width) = none → (out op).mem = s.mem)) ∧
    (∀ e o v, rmwVal ty (.cas e) o v = if o = e.toNat % 2 ^ ty.width then some v else none) ∧
    (∀ op o v, ty.isInt = true → o < 2 ^ ty.width → v < 2 ^ ty.width → (rmwVal ty op o v).getD o = newValue ty op o v) ∧
    (∀ o v, ty.isFloat = true → rmwVal ty .add o v = some (foldStep .sum ty .rne false o v) ∧
      rmwVal ty .max o v = some (foldStep .max ty .rne false o v) ∧ rmwVal ty .min o v = some (foldStep .min ty .rne false o v))

/-- NOP, the fences and cache maintenance retire and change no architected value (R173, R214, R217, R221, R304, R337,
R345). NOP and FENCE.ACQ retire and change nothing else, and so do FENCE.REL and FENCE.FULL when no side-log entry
of the strand is left; until then those two wait for the drain. PREF, CWB and CINV retire too; they raise no fault,
change no register and no byte the device holds, and can only have started the promotion of the object whose line
they name, as an access of that line does (that they promote as accesses do is log 106). CINV.SY besides makes
visible what agents outside coherence have written to its line, and nothing else (how the model holds those bytes is
log 109). In the one order of the model's accesses (log 12) a fence has nothing else to order. -/
def Obligations.WordsWithoutEffect : Prop :=
  ∀ (h : Hdr) (a : SReg) (off : BitVec 24) (sc : Scope) (s : State),
    (Runs s h [] → exec (.nop h) s = .next (retired h s id) ∧ exec (.fenceAcq h sc) s = .next (retired h s id)) ∧
    (Runs s h [] → (settled s).slogOf s.me.settle.id = [] →
      exec (.fenceRel h sc) s = .next (retired h s id) ∧ exec (.fenceFull h sc) s = .next (retired h s id)) ∧
    (Runs s h [] → (settled s).slogOf s.me.settle.id ≠ [] →
      exec (.fenceRel h sc) s = .next ((settled s).waitFor s.me.settle .relDrain) ∧
      exec (.fenceFull h sc) s = .next ((settled s).waitFor s.me.settle .relDrain)) ∧
    (Runs s h [.s a] →
      let ea := (s.me.settle.readS a + off.signExtend 64).toNat
      let at_ : List Access := [⟨none, ea / 64 * 64, 64, 1⟩]
      (noncanonAt ea 1 ≠ none → ∀ i ∈ [Instr.cinv h a off sc, .cwb h a off sc, .pref h a off sc], exec i s = .next (retired h s id)) ∧
      (noncanonAt ea 1 = none → ∃ t, t = touched s .none at_ ∧ t = { settled s with objs := t.objs } ∧
        exec (.pref h a off sc) s = .next (retiredTo h s t) ∧ exec (.cwb h a off sc) s = .next (retiredTo h s t) ∧
        (sc ≠ .sy ∨ (∀ r, t.walk (ctxOf s) (ea / 64 * 64) .none ≠ .ok r) → exec (.cinv h a off sc) s = .next (retiredTo h s t)) ∧
        (sc = .sy → ∀ pa leaf, t.walk (ctxOf s) (ea / 64 * 64) .none = .ok (pa, leaf) → ∃ u : State,
          exec (.cinv h a off sc) s = .next (retiredTo h s u) ∧ u = { t with mem := u.mem, foreign := u.foreign } ∧
          (∀ p, p ∈ u.foreign ↔ p ∈ s.foreign ∧ p.1 / 64 ≠ s.place pa / 64) ∧
          (s.mem.wf = true → (∀ p ∈ s.foreign, p.1 / 64 = s.place pa / 64 → (∀ q ∈ s.foreign, q.1 = p.1 → q = p) →
              u.mem.byte p.1 = p.2) ∧
            ∀ b, (∀ p ∈ s.foreign, p.1 / 64 = s.place pa / 64 → p.1 ≠ b) → u.mem.byte b = s.mem.byte b)) ∧
        ∀ o ∈ s.objs, ∃ x ∈ t.objs, x = { o with moveTo := x.moveTo } ∧
          (x.moveTo ≠ o.moveTo → ∃ pa leaf, (settled s).walk (ctxOf s) (ea / 64 * 64) .none = .ok (pa, leaf) ∧ o.addr < pa + 64 ∧
            pa < o.addr + o.size ∧ x.moveTo = some (pteTier leaf) ∧ o.tier < pteTier leaf ∧ ptePin leaf = false)))

/-- WAITA ends when the word it reads meets its condition (R218, R135, R101). WAITA of a present memory word, or of an
aligned scratchpad doubleword, with no side-log entry that it waits for, retires when the word meets the condition
against B, and Sd takes it, interlocked, sign-extended for a signed condition; otherwise the strand waits, holding
its operands, and a later read that meets the condition retires the word. -/
def Obligations.WatchedWaits : Prop :=
  ∀ (h : Hdr) (d a b : SReg) (cc : Cond) (wide : Bool) (sc : Scope) (bound : BitVec 6) (s : State),
    let m := s.me.settle
    let form : WForm := if wide then .d else .w
    let w := if wide then 64 else 32
    let n := w / 8
    let res (x : Nat) : W64 := if cc ∈ [.lt, .ge, .le, .gt] then BitVec.ofInt 64 (sgn w x) else BitVec.ofNat 64 x
    (∀ l, l = [⟨none, (m.readS a).toNat, n, n⟩] → Runs s h [.s a, .s b] → Ready s .r l →
      let x := bytesAt s .r l (m.readS a).toNat n
      (condInt cc w x (m.readS b).toNat = true →
        ∃ t, exec (.waita h d a b cc form sc bound) s = .next (retiredTo h s t) ∧ t.mem = s.mem ∧
          t.me = m.writeIl (.s d) 1 ((res x).setWidth 2048)) ∧
      (condInt cc w x (m.readS b).toNat = false →
        ∃ t, exec (.waita h d a b cc form sc bound) s = .next t ∧ t.mem = s.mem ∧ t.me.pc = m.pc ∧
          t.me.wait = .waita d (m.readS a) (m.readS b) cc form bound)) ∧
    (Runs s h [.s a, .s b] → (m.readS a).toNat % 8 = 0 → (m.readS a).toNat + 8 ≤ m.winSize →
      (∀ i, i < 8 → tget false s.sramPoison (m.winAddr ((m.readS a).toNat + i) / 8) = false) →
      let x := natOf (s.sram.read (m.winAddr (m.readS a).toNat) 8)
      (condInt cc 64 x (m.readS b).toNat = true → exec (.waita h d a b cc .l sc bound) s = .next (retired h s fun m =>
        m.writeIl (.s d) 1 ((BitVec.ofNat 64 x).setWidth 2048))) ∧
      (condInt cc 64 x (m.readS b).toNat = false → ∃ t, exec (.waita h d a b cc .l sc bound) s = .next t ∧
        t.me.wait = .waita d (m.readS a) (m.readS b) cc .l bound ∧ t.me.pc = m.pc)) ∧
    (∀ p q l, s.me.id ≠ 0 → s.me.wait = .waita d p q cc form bound → s.waits s.me = true → l = [⟨none, p.toNat, n, n⟩] →
      s.checkAll s.myCtx .r l = .fine → s.slogOf s.me.id = [] →
      let t := s.touchAll s.myCtx .r l
      let x := numberAt t t.myCtx p.toNat n
      condInt cc w x q.toNat = true →
      exec (.waitaSatisfied s.me.id) s =
        .next ((t.setMe (t.me.writeIl (.s d) 1 ((res x).setWidth 2048))).retire s.me.wstall s.me.step))

/-- Arriving at a named barrier, and waiting for its generation (R219, R220). A strand without an open arrival, with no
side-log entry, arrives with E from 1 to the limit of its scope, the same E as the open generation, and room on its
tiles. BAR.ARV retires and the generation counts one more arrival; the arrival that makes E releases it: the
generation number rises and no arrival is open. BAR.SYNC waits unless its arrival releases; then it retires at once,
its own arrival closed. BAR.WAIT of a strand whose arrival is still open waits; otherwise it retires. E of 0, over
the limit or different raises ILLEGAL. An arrival at a .SY barrier of a gang of several packages is also sent to the
other slices (the model's reading of R219, log 70). -/
def Obligations.Barriers : Prop :=
  ∀ (h : Hdr) (n : Fin 32) (b : SReg) (sc : Scope) (bound : BitVec 6) (s : State),
    let m := s.me.settle
    let e := (m.readS b).toNat
    let r := m.barRec n sc
    let g := (settled s).barrier m n sc
    let arrived (mark : Bool) : State := (((settled s).setMe (m.setBar { r with gen := g.gen, open_ := true, mark := mark })).setBarrier
      m n sc { g with e := e, arrivals := g.arrivals + 1 }).announce m n sc e g.gen
    let fits := 1 ≤ e ∧ e ≤ barLimit sc ∧ (0 < g.arrivals → g.e = e)
    (Runs s h [.s b] → r.open_ = false → r.mark = false → ¬ fits →
      exec (.barArv h n b sc) s = .next (raises s .illegal) ∧ exec (.barSync h n b sc bound) s = .next (raises s .illegal)) ∧
    (Runs s h [.s b] → r.open_ = false → r.mark = false → fits → (settled s).slogOf m.id = [] →
      (g.arrivals = 0 → (settled s).barRoom sc m.tile = true) → g.arrivals + 1 < e →
      exec (.barArv h n b sc) s = .next (retiredTo h s (arrived false)) ∧
      ∃ t, exec (.barSync h n b sc bound) s = .next t ∧ t.me.wait = .bar n sc bound ∧ t.me.pc = m.pc ∧
        t.barriers = (arrived true).barriers) ∧
    (Runs s h [.s b] → r.open_ = false → r.mark = false → fits → (settled s).slogOf m.id = [] →
      (g.arrivals = 0 → (settled s).barRoom sc m.tile = true) → g.arrivals + 1 = e →
      exec (.barArv h n b sc) s = .next (retiredTo h s ((arrived false).barRelease (arrived false).me n sc)) ∧
      ∀ u : State, u = (arrived true).barRelease (arrived true).me n sc →
        ((u.me.barRec n sc).open_ = false → exec (.barSync h n b sc bound) s = .next (retiredTo h s
          (u.setMe (u.me.setBar { u.me.barRec n sc with mark := false })))) ∧
        (m.id ≠ 0 → (∀ x ∈ s.others, ∀ k c v, x.wait ≠ .bar k c v) → (u.me.barRec n sc).open_ = false ∧
          u.barrier m n sc = { g with gen := g.gen + 1, e := 0, arrivals := 0 })) ∧
    (Runs s h [] → r.open_ = true →
      ∃ t, exec (.barWait h n sc bound) s = .next t ∧ t.me.wait = .bar n sc bound ∧ t.me.pc = m.pc ∧ t.barriers = s.barriers) ∧
    (Runs s h [] → r.open_ = false →
      exec (.barWait h n sc bound) s = .next (retired h s fun m => m.setBar { m.barRec n sc with mark := false })) ∧
    (Runs s h [.s b] → r.open_ = false → r.mark = true →
      exec (.barSync h n b sc bound) s = .next (retired h s fun m => m.setBar { m.barRec n sc with mark := false }))

/-- TIDSET writes an entry and TIDGET reads one (R62, R222, R101). TIDSET, by number or by the low byte of a register,
of present table bytes and with no side-log entry that it waits for, retires after writing the 32 bytes of Sa to
Sa+3 at TIDBASE + 32 × n and the context's entry n; TIDGET writes the four doublewords of entry n to Sd to Sd+3,
interlocked. -/
def Obligations.TensorIdentifierEntries : Prop :=
  ∀ (h : Hdr) (t : Byte) (a b d : SReg) (s : State),
    let m := s.me.settle
    let c := ctxOf s
    let va (k : Byte) : Nat := (c.tidbase.toNat + 32 * k.toNat) % 2 ^ 64
    let four (r : SReg) : List SReg := [r, r + 1, r + 2, r + 3]
    let es := (four a).map m.readS
    let set (k : Byte) : State :=
      let u := (touched s .w [⟨none, va k, 32, 1⟩]).writeVa c (va k) (es.flatMap bytes64)
      u.updCtx u.me.ctx fun x => { x with tids := x.tids.setIfInBounds k.toNat (BitVec.ofNat 256 (natOf (es.flatMap bytes64))) }
    let get (k : Byte) (m : Strand) : Strand :=
      let e := c.tids.getD k.toNat 0
      (((m.writeIl (.s d) 1 ((e.extractLsb' 0 64).setWidth 2048)).writeIl (.s (d + 1)) 1 ((e.extractLsb' 64 64).setWidth 2048)).writeIl
        (.s (d + 2)) 1 ((e.extractLsb' 128 64).setWidth 2048)).writeIl (.s (d + 3)) 1 ((e.extractLsb' 192 64).setWidth 2048)
    (Runs s h ((four a).map Dest.s) → Ready s .w [⟨none, va t, 32, 1⟩] →
      exec (.tidset h t a) s = .next (retiredTo h s (set t))) ∧
    (∀ k, k = (m.readS b).setWidth 8 → Runs s h (.s b :: (four a).map Dest.s) → Ready s .w [⟨none, va k, 32, 1⟩] →
      exec (.tidsetReg h b a) s = .next (retiredTo h s (set k))) ∧
    (Runs s h [] → exec (.tidget h d t) s = .next (retired h s (get t))) ∧
    (∀ k, k = (m.readS b).setWidth 8 → Runs s h [.s b] → exec (.tidgetReg h d b) s = .next (retired h s (get k)))

/-- Loaded data arrive, and side-log entries drain in order (R101, R104, R112, R212, R301). The completion of an access
lands the oldest interlocked write of the strand: its register takes the value in the lanes of its mask, and the
write is no longer pending. A side-log entry may drain when no older entry of any strand is on its page (of its
ASID), and no older entry of its strand holds an SO access beside one of its own. The drain of one whose pages are
now present and grant the rights performs its recorded parts in order and removes it; every other entry stays. That
entries of one page of one ASID drain in the order made, whichever strand made them, and that a drain asks for W
alone, is log 36 (the model's reading). -/
def Obligations.CompletionsAndDrains : Prop :=
  ∀ (s : State) (k : Nat) (e : SlogEntry) (m : Strand) (older younger : List PWrite) (w : PWrite),
    (m.pend = older ++ w :: younger → (∀ x ∈ older, x.il = false) → w.il = true →
      m.land = { m.store w.dest w.mask w.val with pend := dropLanes w.dest w.mask older ++ younger }) ∧
    (∀ sid : Nat, exec (.memoryAccessComplete sid) s = .next (s.updStrand sid Strand.land)) ∧
    (s.drainTurn k e = true ↔ ∀ x ∈ s.slog.take k, ¬ (x.page = e.page ∧ (s.ctx x.ctx).asid = (s.ctx e.ctx).asid) ∧
      ¬ (x.sid = e.sid ∧ s.slogHoldsSo x = true ∧ s.slogHoldsSo e = true)) ∧
    (s.slog[k]? = some e → s.drainTurn k e = true →
      let acc := match e.acts.head? with | some a => a.acc | none => Acc.w
      let l := e.acts.map LogAct.access
      s.checkAll (s.ctx e.ctx) acc l = .fine →
      ∃ t u, exec (.sideLogDrain k) s = .next t.refresh ∧ t.slog = s.slog.eraseIdx k ∧
        u = { s with slog := s.slog.eraseIdx k } ∧ t = (u.touchAll (s.ctx e.ctx) acc l).applyActs (s.ctx e.ctx) e.acts)

/-- A family 6 word appends its command to the journal (R223, R224, R139, R261, R252, R284, R64, R251). Each of the 28
engine commands with a true guard, no early read, room in the journal, no token before the strand's first command,
valid tensor entries and accepted operands retires; the journal's last entry is the command, queued, with sequence
number JHEAD, its captured registers and tensor entries; JHEAD rises by 1; SQ, if named, takes the sequence number
with latency 1; memory is unchanged. WAITK and XWAIT then wait, unless nothing is left to wait for: then they have
completed. -/
def Obligations.EngineCommandsAreJournaled : Prop :=
  ∀ (i : Instr) (h : Hdr) (e : EnH) (rs : List SReg) (s : State), command i = some (h, e, rs) →
    let m := s.me.settle
    let o := rs.map m.readS
    let raw := (tidNames i o).map fun t => (ctxOf s).tids.getD t.toNat 0
    Runs s h ((rs ++ [e.at_]).map Dest.s) → (m.jhead - m.jdone).toNat < 256 →
    (∀ k ∈ [e.k0, e.k1, e.k2], k.toNat ≤ m.njour) →
    (∀ x ∈ raw, (tidFields x).ok = true) → Accepts (settled s) i o (raw.map tidFields) →
    ∃ (t : State) (x : JEntry), t.mem = s.mem ∧ t.sram = s.sram ∧
      exec i s = .next (((t.retire h.stall (m.step && !stepsLater i)).waitAfter m.id m.pc m.xfer.valid (waitOf m i m.jhead)).endWait
        m.id) ∧
      t.me.jhead = m.jhead + 1 ∧ t.me.journal.getLast? = some x ∧ x.seq = m.jhead ∧ x.cmd = i ∧ x.st = .queued ∧ x.eng = 0 ∧
      x.opv = o ∧ x.tids = raw ∧ (x.atWait = true ↔ e.at_ ≠ 0) ∧ (e.at_ ≠ 0 → x.upc = m.readS e.at_) ∧
      t.me.pend = (if e.sq = 0 then m.pend else (m.setS 1 e.sq (m.jhead.setWidth 64)).pend)

/-- .AT times, starts, micro-steps, effects and completions of commands (R224, R225, R231, R236, R239, R246, R248, R263,
R267, R271, R276, R278). For an entry of a strand: once MTIME reaches its .AT time, the time no longer holds it. A
startable command with a free engine is taken by that engine, a matrix command or an XRUN only as the first of the
tile by the cycle in which it became startable, slot and sequence number; one that is not the first is left waiting
(that the model keeps that cycle at the end of each, and what ends a cycle, is log 88, DEDUCED). MMA, MMAS, MMAT,
ACLR, ACVT, AMOV, CPY, GTHR, GIDX, KVH, KVLK, KVINS, KVPIN, KVUNP, KVMAP, KVMAP.REL, KVPUB, ATTN, CRED, CGTH, CSND,
CRCV and LAUNCH: a micro-step or a completion on readable operands answers the state with exactly the elements,
bytes, slots, map descriptor, messages or queue slot that the command writes, and its micro-PC or once-only bit.
ATTN is one step, which reads its descriptor too, and MMAT captures its accumulator as it starts (that this is in
the step of its start is log 88). That LAUNCH makes its step as it starts is log 59, and what CRED, CGTH, CSND and
CRCV put into the outbox (the gang's identity and ordinal, one message for each contribution, the answer that a CSND
waits for) log 44; both are the model's readings. An output row of ATTN has the values of R276. A completed entry
holds no engine, and JDONE is the first live entry or JHEAD. A WAITK whose tokens are met, and an XWAIT whose EVU
has also reached its count, completes without a step of its own, and the strand goes on. A message of a gang that
arrives once READY, with a port that is not fenced, enters the inbox once; an arrival of another slice at a .SY
barrier counts there (the model's reading of R219, log 70). -/
def Obligations.EngineSteps : Prop :=
  ElementValues ∧ Accumulation ∧ MatrixSteps ∧ MatrixCommands ∧ CopyCommands ∧ PrefixCommands ∧ AttentionValues ∧ GangCommands ∧
  ∀ (s : State) (m : Strand) (e : JEntry) (q : W32), s.strand m.id = some m → m.jfind q = some e →
    (e.live = true → e.atWait = true → m.saved = false → e.upc.toNat ≤ s.mtime.toNat →
      exec (.atTimeReached m.id q) s = .next (s.setEntry m.id { e with atWait := false })) ∧
    (∀ k, s.startable m e = true → s.engineFree m e.cmd = some k →
      (engineOf e.cmd ∈ [1, 5] → ∀ x ∈ s.strands, x.tile = m.tile → ∀ f ∈ x.journal, engineOf f.cmd = engineOf e.cmd →
        s.startable x f = true →
        let a := e.ready.getD s.cycles
        let b := f.ready.getD s.cycles
        a < b ∨ (a = b ∧ (m.slot < x.slot ∨ (m.slot = x.slot ∧ e.seq.toNat ≤ f.seq.toNat)))) →
      let e1 : JEntry := { e with eng := k, ready := none, upc := if e.en.at_ != 0 && e.st = .queued then 0 else e.upc }
      ((engineOf e.cmd ∈ [1, 3, 4, 6, 7, 8] ∧ ∀ h en ac ta tb sco fill, e.cmd ≠ .mmat h en ac ta tb sco fill) →
        exec (.commandStart m.id q) s = .next (s.setEntry m.id e1)) ∧
      (∀ h en ac ta tb sco fill, e.cmd = .mmat h en ac ta tb sco fill → AccReady s m ac.val →
        exec (.commandStart m.id q) s = .next ((s.setEntry m.id e1).setEntry m.id
          { e1 with cap := (accs s m ac.val).flatMap fun x => bytesOf 4 x })) ∧
      (∀ h en sb e2 t, e.cmd = .launch h en sb → e.once = false → microStep m e1 (s.setEntry m.id e1) = .ok (e2, t) →
        exec (.commandStart m.id q) s = .next (t.setEntry m.id e2))) ∧
    (engineOf e.cmd ∈ [1, 5] → (∃ x ∈ s.strands, x.tile = m.tile ∧ ∃ f ∈ x.journal, engineOf f.cmd = engineOf e.cmd ∧
        s.startable x f = true ∧
        (let a := e.ready.getD s.cycles
         let b := f.ready.getD s.cycles
         b < a ∨ (b = a ∧ (x.slot < m.slot ∨ (x.slot = m.slot ∧ f.seq.toNat < e.seq.toNat))))) →
      exec (.commandStart m.id q) s = .next s) ∧
    (∀ h en b, e.cmd = .waitk h en b → s.engineLive m e = true → e.eng = 0 → (∀ k ∈ e.tokens, m.tokenMet k = true) →
      exec (.engineCommandComplete m.id q) s = .next (s.completeEntry m.id q)) ∧
    (∀ h en sc ev b, e.cmd = .xwait h en sc b ev → s.engineLive m e = true → e.eng = 0 → (∀ k ∈ e.tokens, m.tokenMet k = true) →
      e.lo 0 ≤ ((m.events e.xrun).upOf ev).toNat → exec (.engineCommandComplete m.id q) s = .next (s.completeEntry m.id q)) ∧
    s.completeEntry m.id q = (s.finishEntry m.id q).endWait m.id ∧
    (let tokens := ∀ k ∈ e.tokens, m.tokenMet k = true
     (∀ b h en c, m.wait = .waitk q b → e.cmd = .waitk h en c → e.live = true → m.saved = false → s.ended m.ctx = false →
        (tokens → s.endWait m.id = s.finishEntry m.id q) ∧ (¬ tokens → s.endWait m.id = s)) ∧
     (∀ x b h en c sc ev, m.wait = .xwait q x b → e.cmd = .xwait h en sc c ev → e.live = true → m.saved = false →
        s.ended m.ctx = false →
        let reached := e.lo 0 ≤ ((m.events e.xrun).upOf ev).toNat
        (tokens ∧ reached → s.endWait m.id = s.finishEntry m.id q) ∧ (¬ (tokens ∧ reached) → s.endWait m.id = s))) ∧
    ((∀ x b, m.wait ≠ .waitk x b) → (∀ x ev b, m.wait ≠ .xwait x ev b) → s.endWait m.id = s) ∧
    (s.me = m → m.id ≠ 0 → (m.wait = .none ∨ (∃ b, m.wait = .waitk q b) ∨ ∃ ev b, m.wait = .xwait q ev b) →
      let t := s.finishEntry m.id q
      t.me.wait = .none ∧ t.me.pc = m.pc ∧ (t.me.jdone = match t.me.journal.head? with | some x => x.seq | none => t.me.jhead) ∧
      (∀ x, t.me.journal.head? = some x → x.live = true) ∧
      (∀ x ∈ t.me.journal, x.seq = q → x.st = .complete ∧ x.eng = 0) ∧ t.me.jhead = m.jhead ∧ t.mem = s.mem) ∧
    (∀ e1 t, s.engineLive m e = true → e.eng ≠ 0 → microStep m e s = .ok (e1, t) →
      exec (.engineMicroStep m.id q) s = .next (t.setEntry m.id e1)) ∧
    (∀ t, s.engineLive m e = true → e.eng ≠ 0 → lastStep m e s = .ok (true, t) →
      exec (.engineCommandComplete m.id q) s = .next (t.completeEntry m.id q)) ∧
    (∀ x : CollMsg, (s.plat.ready = false ∨ s.plat.ualen = 0 → exec (.collectiveMessage x) s = .next s) ∧
      (s.plat.ready = true → s.plat.ualen ≠ 0 →
      (x ∉ s.inbox → (∀ n k, x.kind ≠ .barrier n k) → (x.kind = .csnd → (x.gang, x.start, x.dst) ∉ s.gone) →
        exec (.collectiveMessage x) s = .next { s with inbox := s.inbox ++ [x] }) ∧
      (x ∉ s.inbox → x.kind = .csnd → (x.gang, x.start, x.dst) ∈ s.gone →
        ∃ t : State, exec (.collectiveMessage x) s = .next t ∧ t = { s with outbox := t.outbox } ∧
          { x with src := x.dst, dst := x.src, kind := .written, data := [] } ∈ t.outbox) ∧
      (∀ n k, x ∉ s.inbox → x.kind = .barrier n k → exec (.collectiveMessage x) s = .next (s.farArrive x n k)) ∧
      (x ∈ s.inbox → exec (.collectiveMessage x) s = .next s)))

/-- The transform sequencer: its start, its words and its events (R250, R251, R252, R253, R254, R255, R256, R257, R258,
R118, R119, R224). An XRUN that starts captures Sb to Sb+3 in X0 to X3, has 0 in X4 to X15, no levels and no posts,
stands at ENTRY, or XENTRY for 0, and holds the lines of its chain; an entry PC that is none raises LINE-OWNER (that
the PC of its record is the word to issue, and of a halted strand the PC of its HALT, is the model's choice, log
95). A family 6 XPOST that starts adds 1 to EVD once, lets an XWAIT of the program that has now reached its count go
on, and completes. For the run of the strand in focus: XMOV and its forms write Xd and the run goes on after the
word; XLD and XST, aligned and inside the window, move a doubleword (a store over no byte that the run has read as a
source: otherwise R259 leaves what the run has written open); XDEC, XENC, XQNT and XBP make their blocks in order
(which alignments they check, none for the sources of XDEC, and that a word makes all its blocks in one step, is the
model's reading, log 43); XLOOP with a nonzero count opens a level at the next word and with 0 passes the body;
XPOST adds 1 to the run's count, EVU becomes the larger of its old value and that count, an XWAIT of the strand that
it satisfies ends, and nothing else changes; XWAIT goes on once EVD has reached Xc and otherwise waits; XEND frees
the sequencer and completes the XRUN. Decoding an encoded block gives its 512 bytes back. -/
def Obligations.TransformWords : Prop :=
  (∀ (s : State) (m : Strand) (e : JEntry) (q : W32), s.strand m.id = some m → m.jfind q = some e → s.startable m e = true →
    (∀ h en sb entry, e.cmd = .xrun h en sb entry → s.firstStart m e = true → s.engineFree m e.cmd = some 5 →
      let e1 : JEntry := { e with eng := 5, ready := none, upc := if e.en.at_ != 0 && e.st = .queued then 0 else e.upc }
      let u := s.setEntry m.id e1
      let pc : W32 := if entry = 0 then (match s.launchOf m with | some l => l.xentry | none => 0) else entry.setWidth 32
      ((2 ^ 23 ≤ pc.toNat ∨ 5 ≤ pc.toNat % 8) → exec (.commandStart m.id q) s =
        .next (u.endTrap m .lineOwner { pc := m.nextIssue, eng := some (5, e.seq, 0) })) ∧
      (∀ k l ls, pc.toNat < 2 ^ 23 → ChainAt u m (pc.toNat / 8) ((k, l) :: ls) → ls.length < 512 → pc.toNat % 8 < linkNslot (lineLink l) →
        ∃ v r, OnlyTouched u v ∧ exec (.commandStart m.id q) s = .next (v.setXrun m r) ∧ r.sid = m.id ∧ r.seq = e.seq ∧ r.pc = pc ∧
          (∀ i : XReg, r.x[i] = if i.val < 4 then e.opv.getD i.val 0 else 0) ∧ r.imem = (k, l) :: ls ∧ r.levels = [] ∧
          r.posts = [0, 0, 0, 0] ∧ r.waiting = none)) ∧
    (∀ h en ev, e.cmd = .xpost h en ev → e.once = false →
      let v := m.events e.xrun
      let m1 := m.setEvents { v with down := v.down.set ev.val (v.downOf ev + 1) }
      let u := (s.updStrand m.id fun _ => m1).setEntry m.id { e with once := true }
      ((∃ x ∈ m.evs, x.seq = e.xrun) → ev.val < v.down.length → (m1.events e.xrun).downOf ev = v.downOf ev + 1) ∧
      ((∀ r, s.xrun m = some r → r.waiting = none) → exec (.commandStart m.id q) s = .next (u.completeEntry m.id q)) ∧
      ∀ r x c b, s.xrun m = some r → r.waiting = some (x, c, b) →
        (((m1.events r.seq).downOf x).toNat < (c.extractLsb' 0 32).toNat →
          exec (.commandStart m.id q) s = .next (u.completeEntry m.id q)) ∧
        ((c.extractLsb' 0 32).toNat ≤ ((m1.events r.seq).downOf x).toNat → ∃ y : XRunning, y = { r with waiting := none, stallcnt := 0 } ∧
          exec (.commandStart m.id q) s = .next ((u.xsLand m1 y (y.advance 3)).completeEntry m.id q)))) ∧
  ∀ (s : State) (r : XRunning) (d a b : XReg) (imm : W32) (len : BitVec 12) (ev : Fin 4) (bound : BitVec 6) (n : BitVec 22)
      (p : BitVec 10) (q : B4Ty) (ty : ETy), s.xrun s.me = some r →
    let m := s.me
    let sets (v : W64) : Out := .next (xsGoes (s.setXrun m { r with x := r.x.set d.val v d.isLt }) { r with x := r.x.set d.val v d.isLt })
    let ea := (r.x[a] + imm.signExtend 64).toNat
    exec (.xmov d imm) s = sets (imm.signExtend 64) ∧
    exec (.xmovA d a imm) s = sets (r.x[a] + imm.signExtend 64) ∧
    exec (.xmovR d a b) s = sets (r.x[a] + r.x[b]) ∧
    exec (.xmovH d imm) s = sets (imm ++ r.x[d].extractLsb' 0 32) ∧
    (ea % 8 = 0 → ea + 8 ≤ m.winSize → (∀ k, k < 8 → tget false s.sramPoison (m.winAddr (ea + k) / 8) = false) →
      ∃ r1, r1.x = r.x.set d.val (BitVec.ofNat 64 (natOf (s.sram.read (m.winAddr ea) 8))) d.isLt ∧ r1.pc = r.pc ∧
        r1.levels = r.levels ∧ exec (.xld d a imm) s = .next (xsGoes (s.setXrun m r1) r1)) ∧
    (ea % 8 = 0 → ea + 8 ≤ m.winSize → r.broke = false → (∀ i, i < 8 → s.byteKey m true (ea + i) ∉ r.srcs) →
      ∃ r1 t, r1.x = r.x ∧ r1.pc = r.pc ∧ r1.levels = r.levels ∧ t.me = m ∧ t.mem = s.mem ∧
        t.sram = s.sram.write (m.winAddr ea) (bytes64 r.x[b]) ∧ t.xrun m = some r1 ∧
        exec (.xst a b imm) s = .next (xsGoes t r1)) ∧
    (∀ t r1, blocks (decBlock m r.x[d] r.x[a] p.toNat) n.toNat 0 s = (t, .ok .next) → t.xrun m = some r1 →
      exec (.xdec d a n p) s = .next (t.xsLand m r1 (r1.advance 3))) ∧
    (∀ t r1, blocks (encBlock m r.x[d] r.x[a] p.toNat) n.toNat 0 s = (t, .ok .next) → t.xrun m = some r1 →
      exec (.xenc d a n p) s = .next (t.xsLand m r1 (r1.advance 3))) ∧
    (∀ t r1, blocks (qntBlock m r.x[d] r.x[a] r.x[b] ty q) imm.toNat 0 s = (t, .ok .next) → t.xrun m = some r1 →
      exec (.xqnt d a b ty q imm) s = .next (t.xsLand m r1 (r1.advance 3))) ∧
    (∀ t r1, blocks (bpBlock m r.x[d] r.x[a] r.x[b] ty) imm.toNat 0 s = (t, .ok .next) → t.xrun m = some r1 →
      exec (.xbp d a b ty imm) s = .next (t.xsLand m r1 (r1.advance 3))) ∧
    (∀ x, r.x[a] ≠ 0 → r.levels = [] → r.chain = some x →
      exec (.xloop a len) s = .next (s.setXrun m { x with levels := [⟨r.x[a], x.pc, len.toNat, 1⟩] })) ∧
    (∀ x, r.x[a] = 0 → r.levels = [] → r.steps len.toNat = some x →
      exec (.xloop a len) s = .next (s.xsLand m r ({ x with levels := [] }.advance 3))) ∧
    (∀ (c up : W32) (r1 : XRunning) (v : XEvents) (w : State), c = r.posts.getD ev.val 0 + 1 → r1 = { r with posts := r.posts.set ev.val c } →
      v = m.events r.seq → up.toNat = max (v.upOf ev).toNat c.toNat →
      w = (s.setXrun m r1).updStrand m.id (fun x => x.setEvents { v with up := v.up.set ev.val up }) →
      exec (.xsXpost ev) s = .next ((w.endWait m.id).xsLand m r1 (r1.advance 3)) ∧
      ((∀ q b, m.wait ≠ .waitk q b) → (∀ q x b, m.wait ≠ .xwait q x b) → w.endWait m.id = w) ∧
      ((∀ x ∈ s.others, x.id ≠ m.id) → w.others = s.others) ∧
      ((∃ x ∈ m.evs, x.seq = r.seq) → ev.val < v.up.length →
        ((w.me.events r.seq).upOf ev) = up ∧ (∀ f, f ≠ ev → (w.me.events r.seq).upOf f = v.upOf f) ∧
        (w.me.events r.seq).down = v.down ∧ w = { s with me := { m with evs := w.me.evs }, others := w.others, xs := w.xs })) ∧
    ((r.x[a].extractLsb' 0 32).toNat ≤ ((m.events r.seq).downOf ev).toNat → exec (.xsXwait ev a bound) s = .next (xsGoes s r)) ∧
    (((m.events r.seq).downOf ev).toNat < (r.x[a].extractLsb' 0 32).toNat →
      exec (.xsXwait ev a bound) s = .next (s.setXrun m { r with waiting := some (ev, r.x[a], bound), stallcnt := 0 })) ∧
    exec .xend s = .next (({ s with xs := tset none s.xs m.tile none } : State).completeEntry m.id r.seq) ∧
    (∀ (bs out : List Byte), bs.length = 512 → qzEncode p.toNat bs = some out →
      out.length = p.toNat ∧ qzDecode p.toNat out = some bs)

/-- The events that end a timed or watched wait, or a bound (R168, R170, R326, R327, R371, R309). When MTIME reaches the
time of a WAITT the wait is over and the word executes again; a resident CSW.PARKT whose time has come, or CSW.PARKA
whose word or translation has changed, goes on (WVAL and WOLD become 0, the model's choice, log 76). A wait of a
save in progress ends with the save. A WAITA, BAR (waiting for its generation or for a free barrier), PHASE, WAITK
or XWAIT whose stall counter has reached 2 to its bound (36 for PHASE), in a running context, ends the launch with
STALL-BOUND, the PC of its word and the name of what it waits for; one with a lower counter, or with bound 63, does
not. -/
def Obligations.WaitsEndOrReachTheirBound : Prop :=
  ∀ (s : State) (m : Strand), s.strand m.id = some m → m.debug = false →
    (∀ t, m.wait = .waitt t → t.toNat ≤ s.mtime.toNat →
      exec (.timedWaitExpiry m.id) s = .next (s.updStrand m.id fun x => { x with wait := .none })) ∧
    (m.wait = .csw → m.wkind = 1 → m.wval.toNat ≤ s.mtime.toNat → m.saved = false → s.saving m.ctx = false →
      exec (.timedWaitExpiry m.id) s = .next (s.wakeCsw m.id)) ∧
    (m.wait = .csw → m.wkind = 2 → s.watchChanged m = true → m.saved = false → s.saving m.ctx = false →
      exec (.parkaWake m.id) s = .next (s.wakeCsw m.id)) ∧
    (s.me = m → m.id ≠ 0 → m.wait = .csw → m.wretired = false → m.step = false →
      s.wakeCsw m.id = (({ s with me := { m with wkind := 0, wval := 0, wold := 0, wtrans := none } } : State).retireWait).reconsider m.ctx) ∧
    (m.wait = .csw → m.saved = false → s.saving m.ctx = true →
      exec (.timedWaitExpiry m.id) s = .next s ∧ exec (.parkaWake m.id) s = .next s) ∧
    (m.inSlot = true → (s.ctx m.ctx).state = .running →
      let stalls (b : Nat) (t : TrapInfo) : Prop :=
        (b ≠ 63 → 2 ^ b ≤ m.stallcnt.toNat → exec (.stallBound m.id) s = .next (s.endTrap m .stallBound t)) ∧
        (tget none s.xs m.tile = none → b = 63 ∨ m.stallcnt.toNat < 2 ^ b → exec (.stallBound m.id) s = .next s)
      (∀ d a c cc form b, m.wait = .waita d a c cc form b → stalls b.toNat { pc := m.pc, wname := a }) ∧
      (∀ n sc b, (m.wait = .bar n sc b ∨ m.wait = .barSlot n sc b) →
        stalls b.toNat { pc := m.pc, wname := BitVec.ofNat 64 n.val }) ∧
      (m.wait = .phase → stalls 36 { pc := m.pc, wname := m.phase.setWidth 64 }) ∧
      (∀ q b e h en win x, m.wait = .waitk q b → m.journal.find? (fun e => e.seq = q) = some e → e.cmd = .waitk h en win →
        m.journal.find? (fun y => y.live && [en.k0, en.k1, en.k2].any fun k => k ≠ 0 && y.seq = q - BitVec.ofNat 32 k.val) = some x →
        stalls b.toNat { pc := m.wpc, wname := x.seq.setWidth 64, eng := some (BitVec.ofNat 4 x.eng, x.seq, x.upc), inWin := some m.wwin }) ∧
      ∀ q ev b e r, m.wait = .xwait q ev b → m.journal.find? (fun e => e.seq = q) = some e →
        m.journal.find? (fun y => y.seq = e.xrun) = some r →
        stalls b.toNat { pc := m.wpc, wname := BitVec.ofNat 64 ev.val, eng := some (5, e.xrun, r.upc), inWin := some m.wwin })

/-- REGION-LOAD to DEBUG-RESUME take effect when posted to an idle page (R21, R25, R26, R27, R28, R37, R49, R316, R329,
R394, R395, R430). Posted to an idle page of a READY package: REGION-LOAD of a good block adds the node, with HEAD
and TAIL of its queue under QEN 1 (a read of them that fails raises QUEUE-ERROR); of a loaded node it replaces every
field, keeping the queue's counts when the queue is the same (that it also keeps the device's enable is log 78), or
is BADRCB; REGION-UNLOAD of an unused one removes it, is BUSY of one that owns a context or has a child (PARENT 0
names no node), and BADRCB of none; CREATE of a good descriptor makes a READY context whose handle is the page's
RESULT; DESTROY of a context without launch, queue, object or write-back frees its entry under the next GEN, and
with a current launch ends that first, with KILLED unless it has a cause; KILL ends the launch and drops its side
log; SWAPOUT saves a PARKED context, whose objects may then be demoted, and is BUSY of a RUNNING one; SETWAKE sets
WAKE; FAULT-REPLY takes the entry that its tag names; DEBUG-STOP and DEBUG-RESUME act on each named strand, and a
launch that NOTBEFORE found with every strand stopped starts with the resume. A handle that is not current is STALE,
also one whose GEN is that of a FREE entry (log 22). That a misaligned block is BADRCB is log 56, that DEBUG-RESUME
reads bit 0 of STEP log 57, and how the debugger's commands meet a strand that is saved log 58. -/
def Obligations.RegionContextAndFaultCommands : Prop :=
  ∀ (pg : Fin 16) (s : State), Idle s pg →
    let a := s.pages[pg].args
    let h : W32 := (a.getD 0 0).setWidth 32
    let k := (h.extractLsb' 0 15).toNat
    let addr := (a.getD 0 0).toNat
    (∀ x r, addr % 64 = 0 → s.physGet addr 64 = some x → regionOf addr x = some r → s.region addr = none →
      s.regionOk r = true → (r.parent = 0 ∨ s.owns r.parent = false) → r.qen = false →
      exec (.regionLoad pg) s = .next (posted pg 1 a { s with regions := s.regions ++ [r] } 1)) ∧
    (∀ x r, addr % 64 = 0 → s.physGet addr 64 = some x → regionOf addr x = some r → s.region addr = none →
      s.regionOk r = true → (r.parent = 0 ∨ s.owns r.parent = false) → r.qen = true →
      (∀ t n, s.ringRead r.ring 8 = some t → s.ringRead (r.ring + 8) 8 = some n → exec (.regionLoad pg) s = .next (posted pg 1 a
        { s with regions := s.regions ++ [{ r with head := BitVec.ofNat 64 n, tail := BitVec.ofNat 64 (max n t) }] } 1)) ∧
      ((s.ringRead r.ring 8 = none ∨ s.ringRead (r.ring + 8) 8 = none) → ∃ u : State, u = { s with regions := s.regions ++ [r] } ∧
        exec (.regionLoad pg) s = .next (posted pg 1 a (u.queueError r) 1))) ∧
    (∀ x r o, addr % 64 = 0 → s.physGet addr 64 = some x → regionOf addr x = some r → s.region addr = some o →
      let dir := if o.ovr.getLsbD 4 = true ∧ r.ovr.getLsbD 4 = true ∧ o.pdsz = r.pdsz then o.dir else []
      let same := o.qen = r.qen ∧ o.qid = r.qid ∧ o.ring = r.ring ∧ o.logn = r.logn
      let becomes (y : Region) : Prop := exec (.regionLoad pg) s = .next (posted pg 1 a (s.updRegion addr fun _ => y) 1)
      (r.parent ≠ o.parent ∨ s.regionOk r = false → exec (.regionLoad pg) s = .next (posted pg 1 a s 2)) ∧
      (r.parent = o.parent → s.regionOk r = true →
        (same → becomes { r with
          dir := dir, qon := o.qon, head := o.head, tail := o.tail, discarded := o.discarded, disp := o.disp,
          waitFrom := o.waitFrom, restFrom := o.restFrom }) ∧
        (¬ same → r.qen = false → becomes { r with dir := dir }) ∧
        (¬ same → r.qen = true → ∀ t n, s.ringRead r.ring 8 = some t → s.ringRead (r.ring + 8) 8 = some n →
          becomes { r with dir := dir, head := BitVec.ofNat 64 n, tail := BitVec.ofNat 64 (max n t) }))) ∧
    (addr % 64 ≠ 0 → exec (.regionLoad pg) s = .next (posted pg 1 a s 2)) ∧
    (∀ r, s.region addr = some r →
      (s.owns addr = false → (∀ x ∈ s.regions, x.parent ≠ 0 → x.parent ≠ addr) →
        exec (.regionUnload pg) s = .next (posted pg 2 a { s with regions := s.regions.filter fun x => x.addr != addr } 1)) ∧
      (s.owns addr = true ∨ (∃ x ∈ s.regions, x.parent ≠ 0 ∧ x.parent = addr) →
        exec (.regionUnload pg) s = .next (posted pg 2 a s 3))) ∧
    (s.region addr = none → exec (.regionUnload pg) s = .next (posted pg 2 a s 2)) ∧
    (∀ x c g n, s.plat.lcs = 2 → addr % 64 = 0 → s.physGet addr 64 = some x → descOf x = some (c, g) → s.descOk c = true →
      s.freeCtx = some n → s.almFits n c = true →
      ∃ t, exec (.create pg) s = .next t ∧ (t.ctx n).state = .ready ∧ (t.ctx n).region = c.region ∧ (t.ctx n).asid = c.asid ∧
        (t.ctx n).root = c.root ∧ (t.ctx n).cur = none ∧ t.pages[pg].result = (t.handle n).setWidth 64 ∧
        t.pages[pg].pendOp = some 3 ∧ t.pages[pg].pendRes = 1) ∧
    (s.current h = false → ∀ i, ∀ op, (i, op) ∈ [(Instr.destroy pg, (4 : BitVec 16)), (.kill pg, 5), (.swapout pg, 6),
        (.setwake pg, 7), (.debugStop pg, 9), (.debugResume pg, 10)] → exec i s = .next (posted pg op a s 6)) ∧
    (s.current h = true →
      ((s.ctx k).cur = none → s.queuesOf k = [] → (s.ctx k).wback = none → s.objsOf k = [] →
        exec (.destroy pg) s = .next (posted pg 4 a (({ s with faults := s.faults.filter fun f => f.ctx != k } : State).setCtx k
          { Ctx.blank with gen := if (s.ctx k).gen = 0xFFFF then 1 else (s.ctx k).gen + 1 }).refresh 1)) ∧
      (∀ l e (f : State), (s.ctx k).cur = some l → e = (match l.ending with
          | some x => { x with discard := true } | none => (⟨.killed, 0, BitVec.allOnes 32, 0, true⟩ : Ending)) →
        f = s.finishLaunch k l e → f.queuesOf k = [] → (f.ctx k).wback = none → f.objsOf k = [] →
        (f.ctx k).cur = none ∧ (∀ m ∈ f.strands, m.ctx ≠ k) ∧
        exec (.destroy pg) s = .next (posted pg 4 a (({ f with faults := f.faults.filter fun y => y.ctx != k } : State).setCtx k
          { Ctx.blank with gen := if (f.ctx k).gen = 0xFFFF then 1 else (f.ctx k).gen + 1 }).refresh 1)) ∧
      (∀ l, (s.ctx k).cur = some l → l.ending = none → ∃ u : State, u.slog = s.slog.filter (fun e => !(e.ctx = k && e.serial = l.serial)) ∧
        (u.ctx k).cur = some { l with ending := some ⟨.killed, 0, BitVec.allOnes 32, 0, true⟩ } ∧ u.mem = s.mem ∧
        exec (.kill pg) s = .next (posted pg 5 a u 1)) ∧
      ((s.ctx k).state = .parked → exec (.swapout pg) s =
        .next (posted pg 6 a ((s.requestSave k .swap).updCtx k fun c => { c with demotable := true }) 1)) ∧
      ((s.ctx k).state = .running → exec (.swapout pg) s = .next (posted pg 6 a s 3)) ∧
      (exec (.setwake pg) s = .next (posted pg 7 a (s.updCtx k fun c => { c with wake := a.getD 1 0, wokeFor := 0 }) 1)) ∧
      (∀ f, s.faults.find? (fun f => f.ctx = k && f.ftag = (a.getD 1 0).setWidth 32) = some f → (a.getD 2 0).toNat ≤ 1 →
        exec (.faultReply pg) s = .next (posted pg 8 a (s.reply f (a.getD 2 0 = 1)) 1)) ∧
      ((s.ctx k).cur.isSome = true →
        exec (.debugStop pg) s = .next (posted pg 9 a ((s.named k (a.getD 1 0)).foldl State.stopStrand s) 1)) ∧
      (∀ m, (s.named k (a.getD 1 0)).filter (fun m => m.debug) = [m] → m.saved = false →
        exec (.debugResume pg) s = .next (posted pg 10 a ((s.updStrand m.id fun y =>
          if y.dvalid then s.positions { y with
            step := (a.getD 2 0).getLsbD 0, pc := y.drpc, xfer := ⟨y.dpval, y.dptgt, y.dpdly⟩, dvalid := false, wkind := 0,
            debug := false, attgt := y.attgt && y.pc == y.drpc } y else y).refresh.startLaunch k) 1)))

/-- SETASGEN to ATTEST take effect when posted, and a command completes (R341, R342, R344, R353, R391, R403, R404, R405,
R408, R394, R395). Posted to an idle page of a READY package: SETASGEN raises the generation of an ASID in use; OBJ-
BIND adds an object without a copy (an ALM object then starts to move to HBM4E: log 40) and OBJ-UNBIND removes one,
and the bytes of a copy return to the backing frame that still takes accesses, no other byte changing; PSWAP
replaces the leaf that reads as expected and raises the generation; CHECKPOINT of a good list requests every save,
or answers NOSPACE below CKPTNEED; RESTORE brings back the contexts, strands, regions, side log, barriers, faults,
objects generations and event and fault queues of the latest image that its list holds, tile SRAM and HBM4E from the
bytes there, then the save images of the strands to their save areas (MTIME stays; the places of the parts in an
image are those of log 15), and is BADDESC without one; FENCE-UNIT fences; LC-CHANGE is DENIED without a good
signature, BUSY with a context, and else changes the state, counts, and wipes the device as a cold reset does: every
context, strand, queue and register, and HBM4E (its page stays pending until READY: log 32); ATTEST writes the log,
the hash and the signature; any other opcode is BADCMD. That ATTEST past the window is BADDESC is log 56, how
SETASGEN cuts its operands log 57, and the bytes of log, hash and signature logs 17 and 30. A pending page answers
OVR and does nothing else; a finished command returns its status. -/
def Obligations.ObjectTranslationAndDeviceCommands : Prop :=
  ∀ (pg : Fin 16) (s : State), Idle s pg →
    let a := s.pages[pg].args
    let h : W32 := (a.getD 0 0).setWidth 32
    let k := (h.extractLsb' 0 15).toNat
    let asid : BitVec 16 := (a.getD 0 0).setWidth 16
    let gen : BitVec 48 := (a.getD 1 0).setWidth 48
    ((∃ j ∈ s.liveCtxs, (s.ctx j).asid = asid) → (tget 0 s.asgens asid.toNat).toNat < gen.toNat →
      exec (.setasgen pg) s = .next (posted pg 11 a { s with asgens := tset 0 s.asgens asid.toNat gen } 1)) ∧
    (let fl := a.getD 4 0
      let alm := fl.getLsbD 2
      s.current h = true → fl.toNat < 8 → (a.getD 2 0).toNat ∈ [4096, 65536] → objWindow ≤ (a.getD 1 0).toNat →
      (a.getD 1 0).toNat + (a.getD 2 0).toNat ≤ 2 ^ 52 → (a.getD 1 0).toNat % (a.getD 2 0).toNat = 0 →
      (∀ x ∈ s.objs, x.addr + x.size ≤ (a.getD 1 0).toNat ∨ (a.getD 1 0).toNat + (a.getD 2 0).toNat ≤ x.addr) →
      (a.getD 3 0).toNat < objWindow → (a.getD 3 0).toNat % (a.getD 2 0).toNat = 0 → s.objs.length < 2 ^ 24 →
      (alm = true → (s.ctx k).almen = true ∧ (((s.objsOf k).filter fun x => x.alm).map fun x => x.size).foldl (· + ·) 0 +
        (a.getD 2 0).toNat ≤ (s.ctx k).almsz.toNat) →
      exec (.objBind pg) s = .next (posted pg 12 a (({ s with objs := s.objs ++
        [⟨(a.getD 1 0).toNat, (a.getD 2 0).toNat, (a.getD 3 0).toNat, k, 0, fl.setWidth 2, alm, none, none, 0⟩] } : State).keepAlm) 1)) ∧
    (∀ o, s.current h = true → s.objs.find? (fun x => x.ctx = k && x.addr = (a.getD 1 0).toNat) = some o →
      ∃ u : State, exec (.objUnbind pg) s = .next (posted pg 13 a u 1) ∧ u.objs = s.objs.filter (fun x => x.addr != o.addr) ∧
        (o.tier = 0 → u = { s with objs := u.objs }) ∧
        (o.tier ≠ 0 → s.mem.wf = true → o.backing + o.size ≤ o.addr → o.size % 64 = 0 →
          (s.backingGone o = true → ∀ b, b < o.addr ∨ o.addr + o.size ≤ b → u.mem.byte b = s.mem.byte b) ∧
          (s.backingGone o = false → s.hostRejects = [] → s.plat.cxlMem = true →
            (∀ i, i < o.size → u.mem.byte (o.backing + i) = s.mem.byte (o.addr + i)) ∧
            ∀ b, (b < o.backing ∨ o.backing + o.size ≤ b) → (b < o.addr ∨ o.addr + o.size ≤ b) →
              u.mem.byte b = s.mem.byte b))) ∧
    (∀ ea, s.current h = true → canonical (a.getD 1 0).toNat = true →
      s.leafAt (a.getD 1 0).toNat 5 ((s.ctx k).root.toNat * 4096) = some ea → (a.getD 3 0).getLsbD 0 = true →
      (a.getD 3 0).getLsbD 1 = true → s.malformed (a.getD 3 0) 0 = false →
      tget 0 s.asgens (s.ctx k).asid.toNat ≠ BitVec.allOnes 48 → natOf (s.physRead ea 8) = (a.getD 2 0).toNat →
      ∃ u : State, u = s.physWrite ea (bytes64 (a.getD 3 0)) ∧ exec (.pswap pg) s = .next (posted pg 14 a
        { u with asgens := tset 0 u.asgens (s.ctx k).asid.toNat (tget 0 s.asgens (s.ctx k).asid.toNat + 1) } 1)) ∧
    (∀ l, s.targetList (a.getD 0 0).toNat = some l → s.ckpt = none →
      ∃ (n : Nat) (u : State), n = s.ckptNeed ∧ u = { s with ckpt := some ⟨pg.val, l, n, false⟩, plims := s.plims.map fun p => (p.1, { p.2 with cur := p.2.max }) } ∧
        exec (.checkpoint pg) s = .next (
          if (l.map fun e => e.2).foldl (· + ·) 0 < n then posted pg 15 a s 4
          else posted pg 15 a (u.liveCtxs.foldl (fun t k => t.requestSave k .checkpoint) u) 1)) ∧
    (s.restorable_ (a.getD 0 0).toNat = none → exec (.restore pg) s = .next (posted pg 16 a s 5)) ∧
    (∀ x n k (held : List Byte), s.restorable_ (a.getD 0 0).toNat = some x →
      k = 0x10000 * (x.strands.filter fun m => m.saved && !m.halted).length → n = k + 0x60000000 + hbmEnd →
      held = (s.readImage (s.stripes x.list (x.head.length + n))).drop x.head.length →
      ∃ u : State, exec (.restore pg) s = .next (posted pg 16 a
          ((x.strands.filter fun m => m.saved && !m.halted).zipIdx.foldl (fun (t : State) (p : Strand × Nat) =>
            t.writeVa (t.ctx p.1.ctx) (t.imageBase p.1) ((held.drop (0x10000 * p.2)).take 0x10000)) u) 1) ∧
        u.ctxs = x.ctxs ∧ u.me = Strand.blank ∧ u.others = x.strands ∧ u.regions = x.regions ∧ u.slog = x.slog ∧
        u.barriers = x.barriers ∧ u.faults = x.faults ∧ u.faultSeq = x.faultSeq ∧ u.objs = x.objs ∧ u.inbox = x.inbox ∧
        u.outbox = x.outbox ∧ u.gone = x.gone ∧ u.events = x.events ∧ u.faultQs = x.faultQs ∧ u.asgens = x.asgens ∧
        u.admCount = x.admCount ∧ u.lastServed = x.lastServed ∧ u.mtime = s.mtime ∧ u.plat = s.plat ∧
        u.sram = Memory.write [] 0 ((held.drop k).take 0x60000000) ∧
        (s.mem.wf = true → x.copies.wf = true → ∀ b,
          (b < hbmEnd → b < (held.drop (k + 0x60000000)).length →
            u.mem.byte b = (held.drop (k + 0x60000000)).getD b 0) ∧
          (hbmEnd ≤ b → b < objWindow → u.mem.byte b = s.mem.byte b) ∧ (objWindow ≤ b → u.mem.byte b = x.copies.byte b))) ∧
    (unitOk (a.getD 0 0).toNat (a.getD 1 0).toNat = true →
      exec (.fenceUnit pg) s = .next (posted pg 17 a (s.fence (a.getD 0 0).toNat (a.getD 1 0).toNat) 1)) ∧
    (s.lcAccept (a.getD 0 0).toNat (a.getD 1 0).toNat (a.getD 2 0).toNat = none →
      exec (.lcChange pg) s = .next (posted pg 18 a s 12)) ∧
    (∀ d, s.lcAccept (a.getD 0 0).toNat (a.getD 1 0).toNat (a.getD 2 0).toNat = some d →
      (s.liveCtxs ≠ [] → exec (.lcChange pg) s = .next (posted pg 18 a s 3)) ∧
      (s.liveCtxs = [] → ∃ u : State, exec (.lcChange pg) s = .next (posted pg 18 a u 1) ∧ Wiped { s with plat := { s.plat with
        lcs := BitVec.ofNat 2 (a.getD 0 0).toNat, lccnt := s.plat.lccnt + 1, ownerHash := d,
        deviceKey := if (a.getD 0 0).toNat = 3 then false else s.plat.deviceKey || s.plat.lcs == 0 } } u true)) ∧
    (∀ n, s.plat.deviceKey = true → s.physGet (a.getD 0 0).toNat 32 = some n →
      ∀ bs, bs = s.measLog.flatMap Meas.bytes ++ s.logHash ++
        Config.deviceSign (shake256 (bytesOf 32 n ++ s.logHash ++ s.measLog.flatMap Meas.bytes) 64) →
      exec (.attest pg) s = .next (
        if objWindow < (a.getD 1 0).toNat + bs.length then posted pg 19 a s 5
        else posted pg 19 a (s.putPhys (a.getD 1 0).toNat bs) 1)) ∧
    (∀ op : BitVec 16, (op = 0 ∨ 19 < op.toNat) → exec (.badcmd pg op) s = .next (posted pg op a s 11)) ∧
    (∀ t op : _, t = posted pg op a s 1 → ∀ i ∈ [Instr.regionLoad pg, .regionUnload pg, .create pg, .destroy pg, .kill pg, .swapout pg,
        .setwake pg, .faultReply pg, .debugStop pg, .debugResume pg, .setasgen pg, .objBind pg, .objUnbind pg, .pswap pg,
        .checkpoint pg, .restore pg, .fenceUnit pg, .lcChange pg, .attest pg],
      exec i t = .next (t.setPage pg { t.pages[pg] with ovr := true })) ∧
    (∀ t op code, t = posted pg op a s code → t.commandDone pg op a = true →
      exec (.supervisorCommandComplete pg) t =
        .next (t.setPage pg { t.pages[pg] with pendOp := none, pendArgs := [], code := code, pendRes := 0 })) ∧
    (∀ c, s.ckpt = some c → s.allOut = true → ∃ t, exec .checkpointComplete s = .next t ∧ t.ckpt = none ∧ t.hostHeld = [] ∧
      t.pages[c.page % 16].pendRes = if c.fenced then 13 else 1)

/-- Writes of the register window act as their registers say (R288, R377, R346, R367, R385, R386, R389, R396, R399,
R392, R393, R406). Before READY every write of the window changes nothing (R405; for a write that is no command the
model's reading, log 68). In a READY package each of the eighteen register writes changes its own field and nothing
else, and is refused or ignored exactly in the cases of its rule: RETCTL, L1CFG, EPHCTL, ALMCAP, MCTL, MEPOCH,
MSLEW, SCRCTL, MISS, row-log entry, PLIM, DLIM, QBASE, QLOG, QHEAD, PKGNUM and PCAP. A write by offset reaches the
registers at their places (OCBASE, OCLIM, CETHR, HGBASE, DBASE, MEASCTL, the argument registers, CMD and L1CFG
here), and one to an offset that is not a multiple of 8, or of another size than 8 bytes, is ignored, as such a read
gives 0. A refused EN of RETCTL leaves EN 0 even when it was 1 (log 41). That QBASE drops its low 12 bits is log 57,
that RETCTL clears its counter only when EN rises log 100, and that a SCRCTL write with a PERIOD out of range is
ignored whole log 65: each is the model's choice or reading. -/
def Obligations.RegisterWrites : Prop :=
  ∀ (s : State) (die : Fin 4) (n d : Fin 8) (tile : Fin 256) (r : Fin 277) (e : Fin 64) (port : Fin 12) (q : Fin 5) (off : BitVec 26)
      (v : W64),
    (s.plat.ready = false → ∀ i ∈ [Instr.retctlWrite die n v, .l1cfgWrite tile v, .ephctlWrite v, .almcapWrite die v, .mctlWrite v,
        .mepochWrite v, .mslewWrite v, .scrctlWrite v, .missWrite r v, .rowLogWrite die e v, .plimWrite port d v, .dlimWrite port d v,
        .qbaseWrite q v, .qlogWrite q v, .qheadWrite q v, .pkgnumWrite v, .pcapWrite v, .registerWrite off v],
      exec i s = .next s) ∧
    (s.plat.ready = true →
      (let x := s.ret die n
        let ways := (v.extractLsb' 0 5).toNat
        let bad := v.getLsbD 63 = true ∧ (x.lim.toNat < x.base.toNat ∨ 8 < (v.extractLsb' 8 4).toNat ∨ ways = 0 ∨ 12 < ways ∨
          12 < s.waysBut die n + ways);
        (bad → exec (.retctlWrite die n v) s = .next (s.setRet die n { x with ctl := (x.ctl &&& 0xF1F) ||| 0x4000000000000000 })) ∧
        (¬ bad → exec (.retctlWrite die n v) s = .next (s.setRet die n { x with
          ctl := v &&& 0x8000000000000F1F,
          cnt := if v.getLsbD 63 = true ∧ x.ctl.getLsbD 63 = false then 0 else x.cnt }))) ∧
      (let x := tget Tsram.blank s.tsram tile.val
        let held := ∃ m ∈ s.strands, m.tile = tile.val ∧ ((m.inSlot = true ∧ m.halted = false) ∨ m.winSize ≠ 0);
        (6 < (v.extractLsb' 0 3).toNat ∨ held → exec (.l1cfgWrite tile v) s =
          .next { s with tsram := tset Tsram.blank s.tsram tile.val { x with refused := true } }) ∧
        (¬ (6 < (v.extractLsb' 0 3).toNat ∨ held) → exec (.l1cfgWrite tile v) s =
          .next { s with tsram := tset Tsram.blank s.tsram tile.val { x with g := v.extractLsb' 0 3, refused := false } })) ∧
      (let bad := s.eph.oclim.toNat < s.eph.ocbase.toNat ∨ hbmEnd < (s.eph.oclim.toNat + 1) * 65536;
        (v.getLsbD 63 = true → bad → exec (.ephctlWrite v) s = .next { s with eph := { s.eph with en := false, refused := true } }) ∧
        (v.getLsbD 63 = true → ¬ bad → exec (.ephctlWrite v) s = .next { s with eph := { s.eph with en := true, refused := false } }) ∧
        (v.getLsbD 63 = false → ∃ t, exec (.ephctlWrite v) s = .next t ∧ t.eph.en = false ∧ t.eph.refused = false ∧
          (s.eph.en = true → ∃ u : State, u = s.objs.foldl State.demote s ∧ t = { u with eph := { u.eph with en := false, refused := false } }))) ∧
      (let cap := (v.extractLsb' 0 16).toNat;
        (1024 < cap ∨ cap * 2 ^ 20 < s.almUsed die.val → exec (.almcapWrite die v) s = .next s) ∧
        (cap ≤ 1024 → s.almUsed die.val ≤ cap * 2 ^ 20 → exec (.almcapWrite die v) s =
          .next { s with eph := { s.eph with almcap := s.eph.almcap.set die.val (v.extractLsb' 0 16) } })) ∧
      (let src := v.extractLsb' 0 4;
        (4 < src.toNat → exec (.mctlWrite v) s = .next s) ∧
        (src.toNat ≤ 4 → exec (.mctlWrite v) s = .next { s with mer := { s.mer with
          stepen := v.getLsbD 9, gm := v.getLsbD 8, src := src, state := if src = 0 then 0 else s.mer.state,
          good := if src = 0 then 0 else s.mer.good } })) ∧
      (exec (.mepochWrite v) s = .next (if s.mer.state = 0 then { s with mer := { s.mer with epoch := v.setWidth 48 } } else s)) ∧
      (let p := (v.extractLsb' 0 9).toNat;
        exec (.mslewWrite v) s = .next (if 1 ≤ p ∧ p ≤ 500 then { s with mer := { s.mer with ppm := v.extractLsb' 0 9 } } else s)) ∧
      (let p := (v.extractLsb' 0 5).toNat;
        exec (.scrctlWrite v) s = .next (if 1 ≤ p ∧ p ≤ 24 then
          { s with hbm := { s.hbm with scren := v.getLsbD 63, period := v.extractLsb' 0 5 } } else s)) ∧
      (exec (.missWrite r v) s = .next (if v = 0 then { s with hbm := { s.hbm with miss := tset 0 s.hbm.miss r.val 0 } } else s)) ∧
      (exec (.rowLogWrite die e v) s = .next (if v = 0 then { s with hbm := { s.hbm with
        rows := tset RowEnt.blank s.hbm.rows (64 * die.val + e.val) RowEnt.blank } } else s)) ∧
      (let k := 8 * port.val + d.val
        let p := tget Plim.blank s.plims k
        let step : BitVec 8 := v.extractLsb' 48 8
        let mx : BitVec 8 := v.extractLsb' 16 8
        let mn : BitVec 8 := v.extractLsb' 0 8;
        (mx.toNat < mn.toNat ∨ mn = 0 ∨ step = 0 → exec (.plimWrite port d v) s = .next s) ∧
        (mn.toNat ≤ mx.toNat → mn ≠ 0 → step ≠ 0 → exec (.plimWrite port d v) s = .next { s with
          plims := tset Plim.blank s.plims k ⟨step, if s.ckpt.isSome = true ∨ mx.toNat < p.cur.toNat then mx else p.cur, mx, mn⟩ })) ∧
      (let k := 8 * (1 + port.val) + d.val
        let x := tget Decoder.blank s.decs k
        let lim : BitVec 24 := v.extractLsb' 28 24
        let bad := lim.toNat < x.base.toNat ∨ x.base.toNat * 2 ^ 28 < hbmEnd ∨ objWindow < (lim.toNat + 1) * 2 ^ 28 ∨
          (∃ p ∈ s.decs, p.1 ≠ k ∧ p.2.en = true ∧ p.2.base.toNat ≤ lim.toNat ∧ x.base.toNat ≤ p.2.lim.toNat) ∨
          s.plat.cxlen.getLsbD (1 + port.val) = false;
        (x.en = true ∨ (v.getLsbD 0 = true ∧ bad) → exec (.dlimWrite port d v) s = .next s) ∧
        (x.en = false → ¬ (v.getLsbD 0 = true ∧ bad) → exec (.dlimWrite port d v) s =
          .next { s with decs := tset Decoder.blank s.decs k { x with lim := lim, en := v.getLsbD 0 } })) ∧
      (exec (.qbaseWrite q v) s = .next (s.onQueue q fun x => { x with qbase := v &&& ~~~ 0xFFF, qtail := 0, qhead := 0 })) ∧
      (exec (.qlogWrite q v) s = .next (if 6 ≤ v.toNat ∧ v.toNat ≤ 16 then
        s.onQueue q fun x => { x with qlog := v, qtail := 0, qhead := 0 } else s)) ∧
      (exec (.qheadWrite q v) s = .next (if (s.evq q).qhead.toNat ≤ v.toNat ∧ v.toNat ≤ (s.evq q).qtail.toNat then
        s.onQueue q fun x => { x with qhead := v } else s)) ∧
      (exec (.pkgnumWrite v) s = .next (if s.liveCtxs = [] then { s with plat := { s.plat with pkgnum := v.setWidth 16 } } else s)) ∧
      (let w := (v.extractLsb' 0 12).toNat;
        exec (.pcapWrite v) s = .next (if 1200 ≤ w ∧ w ≤ 2400 then
          { s with plat := { s.plat with pcap := v.extractLsb' 0 12 } } else s)) ∧
      (off.toNat % 8 ≠ 0 → exec (.registerWrite off v) s = .next s) ∧
      (exec (.registerWrite 0x50000 v) s =
        .next (if s.eph.en = true then s else { s with eph := { s.eph with ocbase := v.extractLsb' 16 36 } })) ∧
      (exec (.registerWrite 0x50008 v) s =
        .next (if s.eph.en = true then s else { s with eph := { s.eph with oclim := v.extractLsb' 16 36 } })) ∧
      (exec (.registerWrite 0x60050 v) s = .next { s with hbm := { s.hbm with cethr := v.setWidth 32 } }) ∧
      (exec (.registerWrite 0x60100 v) s = .next { s with hbm := { s.hbm with hgbase := s.hbm.hgbase.set 0 (v.extractLsb' 16 23) } }) ∧
      (exec (.registerWrite 0xB0020 v) s = .next { s with plat := { s.plat with measen := v.getLsbD 0 } }) ∧
      (exec (.registerWrite 0x12018 v) s =
        .next (s.setPage 2 { s.pages[2] with args := (s.pages[2]).args.set 3 v })) ∧
      (let x := tget Decoder.blank s.decs 10;
        exec (.registerWrite 0x90130 v) s = .next (if x.en = true then s else
          { s with decs := tset Decoder.blank s.decs 10 { x with base := v.extractLsb' 28 24 } })) ∧
      exec (.registerWrite 0x80300 v) s = exec (.l1cfgWrite 3 v) s ∧
      exec (.registerWrite 0x10038 6) s = exec (.swapout 0) s ∧
      exec (.registerWrite 0x1F038 42) s = exec (.badcmd 15 42) s ∧
      (∀ k : Fin 65, k.val ≠ 8 → s.input (.windowWrite off k.val v) = s ∧ s.hostRead off.toNat k.val = some 0) ∧
      s.hostRead off.toNat 8 = some (s.readReg off.toNat))

/-- What a reset leaves, and what a failure or a hot die does (R52, R405, R397, R403, R406, R407, R408, R396, R393).
COLD RESET and RESET leave no strand, context, region, launch, queue entry, object or side-log entry, blank register
files, an empty SRAM, every block register at its reset value, MTIME 0 and READY 0; the life-cycle state and count
are kept. The form of the part, the tiles that test fenced and what port 0 negotiated are kept (by the model's
reading, log 66). A cold reset clears every other fence and zeroes HBM4E; a warm one keeps the fences and, by the
model's choice (log 42), the bytes of memory. READY rises when the wipe ends if the boot image verified, which is
free (log 17), and not after PKG-FATAL. The reset values that the spec leaves open are those of log 10, and the
numbers of the two temperatures those of log 64. A UCIe failure and a die at 110 °C stop the package with PKG-FATAL,
a die at 95 °C raises THERMAL, and a failed unit that is enabled is fenced: its topology bit clears, FENCEGEN
counts, UNIT-FENCED is raised, a checkpoint in progress becomes invalid, and the link of a failed port is down (log
66). A fenced tile ends with UNIT-FENCED every launch that has a strand on it. The other contexts run on, with
launches and strands as they were but for waits that end: after a fence of a channel or a CXL port all of them, of a
UALink port while another is left, and of a tile each that uses nothing on it, unless a fault domain takes it down.
An event is held while the queue is unconfigured, and is lost past 64. -/
def Obligations.ResetsAndFailures : Prop :=
  ∀ (s : State) (die : Fin 4) (temp : BitVec 12) (kind idx : W64),
    (∀ i cold, (i, cold) ∈ [(Instr.coldReset, true), (.reset, false)] → ∃ t : State, exec i s = .next t ∧ Wiped s t cold) ∧
    (s.fatal = true → exec .wipeComplete s = .next s) ∧
    (s.fatal = false → exec .wipeComplete s =
      .next { s with plat := { s.plat with ready := s.plat.ready || Config.bootVerified s.plat.resets } }) ∧
    (∃ u, exec .ucieFailure s = .next { u with fatal := true } ∧ u = s.pushEvent 7 0 1 0) ∧
    (880 ≤ temp.toNat → ∃ u, exec (.thermalTrip die temp) s = .next { u with fatal := true } ∧ u = s.pushEvent 7 0 2 0) ∧
    (temp.toNat < 880 → exec (.thermalTrip die temp) s = .next s) ∧
    (760 ≤ temp.toNat → exec (.thermal die temp) s = .next (s.pushEvent 6 0 (BitVec.ofNat 64 die.val) (temp.setWidth 64))) ∧
    (temp.toNat < 760 → exec (.thermal die temp) s = .next s) ∧
    (unitOk kind.toNat idx.toNat = false ∨ (s.unitOff kind.toNat idx.toNat = true ∧ kind.toNat < 3) →
      exec (.unitFailure kind idx) s = .next s) ∧
    (unitOk kind.toNat idx.toNat = true → s.unitOff kind.toNat idx.toNat = true → 3 ≤ kind.toNat →
      ∃ t, exec (.unitFailure kind idx) s = .next t ∧ t = { s with ual := t.ual, cxl := t.cxl }) ∧
    (unitOk kind.toNat idx.toNat = true → s.unitOff kind.toNat idx.toNat = false →
      ∃ t, exec (.unitFailure kind idx) s = .next t ∧ t.unitOff kind.toNat idx.toNat = true ∧ t.mtime = s.mtime ∧
        (kind = 2 ∨ kind = 4 → t.mem = (s.pushEvent 5 0 kind idx).mem) ∧
        (kind = 2 ∨ kind = 4 ∨ (s.hostRejects = [] ∧ s.plat.cxlMem = true) → t.events = (s.pushEvent 5 0 kind idx).events) ∧
        t.ckpt = s.ckpt.map (fun c => { c with fenced := true }) ∧
        t.plat = { s.plat with fencegen := s.plat.fencegen + 1, tileen := t.plat.tileen, pcen := t.plat.pcen,
                               ualen := t.plat.ualen, cxlen := t.plat.cxlen } ∧
        (kind ≠ 1 → t.plat.tileen = s.plat.tileen) ∧ (kind ≠ 2 → t.plat.pcen = s.plat.pcen) ∧
        (kind ≠ 3 → t.plat.ualen = s.plat.ualen ∧ t.ual = s.ual) ∧ (kind ≠ 4 → t.plat.cxlen = s.plat.cxlen ∧ t.cxl = s.cxl) ∧
        (kind = 1 → ∀ n, n < 256 → t.tileOn n = (s.tileOn n && !decide (n = idx.toNat))) ∧
        (kind = 2 → ∀ q, q < 512 → t.pcOn q = (s.pcOn q && !decide (q / 2 = idx.toNat))) ∧
        (kind = 3 → (∀ n, n < 8 → t.plat.ualen.getLsbD n = (s.plat.ualen.getLsbD n && !decide (n = idx.toNat))) ∧
          ∀ n : Fin 8, t.ual[n].up = (s.ual[n].up && !decide (n.val = idx.toNat))) ∧
        (kind = 4 → (∀ n, n < 13 → t.plat.cxlen.getLsbD n = (s.plat.cxlen.getLsbD n && !decide (n = idx.toNat))) ∧
          ∀ n : Fin 13, t.cxl[n].up = (s.cxl[n].up && !decide (n.val = idx.toNat))) ∧
        (∀ k l m, kind = 1 → k ∈ s.liveCtxs → (s.ctx k).cur = some l → l.ending = none → m ∈ s.ctxStrands k →
          m.tile = idx.toNat → m.halted = false →
          ∃ e, ((t.ctx k).cur.bind fun l => l.ending) = some e ∧ (e.status = .fault ∨ e.status = .faultDomain) ∧
            e.cause = BitVec.ofNat 16 Cause.unitFenced.code) ∧
        (∀ j, (s.strands.map fun m => m.id).Nodup →
          (kind = 2 ∨ kind = 4 ∨ (kind = 3 ∧ t.plat.ualen ≠ 0) ∨ (kind = 1 ∧ s.usesTile j idx.toNat = false ∧
            ∀ k ∈ s.liveCtxs, s.usesTile k idx.toNat = true → s.effAt (s.ctx k).region 7 Region.fdom ≠ 1)) →
          (t.ctx j).cur = (s.ctx j).cur ∧ (t.ctxStrands j).map runsOn = (s.ctxStrands j).map runsOn)) ∧
    (∀ code h a b, s.events.qlog = 0 →
      let e : List W64 := [BitVec.ofNat 64 (code + h.toNat * 2 ^ 32), a, b, s.mtime]
      (s.events.held.length < 64 → s.pushEvent code h a b = { s with events := { s.events with held := s.events.held ++ [e] } }) ∧
      (64 ≤ s.events.held.length → s.pushEvent code h a b = { s with events := { s.events with lost := s.events.lost + 1 } }))

/-- Edges, frames, measurements and timeouts of Meridian (R367, R368, R369, R402). A 1PPS edge sets PPS, takes the label
of the frame before it, or under SRC 3 the seconds that PTM supplied, and clears both; a ToD frame with its marks,
VALID, a zero reserved byte and its CRC (log 31), 100 to 900 ms after an edge, labels the next edge, and any other
is ignored; with no edge for 1.5 s PPS reads 0. A measurement under a nonzero SRC writes OFS (under SRC 2 and 3, by
the model's reading, log 90, the label of the last edge against MTIME at it) and moves STATE by the table of R368,
and MTIME only by one forward step while ACQUIRING with STEPEN and OFS above 16,000; the last edge moves with it.
That the state after the measurement decides the step, and that the rate is clamped to PPM, is log 63. LOCKED
without a measurement for 2 s becomes HOLDOVER and counts. -/
def Obligations.TimeInputs : Prop :=
  ∀ (s : State) (f : BitVec 96) (given rate : W64),
    let m := s.mer
    let sec := 16000000000
    (exec .ppsEdge s = .next { s with mer := { m with
      pps := true, todv := m.label.isSome, curLabel := if m.src = 3 then m.ptm else m.label, label := none, ptm := none,
      lastEdge := some s.mtime } }) ∧
    (∀ x, ({ s with fatal := false, agenda := [] } : State).bounds = [] → step { s with fatal := false, agenda := [.input (.ptm x)] } = .next { s with
      fatal := false, agenda := [], mer := { m with ptm := some x } }) ∧
    (let good := f.extractLsb' 0 16 = 0xD555 ∧ f.getLsbD 64 = true ∧ f.extractLsb' 72 8 = 0 ∧
        f.extractLsb' 80 16 = crc16 ((List.range 8).map fun k => f.extractLsb' (16 + 8 * k) 8)
      let inTime := ∃ t, m.lastEdge = some t ∧ sec / 10 ≤ (s.mtime - t).toNat ∧ (s.mtime - t).toNat ≤ 9 * (sec / 10);
      (good ∧ inTime → exec (.todFrame f) s = .next { s with mer := { m with label := some (f.extractLsb' 16 48) } }) ∧
      (¬ (good ∧ inTime) → exec (.todFrame f) s = .next s)) ∧
    (let early := ∃ t, m.lastEdge = some t ∧ (s.mtime - t).toNat < 3 * sec / 2;
      (¬ early → exec .ppsTimeout s = .next { s with mer := { m with pps := false } }) ∧
      (early → exec .ppsTimeout s = .next s)) ∧
    (m.src = 0 → exec (.referenceMeasurement given rate) s = .next s) ∧
    (m.src ≠ 0 →
      let ofs : W64 := match m.curLabel, m.lastEdge with
        | some x, some t => if m.src = 2 ∨ m.src = 3 then BitVec.ofInt 64 (((x.toNat : Int) - m.epoch.toNat) * sec) - t else given
        | _, _ => given
      let near := -128 ≤ ofs.toInt ∧ ofs.toInt ≤ 128
      let hop (st : BitVec 2) : Prop := m.stepen = true ∧ st = 1 ∧ 16000 < ofs.toInt;
      ∃ t : State, exec (.referenceMeasurement given rate) s = .next t ∧ t.mer.ofs = ofs ∧
        (hop t.mer.state → t.mtime = s.mtime + ofs) ∧ (¬ hop t.mer.state → t.mtime = s.mtime) ∧ t.mer.lastMeas = t.mtime ∧
        t.mer.lastEdge = m.lastEdge.map (fun x => x + (t.mtime - s.mtime)) ∧
        (m.state = 0 → t.mer.state = 1 ∧ t.mer.good = 0) ∧
        (m.state = 1 → near → (7 ≤ m.good → t.mer.state = 2) ∧ (m.good < 7 → t.mer.state = 1 ∧ t.mer.good = m.good + 1)) ∧
        (m.state = 1 → ¬ near → t.mer.state = 1 ∧ t.mer.good = 0) ∧
        (m.state = 2 → t.mer.state = 2) ∧
        (m.state = 3 → near → t.mer.state = 2) ∧ (m.state = 3 → ¬ near → t.mer.state = 1) ∧
        t = { s with mtime := t.mtime, mer := t.mer } ∧ t.mer.epoch = m.epoch ∧ t.mer.src = m.src ∧ t.mer.ppm = m.ppm ∧
        -(m.ppm.toNat : Int) ≤ t.mer.rate.toInt ∧ t.mer.rate.toInt ≤ m.ppm.toNat) ∧
    (let stale := m.state = 2 ∧ 2 * sec ≤ (s.mtime - m.lastMeas).toNat;
      (stale → exec .holdover s = .next { s with mer := { m with state := 3, mhold := m.mhold + 1 } }) ∧
      (¬ stale → exec .holdover s = .next s))

/-- Links, extents, limiters and host requests (R389, R390, R391, R398, R399, R400, R401, R405, R408, R304). A reset of
a UALink port counts, returns its streams to their initial state and, by the model's reading (log 66), takes the
port down; a link that comes up on a port that is not fenced is up with what it negotiated, and sends again, encoded
anew, what its peers have not acknowledged. A port carries messages while its link is up and it is not fenced. A
message of the outbox that a port sends is kept until it is acknowledged, and one that arrives counts once READY,
with the data that its stream's decoder gives (which port carries a message is an input: log 104). A released extent
takes no access from then on, and its response is marked. The end of an interval sets CUR by the table of R389
outside a checkpoint. A write of the host changes exactly its bytes, and nothing at all when it touches a fenced
byte (log 103); nothing is served before READY, in the object window, or, by the model's choice (log 87), in HBM4E
while port 0 offers no CXL.mem, and a write into HBM4E during a checkpoint is held. A rejection waits for the
device's write. A unit that fabric compression encodes decodes to the same words, with equal streams at both ends,
which begin as 64 zeros with pointer 0; the receiver of a payload gets its bytes, without the padding of its last
unit. -/
def Obligations.LinksPoolAndHost : Prop :=
  ∀ (s : State) (u : Fin 8) (n : Fin 13) (cmp w : Bool) (width : BitVec 5) (speed : BitVec 3) (base len pa : W64) (port : Fin 12)
      (d : Fin 8) (l : DevLoad) (k : Fin 65) (data : Line),
    (exec (.ualinkLinkReset u) s = .next { s with
      ual := s.ual.set u.val { s.ual[u] with up := false, resets := s.ual[u].resets + 1, streams := [] } u.isLt }) ∧
    (s.plat.ualen.getLsbD u.val = false → exec (.linkUp true (u.castLE (by decide)) cmp width speed) s = .next s) ∧
    (∀ b : State, s.plat.ualen.getLsbD u.val = true →
      b = { s with ual := s.ual.set u.val { s.ual[u] with up := true, cmp := cmp, streams := [], sent := [] } u.isLt } →
      exec (.linkUp true (u.castLE (by decide)) cmp width speed) s = .next (s.ual[u].sent.foldl (fun t p => t.sendOver u p) b)) ∧
    (∀ (peer j : Nat) (x : CollMsg) (bs : List Byte) (t : State), t = { s with fatal := false, agenda := [] } → t.bounds = [] →
      let on : Bool := s.ual[u].up && s.plat.ualen.getLsbD u.val
      let arrives : CollMsg := { x with data := s.ual[u].received peer j bs }
      (s.outbox[j]? = some x → step { s with fatal := false, agenda := [.input (.collSend u peer j)] } =
        .next (if on then t.sendOver u (peer, x) else t)) ∧
      step { s with fatal := false, agenda := [.input (.collAck u peer x)] } = .next (if on then { t with
        ual := t.ual.set u.val { t.ual[u] with sent := t.ual[u].sent.erase (peer, x) } u.isLt } else t) ∧
      step { s with fatal := false, agenda := [.input (.collRecv u peer j x bs)] } = .next (if on then
        (if s.plat.ready then (t.recvPayload u peer j bs).takeMessage arrives else t.recvPayload u peer j bs) else t) ∧
      (on = true → ∃ y : State, y = s.sendOver u (peer, x) ∧ y = { s with ual := y.ual } ∧
        y.ual[u].sent = s.ual[u].sent ++ [(peer, x)] ∧ (∀ n, n ≠ u → y.ual[n] = s.ual[n]) ∧
        (s.ual[u].cmp = false → y.ual[u].streams = s.ual[u].streams) ∧
        (s.ual[u].cmp = true → ((s.ual[u].stream peer true).peer = peer ∧ (s.ual[u].stream peer true).out = true) →
          y.ual[u].stream peer true = (encodePayload (unitsOf x.data) (s.ual[u].stream peer true)).1))) ∧
    (exec (.linkUp false n cmp width speed) s = .next (if n = 0 ∨ s.plat.cxlen.getLsbD n.val = true then
      { s with cxl := s.cxl.set n.val ⟨true, width, speed⟩ n.isLt } else s)) ∧
    (exec (.dcExtentRelease base len) s =
      .next { s with extents := s.extents ++ [⟨base.toNat, len.toNat, false⟩] }) ∧
    (∀ t a, exec (.dcExtentRelease base len) s = .next t → base.toNat ≤ t.place a → t.place a < base.toNat + len.toNat →
      t.revokedAt a = true) ∧
    (exec (.extentReleaseResponse base) s =
      .next { s with extents := s.extents.map fun e => if e.base = base.toNat then { e with answered := true } else e }) ∧
    (s.ckpt.isSome = true → exec (.devloadInterval port d l) s = .next s) ∧
    (s.ckpt = none → ∃ p, p = tget Plim.blank s.plims (8 * port.val + d.val) ∧
      ∃ x : BitVec 8, exec (.devloadInterval port d l) s =
          .next { s with plims := tset Plim.blank s.plims (8 * port.val + d.val) { p with cur := x } } ∧
        (l = .none ∨ l = .optimal → x = p.cur) ∧
        (l = .light → x.toNat = min p.max.toNat (p.cur.toNat + p.step.toNat)) ∧
        (l = .moderate → x.toNat = max p.min.toNat (p.cur.toNat - (p.cur.toNat + 7) / 8)) ∧
        (l = .severe → x.toNat = max p.min.toNat ((p.cur.toNat + 1) / 2))) ∧
    ((s.plat.ready = false ∨ objWindow < pa.toNat + k.val ∨ w = false ∨ (pa.toNat < hbmEnd ∧ s.plat.cxlMem = false)) → exec (.hostMemoryRequest w pa k data) s = .next s) ∧
    (s.plat.ready = true → pa.toNat + k.val ≤ objWindow → s.ckpt.isSome = true → pa.toNat < hbmEnd → s.plat.cxlMem = true →
      exec (.hostMemoryRequest true pa k data) s =
        .next { s with hostHeld := s.hostHeld ++ [⟨pa.toNat, bytesOf k.val data.toNat⟩] }) ∧
    (s.plat.ready = true → pa.toNat + k.val ≤ objWindow → (s.ckpt = none ∨ hbmEnd ≤ pa.toNat) →
      (pa.toNat < hbmEnd → s.plat.cxlMem = true) → s.mem.wf = true →
      ∃ t, exec (.hostMemoryRequest true pa k data) s = .next t ∧
        (∀ a, a < pa.toNat ∨ pa.toNat + k.val ≤ a → t.mem.byte a = s.mem.byte a) ∧
        ((∃ i, i < k.val ∧ s.fencedAt (pa.toNat + i) = true) → t = s) ∧
        ((∀ i, i < k.val → s.fencedAt (pa.toNat + i) = false) →
          ∀ i, i < k.val → t.mem.byte (pa.toNat + i) = data.extractLsb' (8 * i) 8)) ∧
    (exec (.hostWriteRejected pa) s = .next { s with hostRejects := s.hostRejects ++ [pa.toNat] }) ∧
    (∀ (c : CStream) (ws : List W64), ws.length = 8 → c.d.length = 64 →
      (decodeUnit c (encodeUnit c ws).2) = ((encodeUnit c ws).1, ws)) ∧
    (∀ (p q : UalPort) (me peer : Nat) (bs : List Byte), p.cmp = true → q.cmp = true →
      (p.streams = [] → p.stream peer true = ⟨peer, true, List.replicate 64 0, 0⟩) ∧
      ((p.stream peer true).d = (q.stream me false).d → (p.stream peer true).ptr = (q.stream me false).ptr →
        (p.stream peer true).d.length = 64 → q.received me bs.length (encodePayload (unitsOf bs) (p.stream peer true)).2 = bs))

/-- Reading TAIL, offering a head, and admitting a record (R357, R358, R360, R361, R362, R365, R391, R39, R41, R52, R73,
R431). A read of TAIL never lowers T, and one that fails raises QUEUE-ERROR, as does one of a stamp or record at the
head. At the head of a queue that is on: a discarded index is taken, an entry whose stamp is another is not ready, a
ready record of a current handle is the candidate, and one of a stale handle is taken with COMPL-LOST. Taking an
entry raises H and writes HEAD. During a checkpoint nothing is admitted. The first waiting queue's record that
passes every check, with room and a placement, is admitted; its context runs the launch with the next serial, and
each strand starts at its place with the initial values of R52. A saved launch whose strands have places is
restored. A malformed record completes with BADREC. While a queue waits at EFF 7 for room on a node, no other queue
takes room there; which nodes those are, by the path of the candidate's leaf region, is log 72, and what counts as
displaced for a candidate log 71. A strand that is restored has the registers and the control state that its image
holds, and its exposure clock runs on where the save left it; of an empty pipelined level at START without DRAIN an
iteration starts, which lowers COUNT (R163). What a restore does not check of an image is logs 81, 82, 92 and 93. -/
def Obligations.QueuesAndAdmission : Prop :=
  ∀ (s : State) (qid : BitVec 15) (r : Region) (pl : List Place), s.queueOf qid.toNat = some r →
    (r.qon = false → exec (.tailRead qid) s = .next s) ∧
    (r.qon = true → s.ringRead r.ring 8 = none → exec (.tailRead qid) s = .next (s.queueError r)) ∧
    (∀ v, r.qon = true → s.ringRead r.ring 8 = some v → exec (.tailRead qid) s =
      .next (s.updRegion r.addr fun x => { x with tail := BitVec.ofNat 64 (max x.tail.toNat v) })) ∧
    (r.qon = true → r.head.toNat < r.tail.toNat →
      (r.head.toNat ∈ r.discarded → exec (.queueCandidate qid) s = .next (s.takeEntry r)) ∧
      (∀ v, r.head.toNat ∉ r.discarded → s.ringRead (r.stampAddr r.head.toNat) 8 = some v → v ≠ r.head.toNat + 1 →
        exec (.queueCandidate qid) s = .next (s.markWaiting s.mtime r)) ∧
      (r.head.toNat ∉ r.discarded → (s.ringRead (r.stampAddr r.head.toNat) 8 = none ∨
          (s.ringRead (r.stampAddr r.head.toNat) 8 = some (r.head.toNat + 1) ∧ s.ringRead (r.slotAddr r.head.toNat) 128 = none)) →
        exec (.queueCandidate qid) s = .next (s.queueError r)) ∧
      (∀ x q, r.head.toNat ∉ r.discarded → s.ringRead (r.stampAddr r.head.toNat) 8 = some (r.head.toNat + 1) →
        s.ringRead (r.slotAddr r.head.toNat) 128 = some x → q = recOf (bytesOf 128 x) →
        (s.current q.ctxh = true → exec (.queueCandidate qid) s = .next (s.markWaiting s.mtime r)) ∧
        (s.current q.ctxh = false →
          ∃ u : State, u = s.takeEntry r ∧ exec (.queueCandidate qid) s = .next (u.pushEvent 8 q.ctxh q.tag 0)))) ∧
    (s.region r.addr = some r →
      ((s.takeEntry r).region r.addr).map (fun x => x.head) = some (r.head + 1) ∧
      (r.ring + 16 ≤ objWindow → s.hostRejects = [] → s.plat.cxlMem = true → s.mem.wf = true →
        (∀ i, i < 8 → s.revokedAt (r.ring + 8 + i) = false) →
        (s.takeEntry r).physRead (r.ring + 8) 8 = bytes64 (r.head + 1))) ∧
    (s.ckpt.isSome = true → exec (.admissionDecision pl) s = .next s) ∧
    (∀ u : State, s.ckpt = none → (∀ x ∈ s.regions, s.toRestore x = none → s.headOf x ≠ .error) → u = s.markAll s.mtime →
      (u.waitingQueues = [] → exec (.admissionDecision pl) s = .next u) ∧
      (∀ k rest, u.waitingQueues = (r, .restore k) :: rest → u.lacking (u.ctx k).region (u.toPlace k).length 0 true = [] →
        (∀ p ∈ rest, u.queueEff p.1 = 7 → u.lackOf p.1 p.2 = []) →
        u.restorePlaceable (fun _ => false) k = true → u.restorePlaces pl k = true →
        exec (.admissionDecision pl) s = .next ((u.restoreLaunch k (decide (r.disp =
            some (.restore (u.handle k) (((u.ctx k).cur.map fun l => l.serial).getD 0)))) pl).served r)) ∧
      (∀ k q bs r2 j h, u.waitingQueues = [(r, .entry q bs), (r2, .restore j)] → k = hKey q.ctxh → r2.addr ≠ r.addr →
        u.queueEff r2 = 7 → u.checkRec r q = .ok h → (∃ x ∈ u.path (u.ctx k).region, x.addr ∈ u.lackOf r2 (.restore j)) →
        exec (.admissionDecision pl) s = .next (u.touchHeader (u.ctx k) q.code)) ∧
      (∀ k q bs, u.waitingQueues = [(r, .entry q bs)] → k = hKey q.ctxh → q.ok = false →
        exec (.admissionDecision pl) s = .next (u.rejectEntry r k q .badrec none)) ∧
      (∀ k q bs rest h tids, u.waitingQueues = (r, .entry q bs) :: rest → k = hKey q.ctxh → u.under k r.addr = true → q.ok = true →
        u.dupSlice q = false → u.readHeader (u.ctx k) q.code = .ok (h, tids) → u.couldFit (u.ctx k).region q h.need = true →
        u.lacking (u.ctx k).region q.nstr (q.nstr * h.need) true = [] → u.placeable (fun _ => false) q h.need = true →
        u.placesOk pl q h.need = true → (∀ p ∈ rest, u.queueEff p.1 = 7 → u.lackOf p.1 p.2 = []) →
        ∃ v : State, v = u.touchHeader (u.ctx k) q.code ∧
          exec (.admissionDecision pl) s = .next ((v.admitRec r k q h tids pl).served r))) ∧
    (∀ k q h tids t1 bs, s.writeTids (s.ctx k) tids = (t1, none) →
      t1.devRead (s.ctx k) .r (s.ctx k).tidbase.toNat 8192 = .ok bs →
      ∃ t, s.admitRec r k q h tids pl = t ∧ (t.ctx k).state = .running ∧
        (t.ctx k).cur.map (fun l => (l.serial, l.rec_, l.variant)) =
          some (if (s.ctx k).lastSerial = BitVec.allOnes 32 then 1 else (s.ctx k).lastSerial + 1, q, 0) ∧
        (∀ i : Fin 256, (t.ctx k).tids[i] = BitVec.ofNat 256 (natOf ((bs.drop (32 * i.val)).take 32))) ∧
        ∀ i p, pl[i]? = some p → ∃ m ∈ t.others, m.ctx = k ∧ m.index = i ∧ m.tile = p.tile ∧ m.slot = p.slot ∧ m.inSlot = true ∧
          m.pc = (if q.entry = 0 then h.entry else q.entry) ∧ m.tick = 0 ∧ m.pend = [] ∧ m.jhead = 0 ∧
          m.plive = BitVec.allOnes 32 ∧ m.vlive = BitVec.allOnes 64 ∧ m.stallchk = h.stallchk ∧ m.step = false ∧
          (∀ n : SReg, m.readS n = if 1 ≤ n.val ∧ n.val ≤ 6 then q.params.getD (n.val - 1) 0 else 0) ∧
          (∀ n, m.readV n = 0) ∧ (∀ n : QReg, m.readQ n = decide (n = 0)) ∧
          (∀ n : MReg, m.readM n = if n = 0 then BitVec.allOnes 64 else 0) ∧ ∀ n : CReg, m.cRegs[n].stat = .empty) ∧
    (∀ (kept : Strand) (slot : Nat),
      let c := s.ctx kept.ctx
      let base := s.imageBase kept
      let img (off n : Nat) : Nat := natOf (s.readVa c ((base + off) % 2 ^ 64) n)
      s.strand kept.id = some kept → (∃ bs, s.devRead c .r base 0x10000 = .ok bs) →
      ((img 0 8 % 2 ^ 32 ≠ 0x53565349 ∨ img 8 8 ≠ (s.handle kept.ctx).toNat ∨ img 0x10 8 % 2 ^ 32 ≠ kept.index % 256 ∨
          img 0x38 8 ≠ 0 ∨ 64 < img 0x3A0 8 % 2 ^ 7) → s.readStrand kept img = none) ∧
      (s.readStrand kept img = none → s.restoreStrand kept slot = s.endTrap kept .illegal { pc := kept.pc }) ∧
      ∀ m, s.readStrand kept img = some m → ∃ t y, s.restoreStrand kept slot = t ∧ t.strand kept.id = some y ∧
        y.slot = slot ∧ y.inSlot = true ∧ y.saved = false ∧ y.saveReq = none ∧ t.mem = s.mem ∧ t.ctxs = s.ctxs ∧
        y.pc = BitVec.ofNat 32 (img 0x380 4) ∧ y.attgt = true ∧ y.xfer.tgt = BitVec.ofNat 32 (img 0x384 4) ∧
        y.xfer.valid = (img 0x388 8).testBit 2 ∧ y.xfer.rem = BitVec.ofNat 2 (img 0x388 8) ∧
        y.stallchk = (img 0x388 8).testBit 8 ∧ y.step = (img 0x388 8).testBit 9 ∧
        y.traph = BitVec.ofNat 32 (img 0x390 4) ∧ y.phase = BitVec.ofNat 32 (img 0x394 4) ∧
        y.jhead = BitVec.ofNat 32 (img 0x398 4) ∧
        y.plive = BitVec.ofNat 32 (img 0x18 8) ∧ y.vlive = BitVec.ofNat 64 (img 0x20 8) ∧
        y.trap.cause = BitVec.ofNat 16 (img 0x400 8) ∧ y.trap.lmask = BitVec.ofNat 64 (img 0x408 8) ∧
        y.trap.addr = BitVec.ofNat 64 (img 0x410 8) ∧ y.hrpc = BitVec.ofNat 32 (img 0x440 20) ∧
        (∀ n : SReg, n ≠ 0 → y.readS n = BitVec.ofNat 64 (img (0x40 + 8 * n.val) 8)) ∧
        (∀ n : QReg, n ≠ 0 → y.plive.getLsbD n.val = true → y.readQ n = (img 0x240 8).testBit n.val) ∧
        (∀ n : MReg, n ≠ 0 → y.plive.getLsbD (16 + n.val) = true → y.readM n = BitVec.ofNat 64 (img (0x280 + 8 * n.val) 8)) ∧
        (∀ n : BReg, y.readB n = BitVec.ofNat 32 (img (0x300 + 8 * n.val) 4)) ∧
        (∀ n : VReg, y.vlive.getLsbD n.val = true → y.readV n = BitVec.ofNat 2048 (img (0x1000 + 0x100 * n.val) 256)) ∧
        (∀ n : CReg, y.cRegs[n].stat = (match img 0x18 8 / 2 ^ (32 + 2 * n.val) % 4 with
          | 0 => .empty | 1 => .filling | 2 => .full | _ => .spent)) ∧
        y.tick = kept.tick ∧ y.l1.count = BitVec.ofNat 64 (img 0x360 8) ∧
        y.l0.count = (if m.emptyStart = true ∧ (img 0x348 8).testBit 49 = false then BitVec.ofNat 64 (img 0x340 8) - 1
          else BitVec.ofNat 64 (img 0x340 8)))

/-- Saving a strand, starting and ending a launch, and the issue quantum (R40, R44 to R47, R49, R65, R66 to R69, R71,
R72, R301, R320, R321, R373 to R375). A request of a save reaches every strand of the context in a slot, and SAVET
is the MTIME of it (log 107); one under way keeps its time. A strand that can be saved, and whose image can be
written, leaves its slot as saved with the settled registers; when the image cannot be written the launch ends with
PROT (that nothing of the image is then written is log 49). A launch whose strands are all placed, no save of them
being under way, and not all stopped for the debugger, starts once MTIME has reached NOTBEFORE, and a slice later
than SLIP raises SLICE-SLIP; DISP stays only with a nonzero slip (log 71), and the agenda cycle of the start is
noted as the start of the first phase (phaseT0, log 45). The tile's selector keeps its slot while that strand is
eligible and its quantum of 4,096 cycles lasts; after that the next eligible slot issues. A launch with no cause
completes with OK once every strand has halted, every journal is complete and its side log is empty; one with a
cause completes with it; then the context is READY without a launch, and nothing of it stays. Until then nothing
happens. The completion record holds FPC, ENDT and TAG, and then STATUS, CAUSE and FSTRAND in one doubleword, after
the slice record of a gang of several packages; when a part meets a cause nothing more of it is written and COMPL-
LOST is raised with the handle, TAG and cause. An image holds each field of the strand at the offset of R65 to R72,
nothing for dead registers and empty chain registers, and MAGIC last (M0 is always written, log 81; the records that
hold no result have VALID 0, log 27, and a primary one always has a mask, log 93; SLOG and the fields of idle levels
are those of logs 92 and 82), and a strand that is restored from it has the registers, levels, transfer, blocks and
control fields that were saved. -/
def Obligations.SavesStartsAndEnds : Prop :=
  ∀ (s : State) (sid k : Nat) (tile : Fin 256),
    (∀ m why, s.strand sid = some m → m.id ≠ 0 → m.inSlot = true → m.halted = false → (m.saveReq = none ∨ why = .checkpoint) →
      ((s.requestSave m.ctx why).strand sid).map (fun y => (y.saveReq, y.saveT)) =
        some (some why, if m.saveReq = none then s.mtime else m.saveT)) ∧
    (∀ m why s1 broke, s.strand sid = some m → m.saveReq = some why → m.saveNow = true → s.ended m.ctx = false → m.wait ≠ .csw →
      s.stopXs m = (s1, broke) → ∃ x, m.quiesce broke = .to x ∧ x.sRegs = m.settle.sRegs ∧ x.vRegs = m.settle.vRegs ∧
        x.pc = m.pc ∧
        (s1.writeImage (s1.ctx x.ctx) (s1.imageBase x) (s1.imageChunks x why) = none → exec (.strandSaveComplete sid) s =
          .next (s1.endTrap x .prot { pc := x.pc })) ∧
        (∀ s2, s1.writeImage (s1.ctx x.ctx) (s1.imageBase x) (s1.imageChunks x why) = some s2 →
          ∃ t y, exec (.strandSaveComplete sid) s = .next t ∧ t.mem = s2.mem ∧ t.strand sid = some y ∧ y.saved = true ∧
            y.inSlot = false ∧ y.saveReq = none ∧ y.saveT = m.saveT ∧ y.sRegs = x.sRegs ∧ y.vRegs = x.vRegs ∧ y.pc = x.pc)) ∧
    (∀ l, (s.ctx k).cur = some l → l.started = false →
      (s.mtime.toNat < l.rec_.notbefore.toNat → exec (.notbeforeReached k) s = .next s) ∧
      ((∃ m ∈ s.ctxStrands k, m.inSlot = false ∨ m.saveReq ≠ none) ∨ (∀ m ∈ s.ctxStrands k, m.debug = true) →
        exec (.notbeforeReached k) s = .next s) ∧
      (l.rec_.notbefore.toNat ≤ s.mtime.toNat → (∀ m ∈ s.ctxStrands k, m.inSlot = true ∧ m.saveReq = none) →
        (∃ m ∈ s.ctxStrands k, m.debug = false) →
        let slip : W64 := if 1 < l.rec_.npkg then s.mtime - l.rec_.notbefore else 0
        let late := s.effAt (s.ctx k).region 8 Region.slip * 16000 < slip.toNat
        ∃ u : State, u = s.updLaunch k (fun x => { x with
            started := true, startT := s.mtime, slipT := slip, slipped := decide late,
            disp := x.disp && slip != 0, phaseT0 := s.cycles }) ∧
          exec (.notbeforeReached k) s = .next (if late then u.pushEvent 2 (s.handle k) l.rec_.tag slip else u))) ∧
    (let c := tget ⟨0, 0⟩ s.sels tile.val;
      (∀ x, c.cycles < 4096 → s.slotStrand tile.val (c.slot % 4) = some x → s.selected tile.val = some x) ∧
      (∀ i x, (4096 ≤ c.cycles ∨ s.slotStrand tile.val (c.slot % 4) = none) → i < 4 →
        s.slotStrand tile.val ((c.slot + 1 + i) % 4) = some x → (∀ j, j < i → s.slotStrand tile.val ((c.slot + 1 + j) % 4) = none) →
        s.selected tile.val = some x) ∧
      (c.cycles < 4096 → exec (.quantumExpiry tile) s = .next s) ∧
      (∀ i x, 4096 ≤ c.cycles → i < 3 → s.slotStrand tile.val ((c.slot + 1 + i) % 4) = some x →
        (∀ j, j < i → s.slotStrand tile.val ((c.slot + 1 + j) % 4) = none) →
        exec (.quantumExpiry tile) s = .next (s.select tile.val x.slot))) ∧
    ((s.ctx k).cur = none → exec (.launchComplete k) s = .next s) ∧
    (∀ l, (s.ctx k).cur = some l →
      (l.ending = none → (l.started = false ∨ ∃ m ∈ s.ctxStrands k, m.halted = false ∨ ∃ e ∈ m.journal, e.live = true) →
        exec (.launchComplete k) s = .next s) ∧
      (∀ e, l.ending = some e → e.discard = true → exec (.launchComplete k) s = .next (s.finishLaunch k l e)) ∧
      (∀ e, e.discard = false → (l.ending = some e ∨ (l.ending = none ∧ l.started = true ∧
          (∀ m ∈ s.ctxStrands k, m.halted = true ∧ ∀ x ∈ m.journal, x.live = false) ∧ e = ⟨.ok, 0, BitVec.allOnes 32, 0, false⟩)) →
        ((∃ x ∈ s.slog, x.ctx = k ∧ x.serial = l.serial) → exec (.launchComplete k) s = .next s) ∧
        ((∀ x ∈ s.slog, ¬ (x.ctx = k ∧ x.serial = l.serial)) → ∃ t, exec (.launchComplete k) s = .next t ∧
          t = s.finishLaunch k l e ∧ (t.ctx k).state = .ready ∧ (t.ctx k).cur = none ∧ (∀ m ∈ t.strands, m.ctx ≠ k) ∧
          ∀ b ∈ t.barriers, ¬ (b.ctx = k ∧ b.serial = l.serial)))) ∧
    CompletionRecord ∧ SaveImage

/-- Promotions, moves, silence and the scrubber (R344, R345, R346, R347, R348, R350, R351, R352, R385, R386, R390). When
MTIME reaches a context's wake time less its lead, Ephemeris starts one move of each object with a hint above its
tier, once for that time; a move that is under way to a higher tier keeps it. A started move commits in address
order: the copy takes the object's bytes, the tier changes, and PROMOTED and, after the wake time, LATE count; it is
given up when Ephemeris is off, when a PIN leaf maps it, unless Almanac keeps it in HBM4E, where it then goes to
tier 1, or out of tier 0 when its backing is gone. The moment of a move, and when it is dropped, are log 55, and the
frame of a copy log 79. A context without a launch whose silence has lasted begins its write-back once, and the end
of it notes the longest and releases the pins; one without ALM is silent at once. The scrubber reads every atom once
in a pass, but for atoms of a fenced channel, and a pass is over after 2^34 of them; a correctable error counts,
raises CE-THRESHOLD at each multiple of CETHR, and takes the entry of its row, or the lowest free one, or the one
with the lowest COUNT, oldest LAST and lowest index; an uncorrectable one poisons the atom, with the copies of
objects in it, and raises UE. Scrubbing is off with EN 0 and outside HBM4E. That ganged atoms are read together,
that those of a fenced channel are passed unread and what ends a pass is log 65. -/
def Obligations.ObjectsAndScrubbing : Prop :=
  ∀ (s : State) (k : Nat) (o pa : W64) (res : EccResult) (bank : BitVec 5) (row : BitVec 18),
    (let w := s.wakeTime k;
      (s.queuesOf k = [] → w = (s.ctx k).wake.toNat) ∧
      ((s.eph.en = false ∨ (s.ctx k).state = .free ∨ w = 0 ∨ (s.ctx k).wokeFor.toNat = w ∨
          s.mtime.toNat + s.effAt (s.ctx k).region 9 Region.lead * 16000 < w) → exec (.ephemerisPromotion k) s = .next s) ∧
      (s.eph.en = true → (s.ctx k).state ≠ .free → w ≠ 0 → (s.ctx k).wokeFor.toNat ≠ w →
        w ≤ s.mtime.toNat + s.effAt (s.ctx k).region 9 Region.lead * 16000 →
        ∃ u : State, u = ({ s with objs := s.objs.map fun x =>
            if x.ctx = k ∧ (x.whint = 1 ∨ x.whint = 2) ∧ x.tier < x.whint.toNat ∧ s.pinMapped x = false
            then { x with moveTo := some (max (x.moveTo.getD 0) x.whint.toNat), moveWake := some (BitVec.ofNat 64 w) } else x } : State).updCtx k
              (fun c => { c with wokeFor := BitVec.ofNat 64 w }) ∧
          exec (.ephemerisPromotion k) s = .next (u.settle u.objs.length))) ∧
    (∀ x tier, s.objs.find? (fun x => x.addr = o.toNat) = some x →
      (x.moveTo = none → exec (.moveCommit o) s = .next s) ∧
      (x.moveTo = some tier → (∃ y ∈ s.objs, y.ctx = x.ctx ∧ y.addr < x.addr ∧ y.moveTo ≠ none) →
        exec (.moveCommit o) s = .next s) ∧
      (x.moveTo = some tier → (∀ y ∈ s.objs, y.ctx = x.ctx → y.addr < x.addr → y.moveTo = none) →
        let alm := x.alm = true ∧ (s.ctx x.ctx).silent = false
        ((s.eph.en = false ∨ (s.pinMapped x = true ∧ (¬ alm ∨ x.tier ≠ 0)) ∨ (x.tier = 0 ∧ s.backingGone x = true)) →
          exec (.moveCommit o) s = .next (s.updObj x.addr fun y => { y with moveTo := none, moveWake := none })) ∧
        (s.eph.en = true → s.pinMapped x = false → x.tier ≠ 0 →
          exec (.moveCommit o) s = .next (s.promote x tier)) ∧
        (∀ dst : Nat, s.eph.en = true → s.backingGone x = false → x.tier = 0 → s.fits x = true →
          (s.pinMapped x = false ∧ dst = tier) ∨ (s.pinMapped x = true ∧ alm ∧ dst = 1) →
          ∃ t : State, t = s.promote x dst ∧ exec (.moveCommit o) s = .next (t.settle t.objs.length) ∧
            t.objs = s.objs.map (fun y => if y.addr = x.addr then { y with tier := dst, moveTo := none, moveWake := none, frame := s.newFrame x } else y) ∧
            t.eph.promoted = s.eph.promoted + 1 ∧
            t.eph.late = s.eph.late + (match x.moveWake with | some w => if w.toNat < s.mtime.toNat then 1 else 0 | none => 0) ∧
            (s.mem.wf = true → ∀ i, i < x.size → t.mem.byte (x.addr + i) = s.mem.byte (x.backing + i)) ∧
            ∀ a, (a < x.addr ∨ x.addr + x.size ≤ a) → t.mem.byte a = s.mem.byte a))) ∧
    (let c := s.ctx k
      let due := c.state ≠ .free ∧ c.cur = none ∧ c.silent = false ∧ c.wback = none ∧
        c.silFrom.toNat + s.effAt c.region 10 Region.silence * 16000 ≤ s.mtime.toNat;
      (¬ due → exec (.silence k) s = .next s) ∧
      (due → ∃ u : State, u = s.updCtx k (fun x => { x with silent := !x.almen, wback := if x.almen then some s.mtime else none }) ∧
        exec (.silence k) s = .next (if c.almen then { u with eph := { u.eph with silent := u.eph.silent + 1 } } else u)) ∧
      (c.wback = none → exec (.silenceWritebackComplete k) s = .next s) ∧
      (∀ b, c.wback = some b → c.state ≠ .free → ∃ t, exec (.silenceWritebackComplete k) s = .next t ∧ (t.ctx k).wback = none ∧
        (t.ctx k).silent = (c.cur.isNone && decide (c.silFrom.toNat ≤ b.toNat)) ∧ t.eph.silmax.toNat = max s.eph.silmax.toNat (s.mtime - b).toNat)) ∧
    (let a := pa.toNat
      let atoms := if s.ganged a then [a / 64 * 2, a / 64 * 2 + 1] else [a / 32]
      let new := atoms.filter fun n => !tget false s.hbm.scrubbed n
      let pos := s.hbm.scrpos.toNat + new.length
      let q := 2 * hbmChannel a + a / 32 % 2
      let u : State := { s with hbm := { s.hbm with
        scrubbed := if 2 ^ 34 ≤ pos then [] else new.foldl (fun t n => tset false t n true) s.hbm.scrubbed,
        scrpos := BitVec.ofNat 64 (if 2 ^ 34 ≤ pos then 0 else pos),
        scrpass := if 2 ^ 34 ≤ pos then s.hbm.scrpass + 1 else s.hbm.scrpass } };
      (s.hbm.scren = false ∨ hbmEnd ≤ a ∨ new = [] → exec (.scrubAtom pa res bank row) s = .next s) ∧
      (s.hbm.scren = true → a < hbmEnd → new ≠ [] →
        (s.fencedAt a = true ∨ res = .clean → exec (.scrubAtom pa res bank row) s = .next u) ∧
        (s.fencedAt a = false → res = .correctable → exec (.scrubAtom pa res bank row) s =
          .next ((u.countCe q).logRow (if s.ganged a then a / 64 * 64 else a / 32 * 32) bank row)) ∧
        (tget 0 (u.countCe q).hbm.cecnt q).toNat = min 0xFFFFFFFF ((tget 0 u.hbm.cecnt q).toNat + 1) ∧
        (s.fencedAt a = false → res = .uncorrectable → exec (.scrubAtom pa res bank row) s =
          .next (({ u with poison := (atoms ++ atoms.flatMap u.copiesIn).foldl (fun p n => tset false p n true) u.poison } :
            State).pushEvent 3 0 (BitVec.ofNat 64 (if s.ganged a then a / 64 * 64 else a / 32 * 32)) 0)))) ∧
    RowLog

/-- What a word reads, and which writes stay pending (R104, R101, R102, R105, R52, R72). A word finds in each register,
lane by lane, the youngest write in program order that is due at its tick or interlocked, and the register's old
value where there is none. Of the writes not yet due exactly those stay pending, lane by lane, that no younger write
to the lane has come due after. S0, Q0 and M0 read 0, 1 and all ones, a write to them is discarded, and settling
changes nothing but register files and pending writes. -/
def Obligations.ReadersSeeTheYoungestDueWrite : Prop :=
  ∀ (m : Strand),
    let due (w : PWrite) : Bool := w.il || decide (w.due ≤ m.tick)
    let last (d : Dest) (i : Nat) : Option PWrite :=
      (m.pend.filter fun w => decide (w.dest = d) && w.mask.getLsbD i && due w).getLast?
    (∀ n : SReg, n ≠ 0 → m.settle.readS n = match last (.s n) 0 with | some w => w.val.setWidth 64 | none => m.readS n) ∧
    (∀ n : QReg, n ≠ 0 → m.settle.readQ n = match last (.q n) 0 with | some w => w.val.getLsbD 0 | none => m.readQ n) ∧
    (∀ n : BReg, m.settle.readB n = match last (.b n) 0 with | some w => w.val.setWidth 32 | none => m.readB n) ∧
    (∀ (n : VReg) (i : Nat), i < 64 → laneAt (m.settle.readV n) i =
      match last (.v n) i with | some w => laneAt w.val i | none => laneAt (m.readV n) i) ∧
    (∀ (n : MReg) (i : Nat), n ≠ 0 → i < 64 → (m.settle.readM n).getLsbD i =
      match last (.m n) i with | some w => w.val.getLsbD i | none => (m.readM n).getLsbD i) ∧
    (m.settle.readS 0 = 0 ∧ m.settle.readQ 0 = true ∧ m.settle.readM 0 = BitVec.allOnes 64) ∧
    (∀ l d mask v, d ∈ [Dest.s 0, .q 0, .m 0] → m.writeAt l d mask v = m ∧ m.writeIl d mask v = m) ∧
    (∀ (d : Dest) (i : Nat), (∃ w ∈ m.settle.pend, w.dest = d ∧ w.mask.getLsbD i = true) ↔
      ∃ l1 w l2, m.pend = l1 ++ w :: l2 ∧ w.dest = d ∧ w.mask.getLsbD i = true ∧ due w = false ∧
        ∀ x ∈ l2, x.dest = d → x.mask.getLsbD i = true → due x = false) ∧
    m.settle = { m with sRegs := m.settle.sRegs, qRegs := m.settle.qRegs, vRegs := m.settle.vRegs, mRegs := m.settle.mRegs,
                        bRegs := m.settle.bRegs, pend := m.settle.pend }

/-- A suppressed word has no effect but its retirement (R130, R105, R149, R223, R307). A word whose scalar guard is 0,
or whose lane guard is 0 in every lane, other than a predicate-pair word under .U, retires and does nothing else,
whatever its operands (an END-OF-CHAIN of its retirement may name its chain source: R116). A suppressed engine
command, with room in the journal, appends a null entry, which counts as complete, and retires. A guard register
with a write not yet due raises STALL-CHECK under STALLCHK even so (ADD and HALT here), and so does an operand
register of a word that runs (ADD). -/
def Obligations.SuppressedWordsOnlyRetire : Prop :=
  ∀ (i : Instr) (h : Hdr) (s : State), i.hdr = some h →
    let m := s.me.settle
    (m.early (hdrReads h) = false → command i = none → unconditional i = false →
      (if i.laneGuarded then m.laneGuard h = 0 else m.guard h = false) → ∃ chn, (i.usesChain = false → chn = none) ∧ exec i s = .next (retired h s id chn)) ∧
    (∀ e rs, m.early (hdrReads h) = false → command i = some (h, e, rs) → m.guard h = false → (m.jhead - m.jdone).toNat < 256 →
      exec i s = .next (retired h s fun m => m.append ⟨m.jhead, i, 0, 0, false, .null, [], [], false, 0, 0, 0, none, []⟩)) ∧
    (∀ d a b, (i = .add h d a b ∨ i = .halt h) → m.early (hdrReads h) = true → exec i s = .next (raises s .stallCheck)) ∧
    (∀ d a b, i = .add h d a b → m.guard h = true → m.early [.s a, .s b] = true → exec i s = .next (raises s .stallCheck))

/-- A step runs the word that the bytes at the PC decode to (R35, R53, R118, R119, R121, R141, R143, R307, R319, R320,
R345, R397). Of a part that has not stopped: the bounds that stall counters have reached stand before the other
actions of the cycle; the first of these actions acts, or one of the same cycle that comes before it at a context by
the order of R35 (DESTROY, the end of the launch, a save, the end of a wait, a command by its kind whatever its
effect; of two causes the lower strand's, R308), each agent keeping the order of its own actions; no later action of
the cycle comes before the one that acts. The first actions of other agents that raise fault records beside it,
strands of one tile among them, take place with it: the entries are allocated in increasing page order, the lower
strand index first, and then each agent stops on its own (R312). That the agenda holds the order in which agents
move and that one unit passes with nothing to do is log 2, the link latch log 3, the fetch from memory as it stands
log 84, and that the actions up to the next time entry are one cycle log 85. An event runs its instruction; time
passes, and an input acts; with nothing to do time passes. When the agenda, or an empty agenda for the strand in
focus, lets an eligible strand issue that its tile's selector chose, and the 64 bytes of its line are readable with
a good link word, step runs exec of the word that its slot decodes to at the state in which the line has been
touched, the link register holds the link word and ATTGT is 0; a word that does not decode ends the launch with
ILLEGAL, and one that needs privilege without it with PRIV. A line on an absent page parks the strand with KIND 3, a
fetch that meets another cause raises it, and a link word or slot that is not good raises LINE-OWNER. The transform
sequencer runs the word of its instruction memory. A part that has stopped accepts only a reset, by the model's
choice without the passing of time (log 89). -/
def Obligations.StepRunsTheDecodedWord : Prop :=
  ∀ (s : State),
    (s.fatal = true →
      (s.agenda = [] → step s = .next s) ∧
      (∀ a as, s.agenda = a :: as → (∀ i ∈ [Instr.coldReset, .reset], a ≠ .event i) →
        step s = .next { s with agenda := as }) ∧
      ∀ i as, i ∈ [Instr.coldReset, .reset] → s.agenda = .event i :: as → step s = exec i { s with agenda := as }) ∧
    (s.fatal = false →
      (∀ x, x ∈ s.bounds ↔ ∃ m ∈ s.strands, s.boundDue m = true ∧ x = .event (.stallBound m.id)) ∧
      (∀ sid l, s.agenda = [] → s.bounds = .event (.stallBound sid) :: l → step s = exec (.stallBound sid) s) ∧
      (s.agenda = [] → s.bounds = [] → s.eligible s.me = false → step s = .next (s.pass 1 1)) ∧
      (∀ a as b more rest, s.agenda = a :: as → ({ s with agenda := [] } : State).turn a as = (b, more, rest) →
        let u : State := { s with agenda := [] }
        let v : State := { s with agenda := rest }
        let now := (a :: as).takeWhile fun x => !x.isTime
        let n := u.bounds.length
        let cyc := u.bounds ++ now
        (cyc = [] → b = a ∧ more = [] ∧ rest = as) ∧
        (cyc ≠ [] → ∃ i, cyc[i]? = some b ∧ FirstOfAgent cyc i ∧ (0 < i → ∃ c ∈ cyc.take i, Earlier u b c) ∧
          (∀ j c, i < j → cyc[j]? = some c → FirstOfAgent cyc j → ¬ Earlier u c b) ∧
          (i < n → more = [] ∧ rest = a :: as) ∧
          (n ≤ i → rest = more.foldl List.erase ((a :: as).eraseIdx (i - n)) ∧ (u.raised (u.after b) = [] → more = []) ∧
            (∀ x ∈ more, x ∈ now.eraseIdx (i - n) ∧ u.raises x ≠ []) ∧
            (u.raised (u.after b) ≠ [] → ∀ j x, 0 < j → (b :: now.eraseIdx (i - n))[j]? = some x →
              FirstOfAgent (b :: now.eraseIdx (i - n)) j → u.raises x ≠ [] → x ∈ more))) ∧
        (more ≠ [] → ∃ w x : State,
          w = (raisedTogether v (b :: more)).foldl (fun t f =>
            match t.faultPage f.ctx f.addr f.kind f.strand f.pc f.waited with | .ok y => y | _ => t) v ∧
          x = (b :: more).foldl (fun t y => ((v.asRunning t).turnTo y).after y) w ∧ step s = .next (x.liveCtxs.foldl State.reconsider x))) ∧
      (∀ a as b rest, s.agenda = a :: as → ({ s with agenda := [] } : State).turn a as = (b, [], rest) →
        (∀ i, b = .event i → isEvent i = true → step s = exec i { s with agenda := rest }) ∧
        (∀ d c, b = .time d c → step s = .next (({ s with agenda := rest } : State).pass d c)) ∧
        (∀ x, b = .input x → step s = .next (({ s with agenda := rest } : State).input x)) ∧
        (∀ (tile : Nat) (r : XRunning) (l : Line) (n : Nat) (s0 : State) (i : Instr),
          b = .xs tile → tget none s.xs tile = some r → s0 = ({ s with agenda := rest } : State).focus r.sid →
          s0.me.id = r.sid → r.waiting = none → s0.ended s0.me.ctx = false → n = r.pc.toNat % 8 →
          r.imem.find? (fun p => p.1 = r.pc.toNat / 8) = some (r.pc.toNat / 8, l) → n < linkNslot (lineLink l) →
          decode (s0.version s0.me) 1 ((l >>> (32 + 96 * n)).setWidth 96) = .ok i → (i.needsPriv = true → s0.me.sup = true) →
          step s = exec i s0)) ∧
      (∀ (s0 : State) (sid : Nat) (x : Strand),
        ((s.agenda = [] ∧ s.bounds = [] ∧ s.eligible s.me = true ∧ sid = s.me.id ∧ s0 = s) ∨
          ∃ a as rest, s.agenda = a :: as ∧ ({ s with agenda := [] } : State).turn a as = (.issue sid, [], rest) ∧
            s0 = ({ s with agenda := rest } : State).focus sid) →
        let m := s0.me
        let slot := m.pc.toNat % 8
        let line := m.pc.toNat / 8
        let s1 := s0.select m.tile m.slot
        let got := s1.devRead (s1.ctx m.ctx) .x ((s1.codeBase m + 64 * line) % 2 ^ 64) 64
        m.id = sid → s0.eligible m = true → s0.selected m.tile = some x → x.id = sid → m.stopReq = false →
        (m.xfer.valid = true → m.xfer.rem ≠ 0) →
        (2 ^ 23 ≤ m.pc.toNat ∨ 5 ≤ slot → step s = .next (s1.endTrap m .lineOwner { pc := m.pc, attgt := m.attgt })) ∧
        (m.pc.toNat < 2 ^ 23 → slot < 5 →
          (∀ a, got = .error (.pageAbsent, a) →
            step s = .next (s1.park m 3 [a] { pc := m.pc, addr := BitVec.ofNat 64 a, attgt := m.attgt })) ∧
          (∀ c a, got = .error (c, a) → c ≠ .pageAbsent →
            step s = .next (s1.endTrap m c { pc := m.pc, addr := BitVec.ofNat 64 a, attgt := m.attgt })) ∧
          ∀ bs, got = .ok bs →
            let k := BitVec.ofNat 32 (natOf bs)
            let w := BitVec.ofNat 96 (natOf bs / 2 ^ (32 + 96 * slot))
            let s2 := s1.touchLine m line
            (¬ (seqLinkOk k = true ∧ slot < linkNslot k) →
              step s = .next (s1.endTrap m .lineOwner { pc := m.pc, attgt := m.attgt })) ∧
            (seqLinkOk k = true → slot < linkNslot k →
              (∀ i, decode (s1.version m) 0 w = .ok i → (i.needsPriv = true → m.sup = true) →
                step s = exec i (s2.setMe { m with link := k, attgt := false })) ∧
              (∀ i, decode (s1.version m) 0 w = .ok i → i.needsPriv = true → m.sup = false →
                step s = .next (s2.endTrap m .priv { pc := m.pc, chn := wordChain w })) ∧
              (∀ e, decode (s1.version m) 0 w = .error e →
                step s = .next (s2.endTrap m .illegal { pc := m.pc, chn := wordChain w }))))))

/-- Reset values, read through the register window (R26, R287, R346, R367, R377, R385, R386, R389, R393, R396, R405,
R406). After reset no strand, context, region or event exists, every GEN is 1, MTIME is 0, READY is 0, and every
memory is in canonical form and reads 0 below the object window's end (pool and host memory: the model's choice, log
5). The registers of the window read their reset values: PKGNUM, LINKEN, PCEN, FENCEGEN, STATUS of a page, QLOG,
QHEAD, QTAIL and LOST, MCTL, MSTAT, MEPOCH, MOFS, MNOW, MSLEW and MHOLD, EPHCTL, OCBASE, PROMOTED and ALMCAP,
SCRCTL, SCRPASS, CETHR and a CECNT, a PLIM, a RETCTL, an L1CFG, a DLIM, PCAP, MEASCTL. The form, the enabled tiles
and the life-cycle state are values of a part that the model chose (log 7, 9) and are not stated. That a DLIM and
the STATUS code of a page read 0 is the model's choice, for which the spec gives no reset value (log 10). -/
def Obligations.ResetState : Prop :=
  let s := State.reset
  Canonical s ∧ (∀ a, s.mem.byte a = 0 ∧ s.sram.byte a = 0) ∧ s.strands = [] ∧ s.liveCtxs = [] ∧ (∀ k, (s.ctx k).gen = 1) ∧
  s.regions = [] ∧ s.agenda = [] ∧ s.mtime = 0 ∧ s.plat.ready = false ∧ s.fatal = false ∧ s.hbmgang = 0 ∧
  s.readReg 0x08 = 0 ∧ s.readReg 0x70 = 0x1FFFFF ∧ s.readReg 0x78 = 0 ∧
  (∀ k, k < 8 → s.readReg (0x30 + 8 * k) = BitVec.allOnes 64) ∧
  (∀ k, k < 16 → s.readReg (0x10030 + 0x1000 * k) = 0) ∧
  (∀ o, o ∈ [0x00, 0x08, 0x10, 0x18, 0x20] → s.readReg (0x20000 + o) = 0) ∧
  s.readReg 0x40000 = 0x200 ∧ s.readReg 0x40008 = 0 ∧ s.readReg 0x40010 = 0 ∧ s.readReg 0x40018 = 0 ∧ s.readReg 0x40020 = 0 ∧
  s.readReg 0x40028 = 100 ∧ s.readReg 0x40030 = 0 ∧
  s.readReg 0x50000 = 0 ∧ s.readReg 0x50010 = 0 ∧ s.readReg 0x50020 = 0 ∧ (∀ d, d < 4 → s.readReg (0x50038 + 8 * d) = 256) ∧
  s.readReg 0x60040 = 0x8000000000000018 ∧ s.readReg 0x60048 = 0 ∧ s.readReg 0x60050 = 0 ∧ s.readReg 0x61000 = 0 ∧
  (∀ k, k < 96 → s.readReg (0x68800 + 8 * k) = 0x0004008000800008) ∧
  s.readReg 0x70010 = 0 ∧ s.readReg 0x80000 = 2 ∧ s.readReg 0x90118 = 0 ∧ s.readReg 0xB0008 = 2400 ∧ s.readReg 0xB0020 = 1

/-- The worked words of the spec decode to their statements (R17, R131, R133, R134, R135, R137, R139, R140, R142, R150,
R205, R278). The words that the spec encodes slice by slice decode to the statements it encodes: VADD.F32.RTZ with a
guard, CMP.LT.U, XFER.L, LOOP, VCMP.LT.F32.U.K, LD.I32, MMA with a token, CRED, TRAP, RFT, GTHR and VBCAST. The all-
zero word is ADD S0, S0, S0 with a false guard. The VADD with the undefined cell 0x105, the VCMP with a V source
under .K or with type I32 and a chain source, and the LD with a scope and no semantics are refused. -/
def Obligations.WorkedWordsDecode : Prop :=
  let hd (tt : BitVec 8) (ga gb gc : GSel) (st : Fin 16) : Hdr := ⟨tt, ga, gb, gc, st⟩
  let on := hd 0xFF 0 0 0 0
  decode 3 0 0x301940500444546000400000 = .ok (.vadd (hd 0x30 3 5 0 2) (.v 4) (.v 5) (.v 6) .f32 .rtz false) ∧
  decode 3 0 0xFF0000040C1C203240400000 = .ok (.cmp on 1 2 3 .lt .u 4) ∧
  decode 3 0 0xFF0000049E2A1E0000000000 = .ok (.xferL on (.s 30) 2 2) ∧
  decode 3 0 0xFF000004A0A0022000000000 = .ok (.loop on 10 2 2) ∧
  decode 3 0 0xF09000120D3D481090092000 = .ok (.vcmp (hd 0xF0 18 0 0 0) 3 4 (.c 1) (.s 9) .lt .f32 .u true) ∧
  decode 3 0 0xFF0000140050200000010900 = .ok (.ld on 5 2 16 .i32 .plain .st) ∧
  decode 3 0 0xFF0000180080000000408500 = .ok (.mma on ⟨2, 0, 0, 0, 0⟩ 0 1 2 40 false false) ∧
  decode 3 0 0xFF00001A8040000014000007 = .ok (.cred on ⟨1, 0, 0, 0, 0⟩ 20 .sum .f32 7) ∧
  decode 3 0 0xF01000082000000000000005 = .ok (.trap (hd 0xF0 2 0 0 0) 5) ∧
  decode 3 0 0xFF0000083000000000000000 = .ok (.rft on) ∧
  decode 3 0 0xF02800189000000000C06500 = .ok (.gthr (hd 0xF0 5 0 0 0) ⟨0, 0, 0, 0, 0⟩ 3 1 37) ∧
  decode 3 0 0xE0ADF28D149180000A000000 = .ok (.vbcast (hd 0xE0 21 23 25 4) 9 24 .n32 false) ∧
  decode 3 0 0 = .ok (.add (hd 0 0 0 0 0) 0 0 0) ∧
  decode 3 0 0x301940505444546000400000 = .error .cell ∧
  decode 3 0 0xF09000120D3D442090092000 = .error .operand ∧
  decode 3 0 0xF09000120D3D481099092000 = .error .operand ∧
  decode 3 0 0xFF0000140050200000010980 = .error .operand

/-- Decoding an encoded instruction gives it back (R127, R128, R129, R131, R132, R133, R134, R137, R139, R140, R142,
R143). Every well-formed word, of every family, with every operand at every value its encoding admits, decodes from
its own encoding under version 3 to itself; under version 2, when its cell is none of version 3, and under version 1
besides when it uses no chain register or K bit, it decodes to itself too. What an earlier version accepts, version
3 decodes alike. -/
def Obligations.DecodeInvertsEncode : Prop :=
  ∀ i : Instr, isEvent i = false → i.wf = true →
    let o := if isXsWord i then 1 else 0
    decode 3 o (encode i) = .ok i ∧
    (((fld (encode i) 66 3).toNat ≠ 6 ∨ (fld (encode i) 60 6).toNat ∉ v3Cells) →
      decode 2 o (encode i) = .ok i ∧ (i.usesChain = false → fld (encode i) 72 1 = 0 → decode 1 o (encode i) = .ok i)) ∧
    (∀ ver w j, ver ≤ 3 → decode ver o w = .ok j → decode 3 o w = .ok j)

/-- Every step keeps every memory in canonical form (R7, R344, R381, R385, R405). If physical memory, tile SRAM and the
copies in checkpoint images have their addresses strictly rising with no byte equal to 0, the value of an unlisted
address, and a step answers a next state, then so have those of the next state: equal memories stay equal data
through every word, every engine, every reset and every restore. -/
def Obligations.MemoryStaysCanonical : Prop :=
  Kept Canonical

/-- Retirement changes the PC, the loops, the clock and stage predicates only (R52, R102, R120, R154, R159, R160, R162).
A word that retires without a STEP stop, and after which the chain goes on, leaves the whole machine but its own
strand unchanged; of the strand only the PC, ATTGT, the pending transfer, the loop levels and the exposure clock
with STALLCNT and the wait change, and, only at the iteration start of a pipelined level, new writes of stage
predicates become pending; there and at any other iteration start the registers settle. -/
def Obligations.RetirementFrame : Prop :=
  ∀ (s : State) (n : Fin 16) (x : Strand), (s.me.clock n).advance = .to x →
    s.retire n false = s.setMe x ∧
    s.me.clock n = { s.me with tick := s.me.tick + 1 + n.val, stleft := BitVec.ofNat 4 n.val, wait := .none, stallcnt := 0 } ∧
    ∃ (y : Strand) (l : List PWrite), (y = s.me.clock n ∨ y = (s.me.clock n).settle) ∧
      x = { y with pc := x.pc, attgt := x.attgt, xfer := x.xfer, l0 := x.l0, l1 := x.l1, pend := y.pend ++ l } ∧
      (∀ w ∈ l, ∃ q : QReg, w.dest = .q q ∧ 8 ≤ q.val) ∧
      (s.me.l0.st.toNat ≤ 1 → s.me.l1.st.toNat ≤ 1 → l = []) ∧
      ((s.me.l0.act = false ∨ s.me.xfer.valid = true ∨ s.me.l0.pos ≠ s.me.l0.len.toNat) → y = s.me.clock n)

/-- The bytes that stores and atomics change, and those they leave (R203, R204, R206, R210, R215, R345, R380, R385,
R390, R398). For the parts of any store or atomic word, with port 0 in CXL mode and no rejection of the host
waiting: starting the moves of touched objects changes no byte and nothing but those moves; making the parts in
order changes memory only at the places that the translation of each part's address gives when it is made, and
nothing else of the machine but poison marks and the bytes that agents outside coherence have written there before.
ST of bytes in one page leaves exactly the low bytes of its register there. A write that the host rejects changes no
byte of its own: it is lost, and raises UE. Nothing is written to an extent in release or revoked. -/
def Obligations.StoresChangeOnlyTheirBytes : Prop :=
  ∀ (s : State) (k : Acc) (l : List Access) (acts : List LogAct),
    let c := ctxOf s
    let u := touched s k l
    let t := u.applyActs c acts
    (u = { settled s with objs := u.objs } ∧ ∀ o ∈ u.objs, ∃ p ∈ s.objs, o = { p with moveTo := o.moveTo, moveWake := o.moveWake }) ∧
    (s.hostRejects = [] → s.plat.cxlMem = true → (∀ x ∈ acts, x.access.ea % 4096 + x.access.n ≤ 4096) →
      t = { u with mem := t.mem, poison := t.poison, linePoison := t.linePoison, foreign := t.foreign } ∧
      ∀ a, (∀ p ∈ storedTo c acts u, a < p.1 ∨ p.1 + p.2 ≤ a) → t.mem.byte a = s.mem.byte a) ∧
    (∀ (h : Hdr) (ds a : SReg) (off : BitVec 24) (ty : ETy) (sem : Sem) (sc : Scope) (n ea pa : Nat) (leaf : W64),
      let m := s.me.settle
      n = ty.width / 8 → ea = (m.readS a + off.signExtend 64).toNat → Runs s h [.s a, .s ds] → s.hostRejects = [] → s.plat.cxlMem = true →
      s.mem.wf = true → ea % 4096 + n ≤ 4096 → Ready s .w [⟨none, ea, n, 1⟩] → Released s sem → (settled s).walk c ea .none = .ok (pa, leaf) →
      ∃ v : State, exec (.st h ds a off ty sem sc) s = .next (retiredTo h s v) ∧ v.me = m ∧ v.sram = s.sram ∧ v.slog = s.slog ∧
        v.ctxs = s.ctxs ∧ v.others = s.others ∧
        (∀ b, (b < s.place pa ∨ s.place pa + n ≤ b) → v.mem.byte b = s.mem.byte b) ∧
        ∀ i, i < n → v.mem.byte (s.place pa + i) = (m.readS ds).extractLsb' (8 * i) 8) ∧
    (∀ (pa : Nat) (bs : List Byte), (∃ i, i < bs.length ∧ s.revokedAt (pa + i) = true) → s.physWrite pa bs = s) ∧
    (∀ (r pa : Nat) (bs : List Byte), s.hostRejects = [r] → (∀ i, i < bs.length → s.revokedAt (pa + i) = false) → s.place pa ≤ r → r < s.place pa + bs.length → s.isHost r = true →
      ∃ v : State, v = { s with hostRejects := [] } ∧ s.physWrite pa bs = v.pushEvent 3 0 (BitVec.ofNat 64 r) 0)

/-- Translation, and the park of a word that meets an absent page (R332 to R337, R210, R211, R305, R309, R312, R313,
R314, R315, R396). The walk of an address reads the table entry of each level from ROOT down: an entry outside
installed memory or malformed (among others a leaf of the object window that names no bound object, or one of more
than 64 KiB: log 20) raises PTE-INVALID, one in a revoked extent EXTENT-REVOKED, in a fenced channel UNIT-FENCED, a
poisoned one POISON, an absent one PAGE-ABSENT; a leaf that grants the access gives its ADDR and the page offset,
and otherwise PROT; another entry leads to the next table. A word reads the byte of memory at that place; every byte
of an object, of a list without overlaps, is the copy's while it has one and its backing frame's otherwise.  LD,
LDV, LDG, every returning atomic, ACAS, WAITA and both forms of TIDSET that meet only absent pages write nothing:
the strand waits at the word with a PAGE-ABSENT record (all faulting lanes, the first absent byte), and every absent
page has an entry with a waiter. Raising the fault of a page joins the OPEN entry that the launch has of it, or
takes the lowest entry and package fault slot (a sequence of 20 bits and the slot are FTAG), writes the entry and
then the header of the record, and appends the notification to the home die's queue; there is none past 512 of the
context or 4,096 of the package. An entry of a queue takes the place of its count, with PASS, or is held while there
is no room. The pages of one word are taken in increasing order, each with its first absent byte. -/
def Obligations.TranslationAndAbsentPages : Prop :=
  ∀ (s : State) (c : Ctx) (k : Acc) (va a l : Nat), l ≤ 5 →
    (let ea := a + 8 * tableIndex va l
    let e : W64 := BitVec.ofNat 64 (natOf ((List.range 8).map fun i => s.mem.byte (s.place (ea + i))))
    let bad := ∃ i, i < 8 ∧ s.badPlace (s.place (ea + i)) = true
    let res := s.walkFrom va k l a
    s.walk c va k = s.walkFrom va k 5 (c.root.toNat * 4096) ∧
    (2 ^ 51 ≤ ea → res = .error .pteInvalid) ∧
    (ea < 2 ^ 51 →
      (s.revokedAt ea = true → res = .error .extentRevoked) ∧
      (s.revokedAt ea = false → s.fencedAt ea = true → res = .error .unitFenced) ∧
      (s.revokedAt ea = false → s.fencedAt ea = false → bad → res = .error .poison) ∧
      (s.revokedAt ea = false → s.fencedAt ea = false → ¬ bad →
        (e.getLsbD 0 = false → res = .error .pageAbsent) ∧
        (e.getLsbD 0 = true → Malformed s e l → res = .error .pteInvalid) ∧
        (e.getLsbD 0 = true → ¬ Malformed s e l → e.getLsbD 1 = true →
          (Granted k e → res = .ok (entryAddr e + va % pageSize l, e)) ∧ (¬ Granted k e → res = .error .prot)) ∧
        (e.getLsbD 0 = true → ¬ Malformed s e l → e.getLsbD 1 = false →
          res = s.walkFrom va k (l - 1) (entryAddr e)))) ∧
    (s.objs.Pairwise (fun x y => x.addr + x.size ≤ y.addr ∨ y.addr + y.size ≤ x.addr) →
      (∀ o ∈ s.objs, 2 ^ 51 ≤ o.addr → ∀ i, i < o.size → s.place (o.addr + i) = if 0 < o.tier then o.addr + i else o.backing + i) ∧
      ∀ b, (b < 2 ^ 51 ∨ ∀ o ∈ s.objs, b < o.addr ∨ o.addr + o.size ≤ b) → s.place b = b)) ∧
    (∀ (h : Hdr) (ds x b : SReg) (d y : VReg) (off : BitVec 24) (ty : ETy) (sem : Sem) (sc : Scope) (z wide : Bool) (cc : Cond)
        (bound : BitVec 6) (tid : Byte) (i : Instr) (rs : List Dest) (lanes : Bool) (kind : Nat) (q : Acc) (acc : List Access),
      let m := s.me.settle
      (i, rs, lanes, kind, q, acc) ∈ loadWords s h ds x b d y off ty sem sc z wide cc bound tid →
      (if lanes = true then RunsLane s h rs [] else Runs s h rs) → NoOwn s q acc → Released s sem → s.ended m.ctx = false →
      ∀ ps, (settled s).checkAll (ctxOf s) q acc = .absent ps →
      ∀ (r : TrapRec) (lm : W64) (u v : State), (∀ j, j < 64 → (lm.getLsbD j = true ↔ ∃ p ∈ ps, p.1 = none ∨ p.1 = some j)) →
        r = (settled s).mkRec m .pageAbsent
          { pc := m.pc, lmask := lm, addr := BitVec.ofNat 64 ((ps.head?.map fun p => p.2.va).getD 0) } →
        (settled s).writeTrapRec { m with trap := r } = some u →
        (u.updStrand m.id fun w => { w with trap := r }).faultPages m.ctx kind m.index m.pc true
          (absentPages (ps.map fun p => p.2.va)) = some (v, true) →
        r.cause = 1 ∧ ∃ t, exec i s = .next t ∧ t.me.wait = .fault ∧ t.me.pc = m.pc ∧ t.me.trap = r ∧ t.me.sRegs = m.sRegs ∧
          t.me.vRegs = m.vRegs ∧ t.me.pend = m.pend ∧ t.mem = v.mem ∧
          ∀ p ∈ ps, ∃ f ∈ t.faults, f.ctx = m.ctx ∧ f.page = pageOf p.2.va ∧ f.waited = true) ∧
    FaultRecord
end

