-- ==== Sys2Proof/Laws/Memory.lean ====
section
/-!
SUPPORT. Canonical tables and memories: a read after a write, what a write leaves alone, and that every operation over
memory keeps the canonical form.
-/

namespace Sys2Proof.Laws

open Sys2Proof.Machine

variable {α : Type} [DecidableEq α] {d : α}

/-! ### Tables -/

theorem tblWf_mono {t : Tbl α} {a b : Nat} (hab : a ≤ b) (h : tblWfFrom d b t = true) : tblWfFrom d a t = true := by
  cases t with
  | nil => rfl
  | cons p t =>
    simp [tblWfFrom] at h ⊢
    exact ⟨⟨by omega, h.1.2⟩, h.2⟩

theorem tget_below {t : Tbl α} {lo n : Nat} (h : tblWfFrom d lo t = true) (hn : n < lo) : tget d t n = d := by
  induction t generalizing lo with
  | nil => rfl
  | cons p t ih =>
    simp [tblWfFrom] at h
    rw [tget, if_neg (by omega)]
    exact ih h.2 (by omega)

@[simp] theorem tget_tset_other (t : Tbl α) {n k : Nat} (v : α) (h : k ≠ n) : tget d (tset d t n v) k = tget d t k := by
  fun_induction tset d t n v <;> simp_all [tget]

theorem tget_tset_same {t : Tbl α} {lo n : Nat} (v : α) (h : tblWfFrom d lo t = true) : tget d (tset d t n v) n = v := by
  induction t generalizing lo with
  | nil => by_cases hv : v = d <;> simp [tset, tget, hv]
  | cons p t ih =>
    simp [tblWfFrom] at h
    by_cases h1 : n < p.1
    · by_cases hv : v = d
      · simp [tset, h1, hv, tget, Nat.ne_of_lt h1]
        exact tget_below h.2 (by omega)
      · simp [tset, h1, hv, tget]
    · by_cases h2 : n = p.1
      · by_cases hv : v = d
        · simp [tset, h2, hv]
          exact tget_below h.2 (by omega)
        · simp [tset, h2, hv, tget]
      · simp [tset, h1, h2, tget]
        exact ih h.2

theorem tblWf_tset {t : Tbl α} {lo n : Nat} (v : α) (h : tblWfFrom d lo t = true) (hn : lo ≤ n) :
    tblWfFrom d lo (tset d t n v) = true := by
  induction t generalizing lo with
  | nil => by_cases hv : v = d <;> simp [tset, tblWfFrom, hv, hn]
  | cons p t ih =>
    simp [tblWfFrom] at h
    by_cases h1 : n < p.1
    · by_cases hv : v = d
      · simp [tset, h1, hv, tblWfFrom, h]
      · simp [tset, h1, hv, tblWfFrom, h, hn] <;> omega
    · by_cases h2 : n = p.1
      · by_cases hv : v = d
        · simp [tset, h2, hv]
          exact tblWf_mono (by omega) h.2
        · simp [tset, h2, hv, tblWfFrom, h]
      · simp [tset, h1, h2, tblWfFrom, h]
        exact ih h.2 (by omega)

/-- Canonical tables with the same entries are the same data. -/
theorem tbl_ext {t u : Tbl α} {a b : Nat} (ht : tblWfFrom d a t = true) (hu : tblWfFrom d b u = true)
    (h : ∀ n, tget d t n = tget d u n) : t = u := by
  induction t generalizing u a b with
  | nil =>
    cases u with
    | nil => rfl
    | cons q u =>
      simp [tblWfFrom] at hu
      have := h q.1
      simp [tget] at this
      exact absurd this.symm hu.1.2
  | cons p t ih =>
    cases u with
    | nil =>
      simp [tblWfFrom] at ht
      have := h p.1
      simp [tget] at this
      exact absurd this ht.1.2
    | cons q u =>
      simp [tblWfFrom] at ht hu
      have key : p.1 = q.1 := by
        rcases Nat.lt_trichotomy p.1 q.1 with hl | he | hl
        · have := h p.1
          rw [tget, if_pos rfl, tget, if_neg (by omega), tget_below hu.2 (by omega)] at this
          exact absurd this ht.1.2
        · exact he
        · have := h q.1
          rw [tget, if_neg (by omega), tget_below ht.2 (by omega), tget, if_pos rfl] at this
          exact absurd this.symm hu.1.2
      have val : p.2 = q.2 := by
        have := h p.1
        rwa [tget, if_pos rfl, tget, if_pos key] at this
      have rest : t = u := by
        refine ih ht.2 hu.2 fun n => ?_
        by_cases hn : n = p.1
        · rw [tget_below ht.2 (by omega), tget_below hu.2 (by omega)]
        · have := h n
          rwa [tget, if_neg hn, tget, if_neg (by omega)] at this
      rw [rest, Prod.ext key val]

/-! ### Memories -/

@[simp] theorem byte_put_other (m : Memory) {a k : Nat} (b : Byte) (h : k ≠ a) : (m.put a b).byte k = m.byte k :=
  tget_tset_other m b h

theorem byte_put_same {m : Memory} (h : m.wf = true) (a : Nat) (b : Byte) : (m.put a b).byte a = b := tget_tset_same b h

@[simp] theorem wf_put {m : Memory} (h : m.wf = true) (a : Nat) (b : Byte) : (m.put a b).wf = true :=
  tblWf_tset b h (Nat.zero_le a)

@[simp] theorem wf_write {m : Memory} (h : m.wf = true) (a : Nat) (bs : List Byte) : (m.write a bs).wf = true := by
  induction bs generalizing m a with
  | nil => exact h
  | cons b bs ih => exact ih (wf_put h a b) _

theorem byte_write_outside (m : Memory) {a k : Nat} (bs : List Byte) (h : k < a ∨ a + bs.length ≤ k) :
    (m.write a bs).byte k = m.byte k := by
  induction bs generalizing m a with
  | nil => rfl
  | cons b bs ih =>
    rw [List.length_cons] at h
    rw [Memory.write, ih _ (by omega), byte_put_other _ _ (by omega)]

theorem byte_write_inside {m : Memory} (hm : m.wf = true) (a : Nat) (bs : List Byte) (i : Nat) (hi : i < bs.length) :
    (m.write a bs).byte (a + i) = bs[i] := by
  induction bs generalizing m a i with
  | nil => exact absurd hi (Nat.not_lt_zero i)
  | cons b bs ih =>
    rw [Memory.write]
    cases i with
    | zero => rw [byte_write_outside _ _ (by omega)]; exact byte_put_same hm a b
    | succ i =>
      have := ih (wf_put hm a b) (a + 1) i (by simpa using hi)
      rw [show a + (i + 1) = a + 1 + i by omega, this]
      rfl

@[simp] theorem length_read (m : Memory) (a n : Nat) : (m.read a n).length = n := by
  induction n generalizing a with
  | zero => rfl
  | succ n ih => simp [Memory.read, ih]

theorem read_get (m : Memory) (a n i : Nat) (h : i < (m.read a n).length) : (m.read a n)[i] = m.byte (a + i) := by
  induction n generalizing a i with
  | zero => exact absurd h (Nat.not_lt_zero i)
  | succ n ih =>
    cases i with
    | zero => rfl
    | succ i =>
      rw [show a + (i + 1) = a + 1 + i by omega]
      exact ih (a + 1) i (by simpa [Memory.read] using h)

/-- A read after a write to the same place gives the bytes written. -/
theorem read_write {m : Memory} (hm : m.wf = true) (a : Nat) (bs : List Byte) : (m.write a bs).read a bs.length = bs := by
  apply List.ext_getElem (length_read _ _ _)
  intro i h1 h2
  rw [read_get, byte_write_inside hm]

/-- A read of other places gives what it gave before. -/
theorem read_congr {m u : Memory} {a n : Nat} (h : ∀ i, i < n → m.byte (a + i) = u.byte (a + i)) : m.read a n = u.read a n := by
  apply List.ext_getElem (by simp)
  intro i h1 h2
  rw [read_get, read_get]
  exact h i (by simpa using h1)

theorem read_write_outside (m : Memory) {a k n : Nat} (bs : List Byte) (h : k + n ≤ a ∨ a + bs.length ≤ k) :
    (m.write a bs).read k n = m.read k n :=
  read_congr fun i hi => byte_write_outside m bs (by omega)

/-- Equal memories are equal data. -/
theorem memory_ext {m u : Memory} (hm : m.wf = true) (hu : u.wf = true) (h : ∀ a, m.byte a = u.byte a) : m = u :=
  tbl_ext hm hu h

theorem reset_canonical : State.reset.mem.wf = true ∧ State.reset.sram.wf = true ∧ State.reset.images = [] := ⟨rfl, rfl, rfl⟩

end Sys2Proof.Laws
end

