-- ==== Sys2Proof/Laws/Canonical.lean ====
section
/-!
SUPPORT. Every operation that writes memory keeps both memories, and those of the checkpoint images, in canonical form.
-/

namespace Sys2Proof.Laws

open Sys2Proof.Machine Sys2Proof.Claims

/-! ### Parts of a memory -/

section Tables

variable {α : Type} [DecidableEq α] {d : α}

theorem tblWf_filter {t : Tbl α} {lo : Nat} (p : Nat × α → Bool) (h : tblWfFrom d lo t = true) : tblWfFrom d lo (t.filter p) = true := by
  induction t generalizing lo with
  | nil => rfl
  | cons x t ih =>
    simp [tblWfFrom] at h
    by_cases hp : p x = true
    · simp [hp, tblWfFrom, h, ih h.2]
    · simp [hp]
      exact tblWf_mono (by omega) (ih h.2)

theorem tblWf_append {t u : Tbl α} {lo hi : Nat} (h : tblWfFrom d lo t = true) (hu : tblWfFrom d hi u = true) (hl : lo ≤ hi)
    (ht : ∀ x ∈ t, x.1 < hi) : tblWfFrom d lo (t ++ u) = true := by
  induction t generalizing lo with
  | nil => exact tblWf_mono hl hu
  | cons x t ih =>
    simp [tblWfFrom] at h
    simp [tblWfFrom, h]
    exact ih h.2 (ht x (by simp)) fun y hy => ht y (by simp [hy])

theorem tblWf_above {t : Tbl α} {lo hi : Nat} (h : tblWfFrom d lo t = true) (ht : ∀ x ∈ t, hi ≤ x.1) : tblWfFrom d hi t = true := by
  cases t with
  | nil => rfl
  | cons x t =>
    simp [tblWfFrom] at h ⊢
    exact ⟨⟨ht x (by simp), h.1.2⟩, h.2⟩

end Tables

@[simp] theorem wf_below {m : Memory} (h : m.wf = true) (a : Nat) : (m.below a).wf = true := tblWf_filter _ h
@[simp] theorem wf_since {m : Memory} (h : m.wf = true) (a : Nat) : (m.since a).wf = true := tblWf_filter _ h

/-- Bytes written one after the other keep the canonical form. -/
theorem wf_putAll {m : Memory} (h : m.wf = true) (l : List (Nat × Byte)) : (m.putAll l).wf = true := by
  induction l generalizing m with
  | nil => exact h
  | cons c l ih => exact ih (wf_write h _ _)

/-- A memory below an address and another from a later one on join to one in canonical form. -/
theorem wf_join {m u : Memory} (hm : m.wf = true) (hu : u.wf = true) {a b : Nat} (hab : a ≤ b) :
    Memory.wf (m.below a ++ u.since b) = true := by
  refine tblWf_append (hi := b) (wf_below hm a) (tblWf_above (wf_since hu b) ?_) (Nat.zero_le b) ?_
  · intro x hx
    simpa using (List.mem_filter.1 hx).2
  · intro x hx
    have := (List.mem_filter.1 hx).2
    simp at this
    omega

/-! ### States -/

/-- A state whose memories and images are those of a canonical one is canonical. -/
theorem canonical_congr {s t : State} (h : Canonical s) (m : t.mem = s.mem) (r : t.sram = s.sram) (i : t.images = s.images) :
    Canonical t := by
  simp only [Canonical, m, r, i]
  exact h

theorem canonical_rawWrite {s : State} (h : Canonical s) (a : Nat) (bs : List Byte) : Canonical (s.rawWrite a bs) :=
  ⟨wf_write h.1 a bs, h.2⟩

theorem canonical_scratchWrite {s : State} (h : Canonical s) (m : Strand) (l : List (Nat × List Byte)) : Canonical (s.scratchWrite m l) := by
  refine ⟨h.1, ?_, h.2.2⟩
  simp only [State.scratchWrite]
  generalize hx : s.sram = x
  have hw : x.wf = true := hx ▸ h.2.1
  clear hx
  induction l generalizing x with
  | nil => exact hw
  | cons p l ih => exact ih _ (wf_write hw _ _)

theorem canonical_copyBytes {s : State} (h : Canonical s) (a b n : Nat) : Canonical (s.copyBytes a b n) := ⟨wf_write h.1 _ _, h.2⟩
theorem canonical_eraseBytes {s : State} (h : Canonical s) (a n : Nat) : Canonical (s.eraseBytes a n) := ⟨wf_write h.1 _ _, h.2⟩

theorem canonical_flushQueue (dw bit n : Nat) {s : State} (h : Canonical s) (q : EvQueue) : Canonical (flushQueue dw bit n s q).1 := by
  induction n generalizing s q with
  | zero => exact h
  | succ n ih =>
    rw [flushQueue]
    split
    · exact h
    · split
      · exact ih (canonical_rawWrite h _ _) _
      · exact h

theorem canonical_flushEvents {s : State} (h : Canonical s) : Canonical s.flushEvents := canonical_flushQueue _ _ _ h _
theorem canonical_flushFaults {s : State} (h : Canonical s) (die : Fin 4) : Canonical (s.flushFaults die) := canonical_flushQueue _ _ _ h _

theorem canonical_pushEvent {s : State} (h : Canonical s) (code : Nat) (c : W32) (a b : W64) : Canonical (s.pushEvent code c a b) := by
  simp only [State.pushEvent]
  split
  · exact canonical_flushEvents h
  · exact h

theorem canonical_pushFault {s : State} (h : Canonical s) (die : Fin 4) (e : List W64) : Canonical (s.pushFault die e) :=
  canonical_flushFaults (s := { s with faultQs := s.faultQs.set die.val { s.faultQs[die] with held := s.faultQs[die].held ++ [e] } die.isLt }) h die

theorem canonical_placeWrite {s : State} (h : Canonical s) (a : Nat) (bs : List Byte) : Canonical (s.placeWrite a bs) := by
  simp only [State.placeWrite]
  split
  · rename_i r _
    exact canonical_pushEvent (s := { s with hostRejects := s.hostRejects.erase r }) (canonical_congr h rfl rfl rfl) _ _ _ _
  · exact canonical_rawWrite h _ _

theorem canonical_physWrite {s : State} (h : Canonical s) (pa : Nat) (bs : List Byte) : Canonical (s.physWrite pa bs) := by
  simp only [State.physWrite]
  split
  · exact h
  · exact canonical_placeWrite h _ _

theorem canonical_writeParts {s : State} (h : Canonical s) (c : Ctx) (ps : List Part) (bs : List Byte) : Canonical (s.writeParts c ps bs) := by
  induction ps generalizing s bs with
  | nil => exact h
  | cons p ps ih =>
    rw [State.writeParts]
    split
    · exact ih (canonical_physWrite h _ _) _
    · exact ih h _

theorem canonical_writeVa {s : State} (h : Canonical s) (c : Ctx) (va : Nat) (bs : List Byte) : Canonical (s.writeVa c va bs) :=
  canonical_writeParts h _ _ _

theorem canonical_touchAll {s : State} (h : Canonical s) (c : Ctx) (k : Acc) (l : List Access) : Canonical (s.touchAll c k l) := by
  simp only [State.touchAll]
  generalize s.reached c k l = es
  induction es generalizing s with
  | nil => exact h
  | cons e es ih =>
    refine ih (s := s.touch e) ?_
    simp only [State.touch]
    split <;> exact h

theorem canonical_devWrite {s t : State} (h : Canonical s) {c : Ctx} {va : Nat} {bs : List Byte} (e : s.devWrite c va bs = .ok t) :
    Canonical t := by
  simp only [State.devWrite] at e
  split at e
  · cases e
  · cases e
  · cases e
    exact canonical_writeVa (canonical_touchAll h _ _ _) _ _ _

theorem canonical_saveWrite {s t : State} (h : Canonical s) {c : Ctx} {va : Nat} {bs : List Byte} (e : s.saveWrite c va bs = some t) :
    Canonical t := by
  simp only [State.saveWrite] at e
  split at e
  · split at e
    · cases e
      exact canonical_devWrite h ‹_›
    · cases e
  · cases e

theorem canonical_writeImage {s t : State} (h : Canonical s) {c : Ctx} {b : Nat} {l : List (Nat × List Byte)} (e : s.writeImage c b l = some t) :
    Canonical t := by
  induction l generalizing s with
  | nil => cases e; exact h
  | cons p l ih =>
    rw [State.writeImage] at e
    split at e
    · cases e
    · exact ih (canonical_saveWrite h ‹_›) e

theorem canonical_applyAct {s : State} (h : Canonical s) (c : Ctx) (a : LogAct) : Canonical (s.applyAct c a) := by
  simp only [State.applyAct]
  split
  · exact canonical_writeVa h _ _ _
  · split
    · exact canonical_writeVa h _ _ _
    · exact h

/-- A reset keeps images and wipes tile SRAM (spec/16, R405). -/
theorem canonical_wipe {s : State} (h : Canonical s) (cold : Bool) : Canonical (s.wipe cold) := by
  refine ⟨wf_putAll ?_ _, rfl, h.2.2⟩
  split
  · exact wf_since (wf_below h.1 _) _
  · exact wf_below h.1 _

/-- What a checkpoint records of a canonical state is canonical. -/
theorem wf_snapshot {s : State} (h : Canonical s) (l : List (Nat × Nat)) (bs : List Byte) : (s.snapshot l bs).copies.wf = true :=
  wf_since h.1 _

theorem canonical_putImages {s : State} (h : Canonical s) (ms : List Strand) (bs : List Byte) : Canonical (s.putImages ms bs) := by
  induction ms generalizing s bs with
  | nil => exact h
  | cons m ms ih => exact ih (canonical_writeVa h _ _ _) _

theorem canonical_restoreCmd {s : State} (h : Canonical s) (a : List W64) : Canonical (restoreCmd a s).1 := by
  simp only [restoreCmd]
  split
  · exact h
  · rename_i x e
    have hx : x ∈ s.images := by
      simp only [State.restorable_] at e
      split at e
      · cases e
      · split at e
        · cases e
        · exact List.mem_reverse.1 (List.mem_of_find?_eq_some e)
    simp only [State.restoreImage]
    apply canonical_putImages
    refine ⟨wf_write ?_ _ _, wf_write (m := []) rfl _ _, h.2.2⟩
    refine tblWf_append (hi := objWindow) (wf_since (wf_below h.1 _) _) (tblWf_above (wf_since (h.2.2 x hx) _) ?_) (Nat.zero_le _) ?_
    · intro y hy
      simpa using (List.mem_filter.1 hy).2
    · intro y hy
      simpa using (List.mem_filter.1 (List.mem_filter.1 hy).1).2

end Sys2Proof.Laws
end

