-- ==== Sys2Proof/Laws/Exec.lean ====
section
/-!
SUPPORT. What exec calls for each instruction, as one equation per constructor, so that no proof reduces the whole dispatch.
-/

namespace Sys2Proof.Machine

section arms


theorem exec_add (h : Hdr) (d a b : SReg) (s : State) : exec (.add h d a b) s = execAdd h d a b s := rfl
theorem exec_addi (h : Hdr) (d a : SReg) (imm : W32) (s : State) : exec (.addi h d a imm) s = execAddi h d a imm s := rfl
theorem exec_sub (h : Hdr) (d a b : SReg) (s : State) : exec (.sub h d a b) s = execSub h d a b s := rfl
theorem exec_mul (h : Hdr) (d a b : SReg) (s : State) : exec (.mul h d a b) s = execMul h d a b s := rfl
theorem exec_mulh (h : Hdr) (d a b : SReg) (s : State) : exec (.mulh h d a b) s = execMulh h d a b s := rfl
theorem exec_mulhn (h : Hdr) (d a b : SReg) (s : State) : exec (.mulhn h d a b) s = execMulhn h d a b s := rfl
theorem exec_div (h : Hdr) (d a b : SReg) (s : State) : exec (.div h d a b) s = execDiv h d a b s := rfl
theorem exec_divn (h : Hdr) (d a b : SReg) (s : State) : exec (.divn h d a b) s = execDivn h d a b s := rfl
theorem exec_rem (h : Hdr) (d a b : SReg) (s : State) : exec (.rem h d a b) s = execRem h d a b s := rfl
theorem exec_remn (h : Hdr) (d a b : SReg) (s : State) : exec (.remn h d a b) s = execRemn h d a b s := rfl
theorem exec_and (h : Hdr) (d a b : SReg) (s : State) : exec (.and h d a b) s = execAnd h d a b s := rfl
theorem exec_andi (h : Hdr) (d a : SReg) (imm : W32) (s : State) : exec (.andi h d a imm) s = execAndi h d a imm s := rfl
theorem exec_or (h : Hdr) (d a b : SReg) (s : State) : exec (.or h d a b) s = execOr h d a b s := rfl
theorem exec_ori (h : Hdr) (d a : SReg) (imm : W32) (s : State) : exec (.ori h d a imm) s = execOri h d a imm s := rfl
theorem exec_xor (h : Hdr) (d a b : SReg) (s : State) : exec (.xor h d a b) s = execXor h d a b s := rfl
theorem exec_xori (h : Hdr) (d a : SReg) (imm : W32) (s : State) : exec (.xori h d a imm) s = execXori h d a imm s := rfl
theorem exec_andn (h : Hdr) (d a b : SReg) (s : State) : exec (.andn h d a b) s = execAndn h d a b s := rfl
theorem exec_shl (h : Hdr) (d a b : SReg) (s : State) : exec (.shl h d a b) s = execShl h d a b s := rfl
theorem exec_shlI (h : Hdr) (d a : SReg) (n : Fin 64) (s : State) : exec (.shlI h d a n) s = execShlI h d a n s := rfl
theorem exec_shr (h : Hdr) (d a b : SReg) (s : State) : exec (.shr h d a b) s = execShr h d a b s := rfl
theorem exec_shrI (h : Hdr) (d a : SReg) (n : Fin 64) (s : State) : exec (.shrI h d a n) s = execShrI h d a n s := rfl
theorem exec_sar (h : Hdr) (d a b : SReg) (s : State) : exec (.sar h d a b) s = execSar h d a b s := rfl
theorem exec_sarI (h : Hdr) (d a : SReg) (n : Fin 64) (s : State) : exec (.sarI h d a n) s = execSarI h d a n s := rfl
theorem exec_rol (h : Hdr) (d a b : SReg) (s : State) : exec (.rol h d a b) s = execRol h d a b s := rfl
theorem exec_rolI (h : Hdr) (d a : SReg) (n : Fin 64) (s : State) : exec (.rolI h d a n) s = execRolI h d a n s := rfl
theorem exec_clz (h : Hdr) (d a : SReg) (s : State) : exec (.clz h d a) s = execClz h d a s := rfl
theorem exec_ctz (h : Hdr) (d a : SReg) (s : State) : exec (.ctz h d a) s = execCtz h d a s := rfl
theorem exec_popc (h : Hdr) (d a : SReg) (s : State) : exec (.popc h d a) s = execPopc h d a s := rfl
theorem exec_min (h : Hdr) (d a b : SReg) (s : State) : exec (.min h d a b) s = execMin h d a b s := rfl
theorem exec_max (h : Hdr) (d a b : SReg) (s : State) : exec (.max h d a b) s = execMax h d a b s := rfl
theorem exec_minn (h : Hdr) (d a b : SReg) (s : State) : exec (.minn h d a b) s = execMinn h d a b s := rfl
theorem exec_maxn (h : Hdr) (d a b : SReg) (s : State) : exec (.maxn h d a b) s = execMaxn h d a b s := rfl
theorem exec_sel (h : Hdr) (d a b : SReg) (c : QReg) (s : State) : exec (.sel h d a b c) s = execSel h d a b c s := rfl
theorem exec_movi (h : Hdr) (d : SReg) (imm : BitVec 48) (s : State) : exec (.movi h d imm) s = execMovi h d imm s := rfl
theorem exec_movih (h : Hdr) (d : SReg) (imm : BitVec 16) (s : State) : exec (.movih h d imm) s = execMovih h d imm s := rfl
theorem exec_mov (h : Hdr) (d a : SReg) (s : State) : exec (.mov h d a) s = execMov h d a s := rfl
theorem exec_lea (h : Hdr) (d a : SReg) (imm : W32) (s : State) : exec (.lea h d a imm) s = execLea h d a imm s := rfl
theorem exec_bfx (h : Hdr) (d a : SReg) (pos : BitVec 6) (wid : BitVec 7) (s : State) : exec (.bfx h d a pos wid) s = execBfx h d a pos wid s := rfl
theorem exec_bfi (h : Hdr) (d a : SReg) (pos : BitVec 6) (wid : BitVec 7) (s : State) : exec (.bfi h d a pos wid) s = execBfi h d a pos wid s := rfl
theorem exec_cmp (h : Hdr) (pt pf : QReg) (a : SReg) (c : Cond) (m : PMode) (b : SReg) (s : State) : exec (.cmp h pt pf a c m b) s = execCmp h pt pf a c m b s := rfl
theorem exec_cmpi (h : Hdr) (pt pf : QReg) (a : SReg) (c : Cond) (m : PMode) (imm : BitVec 28) (s : State) : exec (.cmpi h pt pf a c m imm) s = execCmpi h pt pf a c m imm s := rfl
theorem exec_tstb (h : Hdr) (pt pf : QReg) (a : SReg) (m : PMode) (bit : Fin 64) (s : State) : exec (.tstb h pt pf a m bit) s = execTstb h pt pf a m bit s := rfl
theorem exec_plop (h : Hdr) (pt pf p1 p2 p3 : QReg) (ft : BitVec 8) (m : PMode) (s : State) : exec (.plop h pt pf p1 p2 p3 ft m) s = execPlop h pt pf p1 p2 p3 ft m s := rfl
theorem exec_prep (h : Hdr) (bt : BReg) (tgt : W32) (s : State) : exec (.prep h bt tgt) s = execPrep h bt tgt s := rfl
theorem exec_prepReg (h : Hdr) (bt : BReg) (a : SReg) (s : State) : exec (.prepReg h bt a) s = execPrepReg h bt a s := rfl
theorem exec_xfer (h : Hdr) (bt : BReg) (dly : Fin 4) (s : State) : exec (.xfer h bt dly) s = execXfer h bt dly s := rfl
theorem exec_xferL (h : Hdr) (lnk : OpLink) (bt : BReg) (dly : Fin 4) (s : State) : exec (.xferL h lnk bt dly) s = execXferL h lnk bt dly s := rfl
theorem exec_loop (h : Hdr) (cnt : SReg) (len : BitVec 12) (st : BitVec 4) (s : State) : exec (.loop h cnt len st) s = execLoop h cnt len st s := rfl
theorem exec_lbrk (h : Hdr) (s : State) : exec (.lbrk h) s = execLbrk h s := rfl
theorem exec_vany (h : Hdr) (pt pf : QReg) (a : MReg) (m : PMode) (s : State) : exec (.vany h pt pf a m) s = execVany h pt pf a m s := rfl
theorem exec_vall (h : Hdr) (pt pf : QReg) (a : MReg) (m : PMode) (s : State) : exec (.vall h pt pf a m) s = execVall h pt pf a m s := rfl
theorem exec_mfsr (h : Hdr) (d : SReg) (n : Fin 21) (s : State) : exec (.mfsr h d n) s = execMfsr h d n s := rfl
theorem exec_mtsr (h : Hdr) (n : Fin 21) (a : SReg) (s : State) : exec (.mtsr h n a) s = execMtsr h n a s := rfl
theorem exec_trap (h : Hdr) (n : Byte) (s : State) : exec (.trap h n) s = execTrap h n s := rfl
theorem exec_rft (h : Hdr) (s : State) : exec (.rft h) s = execRft h s := rfl
theorem exec_cswYield (h : Hdr) (s : State) : exec (.cswYield h) s = execCswYield h s := rfl
theorem exec_cswParkt (h : Hdr) (a : SReg) (s : State) : exec (.cswParkt h a) s = execCswParkt h a s := rfl
theorem exec_cswParka (h : Hdr) (a : SReg) (s : State) : exec (.cswParka h a) s = execCswParka h a s := rfl
theorem exec_halt (h : Hdr) (s : State) : exec (.halt h) s = execHalt h s := rfl
theorem exec_waitt (h : Hdr) (a : SReg) (s : State) : exec (.waitt h a) s = execWaitt h a s := rfl
theorem exec_live (h : Hdr) (a b : SReg) (s : State) : exec (.live h a b) s = execLive h a b s := rfl
theorem exec_liveP (h : Hdr) (imm : W32) (s : State) : exec (.liveP h imm) s = execLiveP h imm s := rfl
theorem exec_liveVl (h : Hdr) (imm : W32) (s : State) : exec (.liveVl h imm) s = execLiveVl h imm s := rfl
theorem exec_liveVh (h : Hdr) (imm : W32) (s : State) : exec (.liveVh h imm) s = execLiveVh h imm s := rfl
theorem exec_phase (h : Hdr) (s : State) : exec (.phase h) s = execPhase h s := rfl
theorem exec_nop (h : Hdr) (s : State) : exec (.nop h) s = execNop h s := rfl
theorem exec_bkpt (h : Hdr) (s : State) : exec (.bkpt h) s = execBkpt h s := rfl
theorem exec_viadd (h : Hdr) (d a : VReg) (b : OpVS) (ty : ETy) (sat z : Bool) (s : State) : exec (.viadd h d a b ty sat z) s = execViadd h d a b ty sat z s := rfl
theorem exec_visub (h : Hdr) (d a : VReg) (b : OpVS) (ty : ETy) (sat z : Bool) (s : State) : exec (.visub h d a b ty sat z) s = execVisub h d a b ty sat z s := rfl
theorem exec_vimul (h : Hdr) (d a : VReg) (b : OpVS) (ty : ETy) (sat z : Bool) (s : State) : exec (.vimul h d a b ty sat z) s = execVimul h d a b ty sat z s := rfl
theorem exec_vimad (h : Hdr) (d a : VReg) (b c : OpVS) (ty : ETy) (sat z : Bool) (s : State) : exec (.vimad h d a b c ty sat z) s = execVimad h d a b c ty sat z s := rfl
theorem exec_vand (h : Hdr) (d a : VReg) (b : OpVS) (ty : ETy) (z : Bool) (s : State) : exec (.vand h d a b ty z) s = execVand h d a b ty z s := rfl
theorem exec_vor (h : Hdr) (d a : VReg) (b : OpVS) (ty : ETy) (z : Bool) (s : State) : exec (.vor h d a b ty z) s = execVor h d a b ty z s := rfl
theorem exec_vxor (h : Hdr) (d a : VReg) (b : OpVS) (ty : ETy) (z : Bool) (s : State) : exec (.vxor h d a b ty z) s = execVxor h d a b ty z s := rfl
theorem exec_vshl (h : Hdr) (d a : VReg) (b : OpVS) (ty : ETy) (z : Bool) (s : State) : exec (.vshl h d a b ty z) s = execVshl h d a b ty z s := rfl
theorem exec_vshlI (h : Hdr) (d a : VReg) (n : Fin 64) (ty : ETy) (z : Bool) (s : State) : exec (.vshlI h d a n ty z) s = execVshlI h d a n ty z s := rfl
theorem exec_vshr (h : Hdr) (d a : VReg) (b : OpVS) (ty : ETy) (z : Bool) (s : State) : exec (.vshr h d a b ty z) s = execVshr h d a b ty z s := rfl
theorem exec_vshrI (h : Hdr) (d a : VReg) (n : Fin 64) (ty : ETy) (z : Bool) (s : State) : exec (.vshrI h d a n ty z) s = execVshrI h d a n ty z s := rfl
theorem exec_vsar (h : Hdr) (d a : VReg) (b : OpVS) (ty : ETy) (z : Bool) (s : State) : exec (.vsar h d a b ty z) s = execVsar h d a b ty z s := rfl
theorem exec_vsarI (h : Hdr) (d a : VReg) (n : Fin 64) (ty : ETy) (z : Bool) (s : State) : exec (.vsarI h d a n ty z) s = execVsarI h d a n ty z s := rfl
theorem exec_vmov (h : Hdr) (d a : OpVC) (z : Bool) (s : State) : exec (.vmov h d a z) s = execVmov h d a z s := rfl
theorem exec_vbcast (h : Hdr) (d : VReg) (a : SReg) (ty : ETy) (z : Bool) (s : State) : exec (.vbcast h d a ty z) s = execVbcast h d a ty z s := rfl
theorem exec_vbcastI (h : Hdr) (d a : VReg) (k : BitVec 12) (ty : ETy) (z : Bool) (s : State) : exec (.vbcastI h d a k ty z) s = execVbcastI h d a k ty z s := rfl
theorem exec_vextr (h : Hdr) (d : SReg) (a : VReg) (b : SReg) (ty : ETy) (s : State) : exec (.vextr h d a b ty) s = execVextr h d a b ty s := rfl
theorem exec_vextrI (h : Hdr) (d : SReg) (a : VReg) (k : BitVec 12) (ty : ETy) (s : State) : exec (.vextrI h d a k ty) s = execVextrI h d a k ty s := rfl
theorem exec_viota (h : Hdr) (d : VReg) (a : SReg) (stp : BitVec 12) (ty : ETy) (z : Bool) (s : State) : exec (.viota h d a stp ty z) s = execViota h d a stp ty z s := rfl
theorem exec_vperm (h : Hdr) (d a b : VReg) (ty : ETy) (z : Bool) (s : State) : exec (.vperm h d a b ty z) s = execVperm h d a b ty z s := rfl
theorem exec_vrot (h : Hdr) (d a : VReg) (b : SReg) (ty : ETy) (z : Bool) (s : State) : exec (.vrot h d a b ty z) s = execVrot h d a b ty z s := rfl
theorem exec_vrotI (h : Hdr) (d a : VReg) (k : BitVec 12) (ty : ETy) (z : Bool) (s : State) : exec (.vrotI h d a k ty z) s = execVrotI h d a k ty z s := rfl
theorem exec_vcomp (h : Hdr) (d a : VReg) (c : MReg) (ty : ETy) (z : Bool) (s : State) : exec (.vcomp h d a c ty z) s = execVcomp h d a c ty z s := rfl
theorem exec_vbtst (h : Hdr) (mt mf : MReg) (b : VReg) (c : OpVS) (m : PMode) (s : State) : exec (.vbtst h mt mf b c m) s = execVbtst h mt mf b c m s := rfl
theorem exec_mlop (h : Hdr) (mt mf a b c : MReg) (ft : Byte) (m : PMode) (s : State) : exec (.mlop h mt mf a b c ft m) s = execMlop h mt mf a b c ft m s := rfl
theorem exec_mcnt (h : Hdr) (d : SReg) (a : MReg) (s : State) : exec (.mcnt h d a) s = execMcnt h d a s := rfl
theorem exec_mfirst (h : Hdr) (d : SReg) (a : MReg) (s : State) : exec (.mfirst h d a) s = execMfirst h d a s := rfl
theorem exec_mfirstM (h : Hdr) (d a : MReg) (z : Bool) (s : State) : exec (.mfirstM h d a z) s = execMfirstM h d a z s := rfl
theorem exec_vadd (h : Hdr) (d a : OpVC) (b : OpVSC) (ty : ETy) (rm : Rm) (z : Bool) (s : State) : exec (.vadd h d a b ty rm z) s = execVadd h d a b ty rm z s := rfl
theorem exec_vsub (h : Hdr) (d a : OpVC) (b : OpVSC) (ty : ETy) (rm : Rm) (z : Bool) (s : State) : exec (.vsub h d a b ty rm z) s = execVsub h d a b ty rm z s := rfl
theorem exec_vmul (h : Hdr) (d a : OpVC) (b : OpVSC) (ty : ETy) (rm : Rm) (z : Bool) (s : State) : exec (.vmul h d a b ty rm z) s = execVmul h d a b ty rm z s := rfl
theorem exec_vfma (h : Hdr) (d a : OpVC) (b c : OpVSC) (ty : ETy) (rm : Rm) (z : Bool) (s : State) : exec (.vfma h d a b c ty rm z) s = execVfma h d a b c ty rm z s := rfl
theorem exec_vfms (h : Hdr) (d a : OpVC) (b c : OpVSC) (ty : ETy) (rm : Rm) (z : Bool) (s : State) : exec (.vfms h d a b c ty rm z) s = execVfms h d a b c ty rm z s := rfl
theorem exec_vabs (h : Hdr) (d a : OpVC) (ty : ETy) (z : Bool) (s : State) : exec (.vabs h d a ty z) s = execVabs h d a ty z s := rfl
theorem exec_vneg (h : Hdr) (d a : OpVC) (ty : ETy) (z : Bool) (s : State) : exec (.vneg h d a ty z) s = execVneg h d a ty z s := rfl
theorem exec_vmin (h : Hdr) (d a : OpVC) (b : OpVSC) (ty : ETy) (k z : Bool) (s : State) : exec (.vmin h d a b ty k z) s = execVmin h d a b ty k z s := rfl
theorem exec_vmax (h : Hdr) (d a : OpVC) (b : OpVSC) (ty : ETy) (k z : Bool) (s : State) : exec (.vmax h d a b ty k z) s = execVmax h d a b ty k z s := rfl
theorem exec_vdiv (h : Hdr) (d a : OpVC) (b : OpVSC) (ty : ETy) (rm : Rm) (z : Bool) (s : State) : exec (.vdiv h d a b ty rm z) s = execVdiv h d a b ty rm z s := rfl
theorem exec_vsqrt (h : Hdr) (d a : OpVC) (ty : ETy) (rm : Rm) (z : Bool) (s : State) : exec (.vsqrt h d a ty rm z) s = execVsqrt h d a ty rm z s := rfl
theorem exec_vrcp (h : Hdr) (d a : OpVC) (ty : ETy) (rm : Rm) (z : Bool) (s : State) : exec (.vrcp h d a ty rm z) s = execVrcp h d a ty rm z s := rfl
theorem exec_vrsq (h : Hdr) (d a : OpVC) (ty : ETy) (rm : Rm) (z : Bool) (s : State) : exec (.vrsq h d a ty rm z) s = execVrsq h d a ty rm z s := rfl
theorem exec_vexp2 (h : Hdr) (d a : OpVC) (ty : ETy) (rm : Rm) (z : Bool) (s : State) : exec (.vexp2 h d a ty rm z) s = execVexp2 h d a ty rm z s := rfl
theorem exec_vlog2 (h : Hdr) (d a : OpVC) (ty : ETy) (rm : Rm) (z : Bool) (s : State) : exec (.vlog2 h d a ty rm z) s = execVlog2 h d a ty rm z s := rfl
theorem exec_vcvt (h : Hdr) (d a : VReg) (dst src : ETy) (p : BitVec 3) (rm : Rm) (sat nan z : Bool) (s : State) : exec (.vcvt h d a dst src p rm sat nan z) s = execVcvt h d a dst src p rm sat nan z s := rfl
theorem exec_vqnt (h : Hdr) (d : VReg) (sc : SReg) (a : VReg) (q : B4Ty) (src : ETy) (p : BitVec 3) (z : Bool) (s : State) : exec (.vqnt h d sc a q src p z) s = execVqnt h d sc a q src p z s := rfl
theorem exec_vdqt (h : Hdr) (d a : VReg) (b : SReg) (dst : ETy) (p : BitVec 3) (rm : Rm) (nan z : Bool) (s : State) : exec (.vdqt h d a b dst p rm nan z) s = execVdqt h d a b dst p rm nan z s := rfl
theorem exec_vcmp (h : Hdr) (mt mf : MReg) (b : OpVC) (c : OpVSC) (cc : Cond) (ty : ETy) (m : PMode) (k : Bool) (s : State) : exec (.vcmp h mt mf b c cc ty m k) s = execVcmp h mt mf b c cc ty m k s := rfl
theorem exec_vthr (h : Hdr) (mt mf : MReg) (b : OpVC) (c : OpVS) (cc : Cond) (m : PMode) (k : Bool) (s : State) : exec (.vthr h mt mf b c cc m k) s = execVthr h mt mf b c cc m k s := rfl
theorem exec_vsel (h : Hdr) (d : VReg) (a b : OpVS) (c : OpSel) (k z : Bool) (s : State) : exec (.vsel h d a b c k z) s = execVsel h d a b c k z s := rfl
theorem exec_vred (h : Hdr) (d : SReg) (a : VReg) (c : MReg) (op : RedOp) (ty : ETy) (rm : Rm) (sat : Bool) (s : State) : exec (.vred h d a c op ty rm sat) s = execVred h d a c op ty rm sat s := rfl
theorem exec_vscan (h : Hdr) (d a : VReg) (c : MReg) (op : RedOp) (ty : ETy) (rm : Rm) (sat z : Bool) (s : State) : exec (.vscan h d a c op ty rm sat z) s = execVscan h d a c op ty rm sat z s := rfl
theorem exec_chainFull (sid : Nat) (c : CReg) (s : State) : exec (.chainFull sid c) s = execChainFull sid c s := rfl
theorem exec_ld (h : Hdr) (d a : SReg) (off : BitVec 24) (ty : ETy) (sem : Sem) (sc : Scope) (s : State) : exec (.ld h d a off ty sem sc) s = execLd h d a off ty sem sc s := rfl
theorem exec_st (h : Hdr) (d a : SReg) (off : BitVec 24) (ty : ETy) (sem : Sem) (sc : Scope) (s : State) : exec (.st h d a off ty sem sc) s = execSt h d a off ty sem sc s := rfl
theorem exec_ldv (h : Hdr) (d : VReg) (a : SReg) (off : BitVec 24) (sem : Sem) (sc : Scope) (z : Bool) (s : State) : exec (.ldv h d a off sem sc z) s = execLdv h d a off sem sc z s := rfl
theorem exec_stv (h : Hdr) (d : VReg) (a : SReg) (off : BitVec 24) (sem : Sem) (sc : Scope) (s : State) : exec (.stv h d a off sem sc) s = execStv h d a off sem sc s := rfl
theorem exec_ldg (h : Hdr) (d : VReg) (a : SReg) (off : BitVec 24) (b : VReg) (ty : ETy) (z : Bool) (s : State) : exec (.ldg h d a off b ty z) s = execLdg h d a off b ty z s := rfl
theorem exec_stg (h : Hdr) (d : VReg) (a : SReg) (off : BitVec 24) (b : VReg) (ty : ETy) (s : State) : exec (.stg h d a off b ty) s = execStg h d a off b ty s := rfl
theorem exec_ldl (h : Hdr) (d a : SReg) (off : BitVec 24) (ty : ETy) (s : State) : exec (.ldl h d a off ty) s = execLdl h d a off ty s := rfl
theorem exec_stl (h : Hdr) (d a : SReg) (off : BitVec 24) (ty : ETy) (s : State) : exec (.stl h d a off ty) s = execStl h d a off ty s := rfl
theorem exec_vldl (h : Hdr) (d : VReg) (a : SReg) (off : BitVec 24) (z : Bool) (s : State) : exec (.vldl h d a off z) s = execVldl h d a off z s := rfl
theorem exec_vstl (h : Hdr) (d : VReg) (a : SReg) (off : BitVec 24) (s : State) : exec (.vstl h d a off) s = execVstl h d a off s := rfl
theorem exec_memoryAccessComplete (sid : Nat) (s : State) : exec (.memoryAccessComplete sid) s = execMemoryAccessComplete sid s := rfl
theorem exec_sideLogDrain (k : Nat) (s : State) : exec (.sideLogDrain k) s = execSideLogDrain k s := rfl
theorem exec_aadd (h : Hdr) (d a : SReg) (off : BitVec 24) (b : SReg) (ty : ETy) (sem : Sem) (sc : Scope) (ret : Bool) (s : State) : exec (.aadd h d a off b ty sem sc ret) s = execAadd h d a off b ty sem sc ret s := rfl
theorem exec_amax (h : Hdr) (d a : SReg) (off : BitVec 24) (b : SReg) (ty : ETy) (sem : Sem) (sc : Scope) (ret : Bool) (s : State) : exec (.amax h d a off b ty sem sc ret) s = execAmax h d a off b ty sem sc ret s := rfl
theorem exec_amin (h : Hdr) (d a : SReg) (off : BitVec 24) (b : SReg) (ty : ETy) (sem : Sem) (sc : Scope) (ret : Bool) (s : State) : exec (.amin h d a off b ty sem sc ret) s = execAmin h d a off b ty sem sc ret s := rfl
theorem exec_aand (h : Hdr) (d a : SReg) (off : BitVec 24) (b : SReg) (ty : ETy) (sem : Sem) (sc : Scope) (ret : Bool) (s : State) : exec (.aand h d a off b ty sem sc ret) s = execAand h d a off b ty sem sc ret s := rfl
theorem exec_aor (h : Hdr) (d a : SReg) (off : BitVec 24) (b : SReg) (ty : ETy) (sem : Sem) (sc : Scope) (ret : Bool) (s : State) : exec (.aor h d a off b ty sem sc ret) s = execAor h d a off b ty sem sc ret s := rfl
theorem exec_axor (h : Hdr) (d a : SReg) (off : BitVec 24) (b : SReg) (ty : ETy) (sem : Sem) (sc : Scope) (ret : Bool) (s : State) : exec (.axor h d a off b ty sem sc ret) s = execAxor h d a off b ty sem sc ret s := rfl
theorem exec_axchg (h : Hdr) (d a : SReg) (off : BitVec 24) (b : SReg) (ty : ETy) (sem : Sem) (sc : Scope) (ret : Bool) (s : State) : exec (.axchg h d a off b ty sem sc ret) s = execAxchg h d a off b ty sem sc ret s := rfl
theorem exec_acas (h : Hdr) (d a : SReg) (off : BitVec 24) (b : SReg) (ty : ETy) (sem : Sem) (sc : Scope) (s : State) : exec (.acas h d a off b ty sem sc) s = execAcas h d a off b ty sem sc s := rfl
theorem exec_vared (h : Hdr) (d : VReg) (a : SReg) (off : BitVec 21) (b : VReg) (op : VaOp) (ty : ETy) (sc : Scope) (s : State) : exec (.vared h d a off b op ty sc) s = execVared h d a off b op ty sc s := rfl
theorem exec_fenceAcq (h : Hdr) (sc : Scope) (s : State) : exec (.fenceAcq h sc) s = execFenceAcq h sc s := rfl
theorem exec_fenceRel (h : Hdr) (sc : Scope) (s : State) : exec (.fenceRel h sc) s = execFenceRel h sc s := rfl
theorem exec_fenceFull (h : Hdr) (sc : Scope) (s : State) : exec (.fenceFull h sc) s = execFenceFull h sc s := rfl
theorem exec_waita (h : Hdr) (d a b : SReg) (cc : Cond) (form : WForm) (sc : Scope) (bound : BitVec 6) (s : State) : exec (.waita h d a b cc form sc bound) s = execWaita h d a b cc form sc bound s := rfl
theorem exec_waitaSatisfied (sid : Nat) (s : State) : exec (.waitaSatisfied sid) s = execWaitaSatisfied sid s := rfl
theorem exec_barSync (h : Hdr) (n : Fin 32) (b : SReg) (sc : Scope) (bound : BitVec 6) (s : State) : exec (.barSync h n b sc bound) s = execBarSync h n b sc bound s := rfl
theorem exec_barArv (h : Hdr) (n : Fin 32) (b : SReg) (sc : Scope) (s : State) : exec (.barArv h n b sc) s = execBarArv h n b sc s := rfl
theorem exec_barWait (h : Hdr) (n : Fin 32) (sc : Scope) (bound : BitVec 6) (s : State) : exec (.barWait h n sc bound) s = execBarWait h n sc bound s := rfl
theorem exec_cinv (h : Hdr) (a : SReg) (off : BitVec 24) (sc : Scope) (s : State) : exec (.cinv h a off sc) s = execCinv h a off sc s := rfl
theorem exec_cwb (h : Hdr) (a : SReg) (off : BitVec 24) (sc : Scope) (s : State) : exec (.cwb h a off sc) s = execCwb h a off sc s := rfl
theorem exec_pref (h : Hdr) (a : SReg) (off : BitVec 24) (sc : Scope) (s : State) : exec (.pref h a off sc) s = execPref h a off sc s := rfl
theorem exec_tidset (h : Hdr) (t : Byte) (a : SReg) (s : State) : exec (.tidset h t a) s = execTidset h t a s := rfl
theorem exec_tidsetReg (h : Hdr) (b a : SReg) (s : State) : exec (.tidsetReg h b a) s = execTidsetReg h b a s := rfl
theorem exec_tidget (h : Hdr) (d : SReg) (t : Byte) (s : State) : exec (.tidget h d t) s = execTidget h d t s := rfl
theorem exec_tidgetReg (h : Hdr) (d b : SReg) (s : State) : exec (.tidgetReg h d b) s = execTidgetReg h d b s := rfl
theorem exec_mma (h : Hdr) (e : EnH) (ac : AcReg) (tida tidb : Byte) (sco : SReg) (acct sat : Bool) (s : State) : exec (.mma h e ac tida tidb sco acct sat) s = execMma h e ac tida tidb sco acct sat s := rfl
theorem exec_mmas (h : Hdr) (e : EnH) (ac : AcReg) (tida : Byte) (sco : SReg) (acct sat : Bool) (s : State) : exec (.mmas h e ac tida sco acct sat) s = execMmas h e ac tida sco acct sat s := rfl
theorem exec_mmat (h : Hdr) (e : EnH) (ac : AcReg) (tida tidb : Byte) (sco : SReg) (fill : Bool) (s : State) : exec (.mmat h e ac tida tidb sco fill) s = execMmat h e ac tida tidb sco fill s := rfl
theorem exec_aclr (h : Hdr) (e : EnH) (mask : Byte) (s : State) : exec (.aclr h e mask) s = execAclr h e mask s := rfl
theorem exec_acvt (h : Hdr) (e : EnH) (tidd : Byte) (ac : AcReg) (sco : SReg) (acct sat : Bool) (rm : Rm) (nan : Bool) (s : State) : exec (.acvt h e tidd ac sco acct sat rm nan) s = execAcvt h e tidd ac sco acct sat rm nan s := rfl
theorem exec_amov (h : Hdr) (e : EnH) (ac acs : AcReg) (s : State) : exec (.amov h e ac acs) s = execAmov h e ac acs s := rfl
theorem exec_amovTid (h : Hdr) (e : EnH) (ac : AcReg) (tid : Byte) (sco : SReg) (s : State) : exec (.amovTid h e ac tid sco) s = execAmovTid h e ac tid sco s := rfl
theorem exec_cpy (h : Hdr) (e : EnH) (sb : SReg) (dir : CpyDir) (nsc : NoteSc) (d2 : Bool) (noff : BitVec 19) (s : State) : exec (.cpy h e sb dir nsc d2 noff) s = execCpy h e sb dir nsc d2 noff s := rfl
theorem exec_gthr (h : Hdr) (e : EnH) (tidd tids : Byte) (sb : SReg) (s : State) : exec (.gthr h e tidd tids sb) s = execGthr h e tidd tids sb s := rfl
theorem exec_gidx (h : Hdr) (e : EnH) (tidp : Byte) (sb : SReg) (s : State) : exec (.gidx h e tidp sb) s = execGidx h e tidp sb s := rfl
theorem exec_xrun (h : Hdr) (e : EnH) (sb : SReg) (entry : BitVec 23) (s : State) : exec (.xrun h e sb entry) s = execXrun h e sb entry s := rfl
theorem exec_xpost (h : Hdr) (e : EnH) (ev : Fin 4) (s : State) : exec (.xpost h e ev) s = execXpost h e ev s := rfl
theorem exec_xwait (h : Hdr) (e : EnH) (sc : SReg) (bound : BitVec 6) (ev : Fin 4) (s : State) : exec (.xwait h e sc bound ev) s = execXwait h e sc bound ev s := rfl
theorem exec_waitk (h : Hdr) (e : EnH) (bound : BitVec 6) (s : State) : exec (.waitk h e bound) s = execWaitk h e bound s := rfl
theorem exec_kvh (h : Hdr) (e : EnH) (sb : SReg) (s : State) : exec (.kvh h e sb) s = execKvh h e sb s := rfl
theorem exec_kvlk (h : Hdr) (e : EnH) (sb : SReg) (s : State) : exec (.kvlk h e sb) s = execKvlk h e sb s := rfl
theorem exec_kvins (h : Hdr) (e : EnH) (sb : SReg) (s : State) : exec (.kvins h e sb) s = execKvins h e sb s := rfl
theorem exec_kvpin (h : Hdr) (e : EnH) (sb : SReg) (s : State) : exec (.kvpin h e sb) s = execKvpin h e sb s := rfl
theorem exec_kvunp (h : Hdr) (e : EnH) (sb : SReg) (s : State) : exec (.kvunp h e sb) s = execKvunp h e sb s := rfl
theorem exec_kvmap (h : Hdr) (e : EnH) (sb : SReg) (s : State) : exec (.kvmap h e sb) s = execKvmap h e sb s := rfl
theorem exec_kvmapRel (h : Hdr) (e : EnH) (sb : SReg) (s : State) : exec (.kvmapRel h e sb) s = execKvmapRel h e sb s := rfl
theorem exec_kvpub (h : Hdr) (e : EnH) (sb : SReg) (s : State) : exec (.kvpub h e sb) s = execKvpub h e sb s := rfl
theorem exec_attn (h : Hdr) (e : EnH) (tidq tido : Byte) (sb : SReg) (kb4 vb4 : Bool) (s : State) : exec (.attn h e tidq tido sb kb4 vb4) s = execAttn h e tidq tido sb kb4 vb4 s := rfl
theorem exec_cred (h : Hdr) (e : EnH) (sb : SReg) (op : CrOp) (ty : ETy) (tag : BitVec 16) (s : State) : exec (.cred h e sb op ty tag) s = execCred h e sb op ty tag s := rfl
theorem exec_cgth (h : Hdr) (e : EnH) (sb : SReg) (tag : BitVec 16) (s : State) : exec (.cgth h e sb tag) s = execCgth h e sb tag s := rfl
theorem exec_csnd (h : Hdr) (e : EnH) (sb : SReg) (peer : Fin 8) (tag : BitVec 16) (s : State) : exec (.csnd h e sb peer tag) s = execCsnd h e sb peer tag s := rfl
theorem exec_crcv (h : Hdr) (e : EnH) (sb : SReg) (peer : Fin 8) (tag : BitVec 16) (s : State) : exec (.crcv h e sb peer tag) s = execCrcv h e sb peer tag s := rfl
theorem exec_launch (h : Hdr) (e : EnH) (sb : SReg) (s : State) : exec (.launch h e sb) s = execLaunch h e sb s := rfl
theorem exec_atTimeReached (sid : Nat) (seq : W32) (s : State) : exec (.atTimeReached sid seq) s = execAtTimeReached sid seq s := rfl
theorem exec_commandStart (sid : Nat) (seq : W32) (s : State) : exec (.commandStart sid seq) s = execCommandStart sid seq s := rfl
theorem exec_engineMicroStep (sid : Nat) (seq : W32) (s : State) : exec (.engineMicroStep sid seq) s = execEngineMicroStep sid seq s := rfl
theorem exec_engineCommandComplete (sid : Nat) (seq : W32) (s : State) : exec (.engineCommandComplete sid seq) s = execEngineCommandComplete sid seq s := rfl
theorem exec_collectiveMessage (m : CollMsg) (s : State) : exec (.collectiveMessage m) s = execCollectiveMessage m s := rfl
theorem exec_xld (xd xa : XReg) (imm : W32) (s : State) : exec (.xld xd xa imm) s = execXld xd xa imm s := rfl
theorem exec_xst (xa xb : XReg) (imm : W32) (s : State) : exec (.xst xa xb imm) s = execXst xa xb imm s := rfl
theorem exec_xmov (xd : XReg) (imm : W32) (s : State) : exec (.xmov xd imm) s = execXmov xd imm s := rfl
theorem exec_xmovA (xd xa : XReg) (imm : W32) (s : State) : exec (.xmovA xd xa imm) s = execXmovA xd xa imm s := rfl
theorem exec_xmovR (xd xa xb : XReg) (s : State) : exec (.xmovR xd xa xb) s = execXmovR xd xa xb s := rfl
theorem exec_xmovH (xd : XReg) (imm : W32) (s : State) : exec (.xmovH xd imm) s = execXmovH xd imm s := rfl
theorem exec_xdec (xd xa : XReg) (n : BitVec 22) (p : BitVec 10) (s : State) : exec (.xdec xd xa n p) s = execXdec xd xa n p s := rfl
theorem exec_xenc (xd xa : XReg) (n : BitVec 22) (p : BitVec 10) (s : State) : exec (.xenc xd xa n p) s = execXenc xd xa n p s := rfl
theorem exec_xqnt (xd xa xb : XReg) (src : ETy) (q : B4Ty) (n : W32) (s : State) : exec (.xqnt xd xa xb src q n) s = execXqnt xd xa xb src q n s := rfl
theorem exec_xbp (xd xa xb : XReg) (ty : ETy) (kt : W32) (s : State) : exec (.xbp xd xa xb ty kt) s = execXbp xd xa xb ty kt s := rfl
theorem exec_xloop (xa : XReg) (len : BitVec 12) (s : State) : exec (.xloop xa len) s = execXloop xa len s := rfl
theorem exec_xsXpost (ev : Fin 4) (s : State) : exec (.xsXpost ev) s = execXsXpost ev s := rfl
theorem exec_xsXwait (ev : Fin 4) (xc : XReg) (bound : BitVec 6) (s : State) : exec (.xsXwait ev xc bound) s = execXsXwait ev xc bound s := rfl
theorem exec_xend (s : State) : exec (.xend) s = execXend s := rfl
theorem exec_stallBound (sid : Nat) (s : State) : exec (.stallBound sid) s = execStallBound sid s := rfl
theorem exec_timedWaitExpiry (sid : Nat) (s : State) : exec (.timedWaitExpiry sid) s = execTimedWaitExpiry sid s := rfl
theorem exec_parkaWake (sid : Nat) (s : State) : exec (.parkaWake sid) s = execParkaWake sid s := rfl
theorem exec_regionLoad (pg : Fin 16) (s : State) : exec (.regionLoad pg) s = execRegionLoad pg s := rfl
theorem exec_regionUnload (pg : Fin 16) (s : State) : exec (.regionUnload pg) s = execRegionUnload pg s := rfl
theorem exec_create (pg : Fin 16) (s : State) : exec (.create pg) s = execCreate pg s := rfl
theorem exec_destroy (pg : Fin 16) (s : State) : exec (.destroy pg) s = execDestroy pg s := rfl
theorem exec_kill (pg : Fin 16) (s : State) : exec (.kill pg) s = execKill pg s := rfl
theorem exec_swapout (pg : Fin 16) (s : State) : exec (.swapout pg) s = execSwapout pg s := rfl
theorem exec_setwake (pg : Fin 16) (s : State) : exec (.setwake pg) s = execSetwake pg s := rfl
theorem exec_faultReply (pg : Fin 16) (s : State) : exec (.faultReply pg) s = execFaultReply pg s := rfl
theorem exec_debugStop (pg : Fin 16) (s : State) : exec (.debugStop pg) s = execDebugStop pg s := rfl
theorem exec_debugResume (pg : Fin 16) (s : State) : exec (.debugResume pg) s = execDebugResume pg s := rfl
theorem exec_setasgen (pg : Fin 16) (s : State) : exec (.setasgen pg) s = execSetasgen pg s := rfl
theorem exec_objBind (pg : Fin 16) (s : State) : exec (.objBind pg) s = execObjBind pg s := rfl
theorem exec_objUnbind (pg : Fin 16) (s : State) : exec (.objUnbind pg) s = execObjUnbind pg s := rfl
theorem exec_pswap (pg : Fin 16) (s : State) : exec (.pswap pg) s = execPswap pg s := rfl
theorem exec_checkpoint (pg : Fin 16) (s : State) : exec (.checkpoint pg) s = execCheckpoint pg s := rfl
theorem exec_checkpointComplete (s : State) : exec (.checkpointComplete) s = execCheckpointComplete s := rfl
theorem exec_restore (pg : Fin 16) (s : State) : exec (.restore pg) s = execRestore pg s := rfl
theorem exec_fenceUnit (pg : Fin 16) (s : State) : exec (.fenceUnit pg) s = execFenceUnit pg s := rfl
theorem exec_lcChange (pg : Fin 16) (s : State) : exec (.lcChange pg) s = execLcChange pg s := rfl
theorem exec_attest (pg : Fin 16) (s : State) : exec (.attest pg) s = execAttest pg s := rfl
theorem exec_badcmd (pg : Fin 16) (op : BitVec 16) (s : State) : exec (.badcmd pg op) s = execBadcmd pg op s := rfl
theorem exec_supervisorCommandComplete (pg : Fin 16) (s : State) : exec (.supervisorCommandComplete pg) s = execSupervisorCommandComplete pg s := rfl
theorem exec_retctlWrite (die : Fin 4) (n : Fin 8) (v : W64) (s : State) : exec (.retctlWrite die n v) s = execRetctlWrite die n v s := rfl
theorem exec_l1cfgWrite (tile : Fin 256) (v : W64) (s : State) : exec (.l1cfgWrite tile v) s = execL1cfgWrite tile v s := rfl
theorem exec_ephctlWrite (v : W64) (s : State) : exec (.ephctlWrite v) s = execEphctlWrite v s := rfl
theorem exec_almcapWrite (die : Fin 4) (v : W64) (s : State) : exec (.almcapWrite die v) s = execAlmcapWrite die v s := rfl
theorem exec_mctlWrite (v : W64) (s : State) : exec (.mctlWrite v) s = execMctlWrite v s := rfl
theorem exec_mepochWrite (v : W64) (s : State) : exec (.mepochWrite v) s = execMepochWrite v s := rfl
theorem exec_mslewWrite (v : W64) (s : State) : exec (.mslewWrite v) s = execMslewWrite v s := rfl
theorem exec_scrctlWrite (v : W64) (s : State) : exec (.scrctlWrite v) s = execScrctlWrite v s := rfl
theorem exec_missWrite (r : Fin 277) (v : W64) (s : State) : exec (.missWrite r v) s = execMissWrite r v s := rfl
theorem exec_rowLogWrite (die : Fin 4) (e : Fin 64) (v : W64) (s : State) : exec (.rowLogWrite die e v) s = execRowLogWrite die e v s := rfl
theorem exec_plimWrite (port : Fin 12) (d : Fin 8) (v : W64) (s : State) : exec (.plimWrite port d v) s = execPlimWrite port d v s := rfl
theorem exec_dlimWrite (port : Fin 12) (d : Fin 8) (v : W64) (s : State) : exec (.dlimWrite port d v) s = execDlimWrite port d v s := rfl
theorem exec_qbaseWrite (q : Fin 5) (v : W64) (s : State) : exec (.qbaseWrite q v) s = execQbaseWrite q v s := rfl
theorem exec_qlogWrite (q : Fin 5) (v : W64) (s : State) : exec (.qlogWrite q v) s = execQlogWrite q v s := rfl
theorem exec_qheadWrite (q : Fin 5) (v : W64) (s : State) : exec (.qheadWrite q v) s = execQheadWrite q v s := rfl
theorem exec_pkgnumWrite (v : W64) (s : State) : exec (.pkgnumWrite v) s = execPkgnumWrite v s := rfl
theorem exec_pcapWrite (v : W64) (s : State) : exec (.pcapWrite v) s = execPcapWrite v s := rfl
theorem exec_registerWrite (off : BitVec 26) (v : W64) (s : State) : exec (.registerWrite off v) s = execRegisterWrite off v s := rfl
theorem exec_coldReset (s : State) : exec (.coldReset) s = execColdReset s := rfl
theorem exec_reset (s : State) : exec (.reset) s = execReset s := rfl
theorem exec_wipeComplete (s : State) : exec (.wipeComplete) s = execWipeComplete s := rfl
theorem exec_ppsEdge (s : State) : exec (.ppsEdge) s = execPpsEdge s := rfl
theorem exec_todFrame (f : BitVec 96) (s : State) : exec (.todFrame f) s = execTodFrame f s := rfl
theorem exec_referenceMeasurement (ofs : W64) (rate : W64) (s : State) : exec (.referenceMeasurement ofs rate) s = execReferenceMeasurement ofs rate s := rfl
theorem exec_holdover (s : State) : exec (.holdover) s = execHoldover s := rfl
theorem exec_ucieFailure (s : State) : exec (.ucieFailure) s = execUcieFailure s := rfl
theorem exec_thermal (die : Fin 4) (temp : BitVec 12) (s : State) : exec (.thermal die temp) s = execThermal die temp s := rfl
theorem exec_thermalTrip (die : Fin 4) (temp : BitVec 12) (s : State) : exec (.thermalTrip die temp) s = execThermalTrip die temp s := rfl
theorem exec_unitFailure (kind idx : W64) (s : State) : exec (.unitFailure kind idx) s = execUnitFailure kind idx s := rfl
theorem exec_ualinkLinkReset (u : Fin 8) (s : State) : exec (.ualinkLinkReset u) s = execUalinkLinkReset u s := rfl
theorem exec_dcExtentRelease (base len : W64) (s : State) : exec (.dcExtentRelease base len) s = execDcExtentRelease base len s := rfl
theorem exec_extentReleaseResponse (base : W64) (s : State) : exec (.extentReleaseResponse base) s = execExtentReleaseResponse base s := rfl
theorem exec_devloadInterval (port : Fin 12) (d : Fin 8) (l : DevLoad) (s : State) : exec (.devloadInterval port d l) s = execDevloadInterval port d l s := rfl
theorem exec_hostMemoryRequest (write : Bool) (pa : W64) (n : Fin 65) (data : Line) (s : State) : exec (.hostMemoryRequest write pa n data) s = execHostMemoryRequest write pa n data s := rfl
theorem exec_tailRead (qid : BitVec 15) (s : State) : exec (.tailRead qid) s = execTailRead qid s := rfl
theorem exec_queueCandidate (qid : BitVec 15) (s : State) : exec (.queueCandidate qid) s = execQueueCandidate qid s := rfl
theorem exec_admissionDecision (pl : List Place) (s : State) : exec (.admissionDecision pl) s = execAdmissionDecision pl s := rfl
theorem exec_strandSaveComplete (sid : Nat) (s : State) : exec (.strandSaveComplete sid) s = execStrandSaveComplete sid s := rfl
theorem exec_notbeforeReached (ctx : Nat) (s : State) : exec (.notbeforeReached ctx) s = execNotbeforeReached ctx s := rfl
theorem exec_quantumExpiry (tile : Fin 256) (s : State) : exec (.quantumExpiry tile) s = execQuantumExpiry tile s := rfl
theorem exec_launchComplete (ctx : Nat) (s : State) : exec (.launchComplete ctx) s = execLaunchComplete ctx s := rfl
theorem exec_ephemerisPromotion (ctx : Nat) (s : State) : exec (.ephemerisPromotion ctx) s = execEphemerisPromotion ctx s := rfl
theorem exec_silence (ctx : Nat) (s : State) : exec (.silence ctx) s = execSilence ctx s := rfl
theorem exec_silenceWritebackComplete (ctx : Nat) (s : State) : exec (.silenceWritebackComplete ctx) s = execSilenceWritebackComplete ctx s := rfl
theorem exec_scrubAtom (pa : W64) (r : EccResult) (bank : BitVec 5) (row : BitVec 18) (s : State) : exec (.scrubAtom pa r bank row) s = execScrubAtom pa r bank row s := rfl
theorem exec_ppsTimeout (s : State) : exec (.ppsTimeout) s = execPpsTimeout s := rfl
theorem exec_linkUp (ual : Bool) (n : Fin 13) (cmp : Bool) (width : BitVec 5) (speed : BitVec 3) (s : State) : exec (.linkUp ual n cmp width speed) s = execLinkUp ual n cmp width speed s := rfl
theorem exec_hostWriteRejected (pa : W64) (s : State) : exec (.hostWriteRejected pa) s = execHostWriteRejected pa s := rfl
theorem exec_moveCommit (o : W64) (s : State) : exec (.moveCommit o) s = execMoveCommit o s := rfl

end arms

end Sys2Proof.Machine
end

