-- ==== Sys2Proof/Laws/Lanes.lean ====
section
/-!
SUPPORT. Elements, lanes and masks: what an element of a packed register reads, and what a lane mask keeps of it.
-/

namespace Sys2Proof.Machine

theorem packN_lt (w : Nat) (f : Nat → Nat) (n : Nat) : packN w f n < 2 ^ (w * n) := by
  induction n with
  | zero => simp [packN]
  | succ n ih =>
    have h : f n % 2 ^ w < 2 ^ w := Nat.mod_lt _ (Nat.two_pow_pos w)
    have e : 2 ^ (w * (n + 1)) = 2 ^ w * 2 ^ (w * n) := by rw [Nat.mul_succ, Nat.pow_add, Nat.mul_comm]
    have : (f n % 2 ^ w + 1) * 2 ^ (w * n) ≤ 2 ^ w * 2 ^ (w * n) := Nat.mul_le_mul_right _ h
    rw [Nat.add_mul, Nat.one_mul] at this; simp only [packN]; rw [e]; omega

/-- Element `j` of a packed number. -/
theorem packN_elem (w : Nat) (f : Nat → Nat) (n j : Nat) (h : j < n) :
    packN w f n / 2 ^ (w * j) % 2 ^ w = f j % 2 ^ w := by
  induction n with
  | zero => omega
  | succ n ih =>
    have hp : 0 < 2 ^ (w * j) := Nat.two_pow_pos _
    by_cases e : j = n
    · subst e
      simp only [packN]
      rw [Nat.add_mul_div_right _ _ hp, Nat.div_eq_of_lt (packN_lt w f j), Nat.zero_add, Nat.mod_mod]
    · have hj : j < n := by omega
      obtain ⟨k, hk⟩ : ∃ k, n = j + 1 + k := ⟨n - (j + 1), by omega⟩
      have e2 : 2 ^ (w * n) = 2 ^ (w * k) * 2 ^ w * 2 ^ (w * j) := by
        rw [← Nat.pow_add, ← Nat.pow_add]; congr 1; rw [hk, Nat.mul_add, Nat.mul_add, Nat.mul_one]; omega
      simp only [packN]
      rw [e2, ← Nat.mul_assoc, Nat.add_mul_div_right _ _ hp, ← Nat.mul_assoc, Nat.add_mul_mod_self_right]
      exact ih hj

/-- The widths that fill a register exactly. -/
theorem width_fills (t : ETy) : t.width * (2048 / t.width) = 2048 := by cases t <;> rfl

theorem elemAt_ofElems {w : Nat} (hw : w * (2048 / w) = 2048) (f : Nat → Nat) {j : Nat} (h : j < 2048 / w) :
    elemAt w (ofElems w f) j = f j % 2 ^ w := by
  have hl : packN w f (2048 / w) < 2 ^ 2048 := by have := packN_lt w f (2048 / w); rwa [hw] at this
  rw [elemAt, ofElems, BitVec.toNat_ofNat, Nat.mod_eq_of_lt hl]
  exact packN_elem w f _ j h

theorem elemAt_testBit {w : Nat} (v : Lanes) (j i : Nat) :
    (elemAt w v j).testBit i = (decide (i < w) && v.getLsbD (w * j + i)) := by
  rw [elemAt, Nat.testBit_mod_two_pow, Nat.testBit_div_two_pow, BitVec.testBit_toNat, Nat.add_comm]

theorem packN_testBit (f : Nat → Bool) (n i : Nat) (h : i < n) : (packN 1 (fun k => b2n (f k)) n).testBit i = f i := by
  have e := packN_elem 1 (fun k => b2n (f k)) n i h
  rw [Nat.one_mul] at e
  rw [Nat.testBit_eq_decide_div_mod_eq]
  have e' : packN 1 (fun k => b2n (f k)) n / 2 ^ i % 2 = b2n (f i) % 2 := by simpa using e
  rw [e']; cases f i <;> rfl

theorem getLsbD_maskOf (f : Nat → Bool) (i : Nat) : (maskOf f).getLsbD i = (decide (i < 64) && f i) := by
  rw [maskOf, BitVec.getLsbD_ofNat]
  by_cases h : i < 64
  · simp [h, packN_testBit f 64 i h]
  · simp [h]

theorem getLsbD_laneMask (m : W64) (k : Nat) :
    (laneMask m).getLsbD k = (decide (k < 2048) && m.getLsbD (k / 32)) := by
  by_cases h : k < 2048
  · have hj : k / 32 < 2048 / 32 := by omega
    have e := elemAt_testBit (w := 32) (laneMask m) (k / 32) (k % 32)
    rw [laneMask, elemAt_ofElems (w := 32) rfl _ hj] at e
    have hk : 32 * (k / 32) + k % 32 = k := by omega
    have hi : k % 32 < 32 := by omega
    rw [hk] at e
    simp only [hi, decide_true, Bool.true_and] at e
    rw [laneMask, ← e]
    cases m.getLsbD (k / 32)
    · simp [h]
    · have : ((2 ^ 32 - 1 : Nat) % 2 ^ 32).testBit (k % 32) = true := by
        rw [Nat.testBit_mod_two_pow, Nat.testBit_two_pow_sub_one]; simp [hi]
      simpa [h] using this
  · simp [h, BitVec.getLsbD_of_ge _ _ (Nat.le_of_not_lt h)]

/-- An element under a lane mask: kept whole when its lane is on, 0 when it is off. -/
theorem elemAt_masked {w : Nat} (hw : w * (2048 / w) = 2048) (v : Lanes) (g : W64) {j : Nat} (h : j < 2048 / w)
    (h5 : w = 64 ∨ w ∣ 32) :
    elemAt w (v &&& laneMask (enabled w g)) j = if g.getLsbD (j * w / 32) then elemAt w v j else 0 := by
  have hb : ∀ i, i < w → w * j + i < 2048 := by
    intro i hi
    have : w * (j + 1) ≤ w * (2048 / w) := Nat.mul_le_mul_left _ h
    rw [hw, Nat.mul_succ] at this; omega
  have key : ∀ i, i < w → (enabled w g).getLsbD ((w * j + i) / 32) = g.getLsbD (j * w / 32) := by
    intro i hi
    have hlt := hb i hi
    rcases h5 with rfl | hd
    · simp only [enabled, if_true]
      rw [getLsbD_maskOf]
      have h1 : (64 * j + i) / 32 < 64 := by omega
      have h2 : (64 * j + i) / 32 / 2 * 2 = j * 64 / 32 := by omega
      simp [h1, h2]
    · have hne : w ≠ 64 := fun e => by subst e; revert hd; decide
      simp only [enabled, hne, if_false]
      obtain ⟨c, hc⟩ := hd
      have hcp : 0 < c := by rcases Nat.eq_zero_or_pos c with rfl | hp; simp at hc; exact hp
      have hwp : 0 < w := by omega
      congr 1
      have : ∀ x, x / 32 = x / w / c := fun x => by rw [Nat.div_div_eq_div_mul, ← hc]
      rw [this, this, Nat.mul_add_div hwp, Nat.div_eq_of_lt hi, Nat.mul_comm j w, Nat.mul_div_cancel_left _ hwp, Nat.add_zero]
  apply Nat.eq_of_testBit_eq
  intro i
  rw [elemAt_testBit]
  by_cases hi : i < w
  · rw [BitVec.getLsbD_and, getLsbD_laneMask, key i hi]
    cases hg : g.getLsbD (j * w / 32)
    · simp
    · simp only [if_true]; rw [elemAt_testBit]; simp [hi, hb i hi]
  · simp only [hi, decide_false, Bool.false_and]
    split
    · rw [elemAt_testBit]; simp [hi]
    · simp

theorem width_lanes (t : ETy) : t.width = 64 ∨ t.width ∣ 32 := by cases t <;> decide

/-- What an element word writes: the enabled elements, and 0 in the others. -/
theorem elemAt_enabled (t : ETy) (f : Nat → Nat) (g : W64) {j : Nat} (h : j < 2048 / t.width) :
    elemAt t.width (ofElems t.width f &&& laneMask (enabled t.width g)) j =
      if g.getLsbD (j * t.width / 32) then f j % 2 ^ t.width else 0 := by
  rw [elemAt_masked (width_fills t) _ _ h (width_lanes t), elemAt_ofElems (width_fills t) f h]

/-- Elements are what a register is made of. -/
theorem ofElems_congr {w : Nat} {f g : Nat → Nat} (e : ∀ j, j < 2048 / w → f j % 2 ^ w = g j % 2 ^ w) :
    ofElems w f = ofElems w g := by
  have : ∀ n, n ≤ 2048 / w → packN w f n = packN w g n := by
    intro n
    induction n with
    | zero => intro; rfl
    | succ n ih => intro hn; simp only [packN]; rw [ih (by omega), e n (by omega)]
  rw [ofElems, ofElems, this _ (Nat.le_refl _)]

end Sys2Proof.Machine
end

