-- ==== Sys2Proof/Laws/State.lean ====
section
/-!
SUPPORT. One lemma per field and update of the state and of a strand: what the update leaves in the field. All are true by
unfolding and tagged for simp, so that no proof unfolds a record update.
-/

namespace Sys2Proof.Machine

/-! ### State.setMe -/

@[simp] theorem State.setMe_me (s : State) (m : Strand) : (s.setMe m).me = m := rfl
@[simp] theorem State.setMe_others (s : State) (m : Strand) : (s.setMe m).others = s.others := rfl
@[simp] theorem State.setMe_nextId (s : State) (m : Strand) : (s.setMe m).nextId = s.nextId := rfl
@[simp] theorem State.setMe_agenda (s : State) (m : Strand) : (s.setMe m).agenda = s.agenda := rfl
@[simp] theorem State.setMe_sels (s : State) (m : Strand) : (s.setMe m).sels = s.sels := rfl
@[simp] theorem State.setMe_cycles (s : State) (m : Strand) : (s.setMe m).cycles = s.cycles := rfl
@[simp] theorem State.setMe_fresh (s : State) (m : Strand) : (s.setMe m).fresh = s.fresh := rfl
@[simp] theorem State.setMe_mem (s : State) (m : Strand) : (s.setMe m).mem = s.mem := rfl
@[simp] theorem State.setMe_poison (s : State) (m : Strand) : (s.setMe m).poison = s.poison := rfl
@[simp] theorem State.setMe_sram (s : State) (m : Strand) : (s.setMe m).sram = s.sram := rfl
@[simp] theorem State.setMe_sramPoison (s : State) (m : Strand) : (s.setMe m).sramPoison = s.sramPoison := rfl
@[simp] theorem State.setMe_ctxs (s : State) (m : Strand) : (s.setMe m).ctxs = s.ctxs := rfl
@[simp] theorem State.setMe_regions (s : State) (m : Strand) : (s.setMe m).regions = s.regions := rfl
@[simp] theorem State.setMe_slog (s : State) (m : Strand) : (s.setMe m).slog = s.slog := rfl
@[simp] theorem State.setMe_barriers (s : State) (m : Strand) : (s.setMe m).barriers = s.barriers := rfl
@[simp] theorem State.setMe_xs (s : State) (m : Strand) : (s.setMe m).xs = s.xs := rfl
@[simp] theorem State.setMe_asgens (s : State) (m : Strand) : (s.setMe m).asgens = s.asgens := rfl
@[simp] theorem State.setMe_faults (s : State) (m : Strand) : (s.setMe m).faults = s.faults := rfl
@[simp] theorem State.setMe_faultSeq (s : State) (m : Strand) : (s.setMe m).faultSeq = s.faultSeq := rfl
@[simp] theorem State.setMe_objs (s : State) (m : Strand) : (s.setMe m).objs = s.objs := rfl
@[simp] theorem State.setMe_mtime (s : State) (m : Strand) : (s.setMe m).mtime = s.mtime := rfl
@[simp] theorem State.setMe_lastServed (s : State) (m : Strand) : (s.setMe m).lastServed = s.lastServed := rfl
@[simp] theorem State.setMe_admCount (s : State) (m : Strand) : (s.setMe m).admCount = s.admCount := rfl
@[simp] theorem State.setMe_hbmgang (s : State) (m : Strand) : (s.setMe m).hbmgang = s.hbmgang := rfl
@[simp] theorem State.setMe_measLog (s : State) (m : Strand) : (s.setMe m).measLog = s.measLog := rfl
@[simp] theorem State.setMe_logHash (s : State) (m : Strand) : (s.setMe m).logHash = s.logHash := rfl
@[simp] theorem State.setMe_fatal (s : State) (m : Strand) : (s.setMe m).fatal = s.fatal := rfl
@[simp] theorem State.setMe_ckpt (s : State) (m : Strand) : (s.setMe m).ckpt = s.ckpt := rfl
@[simp] theorem State.setMe_images (s : State) (m : Strand) : (s.setMe m).images = s.images := rfl
@[simp] theorem State.setMe_hostHeld (s : State) (m : Strand) : (s.setMe m).hostHeld = s.hostHeld := rfl
@[simp] theorem State.setMe_inbox (s : State) (m : Strand) : (s.setMe m).inbox = s.inbox := rfl
@[simp] theorem State.setMe_outbox (s : State) (m : Strand) : (s.setMe m).outbox = s.outbox := rfl
@[simp] theorem State.setMe_extents (s : State) (m : Strand) : (s.setMe m).extents = s.extents := rfl
@[simp] theorem State.setMe_pages (s : State) (m : Strand) : (s.setMe m).pages = s.pages := rfl
@[simp] theorem State.setMe_events (s : State) (m : Strand) : (s.setMe m).events = s.events := rfl
@[simp] theorem State.setMe_faultQs (s : State) (m : Strand) : (s.setMe m).faultQs = s.faultQs := rfl
@[simp] theorem State.setMe_mer (s : State) (m : Strand) : (s.setMe m).mer = s.mer := rfl
@[simp] theorem State.setMe_eph (s : State) (m : Strand) : (s.setMe m).eph = s.eph := rfl
@[simp] theorem State.setMe_hbm (s : State) (m : Strand) : (s.setMe m).hbm = s.hbm := rfl
@[simp] theorem State.setMe_plims (s : State) (m : Strand) : (s.setMe m).plims = s.plims := rfl
@[simp] theorem State.setMe_reten (s : State) (m : Strand) : (s.setMe m).reten = s.reten := rfl
@[simp] theorem State.setMe_tsram (s : State) (m : Strand) : (s.setMe m).tsram = s.tsram := rfl
@[simp] theorem State.setMe_cxl (s : State) (m : Strand) : (s.setMe m).cxl = s.cxl := rfl
@[simp] theorem State.setMe_decs (s : State) (m : Strand) : (s.setMe m).decs = s.decs := rfl
@[simp] theorem State.setMe_ual (s : State) (m : Strand) : (s.setMe m).ual = s.ual := rfl
@[simp] theorem State.setMe_plat (s : State) (m : Strand) : (s.setMe m).plat = s.plat := rfl
@[simp] theorem State.setMe_hostRejects (s : State) (m : Strand) : (s.setMe m).hostRejects = s.hostRejects := rfl
@[simp] theorem State.setMe_hostBad (s : State) (m : Strand) : (s.setMe m).hostBad = s.hostBad := rfl
@[simp] theorem State.setMe_linePoison (s : State) (m : Strand) : (s.setMe m).linePoison = s.linePoison := rfl
@[simp] theorem State.setMe_gone (s : State) (m : Strand) : (s.setMe m).gone = s.gone := rfl
@[simp] theorem State.setMe_foreign (s : State) (m : Strand) : (s.setMe m).foreign = s.foreign := rfl

/-! ### State.mapStrands -/

@[simp] theorem State.mapStrands_me (s : State) (g : Strand → Strand) : (s.mapStrands g).me = g s.me := rfl
@[simp] theorem State.mapStrands_others (s : State) (g : Strand → Strand) : (s.mapStrands g).others = s.others.map g := rfl
@[simp] theorem State.mapStrands_nextId (s : State) (g : Strand → Strand) : (s.mapStrands g).nextId = s.nextId := rfl
@[simp] theorem State.mapStrands_agenda (s : State) (g : Strand → Strand) : (s.mapStrands g).agenda = s.agenda := rfl
@[simp] theorem State.mapStrands_sels (s : State) (g : Strand → Strand) : (s.mapStrands g).sels = s.sels := rfl
@[simp] theorem State.mapStrands_cycles (s : State) (g : Strand → Strand) : (s.mapStrands g).cycles = s.cycles := rfl
@[simp] theorem State.mapStrands_fresh (s : State) (g : Strand → Strand) : (s.mapStrands g).fresh = s.fresh := rfl
@[simp] theorem State.mapStrands_mem (s : State) (g : Strand → Strand) : (s.mapStrands g).mem = s.mem := rfl
@[simp] theorem State.mapStrands_poison (s : State) (g : Strand → Strand) : (s.mapStrands g).poison = s.poison := rfl
@[simp] theorem State.mapStrands_sram (s : State) (g : Strand → Strand) : (s.mapStrands g).sram = s.sram := rfl
@[simp] theorem State.mapStrands_sramPoison (s : State) (g : Strand → Strand) : (s.mapStrands g).sramPoison = s.sramPoison := rfl
@[simp] theorem State.mapStrands_ctxs (s : State) (g : Strand → Strand) : (s.mapStrands g).ctxs = s.ctxs := rfl
@[simp] theorem State.mapStrands_regions (s : State) (g : Strand → Strand) : (s.mapStrands g).regions = s.regions := rfl
@[simp] theorem State.mapStrands_slog (s : State) (g : Strand → Strand) : (s.mapStrands g).slog = s.slog := rfl
@[simp] theorem State.mapStrands_barriers (s : State) (g : Strand → Strand) : (s.mapStrands g).barriers = s.barriers := rfl
@[simp] theorem State.mapStrands_xs (s : State) (g : Strand → Strand) : (s.mapStrands g).xs = s.xs := rfl
@[simp] theorem State.mapStrands_asgens (s : State) (g : Strand → Strand) : (s.mapStrands g).asgens = s.asgens := rfl
@[simp] theorem State.mapStrands_faults (s : State) (g : Strand → Strand) : (s.mapStrands g).faults = s.faults := rfl
@[simp] theorem State.mapStrands_faultSeq (s : State) (g : Strand → Strand) : (s.mapStrands g).faultSeq = s.faultSeq := rfl
@[simp] theorem State.mapStrands_objs (s : State) (g : Strand → Strand) : (s.mapStrands g).objs = s.objs := rfl
@[simp] theorem State.mapStrands_mtime (s : State) (g : Strand → Strand) : (s.mapStrands g).mtime = s.mtime := rfl
@[simp] theorem State.mapStrands_lastServed (s : State) (g : Strand → Strand) : (s.mapStrands g).lastServed = s.lastServed := rfl
@[simp] theorem State.mapStrands_admCount (s : State) (g : Strand → Strand) : (s.mapStrands g).admCount = s.admCount := rfl
@[simp] theorem State.mapStrands_hbmgang (s : State) (g : Strand → Strand) : (s.mapStrands g).hbmgang = s.hbmgang := rfl
@[simp] theorem State.mapStrands_measLog (s : State) (g : Strand → Strand) : (s.mapStrands g).measLog = s.measLog := rfl
@[simp] theorem State.mapStrands_logHash (s : State) (g : Strand → Strand) : (s.mapStrands g).logHash = s.logHash := rfl
@[simp] theorem State.mapStrands_fatal (s : State) (g : Strand → Strand) : (s.mapStrands g).fatal = s.fatal := rfl
@[simp] theorem State.mapStrands_ckpt (s : State) (g : Strand → Strand) : (s.mapStrands g).ckpt = s.ckpt := rfl
@[simp] theorem State.mapStrands_images (s : State) (g : Strand → Strand) : (s.mapStrands g).images = s.images := rfl
@[simp] theorem State.mapStrands_hostHeld (s : State) (g : Strand → Strand) : (s.mapStrands g).hostHeld = s.hostHeld := rfl
@[simp] theorem State.mapStrands_inbox (s : State) (g : Strand → Strand) : (s.mapStrands g).inbox = s.inbox := rfl
@[simp] theorem State.mapStrands_outbox (s : State) (g : Strand → Strand) : (s.mapStrands g).outbox = s.outbox := rfl
@[simp] theorem State.mapStrands_extents (s : State) (g : Strand → Strand) : (s.mapStrands g).extents = s.extents := rfl
@[simp] theorem State.mapStrands_pages (s : State) (g : Strand → Strand) : (s.mapStrands g).pages = s.pages := rfl
@[simp] theorem State.mapStrands_events (s : State) (g : Strand → Strand) : (s.mapStrands g).events = s.events := rfl
@[simp] theorem State.mapStrands_faultQs (s : State) (g : Strand → Strand) : (s.mapStrands g).faultQs = s.faultQs := rfl
@[simp] theorem State.mapStrands_mer (s : State) (g : Strand → Strand) : (s.mapStrands g).mer = s.mer := rfl
@[simp] theorem State.mapStrands_eph (s : State) (g : Strand → Strand) : (s.mapStrands g).eph = s.eph := rfl
@[simp] theorem State.mapStrands_hbm (s : State) (g : Strand → Strand) : (s.mapStrands g).hbm = s.hbm := rfl
@[simp] theorem State.mapStrands_plims (s : State) (g : Strand → Strand) : (s.mapStrands g).plims = s.plims := rfl
@[simp] theorem State.mapStrands_reten (s : State) (g : Strand → Strand) : (s.mapStrands g).reten = s.reten := rfl
@[simp] theorem State.mapStrands_tsram (s : State) (g : Strand → Strand) : (s.mapStrands g).tsram = s.tsram := rfl
@[simp] theorem State.mapStrands_cxl (s : State) (g : Strand → Strand) : (s.mapStrands g).cxl = s.cxl := rfl
@[simp] theorem State.mapStrands_decs (s : State) (g : Strand → Strand) : (s.mapStrands g).decs = s.decs := rfl
@[simp] theorem State.mapStrands_ual (s : State) (g : Strand → Strand) : (s.mapStrands g).ual = s.ual := rfl
@[simp] theorem State.mapStrands_plat (s : State) (g : Strand → Strand) : (s.mapStrands g).plat = s.plat := rfl
@[simp] theorem State.mapStrands_hostRejects (s : State) (g : Strand → Strand) : (s.mapStrands g).hostRejects = s.hostRejects := rfl
@[simp] theorem State.mapStrands_hostBad (s : State) (g : Strand → Strand) : (s.mapStrands g).hostBad = s.hostBad := rfl
@[simp] theorem State.mapStrands_linePoison (s : State) (g : Strand → Strand) : (s.mapStrands g).linePoison = s.linePoison := rfl
@[simp] theorem State.mapStrands_gone (s : State) (g : Strand → Strand) : (s.mapStrands g).gone = s.gone := rfl
@[simp] theorem State.mapStrands_foreign (s : State) (g : Strand → Strand) : (s.mapStrands g).foreign = s.foreign := rfl

/-! ### State.updStrand -/

@[simp] theorem State.updStrand_me (s : State) (k : Nat) (g : Strand → Strand) : (s.updStrand k g).me = if s.me.id = k then g s.me else s.me := rfl
@[simp] theorem State.updStrand_others (s : State) (k : Nat) (g : Strand → Strand) : (s.updStrand k g).others = s.others.map fun m => if m.id = k then g m else m := rfl
@[simp] theorem State.updStrand_nextId (s : State) (k : Nat) (g : Strand → Strand) : (s.updStrand k g).nextId = s.nextId := rfl
@[simp] theorem State.updStrand_agenda (s : State) (k : Nat) (g : Strand → Strand) : (s.updStrand k g).agenda = s.agenda := rfl
@[simp] theorem State.updStrand_sels (s : State) (k : Nat) (g : Strand → Strand) : (s.updStrand k g).sels = s.sels := rfl
@[simp] theorem State.updStrand_cycles (s : State) (k : Nat) (g : Strand → Strand) : (s.updStrand k g).cycles = s.cycles := rfl
@[simp] theorem State.updStrand_fresh (s : State) (k : Nat) (g : Strand → Strand) : (s.updStrand k g).fresh = s.fresh := rfl
@[simp] theorem State.updStrand_mem (s : State) (k : Nat) (g : Strand → Strand) : (s.updStrand k g).mem = s.mem := rfl
@[simp] theorem State.updStrand_poison (s : State) (k : Nat) (g : Strand → Strand) : (s.updStrand k g).poison = s.poison := rfl
@[simp] theorem State.updStrand_sram (s : State) (k : Nat) (g : Strand → Strand) : (s.updStrand k g).sram = s.sram := rfl
@[simp] theorem State.updStrand_sramPoison (s : State) (k : Nat) (g : Strand → Strand) : (s.updStrand k g).sramPoison = s.sramPoison := rfl
@[simp] theorem State.updStrand_ctxs (s : State) (k : Nat) (g : Strand → Strand) : (s.updStrand k g).ctxs = s.ctxs := rfl
@[simp] theorem State.updStrand_regions (s : State) (k : Nat) (g : Strand → Strand) : (s.updStrand k g).regions = s.regions := rfl
@[simp] theorem State.updStrand_slog (s : State) (k : Nat) (g : Strand → Strand) : (s.updStrand k g).slog = s.slog := rfl
@[simp] theorem State.updStrand_barriers (s : State) (k : Nat) (g : Strand → Strand) : (s.updStrand k g).barriers = s.barriers := rfl
@[simp] theorem State.updStrand_xs (s : State) (k : Nat) (g : Strand → Strand) : (s.updStrand k g).xs = s.xs := rfl
@[simp] theorem State.updStrand_asgens (s : State) (k : Nat) (g : Strand → Strand) : (s.updStrand k g).asgens = s.asgens := rfl
@[simp] theorem State.updStrand_faults (s : State) (k : Nat) (g : Strand → Strand) : (s.updStrand k g).faults = s.faults := rfl
@[simp] theorem State.updStrand_faultSeq (s : State) (k : Nat) (g : Strand → Strand) : (s.updStrand k g).faultSeq = s.faultSeq := rfl
@[simp] theorem State.updStrand_objs (s : State) (k : Nat) (g : Strand → Strand) : (s.updStrand k g).objs = s.objs := rfl
@[simp] theorem State.updStrand_mtime (s : State) (k : Nat) (g : Strand → Strand) : (s.updStrand k g).mtime = s.mtime := rfl
@[simp] theorem State.updStrand_lastServed (s : State) (k : Nat) (g : Strand → Strand) : (s.updStrand k g).lastServed = s.lastServed := rfl
@[simp] theorem State.updStrand_admCount (s : State) (k : Nat) (g : Strand → Strand) : (s.updStrand k g).admCount = s.admCount := rfl
@[simp] theorem State.updStrand_hbmgang (s : State) (k : Nat) (g : Strand → Strand) : (s.updStrand k g).hbmgang = s.hbmgang := rfl
@[simp] theorem State.updStrand_measLog (s : State) (k : Nat) (g : Strand → Strand) : (s.updStrand k g).measLog = s.measLog := rfl
@[simp] theorem State.updStrand_logHash (s : State) (k : Nat) (g : Strand → Strand) : (s.updStrand k g).logHash = s.logHash := rfl
@[simp] theorem State.updStrand_fatal (s : State) (k : Nat) (g : Strand → Strand) : (s.updStrand k g).fatal = s.fatal := rfl
@[simp] theorem State.updStrand_ckpt (s : State) (k : Nat) (g : Strand → Strand) : (s.updStrand k g).ckpt = s.ckpt := rfl
@[simp] theorem State.updStrand_images (s : State) (k : Nat) (g : Strand → Strand) : (s.updStrand k g).images = s.images := rfl
@[simp] theorem State.updStrand_hostHeld (s : State) (k : Nat) (g : Strand → Strand) : (s.updStrand k g).hostHeld = s.hostHeld := rfl
@[simp] theorem State.updStrand_inbox (s : State) (k : Nat) (g : Strand → Strand) : (s.updStrand k g).inbox = s.inbox := rfl
@[simp] theorem State.updStrand_outbox (s : State) (k : Nat) (g : Strand → Strand) : (s.updStrand k g).outbox = s.outbox := rfl
@[simp] theorem State.updStrand_extents (s : State) (k : Nat) (g : Strand → Strand) : (s.updStrand k g).extents = s.extents := rfl
@[simp] theorem State.updStrand_pages (s : State) (k : Nat) (g : Strand → Strand) : (s.updStrand k g).pages = s.pages := rfl
@[simp] theorem State.updStrand_events (s : State) (k : Nat) (g : Strand → Strand) : (s.updStrand k g).events = s.events := rfl
@[simp] theorem State.updStrand_faultQs (s : State) (k : Nat) (g : Strand → Strand) : (s.updStrand k g).faultQs = s.faultQs := rfl
@[simp] theorem State.updStrand_mer (s : State) (k : Nat) (g : Strand → Strand) : (s.updStrand k g).mer = s.mer := rfl
@[simp] theorem State.updStrand_eph (s : State) (k : Nat) (g : Strand → Strand) : (s.updStrand k g).eph = s.eph := rfl
@[simp] theorem State.updStrand_hbm (s : State) (k : Nat) (g : Strand → Strand) : (s.updStrand k g).hbm = s.hbm := rfl
@[simp] theorem State.updStrand_plims (s : State) (k : Nat) (g : Strand → Strand) : (s.updStrand k g).plims = s.plims := rfl
@[simp] theorem State.updStrand_reten (s : State) (k : Nat) (g : Strand → Strand) : (s.updStrand k g).reten = s.reten := rfl
@[simp] theorem State.updStrand_tsram (s : State) (k : Nat) (g : Strand → Strand) : (s.updStrand k g).tsram = s.tsram := rfl
@[simp] theorem State.updStrand_cxl (s : State) (k : Nat) (g : Strand → Strand) : (s.updStrand k g).cxl = s.cxl := rfl
@[simp] theorem State.updStrand_decs (s : State) (k : Nat) (g : Strand → Strand) : (s.updStrand k g).decs = s.decs := rfl
@[simp] theorem State.updStrand_ual (s : State) (k : Nat) (g : Strand → Strand) : (s.updStrand k g).ual = s.ual := rfl
@[simp] theorem State.updStrand_plat (s : State) (k : Nat) (g : Strand → Strand) : (s.updStrand k g).plat = s.plat := rfl
@[simp] theorem State.updStrand_hostRejects (s : State) (k : Nat) (g : Strand → Strand) : (s.updStrand k g).hostRejects = s.hostRejects := rfl
@[simp] theorem State.updStrand_hostBad (s : State) (k : Nat) (g : Strand → Strand) : (s.updStrand k g).hostBad = s.hostBad := rfl
@[simp] theorem State.updStrand_linePoison (s : State) (k : Nat) (g : Strand → Strand) : (s.updStrand k g).linePoison = s.linePoison := rfl
@[simp] theorem State.updStrand_gone (s : State) (k : Nat) (g : Strand → Strand) : (s.updStrand k g).gone = s.gone := rfl
@[simp] theorem State.updStrand_foreign (s : State) (k : Nat) (g : Strand → Strand) : (s.updStrand k g).foreign = s.foreign := rfl

/-! ### State.setCtx -/

@[simp] theorem State.setCtx_me (s : State) (k : Nat) (c : Ctx) : (s.setCtx k c).me = s.me := rfl
@[simp] theorem State.setCtx_others (s : State) (k : Nat) (c : Ctx) : (s.setCtx k c).others = s.others := rfl
@[simp] theorem State.setCtx_nextId (s : State) (k : Nat) (c : Ctx) : (s.setCtx k c).nextId = s.nextId := rfl
@[simp] theorem State.setCtx_agenda (s : State) (k : Nat) (c : Ctx) : (s.setCtx k c).agenda = s.agenda := rfl
@[simp] theorem State.setCtx_sels (s : State) (k : Nat) (c : Ctx) : (s.setCtx k c).sels = s.sels := rfl
@[simp] theorem State.setCtx_cycles (s : State) (k : Nat) (c : Ctx) : (s.setCtx k c).cycles = s.cycles := rfl
@[simp] theorem State.setCtx_fresh (s : State) (k : Nat) (c : Ctx) : (s.setCtx k c).fresh = s.fresh := rfl
@[simp] theorem State.setCtx_mem (s : State) (k : Nat) (c : Ctx) : (s.setCtx k c).mem = s.mem := rfl
@[simp] theorem State.setCtx_poison (s : State) (k : Nat) (c : Ctx) : (s.setCtx k c).poison = s.poison := rfl
@[simp] theorem State.setCtx_sram (s : State) (k : Nat) (c : Ctx) : (s.setCtx k c).sram = s.sram := rfl
@[simp] theorem State.setCtx_sramPoison (s : State) (k : Nat) (c : Ctx) : (s.setCtx k c).sramPoison = s.sramPoison := rfl
@[simp] theorem State.setCtx_ctxs (s : State) (k : Nat) (c : Ctx) : (s.setCtx k c).ctxs = tset Ctx.blank s.ctxs k c := rfl
@[simp] theorem State.setCtx_regions (s : State) (k : Nat) (c : Ctx) : (s.setCtx k c).regions = s.regions := rfl
@[simp] theorem State.setCtx_slog (s : State) (k : Nat) (c : Ctx) : (s.setCtx k c).slog = s.slog := rfl
@[simp] theorem State.setCtx_barriers (s : State) (k : Nat) (c : Ctx) : (s.setCtx k c).barriers = s.barriers := rfl
@[simp] theorem State.setCtx_xs (s : State) (k : Nat) (c : Ctx) : (s.setCtx k c).xs = s.xs := rfl
@[simp] theorem State.setCtx_asgens (s : State) (k : Nat) (c : Ctx) : (s.setCtx k c).asgens = s.asgens := rfl
@[simp] theorem State.setCtx_faults (s : State) (k : Nat) (c : Ctx) : (s.setCtx k c).faults = s.faults := rfl
@[simp] theorem State.setCtx_faultSeq (s : State) (k : Nat) (c : Ctx) : (s.setCtx k c).faultSeq = s.faultSeq := rfl
@[simp] theorem State.setCtx_objs (s : State) (k : Nat) (c : Ctx) : (s.setCtx k c).objs = s.objs := rfl
@[simp] theorem State.setCtx_mtime (s : State) (k : Nat) (c : Ctx) : (s.setCtx k c).mtime = s.mtime := rfl
@[simp] theorem State.setCtx_lastServed (s : State) (k : Nat) (c : Ctx) : (s.setCtx k c).lastServed = s.lastServed := rfl
@[simp] theorem State.setCtx_admCount (s : State) (k : Nat) (c : Ctx) : (s.setCtx k c).admCount = s.admCount := rfl
@[simp] theorem State.setCtx_hbmgang (s : State) (k : Nat) (c : Ctx) : (s.setCtx k c).hbmgang = s.hbmgang := rfl
@[simp] theorem State.setCtx_measLog (s : State) (k : Nat) (c : Ctx) : (s.setCtx k c).measLog = s.measLog := rfl
@[simp] theorem State.setCtx_logHash (s : State) (k : Nat) (c : Ctx) : (s.setCtx k c).logHash = s.logHash := rfl
@[simp] theorem State.setCtx_fatal (s : State) (k : Nat) (c : Ctx) : (s.setCtx k c).fatal = s.fatal := rfl
@[simp] theorem State.setCtx_ckpt (s : State) (k : Nat) (c : Ctx) : (s.setCtx k c).ckpt = s.ckpt := rfl
@[simp] theorem State.setCtx_images (s : State) (k : Nat) (c : Ctx) : (s.setCtx k c).images = s.images := rfl
@[simp] theorem State.setCtx_hostHeld (s : State) (k : Nat) (c : Ctx) : (s.setCtx k c).hostHeld = s.hostHeld := rfl
@[simp] theorem State.setCtx_inbox (s : State) (k : Nat) (c : Ctx) : (s.setCtx k c).inbox = s.inbox := rfl
@[simp] theorem State.setCtx_outbox (s : State) (k : Nat) (c : Ctx) : (s.setCtx k c).outbox = s.outbox := rfl
@[simp] theorem State.setCtx_extents (s : State) (k : Nat) (c : Ctx) : (s.setCtx k c).extents = s.extents := rfl
@[simp] theorem State.setCtx_pages (s : State) (k : Nat) (c : Ctx) : (s.setCtx k c).pages = s.pages := rfl
@[simp] theorem State.setCtx_events (s : State) (k : Nat) (c : Ctx) : (s.setCtx k c).events = s.events := rfl
@[simp] theorem State.setCtx_faultQs (s : State) (k : Nat) (c : Ctx) : (s.setCtx k c).faultQs = s.faultQs := rfl
@[simp] theorem State.setCtx_mer (s : State) (k : Nat) (c : Ctx) : (s.setCtx k c).mer = s.mer := rfl
@[simp] theorem State.setCtx_eph (s : State) (k : Nat) (c : Ctx) : (s.setCtx k c).eph = s.eph := rfl
@[simp] theorem State.setCtx_hbm (s : State) (k : Nat) (c : Ctx) : (s.setCtx k c).hbm = s.hbm := rfl
@[simp] theorem State.setCtx_plims (s : State) (k : Nat) (c : Ctx) : (s.setCtx k c).plims = s.plims := rfl
@[simp] theorem State.setCtx_reten (s : State) (k : Nat) (c : Ctx) : (s.setCtx k c).reten = s.reten := rfl
@[simp] theorem State.setCtx_tsram (s : State) (k : Nat) (c : Ctx) : (s.setCtx k c).tsram = s.tsram := rfl
@[simp] theorem State.setCtx_cxl (s : State) (k : Nat) (c : Ctx) : (s.setCtx k c).cxl = s.cxl := rfl
@[simp] theorem State.setCtx_decs (s : State) (k : Nat) (c : Ctx) : (s.setCtx k c).decs = s.decs := rfl
@[simp] theorem State.setCtx_ual (s : State) (k : Nat) (c : Ctx) : (s.setCtx k c).ual = s.ual := rfl
@[simp] theorem State.setCtx_plat (s : State) (k : Nat) (c : Ctx) : (s.setCtx k c).plat = s.plat := rfl
@[simp] theorem State.setCtx_hostRejects (s : State) (k : Nat) (c : Ctx) : (s.setCtx k c).hostRejects = s.hostRejects := rfl
@[simp] theorem State.setCtx_hostBad (s : State) (k : Nat) (c : Ctx) : (s.setCtx k c).hostBad = s.hostBad := rfl
@[simp] theorem State.setCtx_linePoison (s : State) (k : Nat) (c : Ctx) : (s.setCtx k c).linePoison = s.linePoison := rfl
@[simp] theorem State.setCtx_gone (s : State) (k : Nat) (c : Ctx) : (s.setCtx k c).gone = s.gone := rfl
@[simp] theorem State.setCtx_foreign (s : State) (k : Nat) (c : Ctx) : (s.setCtx k c).foreign = s.foreign := rfl

/-! ### State.updCtx -/

@[simp] theorem State.updCtx_me (s : State) (k : Nat) (g : Ctx → Ctx) : (s.updCtx k g).me = s.me := rfl
@[simp] theorem State.updCtx_others (s : State) (k : Nat) (g : Ctx → Ctx) : (s.updCtx k g).others = s.others := rfl
@[simp] theorem State.updCtx_nextId (s : State) (k : Nat) (g : Ctx → Ctx) : (s.updCtx k g).nextId = s.nextId := rfl
@[simp] theorem State.updCtx_agenda (s : State) (k : Nat) (g : Ctx → Ctx) : (s.updCtx k g).agenda = s.agenda := rfl
@[simp] theorem State.updCtx_sels (s : State) (k : Nat) (g : Ctx → Ctx) : (s.updCtx k g).sels = s.sels := rfl
@[simp] theorem State.updCtx_cycles (s : State) (k : Nat) (g : Ctx → Ctx) : (s.updCtx k g).cycles = s.cycles := rfl
@[simp] theorem State.updCtx_fresh (s : State) (k : Nat) (g : Ctx → Ctx) : (s.updCtx k g).fresh = s.fresh := rfl
@[simp] theorem State.updCtx_mem (s : State) (k : Nat) (g : Ctx → Ctx) : (s.updCtx k g).mem = s.mem := rfl
@[simp] theorem State.updCtx_poison (s : State) (k : Nat) (g : Ctx → Ctx) : (s.updCtx k g).poison = s.poison := rfl
@[simp] theorem State.updCtx_sram (s : State) (k : Nat) (g : Ctx → Ctx) : (s.updCtx k g).sram = s.sram := rfl
@[simp] theorem State.updCtx_sramPoison (s : State) (k : Nat) (g : Ctx → Ctx) : (s.updCtx k g).sramPoison = s.sramPoison := rfl
@[simp] theorem State.updCtx_ctxs (s : State) (k : Nat) (g : Ctx → Ctx) : (s.updCtx k g).ctxs = tset Ctx.blank s.ctxs k (g (s.ctx k)) := rfl
@[simp] theorem State.updCtx_regions (s : State) (k : Nat) (g : Ctx → Ctx) : (s.updCtx k g).regions = s.regions := rfl
@[simp] theorem State.updCtx_slog (s : State) (k : Nat) (g : Ctx → Ctx) : (s.updCtx k g).slog = s.slog := rfl
@[simp] theorem State.updCtx_barriers (s : State) (k : Nat) (g : Ctx → Ctx) : (s.updCtx k g).barriers = s.barriers := rfl
@[simp] theorem State.updCtx_xs (s : State) (k : Nat) (g : Ctx → Ctx) : (s.updCtx k g).xs = s.xs := rfl
@[simp] theorem State.updCtx_asgens (s : State) (k : Nat) (g : Ctx → Ctx) : (s.updCtx k g).asgens = s.asgens := rfl
@[simp] theorem State.updCtx_faults (s : State) (k : Nat) (g : Ctx → Ctx) : (s.updCtx k g).faults = s.faults := rfl
@[simp] theorem State.updCtx_faultSeq (s : State) (k : Nat) (g : Ctx → Ctx) : (s.updCtx k g).faultSeq = s.faultSeq := rfl
@[simp] theorem State.updCtx_objs (s : State) (k : Nat) (g : Ctx → Ctx) : (s.updCtx k g).objs = s.objs := rfl
@[simp] theorem State.updCtx_mtime (s : State) (k : Nat) (g : Ctx → Ctx) : (s.updCtx k g).mtime = s.mtime := rfl
@[simp] theorem State.updCtx_lastServed (s : State) (k : Nat) (g : Ctx → Ctx) : (s.updCtx k g).lastServed = s.lastServed := rfl
@[simp] theorem State.updCtx_admCount (s : State) (k : Nat) (g : Ctx → Ctx) : (s.updCtx k g).admCount = s.admCount := rfl
@[simp] theorem State.updCtx_hbmgang (s : State) (k : Nat) (g : Ctx → Ctx) : (s.updCtx k g).hbmgang = s.hbmgang := rfl
@[simp] theorem State.updCtx_measLog (s : State) (k : Nat) (g : Ctx → Ctx) : (s.updCtx k g).measLog = s.measLog := rfl
@[simp] theorem State.updCtx_logHash (s : State) (k : Nat) (g : Ctx → Ctx) : (s.updCtx k g).logHash = s.logHash := rfl
@[simp] theorem State.updCtx_fatal (s : State) (k : Nat) (g : Ctx → Ctx) : (s.updCtx k g).fatal = s.fatal := rfl
@[simp] theorem State.updCtx_ckpt (s : State) (k : Nat) (g : Ctx → Ctx) : (s.updCtx k g).ckpt = s.ckpt := rfl
@[simp] theorem State.updCtx_images (s : State) (k : Nat) (g : Ctx → Ctx) : (s.updCtx k g).images = s.images := rfl
@[simp] theorem State.updCtx_hostHeld (s : State) (k : Nat) (g : Ctx → Ctx) : (s.updCtx k g).hostHeld = s.hostHeld := rfl
@[simp] theorem State.updCtx_inbox (s : State) (k : Nat) (g : Ctx → Ctx) : (s.updCtx k g).inbox = s.inbox := rfl
@[simp] theorem State.updCtx_outbox (s : State) (k : Nat) (g : Ctx → Ctx) : (s.updCtx k g).outbox = s.outbox := rfl
@[simp] theorem State.updCtx_extents (s : State) (k : Nat) (g : Ctx → Ctx) : (s.updCtx k g).extents = s.extents := rfl
@[simp] theorem State.updCtx_pages (s : State) (k : Nat) (g : Ctx → Ctx) : (s.updCtx k g).pages = s.pages := rfl
@[simp] theorem State.updCtx_events (s : State) (k : Nat) (g : Ctx → Ctx) : (s.updCtx k g).events = s.events := rfl
@[simp] theorem State.updCtx_faultQs (s : State) (k : Nat) (g : Ctx → Ctx) : (s.updCtx k g).faultQs = s.faultQs := rfl
@[simp] theorem State.updCtx_mer (s : State) (k : Nat) (g : Ctx → Ctx) : (s.updCtx k g).mer = s.mer := rfl
@[simp] theorem State.updCtx_eph (s : State) (k : Nat) (g : Ctx → Ctx) : (s.updCtx k g).eph = s.eph := rfl
@[simp] theorem State.updCtx_hbm (s : State) (k : Nat) (g : Ctx → Ctx) : (s.updCtx k g).hbm = s.hbm := rfl
@[simp] theorem State.updCtx_plims (s : State) (k : Nat) (g : Ctx → Ctx) : (s.updCtx k g).plims = s.plims := rfl
@[simp] theorem State.updCtx_reten (s : State) (k : Nat) (g : Ctx → Ctx) : (s.updCtx k g).reten = s.reten := rfl
@[simp] theorem State.updCtx_tsram (s : State) (k : Nat) (g : Ctx → Ctx) : (s.updCtx k g).tsram = s.tsram := rfl
@[simp] theorem State.updCtx_cxl (s : State) (k : Nat) (g : Ctx → Ctx) : (s.updCtx k g).cxl = s.cxl := rfl
@[simp] theorem State.updCtx_decs (s : State) (k : Nat) (g : Ctx → Ctx) : (s.updCtx k g).decs = s.decs := rfl
@[simp] theorem State.updCtx_ual (s : State) (k : Nat) (g : Ctx → Ctx) : (s.updCtx k g).ual = s.ual := rfl
@[simp] theorem State.updCtx_plat (s : State) (k : Nat) (g : Ctx → Ctx) : (s.updCtx k g).plat = s.plat := rfl
@[simp] theorem State.updCtx_hostRejects (s : State) (k : Nat) (g : Ctx → Ctx) : (s.updCtx k g).hostRejects = s.hostRejects := rfl
@[simp] theorem State.updCtx_hostBad (s : State) (k : Nat) (g : Ctx → Ctx) : (s.updCtx k g).hostBad = s.hostBad := rfl
@[simp] theorem State.updCtx_linePoison (s : State) (k : Nat) (g : Ctx → Ctx) : (s.updCtx k g).linePoison = s.linePoison := rfl
@[simp] theorem State.updCtx_gone (s : State) (k : Nat) (g : Ctx → Ctx) : (s.updCtx k g).gone = s.gone := rfl
@[simp] theorem State.updCtx_foreign (s : State) (k : Nat) (g : Ctx → Ctx) : (s.updCtx k g).foreign = s.foreign := rfl

/-! ### State.updRegion -/

@[simp] theorem State.updRegion_me (s : State) (a : Nat) (g : Region → Region) : (s.updRegion a g).me = s.me := rfl
@[simp] theorem State.updRegion_others (s : State) (a : Nat) (g : Region → Region) : (s.updRegion a g).others = s.others := rfl
@[simp] theorem State.updRegion_nextId (s : State) (a : Nat) (g : Region → Region) : (s.updRegion a g).nextId = s.nextId := rfl
@[simp] theorem State.updRegion_agenda (s : State) (a : Nat) (g : Region → Region) : (s.updRegion a g).agenda = s.agenda := rfl
@[simp] theorem State.updRegion_sels (s : State) (a : Nat) (g : Region → Region) : (s.updRegion a g).sels = s.sels := rfl
@[simp] theorem State.updRegion_cycles (s : State) (a : Nat) (g : Region → Region) : (s.updRegion a g).cycles = s.cycles := rfl
@[simp] theorem State.updRegion_fresh (s : State) (a : Nat) (g : Region → Region) : (s.updRegion a g).fresh = s.fresh := rfl
@[simp] theorem State.updRegion_mem (s : State) (a : Nat) (g : Region → Region) : (s.updRegion a g).mem = s.mem := rfl
@[simp] theorem State.updRegion_poison (s : State) (a : Nat) (g : Region → Region) : (s.updRegion a g).poison = s.poison := rfl
@[simp] theorem State.updRegion_sram (s : State) (a : Nat) (g : Region → Region) : (s.updRegion a g).sram = s.sram := rfl
@[simp] theorem State.updRegion_sramPoison (s : State) (a : Nat) (g : Region → Region) : (s.updRegion a g).sramPoison = s.sramPoison := rfl
@[simp] theorem State.updRegion_ctxs (s : State) (a : Nat) (g : Region → Region) : (s.updRegion a g).ctxs = s.ctxs := rfl
@[simp] theorem State.updRegion_regions (s : State) (a : Nat) (g : Region → Region) : (s.updRegion a g).regions = s.regions.map fun r => if r.addr = a then g r else r := rfl
@[simp] theorem State.updRegion_slog (s : State) (a : Nat) (g : Region → Region) : (s.updRegion a g).slog = s.slog := rfl
@[simp] theorem State.updRegion_barriers (s : State) (a : Nat) (g : Region → Region) : (s.updRegion a g).barriers = s.barriers := rfl
@[simp] theorem State.updRegion_xs (s : State) (a : Nat) (g : Region → Region) : (s.updRegion a g).xs = s.xs := rfl
@[simp] theorem State.updRegion_asgens (s : State) (a : Nat) (g : Region → Region) : (s.updRegion a g).asgens = s.asgens := rfl
@[simp] theorem State.updRegion_faults (s : State) (a : Nat) (g : Region → Region) : (s.updRegion a g).faults = s.faults := rfl
@[simp] theorem State.updRegion_faultSeq (s : State) (a : Nat) (g : Region → Region) : (s.updRegion a g).faultSeq = s.faultSeq := rfl
@[simp] theorem State.updRegion_objs (s : State) (a : Nat) (g : Region → Region) : (s.updRegion a g).objs = s.objs := rfl
@[simp] theorem State.updRegion_mtime (s : State) (a : Nat) (g : Region → Region) : (s.updRegion a g).mtime = s.mtime := rfl
@[simp] theorem State.updRegion_lastServed (s : State) (a : Nat) (g : Region → Region) : (s.updRegion a g).lastServed = s.lastServed := rfl
@[simp] theorem State.updRegion_admCount (s : State) (a : Nat) (g : Region → Region) : (s.updRegion a g).admCount = s.admCount := rfl
@[simp] theorem State.updRegion_hbmgang (s : State) (a : Nat) (g : Region → Region) : (s.updRegion a g).hbmgang = s.hbmgang := rfl
@[simp] theorem State.updRegion_measLog (s : State) (a : Nat) (g : Region → Region) : (s.updRegion a g).measLog = s.measLog := rfl
@[simp] theorem State.updRegion_logHash (s : State) (a : Nat) (g : Region → Region) : (s.updRegion a g).logHash = s.logHash := rfl
@[simp] theorem State.updRegion_fatal (s : State) (a : Nat) (g : Region → Region) : (s.updRegion a g).fatal = s.fatal := rfl
@[simp] theorem State.updRegion_ckpt (s : State) (a : Nat) (g : Region → Region) : (s.updRegion a g).ckpt = s.ckpt := rfl
@[simp] theorem State.updRegion_images (s : State) (a : Nat) (g : Region → Region) : (s.updRegion a g).images = s.images := rfl
@[simp] theorem State.updRegion_hostHeld (s : State) (a : Nat) (g : Region → Region) : (s.updRegion a g).hostHeld = s.hostHeld := rfl
@[simp] theorem State.updRegion_inbox (s : State) (a : Nat) (g : Region → Region) : (s.updRegion a g).inbox = s.inbox := rfl
@[simp] theorem State.updRegion_outbox (s : State) (a : Nat) (g : Region → Region) : (s.updRegion a g).outbox = s.outbox := rfl
@[simp] theorem State.updRegion_extents (s : State) (a : Nat) (g : Region → Region) : (s.updRegion a g).extents = s.extents := rfl
@[simp] theorem State.updRegion_pages (s : State) (a : Nat) (g : Region → Region) : (s.updRegion a g).pages = s.pages := rfl
@[simp] theorem State.updRegion_events (s : State) (a : Nat) (g : Region → Region) : (s.updRegion a g).events = s.events := rfl
@[simp] theorem State.updRegion_faultQs (s : State) (a : Nat) (g : Region → Region) : (s.updRegion a g).faultQs = s.faultQs := rfl
@[simp] theorem State.updRegion_mer (s : State) (a : Nat) (g : Region → Region) : (s.updRegion a g).mer = s.mer := rfl
@[simp] theorem State.updRegion_eph (s : State) (a : Nat) (g : Region → Region) : (s.updRegion a g).eph = s.eph := rfl
@[simp] theorem State.updRegion_hbm (s : State) (a : Nat) (g : Region → Region) : (s.updRegion a g).hbm = s.hbm := rfl
@[simp] theorem State.updRegion_plims (s : State) (a : Nat) (g : Region → Region) : (s.updRegion a g).plims = s.plims := rfl
@[simp] theorem State.updRegion_reten (s : State) (a : Nat) (g : Region → Region) : (s.updRegion a g).reten = s.reten := rfl
@[simp] theorem State.updRegion_tsram (s : State) (a : Nat) (g : Region → Region) : (s.updRegion a g).tsram = s.tsram := rfl
@[simp] theorem State.updRegion_cxl (s : State) (a : Nat) (g : Region → Region) : (s.updRegion a g).cxl = s.cxl := rfl
@[simp] theorem State.updRegion_decs (s : State) (a : Nat) (g : Region → Region) : (s.updRegion a g).decs = s.decs := rfl
@[simp] theorem State.updRegion_ual (s : State) (a : Nat) (g : Region → Region) : (s.updRegion a g).ual = s.ual := rfl
@[simp] theorem State.updRegion_plat (s : State) (a : Nat) (g : Region → Region) : (s.updRegion a g).plat = s.plat := rfl
@[simp] theorem State.updRegion_hostRejects (s : State) (a : Nat) (g : Region → Region) : (s.updRegion a g).hostRejects = s.hostRejects := rfl
@[simp] theorem State.updRegion_hostBad (s : State) (a : Nat) (g : Region → Region) : (s.updRegion a g).hostBad = s.hostBad := rfl
@[simp] theorem State.updRegion_linePoison (s : State) (a : Nat) (g : Region → Region) : (s.updRegion a g).linePoison = s.linePoison := rfl
@[simp] theorem State.updRegion_gone (s : State) (a : Nat) (g : Region → Region) : (s.updRegion a g).gone = s.gone := rfl
@[simp] theorem State.updRegion_foreign (s : State) (a : Nat) (g : Region → Region) : (s.updRegion a g).foreign = s.foreign := rfl

/-! ### State.clearMarks -/

@[simp] theorem State.clearMarks_me (s : State) (l : List (Nat × Nat)) : (s.clearMarks l).me = s.me := rfl
@[simp] theorem State.clearMarks_others (s : State) (l : List (Nat × Nat)) : (s.clearMarks l).others = s.others := rfl
@[simp] theorem State.clearMarks_nextId (s : State) (l : List (Nat × Nat)) : (s.clearMarks l).nextId = s.nextId := rfl
@[simp] theorem State.clearMarks_agenda (s : State) (l : List (Nat × Nat)) : (s.clearMarks l).agenda = s.agenda := rfl
@[simp] theorem State.clearMarks_sels (s : State) (l : List (Nat × Nat)) : (s.clearMarks l).sels = s.sels := rfl
@[simp] theorem State.clearMarks_cycles (s : State) (l : List (Nat × Nat)) : (s.clearMarks l).cycles = s.cycles := rfl
@[simp] theorem State.clearMarks_fresh (s : State) (l : List (Nat × Nat)) : (s.clearMarks l).fresh = s.fresh := rfl
@[simp] theorem State.clearMarks_mem (s : State) (l : List (Nat × Nat)) : (s.clearMarks l).mem = s.mem := rfl
@[simp] theorem State.clearMarks_sram (s : State) (l : List (Nat × Nat)) : (s.clearMarks l).sram = s.sram := rfl
@[simp] theorem State.clearMarks_sramPoison (s : State) (l : List (Nat × Nat)) : (s.clearMarks l).sramPoison = s.sramPoison := rfl
@[simp] theorem State.clearMarks_ctxs (s : State) (l : List (Nat × Nat)) : (s.clearMarks l).ctxs = s.ctxs := rfl
@[simp] theorem State.clearMarks_regions (s : State) (l : List (Nat × Nat)) : (s.clearMarks l).regions = s.regions := rfl
@[simp] theorem State.clearMarks_slog (s : State) (l : List (Nat × Nat)) : (s.clearMarks l).slog = s.slog := rfl
@[simp] theorem State.clearMarks_barriers (s : State) (l : List (Nat × Nat)) : (s.clearMarks l).barriers = s.barriers := rfl
@[simp] theorem State.clearMarks_xs (s : State) (l : List (Nat × Nat)) : (s.clearMarks l).xs = s.xs := rfl
@[simp] theorem State.clearMarks_asgens (s : State) (l : List (Nat × Nat)) : (s.clearMarks l).asgens = s.asgens := rfl
@[simp] theorem State.clearMarks_faults (s : State) (l : List (Nat × Nat)) : (s.clearMarks l).faults = s.faults := rfl
@[simp] theorem State.clearMarks_faultSeq (s : State) (l : List (Nat × Nat)) : (s.clearMarks l).faultSeq = s.faultSeq := rfl
@[simp] theorem State.clearMarks_objs (s : State) (l : List (Nat × Nat)) : (s.clearMarks l).objs = s.objs := rfl
@[simp] theorem State.clearMarks_mtime (s : State) (l : List (Nat × Nat)) : (s.clearMarks l).mtime = s.mtime := rfl
@[simp] theorem State.clearMarks_lastServed (s : State) (l : List (Nat × Nat)) : (s.clearMarks l).lastServed = s.lastServed := rfl
@[simp] theorem State.clearMarks_admCount (s : State) (l : List (Nat × Nat)) : (s.clearMarks l).admCount = s.admCount := rfl
@[simp] theorem State.clearMarks_hbmgang (s : State) (l : List (Nat × Nat)) : (s.clearMarks l).hbmgang = s.hbmgang := rfl
@[simp] theorem State.clearMarks_measLog (s : State) (l : List (Nat × Nat)) : (s.clearMarks l).measLog = s.measLog := rfl
@[simp] theorem State.clearMarks_logHash (s : State) (l : List (Nat × Nat)) : (s.clearMarks l).logHash = s.logHash := rfl
@[simp] theorem State.clearMarks_fatal (s : State) (l : List (Nat × Nat)) : (s.clearMarks l).fatal = s.fatal := rfl
@[simp] theorem State.clearMarks_ckpt (s : State) (l : List (Nat × Nat)) : (s.clearMarks l).ckpt = s.ckpt := rfl
@[simp] theorem State.clearMarks_images (s : State) (l : List (Nat × Nat)) : (s.clearMarks l).images = s.images := rfl
@[simp] theorem State.clearMarks_hostHeld (s : State) (l : List (Nat × Nat)) : (s.clearMarks l).hostHeld = s.hostHeld := rfl
@[simp] theorem State.clearMarks_inbox (s : State) (l : List (Nat × Nat)) : (s.clearMarks l).inbox = s.inbox := rfl
@[simp] theorem State.clearMarks_outbox (s : State) (l : List (Nat × Nat)) : (s.clearMarks l).outbox = s.outbox := rfl
@[simp] theorem State.clearMarks_extents (s : State) (l : List (Nat × Nat)) : (s.clearMarks l).extents = s.extents := rfl
@[simp] theorem State.clearMarks_pages (s : State) (l : List (Nat × Nat)) : (s.clearMarks l).pages = s.pages := rfl
@[simp] theorem State.clearMarks_events (s : State) (l : List (Nat × Nat)) : (s.clearMarks l).events = s.events := rfl
@[simp] theorem State.clearMarks_faultQs (s : State) (l : List (Nat × Nat)) : (s.clearMarks l).faultQs = s.faultQs := rfl
@[simp] theorem State.clearMarks_mer (s : State) (l : List (Nat × Nat)) : (s.clearMarks l).mer = s.mer := rfl
@[simp] theorem State.clearMarks_eph (s : State) (l : List (Nat × Nat)) : (s.clearMarks l).eph = s.eph := rfl
@[simp] theorem State.clearMarks_hbm (s : State) (l : List (Nat × Nat)) : (s.clearMarks l).hbm = s.hbm := rfl
@[simp] theorem State.clearMarks_plims (s : State) (l : List (Nat × Nat)) : (s.clearMarks l).plims = s.plims := rfl
@[simp] theorem State.clearMarks_reten (s : State) (l : List (Nat × Nat)) : (s.clearMarks l).reten = s.reten := rfl
@[simp] theorem State.clearMarks_tsram (s : State) (l : List (Nat × Nat)) : (s.clearMarks l).tsram = s.tsram := rfl
@[simp] theorem State.clearMarks_cxl (s : State) (l : List (Nat × Nat)) : (s.clearMarks l).cxl = s.cxl := rfl
@[simp] theorem State.clearMarks_decs (s : State) (l : List (Nat × Nat)) : (s.clearMarks l).decs = s.decs := rfl
@[simp] theorem State.clearMarks_ual (s : State) (l : List (Nat × Nat)) : (s.clearMarks l).ual = s.ual := rfl
@[simp] theorem State.clearMarks_plat (s : State) (l : List (Nat × Nat)) : (s.clearMarks l).plat = s.plat := rfl
@[simp] theorem State.clearMarks_hostRejects (s : State) (l : List (Nat × Nat)) : (s.clearMarks l).hostRejects = s.hostRejects := rfl
@[simp] theorem State.clearMarks_hostBad (s : State) (l : List (Nat × Nat)) : (s.clearMarks l).hostBad = s.hostBad := rfl
@[simp] theorem State.clearMarks_gone (s : State) (l : List (Nat × Nat)) : (s.clearMarks l).gone = s.gone := rfl

/-! ### State.rawWrite -/

@[simp] theorem State.rawWrite_me (s : State) (a : Nat) (bs : List Byte) : (s.rawWrite a bs).me = s.me := rfl
@[simp] theorem State.rawWrite_others (s : State) (a : Nat) (bs : List Byte) : (s.rawWrite a bs).others = s.others := rfl
@[simp] theorem State.rawWrite_nextId (s : State) (a : Nat) (bs : List Byte) : (s.rawWrite a bs).nextId = s.nextId := rfl
@[simp] theorem State.rawWrite_agenda (s : State) (a : Nat) (bs : List Byte) : (s.rawWrite a bs).agenda = s.agenda := rfl
@[simp] theorem State.rawWrite_sels (s : State) (a : Nat) (bs : List Byte) : (s.rawWrite a bs).sels = s.sels := rfl
@[simp] theorem State.rawWrite_cycles (s : State) (a : Nat) (bs : List Byte) : (s.rawWrite a bs).cycles = s.cycles := rfl
@[simp] theorem State.rawWrite_fresh (s : State) (a : Nat) (bs : List Byte) : (s.rawWrite a bs).fresh = s.fresh := rfl
@[simp] theorem State.rawWrite_mem (s : State) (a : Nat) (bs : List Byte) : (s.rawWrite a bs).mem = s.mem.write a bs := rfl
@[simp] theorem State.rawWrite_poison (s : State) (a : Nat) (bs : List Byte) : (s.rawWrite a bs).poison = (s.clearMarks [(a, bs.length)]).poison := rfl
@[simp] theorem State.rawWrite_sram (s : State) (a : Nat) (bs : List Byte) : (s.rawWrite a bs).sram = s.sram := rfl
@[simp] theorem State.rawWrite_sramPoison (s : State) (a : Nat) (bs : List Byte) : (s.rawWrite a bs).sramPoison = s.sramPoison := rfl
@[simp] theorem State.rawWrite_ctxs (s : State) (a : Nat) (bs : List Byte) : (s.rawWrite a bs).ctxs = s.ctxs := rfl
@[simp] theorem State.rawWrite_regions (s : State) (a : Nat) (bs : List Byte) : (s.rawWrite a bs).regions = s.regions := rfl
@[simp] theorem State.rawWrite_slog (s : State) (a : Nat) (bs : List Byte) : (s.rawWrite a bs).slog = s.slog := rfl
@[simp] theorem State.rawWrite_barriers (s : State) (a : Nat) (bs : List Byte) : (s.rawWrite a bs).barriers = s.barriers := rfl
@[simp] theorem State.rawWrite_xs (s : State) (a : Nat) (bs : List Byte) : (s.rawWrite a bs).xs = s.xs := rfl
@[simp] theorem State.rawWrite_asgens (s : State) (a : Nat) (bs : List Byte) : (s.rawWrite a bs).asgens = s.asgens := rfl
@[simp] theorem State.rawWrite_faults (s : State) (a : Nat) (bs : List Byte) : (s.rawWrite a bs).faults = s.faults := rfl
@[simp] theorem State.rawWrite_faultSeq (s : State) (a : Nat) (bs : List Byte) : (s.rawWrite a bs).faultSeq = s.faultSeq := rfl
@[simp] theorem State.rawWrite_objs (s : State) (a : Nat) (bs : List Byte) : (s.rawWrite a bs).objs = s.objs := rfl
@[simp] theorem State.rawWrite_mtime (s : State) (a : Nat) (bs : List Byte) : (s.rawWrite a bs).mtime = s.mtime := rfl
@[simp] theorem State.rawWrite_lastServed (s : State) (a : Nat) (bs : List Byte) : (s.rawWrite a bs).lastServed = s.lastServed := rfl
@[simp] theorem State.rawWrite_admCount (s : State) (a : Nat) (bs : List Byte) : (s.rawWrite a bs).admCount = s.admCount := rfl
@[simp] theorem State.rawWrite_hbmgang (s : State) (a : Nat) (bs : List Byte) : (s.rawWrite a bs).hbmgang = s.hbmgang := rfl
@[simp] theorem State.rawWrite_measLog (s : State) (a : Nat) (bs : List Byte) : (s.rawWrite a bs).measLog = s.measLog := rfl
@[simp] theorem State.rawWrite_logHash (s : State) (a : Nat) (bs : List Byte) : (s.rawWrite a bs).logHash = s.logHash := rfl
@[simp] theorem State.rawWrite_fatal (s : State) (a : Nat) (bs : List Byte) : (s.rawWrite a bs).fatal = s.fatal := rfl
@[simp] theorem State.rawWrite_ckpt (s : State) (a : Nat) (bs : List Byte) : (s.rawWrite a bs).ckpt = s.ckpt := rfl
@[simp] theorem State.rawWrite_images (s : State) (a : Nat) (bs : List Byte) : (s.rawWrite a bs).images = s.images := rfl
@[simp] theorem State.rawWrite_hostHeld (s : State) (a : Nat) (bs : List Byte) : (s.rawWrite a bs).hostHeld = s.hostHeld := rfl
@[simp] theorem State.rawWrite_inbox (s : State) (a : Nat) (bs : List Byte) : (s.rawWrite a bs).inbox = s.inbox := rfl
@[simp] theorem State.rawWrite_outbox (s : State) (a : Nat) (bs : List Byte) : (s.rawWrite a bs).outbox = s.outbox := rfl
@[simp] theorem State.rawWrite_extents (s : State) (a : Nat) (bs : List Byte) : (s.rawWrite a bs).extents = s.extents := rfl
@[simp] theorem State.rawWrite_pages (s : State) (a : Nat) (bs : List Byte) : (s.rawWrite a bs).pages = s.pages := rfl
@[simp] theorem State.rawWrite_events (s : State) (a : Nat) (bs : List Byte) : (s.rawWrite a bs).events = s.events := rfl
@[simp] theorem State.rawWrite_faultQs (s : State) (a : Nat) (bs : List Byte) : (s.rawWrite a bs).faultQs = s.faultQs := rfl
@[simp] theorem State.rawWrite_mer (s : State) (a : Nat) (bs : List Byte) : (s.rawWrite a bs).mer = s.mer := rfl
@[simp] theorem State.rawWrite_eph (s : State) (a : Nat) (bs : List Byte) : (s.rawWrite a bs).eph = s.eph := rfl
@[simp] theorem State.rawWrite_hbm (s : State) (a : Nat) (bs : List Byte) : (s.rawWrite a bs).hbm = s.hbm := rfl
@[simp] theorem State.rawWrite_plims (s : State) (a : Nat) (bs : List Byte) : (s.rawWrite a bs).plims = s.plims := rfl
@[simp] theorem State.rawWrite_reten (s : State) (a : Nat) (bs : List Byte) : (s.rawWrite a bs).reten = s.reten := rfl
@[simp] theorem State.rawWrite_tsram (s : State) (a : Nat) (bs : List Byte) : (s.rawWrite a bs).tsram = s.tsram := rfl
@[simp] theorem State.rawWrite_cxl (s : State) (a : Nat) (bs : List Byte) : (s.rawWrite a bs).cxl = s.cxl := rfl
@[simp] theorem State.rawWrite_decs (s : State) (a : Nat) (bs : List Byte) : (s.rawWrite a bs).decs = s.decs := rfl
@[simp] theorem State.rawWrite_ual (s : State) (a : Nat) (bs : List Byte) : (s.rawWrite a bs).ual = s.ual := rfl
@[simp] theorem State.rawWrite_plat (s : State) (a : Nat) (bs : List Byte) : (s.rawWrite a bs).plat = s.plat := rfl
@[simp] theorem State.rawWrite_hostRejects (s : State) (a : Nat) (bs : List Byte) : (s.rawWrite a bs).hostRejects = s.hostRejects := rfl
@[simp] theorem State.rawWrite_hostBad (s : State) (a : Nat) (bs : List Byte) : (s.rawWrite a bs).hostBad = s.hostBad := rfl
@[simp] theorem State.rawWrite_linePoison (s : State) (a : Nat) (bs : List Byte) : (s.rawWrite a bs).linePoison = (s.clearMarks [(a, bs.length)]).linePoison := rfl
@[simp] theorem State.rawWrite_gone (s : State) (a : Nat) (bs : List Byte) : (s.rawWrite a bs).gone = s.gone := rfl
@[simp] theorem State.rawWrite_foreign (s : State) (a : Nat) (bs : List Byte) : (s.rawWrite a bs).foreign = (s.clearMarks [(a, bs.length)]).foreign := rfl

@[simp] theorem State.setMe_setMe (s : State) (m n : Strand) : (s.setMe m).setMe n = s.setMe n := rfl
@[simp] theorem State.setMe_self (s : State) : s.setMe s.me = s := rfl

/-! ### Strand.writeAt -/

@[simp] theorem Strand.writeAt_id (m : Strand) (l : Nat) (d : Dest) (k : W64) (v : Lanes) : (m.writeAt l d k v).id = m.id := by unfold Strand.writeAt; split <;> rfl
@[simp] theorem Strand.writeAt_sRegs (m : Strand) (l : Nat) (d : Dest) (k : W64) (v : Lanes) : (m.writeAt l d k v).sRegs = m.sRegs := by unfold Strand.writeAt; split <;> rfl
@[simp] theorem Strand.writeAt_qRegs (m : Strand) (l : Nat) (d : Dest) (k : W64) (v : Lanes) : (m.writeAt l d k v).qRegs = m.qRegs := by unfold Strand.writeAt; split <;> rfl
@[simp] theorem Strand.writeAt_vRegs (m : Strand) (l : Nat) (d : Dest) (k : W64) (v : Lanes) : (m.writeAt l d k v).vRegs = m.vRegs := by unfold Strand.writeAt; split <;> rfl
@[simp] theorem Strand.writeAt_mRegs (m : Strand) (l : Nat) (d : Dest) (k : W64) (v : Lanes) : (m.writeAt l d k v).mRegs = m.mRegs := by unfold Strand.writeAt; split <;> rfl
@[simp] theorem Strand.writeAt_cRegs (m : Strand) (l : Nat) (d : Dest) (k : W64) (v : Lanes) : (m.writeAt l d k v).cRegs = m.cRegs := by unfold Strand.writeAt; split <;> rfl
@[simp] theorem Strand.writeAt_bRegs (m : Strand) (l : Nat) (d : Dest) (k : W64) (v : Lanes) : (m.writeAt l d k v).bRegs = m.bRegs := by unfold Strand.writeAt; split <;> rfl
@[simp] theorem Strand.writeAt_pc (m : Strand) (l : Nat) (d : Dest) (k : W64) (v : Lanes) : (m.writeAt l d k v).pc = m.pc := by unfold Strand.writeAt; split <;> rfl
@[simp] theorem Strand.writeAt_link (m : Strand) (l : Nat) (d : Dest) (k : W64) (v : Lanes) : (m.writeAt l d k v).link = m.link := by unfold Strand.writeAt; split <;> rfl
@[simp] theorem Strand.writeAt_attgt (m : Strand) (l : Nat) (d : Dest) (k : W64) (v : Lanes) : (m.writeAt l d k v).attgt = m.attgt := by unfold Strand.writeAt; split <;> rfl
@[simp] theorem Strand.writeAt_l0 (m : Strand) (l : Nat) (d : Dest) (k : W64) (v : Lanes) : (m.writeAt l d k v).l0 = m.l0 := by unfold Strand.writeAt; split <;> rfl
@[simp] theorem Strand.writeAt_l1 (m : Strand) (l : Nat) (d : Dest) (k : W64) (v : Lanes) : (m.writeAt l d k v).l1 = m.l1 := by unfold Strand.writeAt; split <;> rfl
@[simp] theorem Strand.writeAt_xfer (m : Strand) (l : Nat) (d : Dest) (k : W64) (v : Lanes) : (m.writeAt l d k v).xfer = m.xfer := by unfold Strand.writeAt; split <;> rfl
@[simp] theorem Strand.writeAt_tick (m : Strand) (l : Nat) (d : Dest) (k : W64) (v : Lanes) : (m.writeAt l d k v).tick = m.tick := by unfold Strand.writeAt; split <;> rfl
@[simp] theorem Strand.writeAt_stallchk (m : Strand) (l : Nat) (d : Dest) (k : W64) (v : Lanes) : (m.writeAt l d k v).stallchk = m.stallchk := by unfold Strand.writeAt; split <;> rfl
@[simp] theorem Strand.writeAt_step (m : Strand) (l : Nat) (d : Dest) (k : W64) (v : Lanes) : (m.writeAt l d k v).step = m.step := by unfold Strand.writeAt; split <;> rfl
@[simp] theorem Strand.writeAt_traph (m : Strand) (l : Nat) (d : Dest) (k : W64) (v : Lanes) : (m.writeAt l d k v).traph = m.traph := by unfold Strand.writeAt; split <;> rfl
@[simp] theorem Strand.writeAt_plive (m : Strand) (l : Nat) (d : Dest) (k : W64) (v : Lanes) : (m.writeAt l d k v).plive = m.plive := by unfold Strand.writeAt; split <;> rfl
@[simp] theorem Strand.writeAt_vlive (m : Strand) (l : Nat) (d : Dest) (k : W64) (v : Lanes) : (m.writeAt l d k v).vlive = m.vlive := by unfold Strand.writeAt; split <;> rfl
@[simp] theorem Strand.writeAt_jhead (m : Strand) (l : Nat) (d : Dest) (k : W64) (v : Lanes) : (m.writeAt l d k v).jhead = m.jhead := by unfold Strand.writeAt; split <;> rfl
@[simp] theorem Strand.writeAt_jdone (m : Strand) (l : Nat) (d : Dest) (k : W64) (v : Lanes) : (m.writeAt l d k v).jdone = m.jdone := by unfold Strand.writeAt; split <;> rfl
@[simp] theorem Strand.writeAt_journal (m : Strand) (l : Nat) (d : Dest) (k : W64) (v : Lanes) : (m.writeAt l d k v).journal = m.journal := by unfold Strand.writeAt; split <;> rfl
@[simp] theorem Strand.writeAt_njour (m : Strand) (l : Nat) (d : Dest) (k : W64) (v : Lanes) : (m.writeAt l d k v).njour = m.njour := by unfold Strand.writeAt; split <;> rfl
@[simp] theorem Strand.writeAt_hrpc (m : Strand) (l : Nat) (d : Dest) (k : W64) (v : Lanes) : (m.writeAt l d k v).hrpc = m.hrpc := by unfold Strand.writeAt; split <;> rfl
@[simp] theorem Strand.writeAt_tnum (m : Strand) (l : Nat) (d : Dest) (k : W64) (v : Lanes) : (m.writeAt l d k v).tnum = m.tnum := by unfold Strand.writeAt; split <;> rfl
@[simp] theorem Strand.writeAt_hvalid (m : Strand) (l : Nat) (d : Dest) (k : W64) (v : Lanes) : (m.writeAt l d k v).hvalid = m.hvalid := by unfold Strand.writeAt; split <;> rfl
@[simp] theorem Strand.writeAt_drpc (m : Strand) (l : Nat) (d : Dest) (k : W64) (v : Lanes) : (m.writeAt l d k v).drpc = m.drpc := by unfold Strand.writeAt; split <;> rfl
@[simp] theorem Strand.writeAt_dptgt (m : Strand) (l : Nat) (d : Dest) (k : W64) (v : Lanes) : (m.writeAt l d k v).dptgt = m.dptgt := by unfold Strand.writeAt; split <;> rfl
@[simp] theorem Strand.writeAt_dvalid (m : Strand) (l : Nat) (d : Dest) (k : W64) (v : Lanes) : (m.writeAt l d k v).dvalid = m.dvalid := by unfold Strand.writeAt; split <;> rfl
@[simp] theorem Strand.writeAt_dpval (m : Strand) (l : Nat) (d : Dest) (k : W64) (v : Lanes) : (m.writeAt l d k v).dpval = m.dpval := by unfold Strand.writeAt; split <;> rfl
@[simp] theorem Strand.writeAt_dpdly (m : Strand) (l : Nat) (d : Dest) (k : W64) (v : Lanes) : (m.writeAt l d k v).dpdly = m.dpdly := by unfold Strand.writeAt; split <;> rfl
@[simp] theorem Strand.writeAt_trap (m : Strand) (l : Nat) (d : Dest) (k : W64) (v : Lanes) : (m.writeAt l d k v).trap = m.trap := by unfold Strand.writeAt; split <;> rfl
@[simp] theorem Strand.writeAt_wkind (m : Strand) (l : Nat) (d : Dest) (k : W64) (v : Lanes) : (m.writeAt l d k v).wkind = m.wkind := by unfold Strand.writeAt; split <;> rfl
@[simp] theorem Strand.writeAt_wval (m : Strand) (l : Nat) (d : Dest) (k : W64) (v : Lanes) : (m.writeAt l d k v).wval = m.wval := by unfold Strand.writeAt; split <;> rfl
@[simp] theorem Strand.writeAt_wold (m : Strand) (l : Nat) (d : Dest) (k : W64) (v : Lanes) : (m.writeAt l d k v).wold = m.wold := by unfold Strand.writeAt; split <;> rfl
@[simp] theorem Strand.writeAt_wtrans (m : Strand) (l : Nat) (d : Dest) (k : W64) (v : Lanes) : (m.writeAt l d k v).wtrans = m.wtrans := by unfold Strand.writeAt; split <;> rfl
@[simp] theorem Strand.writeAt_wait (m : Strand) (l : Nat) (d : Dest) (k : W64) (v : Lanes) : (m.writeAt l d k v).wait = m.wait := by unfold Strand.writeAt; split <;> rfl
@[simp] theorem Strand.writeAt_wretired (m : Strand) (l : Nat) (d : Dest) (k : W64) (v : Lanes) : (m.writeAt l d k v).wretired = m.wretired := by unfold Strand.writeAt; split <;> rfl
@[simp] theorem Strand.writeAt_wpc (m : Strand) (l : Nat) (d : Dest) (k : W64) (v : Lanes) : (m.writeAt l d k v).wpc = m.wpc := by unfold Strand.writeAt; split <;> rfl
@[simp] theorem Strand.writeAt_wwin (m : Strand) (l : Nat) (d : Dest) (k : W64) (v : Lanes) : (m.writeAt l d k v).wwin = m.wwin := by unfold Strand.writeAt; split <;> rfl
@[simp] theorem Strand.writeAt_debug (m : Strand) (l : Nat) (d : Dest) (k : W64) (v : Lanes) : (m.writeAt l d k v).debug = m.debug := by unfold Strand.writeAt; split <;> rfl
@[simp] theorem Strand.writeAt_stopReq (m : Strand) (l : Nat) (d : Dest) (k : W64) (v : Lanes) : (m.writeAt l d k v).stopReq = m.stopReq := by unfold Strand.writeAt; split <;> rfl
@[simp] theorem Strand.writeAt_stallcnt (m : Strand) (l : Nat) (d : Dest) (k : W64) (v : Lanes) : (m.writeAt l d k v).stallcnt = m.stallcnt := by unfold Strand.writeAt; split <;> rfl
@[simp] theorem Strand.writeAt_stleft (m : Strand) (l : Nat) (d : Dest) (k : W64) (v : Lanes) : (m.writeAt l d k v).stleft = m.stleft := by unfold Strand.writeAt; split <;> rfl
@[simp] theorem Strand.writeAt_wstall (m : Strand) (l : Nat) (d : Dest) (k : W64) (v : Lanes) : (m.writeAt l d k v).wstall = m.wstall := by unfold Strand.writeAt; split <;> rfl
@[simp] theorem Strand.writeAt_winBase (m : Strand) (l : Nat) (d : Dest) (k : W64) (v : Lanes) : (m.writeAt l d k v).winBase = m.winBase := by unfold Strand.writeAt; split <;> rfl
@[simp] theorem Strand.writeAt_winSize (m : Strand) (l : Nat) (d : Dest) (k : W64) (v : Lanes) : (m.writeAt l d k v).winSize = m.winSize := by unfold Strand.writeAt; split <;> rfl
@[simp] theorem Strand.writeAt_bars (m : Strand) (l : Nat) (d : Dest) (k : W64) (v : Lanes) : (m.writeAt l d k v).bars = m.bars := by unfold Strand.writeAt; split <;> rfl
@[simp] theorem Strand.writeAt_evs (m : Strand) (l : Nat) (d : Dest) (k : W64) (v : Lanes) : (m.writeAt l d k v).evs = m.evs := by unfold Strand.writeAt; split <;> rfl
@[simp] theorem Strand.writeAt_index (m : Strand) (l : Nat) (d : Dest) (k : W64) (v : Lanes) : (m.writeAt l d k v).index = m.index := by unfold Strand.writeAt; split <;> rfl
@[simp] theorem Strand.writeAt_group (m : Strand) (l : Nat) (d : Dest) (k : W64) (v : Lanes) : (m.writeAt l d k v).group = m.group := by unfold Strand.writeAt; split <;> rfl
@[simp] theorem Strand.writeAt_tile (m : Strand) (l : Nat) (d : Dest) (k : W64) (v : Lanes) : (m.writeAt l d k v).tile = m.tile := by unfold Strand.writeAt; split <;> rfl
@[simp] theorem Strand.writeAt_slot (m : Strand) (l : Nat) (d : Dest) (k : W64) (v : Lanes) : (m.writeAt l d k v).slot = m.slot := by unfold Strand.writeAt; split <;> rfl
@[simp] theorem Strand.writeAt_inSlot (m : Strand) (l : Nat) (d : Dest) (k : W64) (v : Lanes) : (m.writeAt l d k v).inSlot = m.inSlot := by unfold Strand.writeAt; split <;> rfl
@[simp] theorem Strand.writeAt_halted (m : Strand) (l : Nat) (d : Dest) (k : W64) (v : Lanes) : (m.writeAt l d k v).halted = m.halted := by unfold Strand.writeAt; split <;> rfl
@[simp] theorem Strand.writeAt_phase (m : Strand) (l : Nat) (d : Dest) (k : W64) (v : Lanes) : (m.writeAt l d k v).phase = m.phase := by unfold Strand.writeAt; split <;> rfl
@[simp] theorem Strand.writeAt_atPhase (m : Strand) (l : Nat) (d : Dest) (k : W64) (v : Lanes) : (m.writeAt l d k v).atPhase = m.atPhase := by unfold Strand.writeAt; split <;> rfl
@[simp] theorem Strand.writeAt_phaseGo (m : Strand) (l : Nat) (d : Dest) (k : W64) (v : Lanes) : (m.writeAt l d k v).phaseGo = m.phaseGo := by unfold Strand.writeAt; split <;> rfl
@[simp] theorem Strand.writeAt_phaseHalt (m : Strand) (l : Nat) (d : Dest) (k : W64) (v : Lanes) : (m.writeAt l d k v).phaseHalt = m.phaseHalt := by unfold Strand.writeAt; split <;> rfl
@[simp] theorem Strand.writeAt_phaseAt (m : Strand) (l : Nat) (d : Dest) (k : W64) (v : Lanes) : (m.writeAt l d k v).phaseAt = m.phaseAt := by unfold Strand.writeAt; split <;> rfl
@[simp] theorem Strand.writeAt_ctx (m : Strand) (l : Nat) (d : Dest) (k : W64) (v : Lanes) : (m.writeAt l d k v).ctx = m.ctx := by unfold Strand.writeAt; split <;> rfl
@[simp] theorem Strand.writeAt_serial (m : Strand) (l : Nat) (d : Dest) (k : W64) (v : Lanes) : (m.writeAt l d k v).serial = m.serial := by unfold Strand.writeAt; split <;> rfl
@[simp] theorem Strand.writeAt_sup (m : Strand) (l : Nat) (d : Dest) (k : W64) (v : Lanes) : (m.writeAt l d k v).sup = m.sup := by unfold Strand.writeAt; split <;> rfl
@[simp] theorem Strand.writeAt_saveReq (m : Strand) (l : Nat) (d : Dest) (k : W64) (v : Lanes) : (m.writeAt l d k v).saveReq = m.saveReq := by unfold Strand.writeAt; split <;> rfl
@[simp] theorem Strand.writeAt_saved (m : Strand) (l : Nat) (d : Dest) (k : W64) (v : Lanes) : (m.writeAt l d k v).saved = m.saved := by unfold Strand.writeAt; split <;> rfl
@[simp] theorem Strand.writeAt_saveT (m : Strand) (l : Nat) (d : Dest) (k : W64) (v : Lanes) : (m.writeAt l d k v).saveT = m.saveT := by unfold Strand.writeAt; split <;> rfl

/-! ### Strand.writeIl -/

@[simp] theorem Strand.writeIl_id (m : Strand) (d : Dest) (k : W64) (v : Lanes) : (m.writeIl d k v).id = m.id := by unfold Strand.writeIl; split <;> rfl
@[simp] theorem Strand.writeIl_sRegs (m : Strand) (d : Dest) (k : W64) (v : Lanes) : (m.writeIl d k v).sRegs = m.sRegs := by unfold Strand.writeIl; split <;> rfl
@[simp] theorem Strand.writeIl_qRegs (m : Strand) (d : Dest) (k : W64) (v : Lanes) : (m.writeIl d k v).qRegs = m.qRegs := by unfold Strand.writeIl; split <;> rfl
@[simp] theorem Strand.writeIl_vRegs (m : Strand) (d : Dest) (k : W64) (v : Lanes) : (m.writeIl d k v).vRegs = m.vRegs := by unfold Strand.writeIl; split <;> rfl
@[simp] theorem Strand.writeIl_mRegs (m : Strand) (d : Dest) (k : W64) (v : Lanes) : (m.writeIl d k v).mRegs = m.mRegs := by unfold Strand.writeIl; split <;> rfl
@[simp] theorem Strand.writeIl_cRegs (m : Strand) (d : Dest) (k : W64) (v : Lanes) : (m.writeIl d k v).cRegs = m.cRegs := by unfold Strand.writeIl; split <;> rfl
@[simp] theorem Strand.writeIl_bRegs (m : Strand) (d : Dest) (k : W64) (v : Lanes) : (m.writeIl d k v).bRegs = m.bRegs := by unfold Strand.writeIl; split <;> rfl
@[simp] theorem Strand.writeIl_pc (m : Strand) (d : Dest) (k : W64) (v : Lanes) : (m.writeIl d k v).pc = m.pc := by unfold Strand.writeIl; split <;> rfl
@[simp] theorem Strand.writeIl_link (m : Strand) (d : Dest) (k : W64) (v : Lanes) : (m.writeIl d k v).link = m.link := by unfold Strand.writeIl; split <;> rfl
@[simp] theorem Strand.writeIl_attgt (m : Strand) (d : Dest) (k : W64) (v : Lanes) : (m.writeIl d k v).attgt = m.attgt := by unfold Strand.writeIl; split <;> rfl
@[simp] theorem Strand.writeIl_l0 (m : Strand) (d : Dest) (k : W64) (v : Lanes) : (m.writeIl d k v).l0 = m.l0 := by unfold Strand.writeIl; split <;> rfl
@[simp] theorem Strand.writeIl_l1 (m : Strand) (d : Dest) (k : W64) (v : Lanes) : (m.writeIl d k v).l1 = m.l1 := by unfold Strand.writeIl; split <;> rfl
@[simp] theorem Strand.writeIl_xfer (m : Strand) (d : Dest) (k : W64) (v : Lanes) : (m.writeIl d k v).xfer = m.xfer := by unfold Strand.writeIl; split <;> rfl
@[simp] theorem Strand.writeIl_tick (m : Strand) (d : Dest) (k : W64) (v : Lanes) : (m.writeIl d k v).tick = m.tick := by unfold Strand.writeIl; split <;> rfl
@[simp] theorem Strand.writeIl_stallchk (m : Strand) (d : Dest) (k : W64) (v : Lanes) : (m.writeIl d k v).stallchk = m.stallchk := by unfold Strand.writeIl; split <;> rfl
@[simp] theorem Strand.writeIl_step (m : Strand) (d : Dest) (k : W64) (v : Lanes) : (m.writeIl d k v).step = m.step := by unfold Strand.writeIl; split <;> rfl
@[simp] theorem Strand.writeIl_traph (m : Strand) (d : Dest) (k : W64) (v : Lanes) : (m.writeIl d k v).traph = m.traph := by unfold Strand.writeIl; split <;> rfl
@[simp] theorem Strand.writeIl_plive (m : Strand) (d : Dest) (k : W64) (v : Lanes) : (m.writeIl d k v).plive = m.plive := by unfold Strand.writeIl; split <;> rfl
@[simp] theorem Strand.writeIl_vlive (m : Strand) (d : Dest) (k : W64) (v : Lanes) : (m.writeIl d k v).vlive = m.vlive := by unfold Strand.writeIl; split <;> rfl
@[simp] theorem Strand.writeIl_jhead (m : Strand) (d : Dest) (k : W64) (v : Lanes) : (m.writeIl d k v).jhead = m.jhead := by unfold Strand.writeIl; split <;> rfl
@[simp] theorem Strand.writeIl_jdone (m : Strand) (d : Dest) (k : W64) (v : Lanes) : (m.writeIl d k v).jdone = m.jdone := by unfold Strand.writeIl; split <;> rfl
@[simp] theorem Strand.writeIl_journal (m : Strand) (d : Dest) (k : W64) (v : Lanes) : (m.writeIl d k v).journal = m.journal := by unfold Strand.writeIl; split <;> rfl
@[simp] theorem Strand.writeIl_njour (m : Strand) (d : Dest) (k : W64) (v : Lanes) : (m.writeIl d k v).njour = m.njour := by unfold Strand.writeIl; split <;> rfl
@[simp] theorem Strand.writeIl_hrpc (m : Strand) (d : Dest) (k : W64) (v : Lanes) : (m.writeIl d k v).hrpc = m.hrpc := by unfold Strand.writeIl; split <;> rfl
@[simp] theorem Strand.writeIl_tnum (m : Strand) (d : Dest) (k : W64) (v : Lanes) : (m.writeIl d k v).tnum = m.tnum := by unfold Strand.writeIl; split <;> rfl
@[simp] theorem Strand.writeIl_hvalid (m : Strand) (d : Dest) (k : W64) (v : Lanes) : (m.writeIl d k v).hvalid = m.hvalid := by unfold Strand.writeIl; split <;> rfl
@[simp] theorem Strand.writeIl_drpc (m : Strand) (d : Dest) (k : W64) (v : Lanes) : (m.writeIl d k v).drpc = m.drpc := by unfold Strand.writeIl; split <;> rfl
@[simp] theorem Strand.writeIl_dptgt (m : Strand) (d : Dest) (k : W64) (v : Lanes) : (m.writeIl d k v).dptgt = m.dptgt := by unfold Strand.writeIl; split <;> rfl
@[simp] theorem Strand.writeIl_dvalid (m : Strand) (d : Dest) (k : W64) (v : Lanes) : (m.writeIl d k v).dvalid = m.dvalid := by unfold Strand.writeIl; split <;> rfl
@[simp] theorem Strand.writeIl_dpval (m : Strand) (d : Dest) (k : W64) (v : Lanes) : (m.writeIl d k v).dpval = m.dpval := by unfold Strand.writeIl; split <;> rfl
@[simp] theorem Strand.writeIl_dpdly (m : Strand) (d : Dest) (k : W64) (v : Lanes) : (m.writeIl d k v).dpdly = m.dpdly := by unfold Strand.writeIl; split <;> rfl
@[simp] theorem Strand.writeIl_trap (m : Strand) (d : Dest) (k : W64) (v : Lanes) : (m.writeIl d k v).trap = m.trap := by unfold Strand.writeIl; split <;> rfl
@[simp] theorem Strand.writeIl_wkind (m : Strand) (d : Dest) (k : W64) (v : Lanes) : (m.writeIl d k v).wkind = m.wkind := by unfold Strand.writeIl; split <;> rfl
@[simp] theorem Strand.writeIl_wval (m : Strand) (d : Dest) (k : W64) (v : Lanes) : (m.writeIl d k v).wval = m.wval := by unfold Strand.writeIl; split <;> rfl
@[simp] theorem Strand.writeIl_wold (m : Strand) (d : Dest) (k : W64) (v : Lanes) : (m.writeIl d k v).wold = m.wold := by unfold Strand.writeIl; split <;> rfl
@[simp] theorem Strand.writeIl_wtrans (m : Strand) (d : Dest) (k : W64) (v : Lanes) : (m.writeIl d k v).wtrans = m.wtrans := by unfold Strand.writeIl; split <;> rfl
@[simp] theorem Strand.writeIl_wait (m : Strand) (d : Dest) (k : W64) (v : Lanes) : (m.writeIl d k v).wait = m.wait := by unfold Strand.writeIl; split <;> rfl
@[simp] theorem Strand.writeIl_wretired (m : Strand) (d : Dest) (k : W64) (v : Lanes) : (m.writeIl d k v).wretired = m.wretired := by unfold Strand.writeIl; split <;> rfl
@[simp] theorem Strand.writeIl_wpc (m : Strand) (d : Dest) (k : W64) (v : Lanes) : (m.writeIl d k v).wpc = m.wpc := by unfold Strand.writeIl; split <;> rfl
@[simp] theorem Strand.writeIl_wwin (m : Strand) (d : Dest) (k : W64) (v : Lanes) : (m.writeIl d k v).wwin = m.wwin := by unfold Strand.writeIl; split <;> rfl
@[simp] theorem Strand.writeIl_debug (m : Strand) (d : Dest) (k : W64) (v : Lanes) : (m.writeIl d k v).debug = m.debug := by unfold Strand.writeIl; split <;> rfl
@[simp] theorem Strand.writeIl_stopReq (m : Strand) (d : Dest) (k : W64) (v : Lanes) : (m.writeIl d k v).stopReq = m.stopReq := by unfold Strand.writeIl; split <;> rfl
@[simp] theorem Strand.writeIl_stallcnt (m : Strand) (d : Dest) (k : W64) (v : Lanes) : (m.writeIl d k v).stallcnt = m.stallcnt := by unfold Strand.writeIl; split <;> rfl
@[simp] theorem Strand.writeIl_stleft (m : Strand) (d : Dest) (k : W64) (v : Lanes) : (m.writeIl d k v).stleft = m.stleft := by unfold Strand.writeIl; split <;> rfl
@[simp] theorem Strand.writeIl_wstall (m : Strand) (d : Dest) (k : W64) (v : Lanes) : (m.writeIl d k v).wstall = m.wstall := by unfold Strand.writeIl; split <;> rfl
@[simp] theorem Strand.writeIl_winBase (m : Strand) (d : Dest) (k : W64) (v : Lanes) : (m.writeIl d k v).winBase = m.winBase := by unfold Strand.writeIl; split <;> rfl
@[simp] theorem Strand.writeIl_winSize (m : Strand) (d : Dest) (k : W64) (v : Lanes) : (m.writeIl d k v).winSize = m.winSize := by unfold Strand.writeIl; split <;> rfl
@[simp] theorem Strand.writeIl_bars (m : Strand) (d : Dest) (k : W64) (v : Lanes) : (m.writeIl d k v).bars = m.bars := by unfold Strand.writeIl; split <;> rfl
@[simp] theorem Strand.writeIl_evs (m : Strand) (d : Dest) (k : W64) (v : Lanes) : (m.writeIl d k v).evs = m.evs := by unfold Strand.writeIl; split <;> rfl
@[simp] theorem Strand.writeIl_index (m : Strand) (d : Dest) (k : W64) (v : Lanes) : (m.writeIl d k v).index = m.index := by unfold Strand.writeIl; split <;> rfl
@[simp] theorem Strand.writeIl_group (m : Strand) (d : Dest) (k : W64) (v : Lanes) : (m.writeIl d k v).group = m.group := by unfold Strand.writeIl; split <;> rfl
@[simp] theorem Strand.writeIl_tile (m : Strand) (d : Dest) (k : W64) (v : Lanes) : (m.writeIl d k v).tile = m.tile := by unfold Strand.writeIl; split <;> rfl
@[simp] theorem Strand.writeIl_slot (m : Strand) (d : Dest) (k : W64) (v : Lanes) : (m.writeIl d k v).slot = m.slot := by unfold Strand.writeIl; split <;> rfl
@[simp] theorem Strand.writeIl_inSlot (m : Strand) (d : Dest) (k : W64) (v : Lanes) : (m.writeIl d k v).inSlot = m.inSlot := by unfold Strand.writeIl; split <;> rfl
@[simp] theorem Strand.writeIl_halted (m : Strand) (d : Dest) (k : W64) (v : Lanes) : (m.writeIl d k v).halted = m.halted := by unfold Strand.writeIl; split <;> rfl
@[simp] theorem Strand.writeIl_phase (m : Strand) (d : Dest) (k : W64) (v : Lanes) : (m.writeIl d k v).phase = m.phase := by unfold Strand.writeIl; split <;> rfl
@[simp] theorem Strand.writeIl_atPhase (m : Strand) (d : Dest) (k : W64) (v : Lanes) : (m.writeIl d k v).atPhase = m.atPhase := by unfold Strand.writeIl; split <;> rfl
@[simp] theorem Strand.writeIl_phaseGo (m : Strand) (d : Dest) (k : W64) (v : Lanes) : (m.writeIl d k v).phaseGo = m.phaseGo := by unfold Strand.writeIl; split <;> rfl
@[simp] theorem Strand.writeIl_phaseHalt (m : Strand) (d : Dest) (k : W64) (v : Lanes) : (m.writeIl d k v).phaseHalt = m.phaseHalt := by unfold Strand.writeIl; split <;> rfl
@[simp] theorem Strand.writeIl_phaseAt (m : Strand) (d : Dest) (k : W64) (v : Lanes) : (m.writeIl d k v).phaseAt = m.phaseAt := by unfold Strand.writeIl; split <;> rfl
@[simp] theorem Strand.writeIl_ctx (m : Strand) (d : Dest) (k : W64) (v : Lanes) : (m.writeIl d k v).ctx = m.ctx := by unfold Strand.writeIl; split <;> rfl
@[simp] theorem Strand.writeIl_serial (m : Strand) (d : Dest) (k : W64) (v : Lanes) : (m.writeIl d k v).serial = m.serial := by unfold Strand.writeIl; split <;> rfl
@[simp] theorem Strand.writeIl_sup (m : Strand) (d : Dest) (k : W64) (v : Lanes) : (m.writeIl d k v).sup = m.sup := by unfold Strand.writeIl; split <;> rfl
@[simp] theorem Strand.writeIl_saveReq (m : Strand) (d : Dest) (k : W64) (v : Lanes) : (m.writeIl d k v).saveReq = m.saveReq := by unfold Strand.writeIl; split <;> rfl
@[simp] theorem Strand.writeIl_saved (m : Strand) (d : Dest) (k : W64) (v : Lanes) : (m.writeIl d k v).saved = m.saved := by unfold Strand.writeIl; split <;> rfl
@[simp] theorem Strand.writeIl_saveT (m : Strand) (d : Dest) (k : W64) (v : Lanes) : (m.writeIl d k v).saveT = m.saveT := by unfold Strand.writeIl; split <;> rfl

/-! ### Strand.setC -/

@[simp] theorem Strand.setC_id (m : Strand) (n : CReg) (c : Chain) : (m.setC n c).id = m.id := rfl
@[simp] theorem Strand.setC_sRegs (m : Strand) (n : CReg) (c : Chain) : (m.setC n c).sRegs = m.sRegs := rfl
@[simp] theorem Strand.setC_qRegs (m : Strand) (n : CReg) (c : Chain) : (m.setC n c).qRegs = m.qRegs := rfl
@[simp] theorem Strand.setC_vRegs (m : Strand) (n : CReg) (c : Chain) : (m.setC n c).vRegs = m.vRegs := rfl
@[simp] theorem Strand.setC_mRegs (m : Strand) (n : CReg) (c : Chain) : (m.setC n c).mRegs = m.mRegs := rfl
@[simp] theorem Strand.setC_bRegs (m : Strand) (n : CReg) (c : Chain) : (m.setC n c).bRegs = m.bRegs := rfl
@[simp] theorem Strand.setC_pc (m : Strand) (n : CReg) (c : Chain) : (m.setC n c).pc = m.pc := rfl
@[simp] theorem Strand.setC_link (m : Strand) (n : CReg) (c : Chain) : (m.setC n c).link = m.link := rfl
@[simp] theorem Strand.setC_attgt (m : Strand) (n : CReg) (c : Chain) : (m.setC n c).attgt = m.attgt := rfl
@[simp] theorem Strand.setC_l0 (m : Strand) (n : CReg) (c : Chain) : (m.setC n c).l0 = m.l0 := rfl
@[simp] theorem Strand.setC_l1 (m : Strand) (n : CReg) (c : Chain) : (m.setC n c).l1 = m.l1 := rfl
@[simp] theorem Strand.setC_xfer (m : Strand) (n : CReg) (c : Chain) : (m.setC n c).xfer = m.xfer := rfl
@[simp] theorem Strand.setC_tick (m : Strand) (n : CReg) (c : Chain) : (m.setC n c).tick = m.tick := rfl
@[simp] theorem Strand.setC_pend (m : Strand) (n : CReg) (c : Chain) : (m.setC n c).pend = m.pend := rfl
@[simp] theorem Strand.setC_stallchk (m : Strand) (n : CReg) (c : Chain) : (m.setC n c).stallchk = m.stallchk := rfl
@[simp] theorem Strand.setC_step (m : Strand) (n : CReg) (c : Chain) : (m.setC n c).step = m.step := rfl
@[simp] theorem Strand.setC_traph (m : Strand) (n : CReg) (c : Chain) : (m.setC n c).traph = m.traph := rfl
@[simp] theorem Strand.setC_plive (m : Strand) (n : CReg) (c : Chain) : (m.setC n c).plive = m.plive := rfl
@[simp] theorem Strand.setC_vlive (m : Strand) (n : CReg) (c : Chain) : (m.setC n c).vlive = m.vlive := rfl
@[simp] theorem Strand.setC_jhead (m : Strand) (n : CReg) (c : Chain) : (m.setC n c).jhead = m.jhead := rfl
@[simp] theorem Strand.setC_jdone (m : Strand) (n : CReg) (c : Chain) : (m.setC n c).jdone = m.jdone := rfl
@[simp] theorem Strand.setC_journal (m : Strand) (n : CReg) (c : Chain) : (m.setC n c).journal = m.journal := rfl
@[simp] theorem Strand.setC_njour (m : Strand) (n : CReg) (c : Chain) : (m.setC n c).njour = m.njour := rfl
@[simp] theorem Strand.setC_hrpc (m : Strand) (n : CReg) (c : Chain) : (m.setC n c).hrpc = m.hrpc := rfl
@[simp] theorem Strand.setC_tnum (m : Strand) (n : CReg) (c : Chain) : (m.setC n c).tnum = m.tnum := rfl
@[simp] theorem Strand.setC_hvalid (m : Strand) (n : CReg) (c : Chain) : (m.setC n c).hvalid = m.hvalid := rfl
@[simp] theorem Strand.setC_drpc (m : Strand) (n : CReg) (c : Chain) : (m.setC n c).drpc = m.drpc := rfl
@[simp] theorem Strand.setC_dptgt (m : Strand) (n : CReg) (c : Chain) : (m.setC n c).dptgt = m.dptgt := rfl
@[simp] theorem Strand.setC_dvalid (m : Strand) (n : CReg) (c : Chain) : (m.setC n c).dvalid = m.dvalid := rfl
@[simp] theorem Strand.setC_dpval (m : Strand) (n : CReg) (c : Chain) : (m.setC n c).dpval = m.dpval := rfl
@[simp] theorem Strand.setC_dpdly (m : Strand) (n : CReg) (c : Chain) : (m.setC n c).dpdly = m.dpdly := rfl
@[simp] theorem Strand.setC_trap (m : Strand) (n : CReg) (c : Chain) : (m.setC n c).trap = m.trap := rfl
@[simp] theorem Strand.setC_wkind (m : Strand) (n : CReg) (c : Chain) : (m.setC n c).wkind = m.wkind := rfl
@[simp] theorem Strand.setC_wval (m : Strand) (n : CReg) (c : Chain) : (m.setC n c).wval = m.wval := rfl
@[simp] theorem Strand.setC_wold (m : Strand) (n : CReg) (c : Chain) : (m.setC n c).wold = m.wold := rfl
@[simp] theorem Strand.setC_wtrans (m : Strand) (n : CReg) (c : Chain) : (m.setC n c).wtrans = m.wtrans := rfl
@[simp] theorem Strand.setC_wait (m : Strand) (n : CReg) (c : Chain) : (m.setC n c).wait = m.wait := rfl
@[simp] theorem Strand.setC_wretired (m : Strand) (n : CReg) (c : Chain) : (m.setC n c).wretired = m.wretired := rfl
@[simp] theorem Strand.setC_wpc (m : Strand) (n : CReg) (c : Chain) : (m.setC n c).wpc = m.wpc := rfl
@[simp] theorem Strand.setC_wwin (m : Strand) (n : CReg) (c : Chain) : (m.setC n c).wwin = m.wwin := rfl
@[simp] theorem Strand.setC_debug (m : Strand) (n : CReg) (c : Chain) : (m.setC n c).debug = m.debug := rfl
@[simp] theorem Strand.setC_stopReq (m : Strand) (n : CReg) (c : Chain) : (m.setC n c).stopReq = m.stopReq := rfl
@[simp] theorem Strand.setC_stallcnt (m : Strand) (n : CReg) (c : Chain) : (m.setC n c).stallcnt = m.stallcnt := rfl
@[simp] theorem Strand.setC_stleft (m : Strand) (n : CReg) (c : Chain) : (m.setC n c).stleft = m.stleft := rfl
@[simp] theorem Strand.setC_wstall (m : Strand) (n : CReg) (c : Chain) : (m.setC n c).wstall = m.wstall := rfl
@[simp] theorem Strand.setC_winBase (m : Strand) (n : CReg) (c : Chain) : (m.setC n c).winBase = m.winBase := rfl
@[simp] theorem Strand.setC_winSize (m : Strand) (n : CReg) (c : Chain) : (m.setC n c).winSize = m.winSize := rfl
@[simp] theorem Strand.setC_bars (m : Strand) (n : CReg) (c : Chain) : (m.setC n c).bars = m.bars := rfl
@[simp] theorem Strand.setC_evs (m : Strand) (n : CReg) (c : Chain) : (m.setC n c).evs = m.evs := rfl
@[simp] theorem Strand.setC_index (m : Strand) (n : CReg) (c : Chain) : (m.setC n c).index = m.index := rfl
@[simp] theorem Strand.setC_group (m : Strand) (n : CReg) (c : Chain) : (m.setC n c).group = m.group := rfl
@[simp] theorem Strand.setC_tile (m : Strand) (n : CReg) (c : Chain) : (m.setC n c).tile = m.tile := rfl
@[simp] theorem Strand.setC_slot (m : Strand) (n : CReg) (c : Chain) : (m.setC n c).slot = m.slot := rfl
@[simp] theorem Strand.setC_inSlot (m : Strand) (n : CReg) (c : Chain) : (m.setC n c).inSlot = m.inSlot := rfl
@[simp] theorem Strand.setC_halted (m : Strand) (n : CReg) (c : Chain) : (m.setC n c).halted = m.halted := rfl
@[simp] theorem Strand.setC_phase (m : Strand) (n : CReg) (c : Chain) : (m.setC n c).phase = m.phase := rfl
@[simp] theorem Strand.setC_atPhase (m : Strand) (n : CReg) (c : Chain) : (m.setC n c).atPhase = m.atPhase := rfl
@[simp] theorem Strand.setC_phaseGo (m : Strand) (n : CReg) (c : Chain) : (m.setC n c).phaseGo = m.phaseGo := rfl
@[simp] theorem Strand.setC_phaseHalt (m : Strand) (n : CReg) (c : Chain) : (m.setC n c).phaseHalt = m.phaseHalt := rfl
@[simp] theorem Strand.setC_phaseAt (m : Strand) (n : CReg) (c : Chain) : (m.setC n c).phaseAt = m.phaseAt := rfl
@[simp] theorem Strand.setC_ctx (m : Strand) (n : CReg) (c : Chain) : (m.setC n c).ctx = m.ctx := rfl
@[simp] theorem Strand.setC_serial (m : Strand) (n : CReg) (c : Chain) : (m.setC n c).serial = m.serial := rfl
@[simp] theorem Strand.setC_sup (m : Strand) (n : CReg) (c : Chain) : (m.setC n c).sup = m.sup := rfl
@[simp] theorem Strand.setC_saveReq (m : Strand) (n : CReg) (c : Chain) : (m.setC n c).saveReq = m.saveReq := rfl
@[simp] theorem Strand.setC_saved (m : Strand) (n : CReg) (c : Chain) : (m.setC n c).saved = m.saved := rfl
@[simp] theorem Strand.setC_saveT (m : Strand) (n : CReg) (c : Chain) : (m.setC n c).saveT = m.saveT := rfl

/-! ### Strand.store -/

@[simp] theorem Strand.store_id (m : Strand) (d : Dest) (k : W64) (v : Lanes) : (m.store d k v).id = m.id := by unfold Strand.store; split <;> (try split) <;> rfl
@[simp] theorem Strand.store_cRegs (m : Strand) (d : Dest) (k : W64) (v : Lanes) : (m.store d k v).cRegs = m.cRegs := by unfold Strand.store; split <;> (try split) <;> rfl
@[simp] theorem Strand.store_pc (m : Strand) (d : Dest) (k : W64) (v : Lanes) : (m.store d k v).pc = m.pc := by unfold Strand.store; split <;> (try split) <;> rfl
@[simp] theorem Strand.store_link (m : Strand) (d : Dest) (k : W64) (v : Lanes) : (m.store d k v).link = m.link := by unfold Strand.store; split <;> (try split) <;> rfl
@[simp] theorem Strand.store_attgt (m : Strand) (d : Dest) (k : W64) (v : Lanes) : (m.store d k v).attgt = m.attgt := by unfold Strand.store; split <;> (try split) <;> rfl
@[simp] theorem Strand.store_l0 (m : Strand) (d : Dest) (k : W64) (v : Lanes) : (m.store d k v).l0 = m.l0 := by unfold Strand.store; split <;> (try split) <;> rfl
@[simp] theorem Strand.store_l1 (m : Strand) (d : Dest) (k : W64) (v : Lanes) : (m.store d k v).l1 = m.l1 := by unfold Strand.store; split <;> (try split) <;> rfl
@[simp] theorem Strand.store_xfer (m : Strand) (d : Dest) (k : W64) (v : Lanes) : (m.store d k v).xfer = m.xfer := by unfold Strand.store; split <;> (try split) <;> rfl
@[simp] theorem Strand.store_tick (m : Strand) (d : Dest) (k : W64) (v : Lanes) : (m.store d k v).tick = m.tick := by unfold Strand.store; split <;> (try split) <;> rfl
@[simp] theorem Strand.store_pend (m : Strand) (d : Dest) (k : W64) (v : Lanes) : (m.store d k v).pend = m.pend := by unfold Strand.store; split <;> (try split) <;> rfl
@[simp] theorem Strand.store_stallchk (m : Strand) (d : Dest) (k : W64) (v : Lanes) : (m.store d k v).stallchk = m.stallchk := by unfold Strand.store; split <;> (try split) <;> rfl
@[simp] theorem Strand.store_step (m : Strand) (d : Dest) (k : W64) (v : Lanes) : (m.store d k v).step = m.step := by unfold Strand.store; split <;> (try split) <;> rfl
@[simp] theorem Strand.store_traph (m : Strand) (d : Dest) (k : W64) (v : Lanes) : (m.store d k v).traph = m.traph := by unfold Strand.store; split <;> (try split) <;> rfl
@[simp] theorem Strand.store_plive (m : Strand) (d : Dest) (k : W64) (v : Lanes) : (m.store d k v).plive = m.plive := by unfold Strand.store; split <;> (try split) <;> rfl
@[simp] theorem Strand.store_vlive (m : Strand) (d : Dest) (k : W64) (v : Lanes) : (m.store d k v).vlive = m.vlive := by unfold Strand.store; split <;> (try split) <;> rfl
@[simp] theorem Strand.store_jhead (m : Strand) (d : Dest) (k : W64) (v : Lanes) : (m.store d k v).jhead = m.jhead := by unfold Strand.store; split <;> (try split) <;> rfl
@[simp] theorem Strand.store_jdone (m : Strand) (d : Dest) (k : W64) (v : Lanes) : (m.store d k v).jdone = m.jdone := by unfold Strand.store; split <;> (try split) <;> rfl
@[simp] theorem Strand.store_journal (m : Strand) (d : Dest) (k : W64) (v : Lanes) : (m.store d k v).journal = m.journal := by unfold Strand.store; split <;> (try split) <;> rfl
@[simp] theorem Strand.store_njour (m : Strand) (d : Dest) (k : W64) (v : Lanes) : (m.store d k v).njour = m.njour := by unfold Strand.store; split <;> (try split) <;> rfl
@[simp] theorem Strand.store_hrpc (m : Strand) (d : Dest) (k : W64) (v : Lanes) : (m.store d k v).hrpc = m.hrpc := by unfold Strand.store; split <;> (try split) <;> rfl
@[simp] theorem Strand.store_tnum (m : Strand) (d : Dest) (k : W64) (v : Lanes) : (m.store d k v).tnum = m.tnum := by unfold Strand.store; split <;> (try split) <;> rfl
@[simp] theorem Strand.store_hvalid (m : Strand) (d : Dest) (k : W64) (v : Lanes) : (m.store d k v).hvalid = m.hvalid := by unfold Strand.store; split <;> (try split) <;> rfl
@[simp] theorem Strand.store_drpc (m : Strand) (d : Dest) (k : W64) (v : Lanes) : (m.store d k v).drpc = m.drpc := by unfold Strand.store; split <;> (try split) <;> rfl
@[simp] theorem Strand.store_dptgt (m : Strand) (d : Dest) (k : W64) (v : Lanes) : (m.store d k v).dptgt = m.dptgt := by unfold Strand.store; split <;> (try split) <;> rfl
@[simp] theorem Strand.store_dvalid (m : Strand) (d : Dest) (k : W64) (v : Lanes) : (m.store d k v).dvalid = m.dvalid := by unfold Strand.store; split <;> (try split) <;> rfl
@[simp] theorem Strand.store_dpval (m : Strand) (d : Dest) (k : W64) (v : Lanes) : (m.store d k v).dpval = m.dpval := by unfold Strand.store; split <;> (try split) <;> rfl
@[simp] theorem Strand.store_dpdly (m : Strand) (d : Dest) (k : W64) (v : Lanes) : (m.store d k v).dpdly = m.dpdly := by unfold Strand.store; split <;> (try split) <;> rfl
@[simp] theorem Strand.store_trap (m : Strand) (d : Dest) (k : W64) (v : Lanes) : (m.store d k v).trap = m.trap := by unfold Strand.store; split <;> (try split) <;> rfl
@[simp] theorem Strand.store_wkind (m : Strand) (d : Dest) (k : W64) (v : Lanes) : (m.store d k v).wkind = m.wkind := by unfold Strand.store; split <;> (try split) <;> rfl
@[simp] theorem Strand.store_wval (m : Strand) (d : Dest) (k : W64) (v : Lanes) : (m.store d k v).wval = m.wval := by unfold Strand.store; split <;> (try split) <;> rfl
@[simp] theorem Strand.store_wold (m : Strand) (d : Dest) (k : W64) (v : Lanes) : (m.store d k v).wold = m.wold := by unfold Strand.store; split <;> (try split) <;> rfl
@[simp] theorem Strand.store_wtrans (m : Strand) (d : Dest) (k : W64) (v : Lanes) : (m.store d k v).wtrans = m.wtrans := by unfold Strand.store; split <;> (try split) <;> rfl
@[simp] theorem Strand.store_wait (m : Strand) (d : Dest) (k : W64) (v : Lanes) : (m.store d k v).wait = m.wait := by unfold Strand.store; split <;> (try split) <;> rfl
@[simp] theorem Strand.store_wretired (m : Strand) (d : Dest) (k : W64) (v : Lanes) : (m.store d k v).wretired = m.wretired := by unfold Strand.store; split <;> (try split) <;> rfl
@[simp] theorem Strand.store_wpc (m : Strand) (d : Dest) (k : W64) (v : Lanes) : (m.store d k v).wpc = m.wpc := by unfold Strand.store; split <;> (try split) <;> rfl
@[simp] theorem Strand.store_wwin (m : Strand) (d : Dest) (k : W64) (v : Lanes) : (m.store d k v).wwin = m.wwin := by unfold Strand.store; split <;> (try split) <;> rfl
@[simp] theorem Strand.store_debug (m : Strand) (d : Dest) (k : W64) (v : Lanes) : (m.store d k v).debug = m.debug := by unfold Strand.store; split <;> (try split) <;> rfl
@[simp] theorem Strand.store_stopReq (m : Strand) (d : Dest) (k : W64) (v : Lanes) : (m.store d k v).stopReq = m.stopReq := by unfold Strand.store; split <;> (try split) <;> rfl
@[simp] theorem Strand.store_stallcnt (m : Strand) (d : Dest) (k : W64) (v : Lanes) : (m.store d k v).stallcnt = m.stallcnt := by unfold Strand.store; split <;> (try split) <;> rfl
@[simp] theorem Strand.store_stleft (m : Strand) (d : Dest) (k : W64) (v : Lanes) : (m.store d k v).stleft = m.stleft := by unfold Strand.store; split <;> (try split) <;> rfl
@[simp] theorem Strand.store_wstall (m : Strand) (d : Dest) (k : W64) (v : Lanes) : (m.store d k v).wstall = m.wstall := by unfold Strand.store; split <;> (try split) <;> rfl
@[simp] theorem Strand.store_winBase (m : Strand) (d : Dest) (k : W64) (v : Lanes) : (m.store d k v).winBase = m.winBase := by unfold Strand.store; split <;> (try split) <;> rfl
@[simp] theorem Strand.store_winSize (m : Strand) (d : Dest) (k : W64) (v : Lanes) : (m.store d k v).winSize = m.winSize := by unfold Strand.store; split <;> (try split) <;> rfl
@[simp] theorem Strand.store_bars (m : Strand) (d : Dest) (k : W64) (v : Lanes) : (m.store d k v).bars = m.bars := by unfold Strand.store; split <;> (try split) <;> rfl
@[simp] theorem Strand.store_evs (m : Strand) (d : Dest) (k : W64) (v : Lanes) : (m.store d k v).evs = m.evs := by unfold Strand.store; split <;> (try split) <;> rfl
@[simp] theorem Strand.store_index (m : Strand) (d : Dest) (k : W64) (v : Lanes) : (m.store d k v).index = m.index := by unfold Strand.store; split <;> (try split) <;> rfl
@[simp] theorem Strand.store_group (m : Strand) (d : Dest) (k : W64) (v : Lanes) : (m.store d k v).group = m.group := by unfold Strand.store; split <;> (try split) <;> rfl
@[simp] theorem Strand.store_tile (m : Strand) (d : Dest) (k : W64) (v : Lanes) : (m.store d k v).tile = m.tile := by unfold Strand.store; split <;> (try split) <;> rfl
@[simp] theorem Strand.store_slot (m : Strand) (d : Dest) (k : W64) (v : Lanes) : (m.store d k v).slot = m.slot := by unfold Strand.store; split <;> (try split) <;> rfl
@[simp] theorem Strand.store_inSlot (m : Strand) (d : Dest) (k : W64) (v : Lanes) : (m.store d k v).inSlot = m.inSlot := by unfold Strand.store; split <;> (try split) <;> rfl
@[simp] theorem Strand.store_halted (m : Strand) (d : Dest) (k : W64) (v : Lanes) : (m.store d k v).halted = m.halted := by unfold Strand.store; split <;> (try split) <;> rfl
@[simp] theorem Strand.store_phase (m : Strand) (d : Dest) (k : W64) (v : Lanes) : (m.store d k v).phase = m.phase := by unfold Strand.store; split <;> (try split) <;> rfl
@[simp] theorem Strand.store_atPhase (m : Strand) (d : Dest) (k : W64) (v : Lanes) : (m.store d k v).atPhase = m.atPhase := by unfold Strand.store; split <;> (try split) <;> rfl
@[simp] theorem Strand.store_phaseGo (m : Strand) (d : Dest) (k : W64) (v : Lanes) : (m.store d k v).phaseGo = m.phaseGo := by unfold Strand.store; split <;> (try split) <;> rfl
@[simp] theorem Strand.store_phaseHalt (m : Strand) (d : Dest) (k : W64) (v : Lanes) : (m.store d k v).phaseHalt = m.phaseHalt := by unfold Strand.store; split <;> (try split) <;> rfl
@[simp] theorem Strand.store_phaseAt (m : Strand) (d : Dest) (k : W64) (v : Lanes) : (m.store d k v).phaseAt = m.phaseAt := by unfold Strand.store; split <;> (try split) <;> rfl
@[simp] theorem Strand.store_ctx (m : Strand) (d : Dest) (k : W64) (v : Lanes) : (m.store d k v).ctx = m.ctx := by unfold Strand.store; split <;> (try split) <;> rfl
@[simp] theorem Strand.store_serial (m : Strand) (d : Dest) (k : W64) (v : Lanes) : (m.store d k v).serial = m.serial := by unfold Strand.store; split <;> (try split) <;> rfl
@[simp] theorem Strand.store_sup (m : Strand) (d : Dest) (k : W64) (v : Lanes) : (m.store d k v).sup = m.sup := by unfold Strand.store; split <;> (try split) <;> rfl
@[simp] theorem Strand.store_saveReq (m : Strand) (d : Dest) (k : W64) (v : Lanes) : (m.store d k v).saveReq = m.saveReq := by unfold Strand.store; split <;> (try split) <;> rfl
@[simp] theorem Strand.store_saved (m : Strand) (d : Dest) (k : W64) (v : Lanes) : (m.store d k v).saved = m.saved := by unfold Strand.store; split <;> (try split) <;> rfl
@[simp] theorem Strand.store_saveT (m : Strand) (d : Dest) (k : W64) (v : Lanes) : (m.store d k v).saveT = m.saveT := by unfold Strand.store; split <;> (try split) <;> rfl

/-! ### Strand.clock -/

@[simp] theorem Strand.clock_id (m : Strand) (n : Fin 16) : (m.clock n).id = m.id := rfl
@[simp] theorem Strand.clock_sRegs (m : Strand) (n : Fin 16) : (m.clock n).sRegs = m.sRegs := rfl
@[simp] theorem Strand.clock_qRegs (m : Strand) (n : Fin 16) : (m.clock n).qRegs = m.qRegs := rfl
@[simp] theorem Strand.clock_vRegs (m : Strand) (n : Fin 16) : (m.clock n).vRegs = m.vRegs := rfl
@[simp] theorem Strand.clock_mRegs (m : Strand) (n : Fin 16) : (m.clock n).mRegs = m.mRegs := rfl
@[simp] theorem Strand.clock_cRegs (m : Strand) (n : Fin 16) : (m.clock n).cRegs = m.cRegs := rfl
@[simp] theorem Strand.clock_bRegs (m : Strand) (n : Fin 16) : (m.clock n).bRegs = m.bRegs := rfl
@[simp] theorem Strand.clock_pc (m : Strand) (n : Fin 16) : (m.clock n).pc = m.pc := rfl
@[simp] theorem Strand.clock_link (m : Strand) (n : Fin 16) : (m.clock n).link = m.link := rfl
@[simp] theorem Strand.clock_attgt (m : Strand) (n : Fin 16) : (m.clock n).attgt = m.attgt := rfl
@[simp] theorem Strand.clock_l0 (m : Strand) (n : Fin 16) : (m.clock n).l0 = m.l0 := rfl
@[simp] theorem Strand.clock_l1 (m : Strand) (n : Fin 16) : (m.clock n).l1 = m.l1 := rfl
@[simp] theorem Strand.clock_xfer (m : Strand) (n : Fin 16) : (m.clock n).xfer = m.xfer := rfl
@[simp] theorem Strand.clock_pend (m : Strand) (n : Fin 16) : (m.clock n).pend = m.pend := rfl
@[simp] theorem Strand.clock_stallchk (m : Strand) (n : Fin 16) : (m.clock n).stallchk = m.stallchk := rfl
@[simp] theorem Strand.clock_step (m : Strand) (n : Fin 16) : (m.clock n).step = m.step := rfl
@[simp] theorem Strand.clock_traph (m : Strand) (n : Fin 16) : (m.clock n).traph = m.traph := rfl
@[simp] theorem Strand.clock_plive (m : Strand) (n : Fin 16) : (m.clock n).plive = m.plive := rfl
@[simp] theorem Strand.clock_vlive (m : Strand) (n : Fin 16) : (m.clock n).vlive = m.vlive := rfl
@[simp] theorem Strand.clock_jhead (m : Strand) (n : Fin 16) : (m.clock n).jhead = m.jhead := rfl
@[simp] theorem Strand.clock_jdone (m : Strand) (n : Fin 16) : (m.clock n).jdone = m.jdone := rfl
@[simp] theorem Strand.clock_journal (m : Strand) (n : Fin 16) : (m.clock n).journal = m.journal := rfl
@[simp] theorem Strand.clock_njour (m : Strand) (n : Fin 16) : (m.clock n).njour = m.njour := rfl
@[simp] theorem Strand.clock_hrpc (m : Strand) (n : Fin 16) : (m.clock n).hrpc = m.hrpc := rfl
@[simp] theorem Strand.clock_tnum (m : Strand) (n : Fin 16) : (m.clock n).tnum = m.tnum := rfl
@[simp] theorem Strand.clock_hvalid (m : Strand) (n : Fin 16) : (m.clock n).hvalid = m.hvalid := rfl
@[simp] theorem Strand.clock_drpc (m : Strand) (n : Fin 16) : (m.clock n).drpc = m.drpc := rfl
@[simp] theorem Strand.clock_dptgt (m : Strand) (n : Fin 16) : (m.clock n).dptgt = m.dptgt := rfl
@[simp] theorem Strand.clock_dvalid (m : Strand) (n : Fin 16) : (m.clock n).dvalid = m.dvalid := rfl
@[simp] theorem Strand.clock_dpval (m : Strand) (n : Fin 16) : (m.clock n).dpval = m.dpval := rfl
@[simp] theorem Strand.clock_dpdly (m : Strand) (n : Fin 16) : (m.clock n).dpdly = m.dpdly := rfl
@[simp] theorem Strand.clock_trap (m : Strand) (n : Fin 16) : (m.clock n).trap = m.trap := rfl
@[simp] theorem Strand.clock_wkind (m : Strand) (n : Fin 16) : (m.clock n).wkind = m.wkind := rfl
@[simp] theorem Strand.clock_wval (m : Strand) (n : Fin 16) : (m.clock n).wval = m.wval := rfl
@[simp] theorem Strand.clock_wold (m : Strand) (n : Fin 16) : (m.clock n).wold = m.wold := rfl
@[simp] theorem Strand.clock_wtrans (m : Strand) (n : Fin 16) : (m.clock n).wtrans = m.wtrans := rfl
@[simp] theorem Strand.clock_wretired (m : Strand) (n : Fin 16) : (m.clock n).wretired = m.wretired := rfl
@[simp] theorem Strand.clock_wpc (m : Strand) (n : Fin 16) : (m.clock n).wpc = m.wpc := rfl
@[simp] theorem Strand.clock_wwin (m : Strand) (n : Fin 16) : (m.clock n).wwin = m.wwin := rfl
@[simp] theorem Strand.clock_debug (m : Strand) (n : Fin 16) : (m.clock n).debug = m.debug := rfl
@[simp] theorem Strand.clock_stopReq (m : Strand) (n : Fin 16) : (m.clock n).stopReq = m.stopReq := rfl
@[simp] theorem Strand.clock_wstall (m : Strand) (n : Fin 16) : (m.clock n).wstall = m.wstall := rfl
@[simp] theorem Strand.clock_winBase (m : Strand) (n : Fin 16) : (m.clock n).winBase = m.winBase := rfl
@[simp] theorem Strand.clock_winSize (m : Strand) (n : Fin 16) : (m.clock n).winSize = m.winSize := rfl
@[simp] theorem Strand.clock_bars (m : Strand) (n : Fin 16) : (m.clock n).bars = m.bars := rfl
@[simp] theorem Strand.clock_evs (m : Strand) (n : Fin 16) : (m.clock n).evs = m.evs := rfl
@[simp] theorem Strand.clock_index (m : Strand) (n : Fin 16) : (m.clock n).index = m.index := rfl
@[simp] theorem Strand.clock_group (m : Strand) (n : Fin 16) : (m.clock n).group = m.group := rfl
@[simp] theorem Strand.clock_tile (m : Strand) (n : Fin 16) : (m.clock n).tile = m.tile := rfl
@[simp] theorem Strand.clock_slot (m : Strand) (n : Fin 16) : (m.clock n).slot = m.slot := rfl
@[simp] theorem Strand.clock_inSlot (m : Strand) (n : Fin 16) : (m.clock n).inSlot = m.inSlot := rfl
@[simp] theorem Strand.clock_halted (m : Strand) (n : Fin 16) : (m.clock n).halted = m.halted := rfl
@[simp] theorem Strand.clock_phase (m : Strand) (n : Fin 16) : (m.clock n).phase = m.phase := rfl
@[simp] theorem Strand.clock_atPhase (m : Strand) (n : Fin 16) : (m.clock n).atPhase = m.atPhase := rfl
@[simp] theorem Strand.clock_phaseGo (m : Strand) (n : Fin 16) : (m.clock n).phaseGo = m.phaseGo := rfl
@[simp] theorem Strand.clock_phaseHalt (m : Strand) (n : Fin 16) : (m.clock n).phaseHalt = m.phaseHalt := rfl
@[simp] theorem Strand.clock_phaseAt (m : Strand) (n : Fin 16) : (m.clock n).phaseAt = m.phaseAt := rfl
@[simp] theorem Strand.clock_ctx (m : Strand) (n : Fin 16) : (m.clock n).ctx = m.ctx := rfl
@[simp] theorem Strand.clock_serial (m : Strand) (n : Fin 16) : (m.clock n).serial = m.serial := rfl
@[simp] theorem Strand.clock_sup (m : Strand) (n : Fin 16) : (m.clock n).sup = m.sup := rfl
@[simp] theorem Strand.clock_saveReq (m : Strand) (n : Fin 16) : (m.clock n).saveReq = m.saveReq := rfl
@[simp] theorem Strand.clock_saved (m : Strand) (n : Fin 16) : (m.clock n).saved = m.saved := rfl
@[simp] theorem Strand.clock_saveT (m : Strand) (n : Fin 16) : (m.clock n).saveT = m.saveT := rfl

@[simp] theorem Strand.clock_tick (m : Strand) (n : Fin 16) : (m.clock n).tick = m.tick + 1 + n.val := rfl
@[simp] theorem Strand.clock_stleft (m : Strand) (n : Fin 16) : (m.clock n).stleft = BitVec.ofNat 4 n.val := rfl
@[simp] theorem Strand.clock_wait (m : Strand) (n : Fin 16) : (m.clock n).wait = .none := rfl
@[simp] theorem Strand.clock_stallcnt (m : Strand) (n : Fin 16) : (m.clock n).stallcnt = 0 := rfl
@[simp] theorem Strand.setC_cRegs (m : Strand) (n : CReg) (c : Chain) : (m.setC n c).cRegs = m.cRegs.set n.val c n.isLt := rfl

end Sys2Proof.Machine
end

