-- ==== Sys2Proof/Laws/Words.lean ====
section
/-!
SUPPORT. What each word shape answers: a word that executes does what its body says and retires, a suppressed one only
retires, and one that reads early traps. One lemma per shape and case.
-/

namespace Sys2Proof.Machine

open Sys2Proof.Claims

/-- What a word does to the settled strand is all that counts. -/
theorem retired_congr {h : Hdr} {s : State} {f g : Strand → Strand} (e : f s.me.settle = g s.me.settle) :
    retired h s f = retired h s g := by
  unfold retired; rw [e]

/-! ### The guard and STALL-CHECK of a scalar-guarded word -/

theorem seqWord_runs {h : Hdr} {rs : List Dest} {s : State} (b : State → Eff) (r : Runs s h rs) :
    Machine.seqWord h rs b s =
      .next (State.finish s.me.settle.pc h.stall s.me.settle.step none (b (settled s))) := by
  obtain ⟨g, e1, e2⟩ := r
  simp [Machine.seqWord, settled, g, e1, e2]

theorem seqWord_off {h : Hdr} {rs : List Dest} {s : State} (b : State → Eff)
    (e : s.me.settle.early (hdrReads h) = false) (g : s.me.settle.guard h = false) :
    Machine.seqWord h rs b s = .next (retired h s id) := by
  simp [Machine.seqWord, e, g, State.finish, retired, retiredTo]

/-- A body that changes the strand in focus and retires. -/
theorem seqWord_me {h : Hdr} {rs : List Dest} {s : State} (f : State → Strand) (r : Runs s h rs) :
    Machine.seqWord h rs (fun s1 => .ok (s1.setMe (f s1))) s = .next (retired h s fun _ => f (settled s)) := by
  rw [seqWord_runs _ r]; rfl

/-- A body that changes nothing. -/
theorem seqWord_nothing {h : Hdr} {rs : List Dest} {s : State} (r : Runs s h rs) :
    Machine.seqWord h rs (fun s1 => .ok s1) s = .next (retired h s id) := by
  rw [seqWord_runs _ r]; rfl

theorem aluWord_runs {h : Hdr} {rs : List Dest} {s : State} (l : Nat) (d : SReg) (f : State → W64) (r : Runs s h rs) :
    aluWord h l d rs f s = .next (retired h s fun m => m.setS l d (f (settled s))) := by
  rw [aluWord, seqWord_runs _ r]; rfl

theorem alu2_runs {h : Hdr} {s : State} {a b : SReg} (l : Nat) (d : SReg) (f : W64 → W64 → W64)
    (r : Runs s h [.s a, .s b]) :
    alu2 h l d a b f s = .next (retired h s fun m => m.setS l d (f (m.readS a) (m.readS b))) := by
  rw [alu2, aluWord_runs _ _ _ r]; rfl

theorem alu1_runs {h : Hdr} {s : State} {a : SReg} (l : Nat) (d : SReg) (f : W64 → W64) (r : Runs s h [.s a]) :
    alu1 h l d a f s = .next (retired h s fun m => m.setS l d (f (m.readS a))) := by
  rw [alu1, aluWord_runs _ _ _ r]; rfl

/-- A word that is `alu2` of `f` writes what any equal function gives. -/
theorem writesS_alu2 {i : Instr} {h : Hdr} {l : Nat} {d a b : SReg} {f : W64 → W64 → W64} (g : W64 → W64 → W64)
    (e : ∀ s, exec i s = alu2 h l d a b f s) (hv : ∀ x y, f x y = g x y) :
    WritesS i h [.s a, .s b] l d (fun m => g (m.readS a) (m.readS b)) := by
  intro s r; rw [e, alu2_runs _ _ _ r]; simp only [hv]

theorem writesS_alu1 {i : Instr} {h : Hdr} {l : Nat} {d a : SReg} {f : W64 → W64} (g : W64 → W64)
    (e : ∀ s, exec i s = alu1 h l d a f s) (hv : ∀ x, f x = g x) :
    WritesS i h [.s a] l d (fun m => g (m.readS a)) := by
  intro s r; rw [e, alu1_runs _ _ _ r]; simp only [hv]

/-- A family 0 word whose value depends on the strand in focus alone. -/
theorem writesS_alu {i : Instr} {h : Hdr} {l : Nat} {d : SReg} {rs : List Dest} {f : State → W64} (g : Strand → W64)
    (e : ∀ s, exec i s = aluWord h l d rs f s) (hv : ∀ s, f s = g s.me) : WritesS i h rs l d g := by
  intro s r; rw [e, aluWord_runs _ _ _ r, hv]; rfl

/-! ### The lane guard -/

theorem laneWord_runs {h : Hdr} {rs : List Dest} {cs : List CReg} {s : State} (b : W64 → State → Eff)
    (r : RunsLane s h rs cs) :
    laneWord h rs cs b s = .next (State.finish s.me.settle.pc h.stall s.me.settle.step cs.head?
      (b (s.me.settle.laneGuard h) (settled s))) := by
  obtain ⟨g, ⟨e1, e2⟩, e3⟩ := r
  have g' : ¬ s.me.settle.laneGuard h = 0#64 := g
  simp [laneWord, settled, g', e1, e2, e3]

theorem laneWord_off {h : Hdr} {rs : List Dest} {cs : List CReg} {s : State} (b : W64 → State → Eff)
    (e : s.me.settle.early (hdrReads h) = false) (g : s.me.settle.laneGuard h = 0) :
    laneWord h rs cs b s = .next (retired h s id cs.head?) := by
  simp [laneWord, e, g, State.finish, retired, retiredTo]

theorem vecWord_runs {h : Hdr} {rs : List Dest} {s : State} (l : Nat) (d : VReg) (z : Bool) (w : Nat)
    (f : Strand → Lanes) (r : RunsLane s h rs []) :
    vecWord h l d z w rs f s = .next (retired h s fun m =>
      m.putV false l d z allLanes (enabled w (m.laneGuard h)) (f m)) := by
  rw [vecWord, laneWord_runs _ r]; rfl

theorem elemWord_runs {h : Hdr} {rs : List Dest} {cs : List CReg} {s : State} (i : Instr) (l : Nat) (d : OpVC) (z : Bool)
    (w : Nat) (k : Bool) (ops : Strand → Opnds) (f : Nat → Nat → Nat → Nat) (r : RunsLane s h rs cs) :
    elemWord h i l d z w rs cs k ops f s = .next (retired h s (fun m =>
      m.putVC i cs k l w d z (m.laneGuard h) (ops m)
        (ofElems w fun j => f (elemAt w (ops m).a j) (elemAt w (ops m).b j) (elemAt w (ops m).c j))) cs.head?) := by
  rw [elemWord, laneWord_runs _ r]; rfl

/-! ### Predicate pairs -/

theorem pairWord_runs {h : Hdr} {rs : List Dest} {s : State} (pt pf : QReg) (mode : PMode) (l : Nat) (c : Strand → Bool)
    (e : NotEarly s h rs) (g : s.me.settle.guard h = true ∨ mode = .u) (k : stageClash s.me.settle [pt, pf] = false) :
    pairWord h pt pf mode rs l c s = .next (retired h s fun m => writePair m l pt pf mode (m.guard h) (c m)) := by
  obtain ⟨e1, e2⟩ := e
  rcases g with g | g
  · simp [pairWord, e1, e2, g, k, State.finish, retired, retiredTo]
  · subst g; simp [pairWord, e1, e2, k, State.finish, retired, retiredTo]

end Sys2Proof.Machine
end

