-- ==== Sys2Proof/Laws/LaneWords.lean ====
section
/-!
SUPPORT. What the lane words write, element by element: the values in terms of integers and bit vectors, and the lanes of a
destination that an execution changes.
-/

namespace Sys2Proof.Machine

open Sys2Proof.Claims

theorem allLanes_and (e : W64) : allLanes &&& e = e := by rw [allLanes]; exact BitVec.allOnes_and

theorem putV_all (m : Strand) (l : Nat) (d : VReg) (z : Bool) (e : W64) (v : Lanes) :
    m.putV false l d z allLanes e v = m.setV l d (if z then allLanes else e) (v &&& laneMask e) := by
  simp only [Strand.putV, allLanes_and]; rfl

/-- An element word with a V destination and no chain source. -/
theorem elemWord_v {i : Instr} {h : Hdr} {l : Nat} {d : VReg} {z : Bool} {ty : ETy} {rs : List Dest} {ops : Strand → Opnds}
    {f : Nat → Nat → Nat → Nat} {s : State} (r : RunsLane s h rs []) :
    elemWord h i l (.v d) z ty.width rs [] false ops f s = .next (retired h s fun m =>
      m.setV l d (if z then allLanes else enabled ty.width (m.laneGuard h))
        ((ofElems ty.width fun j => f (elemAt ty.width (ops s.me.settle).a j) (elemAt ty.width (ops s.me.settle).b j)
          (elemAt ty.width (ops s.me.settle).c j)) &&& laneMask (enabled ty.width (s.me.settle.laneGuard h)))) := by
  rw [elemWord_runs _ _ _ _ _ _ _ _ r]
  congr 1
  apply retired_congr
  exact putV_all _ _ _ _ _ _

theorem vecWord_v {h : Hdr} {l : Nat} {d : VReg} {z : Bool} {w : Nat} {rs : List Dest} {f : Strand → Lanes} {s : State}
    (r : RunsLane s h rs []) :
    vecWord h l d z w rs f s = .next (retired h s fun m =>
      m.setV l d (if z then allLanes else enabled w (m.laneGuard h))
        (f s.me.settle &&& laneMask (enabled w (s.me.settle.laneGuard h)))) := by
  rw [vecWord_runs _ _ _ _ _ r]
  congr 1
  apply retired_congr
  exact putV_all _ _ _ _ _ _

theorem width_pos (t : ETy) : 0 < t.width := by cases t <;> decide

theorem sgn_eq {w : Nat} (hw : 0 < w) (x : Nat) : sgn w x = (BitVec.ofNat w x).toInt := by
  unfold sgn
  rw [BitVec.toInt_eq_toNat_cond, BitVec.toNat_ofNat]
  have : 2 ^ w = 2 * 2 ^ (w - 1) := by rw [← Nat.pow_succ']; congr 1; omega
  split <;> split <;> omega

theorem wrapI_eq (w : Nat) (x : Int) : wrapI w x = (BitVec.ofInt w x).toNat := by
  simp [wrapI, BitVec.toNat_ofInt]

theorem clampI_eq {lo hi : Int} (h : lo ≤ hi) (x : Int) : clampI lo hi x = max lo (min hi x) := by
  unfold clampI
  split
  · omega
  · split <;> omega

theorem tyMin_le_tyMax (t : ETy) : tyMin t ≤ tyMax t := by cases t <;> decide

theorem vsRead_elem (t : ETy) (m : Strand) (b : OpVS) {j : Nat} (h : j < 2048 / t.width) :
    elemAt t.width (vsRead m t.width b) j =
      match b with | .v n => elemAt t.width (m.readV n) j | .s n => (m.readS n).toNat % 2 ^ t.width := by
  cases b with
  | v n => rfl
  | s n => exact elemAt_ofElems (width_fills t) _ h

theorem elemAt_lt (w : Nat) (v : Lanes) (j : Nat) : elemAt w v j < 2 ^ w := Nat.mod_lt _ (Nat.two_pow_pos w)

theorem shlE_eq (w x n : Nat) : shlE w x n = (BitVec.ofNat w x <<< n).toNat := by
  rw [BitVec.toNat_shiftLeft, BitVec.toNat_ofNat, Nat.shiftLeft_eq, shlE, Nat.mod_mul_mod]
  split
  · rfl
  · rename_i h
    obtain ⟨k, rfl⟩ : ∃ k, n = w + k := ⟨n - w, by omega⟩
    rw [Nat.pow_add, ← Nat.mul_assoc, Nat.mul_right_comm, Nat.mul_mod_left]

theorem shrE_eq {w x : Nat} (hx : x < 2 ^ w) (n : Nat) : shrE w x n = (BitVec.ofNat w x >>> n).toNat := by
  rw [BitVec.toNat_ushiftRight, BitVec.toNat_ofNat, Nat.mod_eq_of_lt hx, Nat.shiftRight_eq_div_pow, shrE]
  split
  · rfl
  · rename_i h
    symm; apply Nat.div_eq_of_lt
    exact Nat.lt_of_lt_of_le hx (Nat.pow_le_pow_right (by decide) (by omega))

theorem sarE_eq {w : Nat} (hw : 0 < w) (x n : Nat) : sarE w x n = ((BitVec.ofNat w x).sshiftRight n).toNat := by
  rw [sarE, sgn_eq hw, wrapI_eq]
  congr 1
  apply BitVec.eq_of_toInt_eq
  rw [BitVec.toInt_sshiftRight, BitVec.toInt_ofInt]
  have hb := BitVec.toInt_lt (x := BitVec.ofNat w x)
  have hl := BitVec.le_toInt (x := BitVec.ofNat w x)
  generalize (BitVec.ofNat w x).toInt = y at *
  have e : y / ((2 ^ (if n < w then n else w) : Nat) : Int) = y >>> n := by
    rw [Int.shiftRight_eq_div_pow]
    split
    · rfl
    · rename_i h
      have hp : ∀ k, w - 1 ≤ k → y / ((2 ^ k : Nat) : Int) = if y < 0 then -1 else 0 := by
        intro k hk
        have hk2 : (2 : Int) ^ (w - 1) ≤ ((2 ^ k : Nat) : Int) := by
          have := Nat.pow_le_pow_right (n := 2) (by decide) hk
          exact_mod_cast this
        have hk3 : (0 : Int) < ((2 ^ k : Nat) : Int) := by exact_mod_cast Nat.two_pow_pos k
        split
        · rename_i hneg
          have h1 : y / ((2 ^ k : Nat) : Int) < 0 := Int.ediv_neg_of_neg_of_pos hneg hk3
          have h2 : -1 ≤ y / ((2 ^ k : Nat) : Int) := by
            apply (Int.le_ediv_iff_mul_le hk3).mpr
            omega
          omega
        · exact Int.ediv_eq_zero_of_lt (by omega) (by omega)
      rw [hp w (by omega), hp n (by omega)]
  rw [e, ← BitVec.toInt_ofInt]
  have hr : -(2 : Int) ^ (w - 1) ≤ y >>> n ∧ y >>> n < 2 ^ (w - 1) := by
    rw [Int.shiftRight_eq_div_pow]
    have hk3 : (0 : Int) < ((2 ^ n : Nat) : Int) := by exact_mod_cast Nat.two_pow_pos n
    have hp : (0 : Int) < 2 ^ (w - 1) := Int.pow_pos (by decide)
    have hq : (2 : Int) ^ (w - 1) * 1 ≤ 2 ^ (w - 1) * ((2 ^ n : Nat) : Int) :=
      Int.mul_le_mul_of_nonneg_left hk3 (Int.le_of_lt hp)
    rw [Int.mul_one] at hq
    constructor
    · apply (Int.le_ediv_iff_mul_le hk3).mpr
      rw [Int.neg_mul]; omega
    · apply Int.ediv_lt_of_lt_mul hk3
      omega
  obtain ⟨k, rfl⟩ : ∃ k, w = k + 1 := ⟨w - 1, by omega⟩
  simp only [Nat.add_sub_cancel] at hr
  rw [BitVec.toInt_ofInt]
  exact Int.bmod_eq_of_le (by rw [Nat.pow_succ]; push_cast; omega) (by rw [Nat.pow_succ]; push_cast; omega)

end Sys2Proof.Machine
end

