-- ==== Sys2Proof/Laws/Turn.lean ====
section
/-!
SUPPORT. What a turn of the agenda takes, and how a satisfied wait ends, without their definitions.
-/

namespace Sys2Proof.Machine

/-- A time entry is taken as it stands when no bound is due. -/
theorem State.turn_time (s : State) (a : Action) (as : List Action) (hb : s.bounds = []) (h : a.isTime = true) :
    s.turn a as = (a, [], as) := by
  simp [State.turn, hb, h]

/-- A single action is taken as it stands when no bound is due. -/
theorem State.turn_single (s : State) (a : Action) (hb : s.bounds = []) : s.turn a [] = (a, [], []) := by
  unfold State.turn
  cases h : a.isTime
  · have hf : s.firstOf [a] = 0 := by
      unfold State.firstOf firsts upto
      cases a.agent <;> simp [Action.agent]
    simp [hb, hf, h, State.faultTogether]
  · simp [hb, h]

/-- A wait with nothing left to wait for completes its entry. -/
theorem State.endWait_done {s : State} {sid : Nat} {q : W32} (h : (s.strand sid).bind s.waitDone = some q) :
    s.endWait sid = s.finishEntry sid q := by
  unfold State.endWait
  rw [h]

/-- Otherwise the state stays as it is. -/
theorem State.endWait_waits {s : State} {sid : Nat} (h : (s.strand sid).bind s.waitDone = none) : s.endWait sid = s := by
  unfold State.endWait
  rw [h]

/-- A strand that waits in neither a WAITK nor an XWAIT has no such wait to end. -/
theorem State.waitDone_none {s : State} {m : Strand} (hk : ∀ q b, m.wait ≠ .waitk q b) (hx : ∀ q x b, m.wait ≠ .xwait q x b) :
    s.waitDone m = none := by
  unfold State.waitDone
  split
  · exact absurd ‹_› (hk _ _)
  · exact absurd ‹_› (hx _ _ _)
  · rfl

end Sys2Proof.Machine
end

