-- ==== Sys2Proof/Tests/Slice0.lean ====
section
/-!
SUPPORT. The author's own tests: an ill-formed term for each check of WellFormed, the words and the numbers that the spec
works out by hand, single steps on a small state, and a witness for the hypotheses of each statement.
-/

namespace Sys2Proof.Tests

open Sys2Proof Sys2Proof.Machine Sys2Proof.Claims

/- One proof at a time: each long evaluation that waits for another holds a thread and its stack. -/
set_option Elab.async false

/-! ### A small machine -/

/-- Always, stall 0 (spec/00, R17). -/
def on : Hdr := ⟨0xFF, 0, 0, 0, 0⟩

/-- One privileged strand of a running context; one 1 GiB leaf maps its addresses from 0 up. -/
def base : State := State.reset.placeWord 0

/-- The same with its strand changed by `f`. -/
def with_ (f : Strand → Strand) : State := base.setMe (f base.me)

/-- Doublewords in physical memory. -/
def stored (l : List (Nat × W64)) (s : State) : State := { s with mem := l.foldl (fun m p => m.write p.1 (bytes64 p.2)) s.mem }

/-- S registers of the strand. -/
def sregs (l : List (Fin 64 × W64)) (m : Strand) : Strand := { m with sRegs := l.foldl (fun v p => v.set p.1.val p.2 p.1.isLt) m.sRegs }

/-- V registers of the strand. -/
def vregs (l : List (Fin 64 × Lanes)) (m : Strand) : Strand := { m with vRegs := l.foldl (fun v p => v.set p.1.val p.2 p.1.isLt) m.vRegs }

/-- The strand after a word, once everything it wrote is due. -/
def after (i : Instr) (s : State) : Strand :=
  match exec i s with
  | .next t => { t.me with tick := t.me.tick + 99 }.settle
  | _ => Strand.blank

/-- The state after a word. -/
def goto (i : Instr) (s : State) : State :=
  match exec i s with
  | .next t => t
  | _ => State.reset

/-! ### Ill-formed terms (spec/05, R127 to R143) -/

theorem test_wf_guard : (Instr.add ⟨0xF0, 18, 0, 0, 0⟩ 1 2 3).wf = false ∧ (Instr.add on 1 2 3).wf = true ∧
    (Instr.viadd ⟨0xF0, 18, 0, 0, 0⟩ 1 2 (.v 3) .i16 false false).wf = true := by decide

theorem test_wf_scalar : ∀ i ∈ [Instr.bfx on 1 2 0 0, .bfi on 1 2 60 5, .cmp on 1 1 2 .eq .n 3, .cmp on 1 2 2 .un .n 3,
    .cmpi on 3 3 2 .eq .n 0, .cmpi on 1 2 2 .ord .n 0, .tstb on 4 4 2 .n 0, .plop on 5 5 1 2 3 0 .n, .prep on 1 5, .prep on 1 0x800000,
    .loop on 1 0 1, .loop on 1 4 0, .loop on 1 4 9, .vany on 6 6 1 .n, .vall on 7 7 1 .n, .mtsr on 1 2, .mtsr on 15 2], i.wf = false := by
  decide

theorem test_wf_lane : ∀ i ∈ [Instr.viadd on 1 2 (.v 3) .f32 false false, .visub on 1 2 (.v 3) .b4 false false,
    .vimul on 1 2 (.v 3) .i64 false false, .vimad on 1 2 (.v 3) (.v 4) .n64 false false, .vand on 1 2 (.v 3) .f16 false,
    .vor on 1 2 (.v 3) .f16 false, .vxor on 1 2 (.v 3) .f16 false, .vshl on 1 2 (.v 3) .f16 false, .vshr on 1 2 (.v 3) .f16 false,
    .vsar on 1 2 (.v 3) .f16 false, .vshlI on 1 2 16 .i16 false, .vshrI on 1 2 8 .n8 false, .vsarI on 1 2 32 .i32 false,
    .vmov on (.c 1) (.c 2) false, .vmov on (.c 1) (.v 2) true, .vbcast on 1 2 .b4 false, .vbcastI on 1 2 64 .f32 false, .vextr on 1 2 3 .b4,
    .vextrI on 1 2 128 .n16, .viota on 1 2 1 .f32 false, .vperm on 1 2 3 .i64 false, .vrot on 1 2 3 .b4 false, .vrotI on 1 2 64 .f32 false,
    .vcomp on 1 2 3 .n16 false, .vbtst on 1 1 2 (.v 3) .n, .mlop on 2 2 3 4 5 0 .n], i.wf = false := by decide

theorem test_wf_float : ∀ i ∈ [Instr.vadd on (.v 1) (.v 2) (.v 3) .i32 .rne false, .vsub on (.c 1) (.c 1) (.v 3) .f32 .rne false,
    .vmul on (.v 1) (.c 2) (.v 3) .bf16 .rne false, .vfma on (.c 1) (.v 2) (.v 3) (.c 1) .f32 .rne false,
    .vfms on (.c 1) (.v 2) (.v 3) (.v 4) .f32 .rne true, .vabs on (.v 1) (.v 2) .e4m3 false, .vneg on (.c 1) (.c 1) .f32 false,
    .vmin on (.v 1) (.v 2) (.v 3) .i32 true false, .vmax on (.v 1) (.c 2) (.c 3) .f32 false false,
    .vdiv on (.v 1) (.v 2) (.v 3) .e5m2 .rne false, .vsqrt on (.v 1) (.v 2) .n32 .rne false, .vrcp on (.v 1) (.v 2) .i8 .rne false,
    .vrsq on (.v 1) (.v 2) .b4 .rne false, .vexp2 on (.v 1) (.v 2) .i64 .rne false, .vlog2 on (.c 1) (.v 2) .f16 .rne false,
    .vcvt on 1 2 .b4 .f32 0 .rne false false false, .vcvt on 1 2 .i8 .f32 4 .rne false false false,
    .vcvt on 1 2 .i8 .i16 0 .rtz false false false, .vcvt on 1 2 .i8 .f32 0 .rne true false false,
    .vcvt on 1 2 .e5m2 .f32 0 .rne false true false, .vqnt on 1 2 3 .e2m1 .e4m3 0 false, .vdqt on 1 2 3 .i8 0 .rne false false,
    .vdqt on 1 2 3 .f32 0 .rne true false], i.wf = false := by decide

theorem test_wf_pairs : ∀ i ∈ [Instr.vcmp on 1 1 (.v 2) (.v 3) .eq .f32 .n false, .vcmp on 1 2 (.v 2) (.v 3) .eq .i16 .n false,
    .vcmp on 1 2 (.v 2) (.v 3) .ltn .f32 .n false, .vcmp on 1 2 (.v 2) (.v 3) .un .i32 .n false,
    .vcmp on 1 2 (.c 2) (.v 3) .eq .i32 .n false, .vcmp on 1 2 (.c 2) (.c 3) .eq .f32 .n false,
    .vcmp on 1 2 (.v 2) (.v 3) .eq .f32 .n true, .vthr on 1 1 (.v 2) (.s 3) .gt .n false, .vthr on 1 2 (.v 2) (.s 3) .len .n false,
    .vthr on 1 2 (.v 2) (.s 3) .gt .n true, .vsel on 1 (.v 2) (.v 3) (.m 4) true false, .vred on 1 2 3 .sum .i64 .rne false,
    .vred on 1 2 3 .max .f32 .rtz false, .vscan on 1 2 3 .and .f32 .rne false false, .vscan on 1 2 3 .sum .i32 .rtz false false,
    .vred on 1 2 3 .sum .f32 .rne true], i.wf = false := by decide

theorem test_wf_memory : ∀ i ∈ [Instr.ld on 1 2 0 .b4 .plain .st, .ld on 1 2 0 .i32 .plain .pk, .ld on 1 2 0 .i32 .rel .st,
    .st on 1 2 0 .i32 .acq .st, .ldv on 1 2 0 .rel .st false, .stv on 1 2 0 .plain .pk, .ldg on 1 2 0 3 .i64 false,
    .stg on 1 2 0 3 .n64, .ldl on 1 2 0 .b4, .stl on 1 2 0 .b4, .aadd on 1 2 0 3 .i16 .plain .st true, .amax on 1 2 0 3 .i32 .acq .st false,
    .amin on 1 2 0 3 .i32 .plain .st false, .aand on 1 2 0 3 .f32 .plain .st true, .aor on 1 2 0 3 .n8 .plain .st true,
    .axor on 1 2 0 3 .b4 .plain .st true, .axchg on 1 2 0 3 .i32 .rel .st false, .acas on 1 2 0 3 .i16 .plain .st,
    .vared on 1 2 0 3 .and .f32 .st, .vared on 1 2 0 3 .add .i64 .st, .waita on 1 2 3 .un .w .st 5, .waita on 1 2 3 .eq .l .pk 5,
    .barSync on 1 2 .st 5, .barArv on 1 2 .st, .barWait on 1 .st 5, .cinv on 1 0 .st, .cwb on 1 0 .st, .pref on 1 0 .st, .tidset on 1 61,
    .tidsetReg on 1 61, .tidget on 0 1, .tidgetReg on 61 1], i.wf = false := by decide

theorem test_wf_engines : ∀ i ∈ [Instr.mma on ⟨0, 0, 0, 0, 1⟩ 0 1 2 40 false false, .mma on ⟨0, 0, 0, 0, 0⟩ 0 1 2 63 false false,
    .mmas on ⟨0, 0, 0, 0, 0⟩ 0 1 62 false false, .mmat on ⟨0, 0, 0, 0, 0⟩ 0 1 2 0 false, .aclr on ⟨0, 0, 0, 0, 0⟩ 0,
    .acvt on ⟨0, 0, 0, 0, 0⟩ 1 0 0 false false .rne false, .amov on ⟨0, 0, 0, 0, 3⟩ 0 1, .amovTid on ⟨0, 0, 0, 0, 0⟩ 0 1 0,
    .cpy on ⟨0, 0, 0, 0, 0⟩ 61 .mm .off false 0, .gthr on ⟨0, 0, 0, 0, 0⟩ 1 2 63, .gidx on ⟨0, 0, 0, 0, 1⟩ 1 4,
    .xrun on ⟨0, 0, 0, 0, 0⟩ 4 5, .xpost on ⟨0, 0, 0, 0, 1⟩ 0, .xwait on ⟨0, 0, 0, 0, 1⟩ 4 5 0, .waitk on ⟨0, 0, 0, 0, 0⟩ 5,
    .kvh on ⟨0, 0, 0, 0, 0⟩ 62, .kvlk on ⟨0, 0, 0, 0, 0⟩ 63, .kvins on ⟨0, 0, 0, 0, 0⟩ 0, .kvpin on ⟨0, 0, 0, 0, 0⟩ 63,
    .kvunp on ⟨0, 0, 0, 0, 0⟩ 63, .kvmap on ⟨0, 0, 0, 0, 0⟩ 63, .kvmapRel on ⟨0, 0, 0, 0, 0⟩ 63, .kvpub on ⟨0, 0, 0, 0, 0⟩ 61,
    .attn on ⟨0, 0, 0, 0, 0⟩ 1 2 62 false false, .cred on ⟨0, 0, 0, 0, 0⟩ 4 .sum .i16 7, .cgth on ⟨0, 0, 0, 0, 0⟩ 61 7,
    .csnd on ⟨0, 0, 0, 0, 0⟩ 63 1 7, .crcv on ⟨0, 0, 0, 0, 0⟩ 62 1 7, .launch on ⟨0, 0, 0, 0, 0⟩ 63], i.wf = false := by decide

theorem test_wf_transform : ∀ i ∈ [Instr.xdec 1 2 0 64, .xdec 1 2 1 80, .xenc 1 2 1 32, .xenc 1 2 1 608, .xqnt 1 2 3 .i8 .e2m1 1,
    .xqnt 1 2 3 .f32 .e2m1 0, .xbp 1 2 3 .f32 1, .xbp 1 2 3 .i8 0, .xloop 1 0, .xsXwait 0 1 63], i.wf = false := by decide

/-! ### Words written out from the encodings -/

/-- spec/00, R17: the prefix ?(Q3&~Q5) is TT 0x30, true for a = 1, b = 0 and any c. -/
theorem test_guard_table : ((Strand.blank.guard ⟨0x30, 3, 5, 0, 0⟩) = false) ∧
    ({ Strand.blank with qRegs := Strand.blank.qRegs.set 3 true }.guard ⟨0x30, 3, 5, 0, 0⟩ = true) ∧
    ({ Strand.blank with qRegs := (Strand.blank.qRegs.set 3 true).set 5 true }.guard ⟨0x30, 3, 5, 0, 0⟩ = false) := by decide +kernel

/-- Family 0, IM (spec/05, R133): ADDI S5, S5, #1. -/
theorem test_decode_addi : decode 3 0 0xFF0000001050500000001000 = .ok (.addi on 5 5 1) := rfl

/-- Family 1 (spec/06): CMP.LT.U Q1, Q2, S3, S4 and XFER.L S30, B2, #2. -/
theorem test_decode_control : decode 3 0 0xFF0000040C1C203240400000 = .ok (.cmp on 1 2 3 .lt .u 4) ∧
    decode 3 0 0xFF0000049E2A1E0000000000 = .ok (.xferL on (.s 30) 2 2) := ⟨rfl, rfl⟩

/-- Family 2, SY (spec/05, R136): MFSR S3, #7. -/
theorem test_decode_mfsr : decode 3 0 0xFF0000080030000000000007 = .ok (.mfsr on 3 7) := rfl

/-- Family 3, LN (spec/05, R137): VSHL.I.I16 V1, V2, #5, of OPC 0x0CB with FN 1, written out: D 0x41, A 0x42, TYPE 7. -/
theorem test_decode_vbcast : decode 3 0 0xE0ADF28D149180000A000000 = .ok (.vbcast ⟨0xE0, 21, 23, 25, 4⟩ 9 24 .n32 false) := rfl

/-- Family 4 (spec/05, worked word; spec/07, worked encoding, with its two refused variants; R142, an undefined cell). -/
theorem test_decode_vadd : decode 3 0 0x301940500444546000400000 = .ok (.vadd ⟨0x30, 3, 5, 0, 2⟩ (.v 4) (.v 5) (.v 6) .f32 .rtz false) := rfl

set_option maxRecDepth 8000 in
theorem test_decode_vcmp : decode 3 0 0xF09000120D3D481090092000 =
    .ok (.vcmp ⟨0xF0, 18, 0, 0, 0⟩ 3 4 (.c 1) (.s 9) .lt .f32 .u true) := by rfl

theorem test_decode_refuses : [(0xF09000120D3D442090092000 : BitVec 96), 0xF09000120D3D481099092000, 0x301940505444546000400000].map
    (fun w => (decode 3 0 w).isOk) = [false, false, false] := by decide +kernel

/-- Family 5 (spec/08, worked encoding): LD.I32 S5, [S2+16], as LD.I32.ACQ.ST with SEM 1, and refused with SCOPE 4 and SEM 0. -/
theorem test_decode_ld : decode 3 0 0xFF0000140050200000010900 = .ok (.ld on 5 2 16 .i32 .plain .st) ∧
    decode 3 0 0xFF0000140050200000010908 = .ok (.ld on 5 2 16 .i32 .acq .st) ∧
    decode 3 0 0xFF0000140050200000010980 = .error .operand := ⟨rfl, rfl, rfl⟩

/-- Family 6 (spec/09 and spec/10, worked words): MMA, CPY.SM with a note at .TL, and CRED. -/
theorem test_decode_engine : decode 3 0 0xFF0000180080000000408500 = .ok (.mma on ⟨2, 0, 0, 0, 0⟩ 0 1 2 40 false false) ∧
    decode 3 0 0xFF000018804000001E900180 = .ok (.cpy on ⟨1, 0, 0, 0, 0⟩ 30 .sm .tl false 0x180) ∧
    decode 3 0 0xFF00001A8040000014000007 = .ok (.cred on ⟨1, 0, 0, 0, 0⟩ 20 .sum .f32 7) := ⟨rfl, rfl, rfl⟩

/-- Family 7, XT (spec/05, R140; spec/09, R254, R257): XMOV.A X3, X1, #-8 and XENC X2, X1, #1, #96; refused in an owner-0 line. -/
theorem test_decode_transform : decode 3 1 0xFF00001C23100001FFFFFFF8 = .ok (.xmovA 3 1 0xFFFFFFF8) ∧
    decode 3 1 0xFF00001C9210000000000460 = .ok (.xenc 2 1 1 96) ∧
    (decode 3 0 0xFF00001C9210000000000460).toOption = none := ⟨rfl, rfl, rfl⟩

/-- The encoder writes the same words. -/
theorem test_encode : encode (.cmp on 1 2 3 .lt .u 4) = 0xFF0000040C1C203240400000 ∧ encode (.ld on 5 2 16 .i32 .plain .st) =
    0xFF0000140050200000010900 ∧ encode (.xenc 2 1 1 96) = 0xFF00001C9210000000000460 := ⟨rfl, rfl, rfl⟩

/-! ### Scalar words -/

theorem test_add_wraps : (after (.add on 3 1 2) (with_ (sregs [(1, -1), (2, 5)]))).readS 3 = 4 := by decide +kernel

/-- R147: (−1 × −1) and (2^64 − 1)^2, bits 127:64. -/
theorem test_high_products : (after (.mulh on 3 1 1) (with_ (sregs [(1, -1)]))).readS 3 = 0 ∧
    (after (.mulhn on 3 1 1) (with_ (sregs [(1, -1)]))).readS 3 = -2 := by decide +kernel

/-- R148: −7 = −3 × 2 − 1, and a divisor of 0. -/
theorem test_division : (after (.div on 3 1 2) (with_ (sregs [(1, -7), (2, 2)]))).readS 3 = -3 ∧
    (after (.rem on 3 1 2) (with_ (sregs [(1, -7), (2, 2)]))).readS 3 = -1 ∧
    (after (.divn on 3 1 0) (with_ (sregs [(1, 9)]))).readS 3 = -1 ∧ (after (.rem on 3 1 0) (with_ (sregs [(1, 9)]))).readS 3 = 9 := by decide +kernel

/-- R147: amt is B[5:0]; a destination that is also the source of BFI keeps its other bits. -/
theorem test_shift_and_field : (after (.shl on 3 1 2) (with_ (sregs [(1, 3), (2, 65)]))).readS 3 = 6 ∧
    (after (.bfi on 3 1 4 8) (with_ (sregs [(1, 0x1AB), (3, -1)]))).readS 3 = 0xFFFFFFFFFFFFFABF ∧
    (after (.movih on 3 0x8001) (with_ (sregs [(3, 5)]))).readS 3 = 0x8001000000000005 := by decide +kernel

/-- S0 reads 0 and a write to it is discarded (spec/02, R52). -/
theorem test_s0 : (after (.movi on 0 7) base).readS 0 = 0 ∧ (after (.movi on 0 7) base).pc = 9 := by decide +kernel

/-- spec/06, worked example: PLOP.U Q5, Q6, Q1, Q2, Q0, #0x3C is Q1 XOR Q2 and its complement. -/
theorem test_plop_xor : let m := after (.plop on 5 6 1 2 0 0x3C .u) (with_ fun m => { m with qRegs := m.qRegs.set 1 true })
    m.readQ 5 = true ∧ m.readQ 6 = false := by decide +kernel

/-- A write is seen once its latency has passed, and before that the old value is (spec/04, R104): MUL has latency 3. -/
theorem test_exposure : let t := goto (.mul on 3 1 1) (with_ (sregs [(1, 3), (3, 8)]))
    t.me.tick = 1 ∧ ({ t.me with tick := 2 }.settle).readS 3 = 8 ∧ ({ t.me with tick := 3 }.settle).readS 3 = 9 := by decide +kernel

/-- spec/05, worked chain: after slot 2 of a line of NSLOT 3 and NEXT 9 comes PC 0x48; after the last slot of a LAST line the
launch ends with END-OF-CHAIN and the PC of that word. -/
theorem test_chain : (goto (.nop on) (with_ fun m => { m with pc := 0x2A, link := 0x960 })).me.pc = 0x48 ∧
    (goto (.nop on) (with_ fun m => { m with pc := 0x4C, link := 0xB0 })).me.trap.pc = 0x4C ∧
    (goto (.nop on) (with_ fun m => { m with pc := 0x4C, link := 0xB0 })).ended 0 = true := by decide +kernel

/-! ### Lane words -/

/-- spec/07, R187: a VIMUL.I16 of −300 by 200 wraps to 5,536 and saturates to −32,768. -/
theorem test_vimul : elemAt 16 ((after (.vimul on 1 2 (.s 3) .i16 false false)
      (with_ fun m => sregs [(3, 200)] (vregs [(2, 0xFED4)] m))).readV 1) 0 = 5536 ∧
    elemAt 16 ((after (.vimul on 1 2 (.s 3) .i16 true false)
      (with_ fun m => sregs [(3, 200)] (vregs [(2, 0xFED4)] m))).readV 1) 0 = 0x8000 := by decide +kernel

/-- spec/07, worked example: the two BF16 ties of lane 6, and the lane that the guard turns off under .Z. -/
theorem test_vadd_bf16 : [5, 6].map (laneAt ((after (.vadd ⟨0xF0, 17, 0, 0, 4⟩ (.v 2) (.v 3) (.s 4) .bf16 .rne true)
      (with_ fun m => sregs [(4, 0x3B80)] (vregs [(2, 0x1111111111111111 * 2 ^ 160), (3, 0x3F813F803F813F80 * 2 ^ 160)]
        { m with mRegs := m.mRegs.set 1 64 }))).readV 2)) = [0, 0x3F823F80] := by decide +kernel

/-- spec/07, worked scan with an absent lane, and the reduction of the same elements. -/
theorem test_scan : let f : Strand → Strand := fun m =>
      (vregs [(6, 0x00000009000000020000000700000005), (8, 0xAAAAAAAA00000000)]
        { m with mRegs := m.mRegs.set 5 (BitVec.allOnes 64 ^^^ 2) })
    (upto 4).map (laneAt ((after (.vscan on 8 6 5 .sum .n32 .rne false false) (with_ f)).readV 8)) = [5, 0xAAAAAAAA, 7, 16] ∧
    (after (.vred on 3 6 5 .sum .n32 .rne false) (with_ f)).readS 3 = 16 := by decide +kernel

/-- R180, R182, R183: 1 + NaN is the canonical NaN, and VMIN takes −0 below +0. -/
theorem test_float_specials : fvAdd .f32 .rne (fdec .f32 0x3F800000) (fdec .f32 0xFF800001) = 0x7FC00000 ∧
    fminmax .f32 false 0 0x80000000 = 0x80000000 ∧ fvSqrt .f32 .rne (fdec .f32 0x40800000) = 0x40000000 ∧
    fvExp2 .f32 .rne (fdec .f32 0x40400000) = 0x41000000 ∧ fvLog2 .f32 .rne (fdec .f32 0x41000000) = 0x40400000 := by decide +kernel

/-- spec/03, worked block: E is 32, the scale byte 0x60, the codes 6, 2, C, 0, 0, 6; code 6 stands for 4.0 and C for −2.0. -/
theorem test_quantise : b4Quant .e2m1 ([0x40A00000, 0x3F400000, 0xC0180000, 0x3E400000, 0xBE000000, 0x40600000].map (fdec .f32)) =
      (32, [6, 2, 0xC, 0, 0, 6]) ∧ b4Scale .e2m1 32 = 0x60 ∧ dyCvt .f32 .rne false (b4Deq 0x60 6) = 0x40800000 ∧
    dyCvt .f32 .rne false (b4Deq 0x60 0xC) = 0xC0000000 := by decide +kernel

/-- spec/03, worked window: 1.0 + (2^100 − 2^100 − 2^−10) is −31.0; with +2^−10 the accumulator stays 1.0. -/
theorem test_window : accF32 false 0x3F800000 [.fin false 1 100, .fin true 1 100, .fin true 1 (-10)] = 0xC1F80000 ∧
    accF32 false 0x3F800000 [.fin false 1 100, .fin true 1 100, .fin false 1 (-10)] = 0x3F800000 ∧
    accF32 false 0x3F800000 [.fin true 1 (-10)] = 0x3F7FC000 := by decide +kernel

/-- spec/10, worked ring: the elements of CRED.SUM.F32 over the slices that have them. -/
theorem test_ring_sum : credElem .sum .f32 [0x3F800000, 0x30800000, 0xBF800000] = 0x30800000 ∧
    credElem .sum .f32 [0x4B800000, 0x3F800000, 0x3F800000] = 0x4B800001 ∧
    credElem .sum .f32 [0x80000000, 0x80000000] = 0x80000000 ∧ credElem .sum .f32 [0x40A00000] = 0x40A00000 := by decide +kernel

/-- R107, R110: a producer leaves its chain register FILLING, and a .K consumer SPENT. -/
theorem test_chain_register : (goto (.vmov on (.c 1) (.v 2) false) base).me.cRegs[1].stat = .filling ∧
    (goto (.vmin on (.v 1) (.c 1) (.v 2) .f32 true false) (goto (.vmov on (.c 1) (.v 2) false) base)).me.cRegs[1].stat = .spent := by decide +kernel

/-! ### Memory words -/

/-- R206: a store of the low four bytes, and a sign-extending load of them. -/
theorem test_store_load : let t := goto (.st on 2 1 0 .i32 .plain .st) (with_ (sregs [(1, 0x4FFE), (2, 0x1FFFFFFF0)]))
    t.mem.byte 0x4FFE = 0xF0 ∧ t.mem.byte 0x5001 = 0xFF ∧ t.mem.byte 0x5002 = 0 ∧
    (after (.ld on 3 1 0 .i32 .plain .st) t).readS 3 = -16 ∧ (after (.ld on 3 1 0 .n32 .plain .st) t).readS 3 = 0xFFFFFFF0 := by decide +kernel

/-- spec/08, worked reduction: three lanes on one F32 word, in lane order, leave +0. -/
theorem test_vared : ((upto 4).map fun k => (goto (.vared ⟨0xF0, 17, 0, 0, 0⟩ 4 6 0 5 .add .f32 .pk) (with_ fun m =>
      sregs [(6, 0x4000)] (vregs [(4, 0xCB8000003F8000004B800000), (5, 0x000000030000000300000003)]
        { m with mRegs := m.mRegs.set 1 7 }))).mem.byte (0x400C + k)) = [0, 0, 0, 0] := by decide +kernel

/-- R215: ACAS of a word 0 writes 1 and returns 0; of a word 1 it writes nothing and returns 1 (spec/08, the lock). -/
theorem test_acas : let lock := Instr.acas on 6 2 0 7 .i64 .acq .pk
    let s := with_ (sregs [(2, 0x4000), (7, 1)])
    (goto lock s).mem.byte 0x4000 = 1 ∧ (after lock s).readS 6 = 0 ∧
    (after lock ((goto lock s).setMe (sregs [(7, 5)] s.me))).readS 6 = 1 ∧
    (goto lock ((goto lock s).setMe (sregs [(7, 5)] s.me))).mem.byte 0x4000 = 1 := by decide +kernel

/-- R209: a scratchpad word is read back, and a misaligned one raises ALIGN with its address. -/
theorem test_scratchpad : let t := goto (.stl on 2 1 0 .i64) (with_ (sregs [(1, 0x100), (2, 0x0123456789ABCDEF)]))
    (after (.ldl on 3 1 4 .n32) t).readS 3 = 0x01234567 ∧ (goto (.ldl on 3 1 2 .n32) t).me.trap.cause = 6 ∧
    (goto (.ldl on 3 1 2 .n32) t).me.trap.addr = 0x102 := by decide +kernel

/-! ### Worked numbers of the units -/

/-- spec/14, worked example of R366: from variant 0 to 1, and then 1 again. -/
theorem test_variant : pickVariant [900, 300] [[2, 2], [1, 3], [3, 1]] 0 = 1 ∧ pickVariant [460, 440] [[2, 2], [1, 3], [3, 1]] 1 = 1 := by
  decide +kernel

/-- spec/14, worked queue: BASE 2 and AGE 100 µs, waiting since 0: EFF is 2 at 50 µs, 4 at 250, 5 at 320 and 7 at 500. -/
theorem test_ageing :
    let r : Region := ⟨64, 0, 0x60, 0, 0, 0, 0, 0, 2, 100, 0, 0, 0, 0, true, 0, 4, 3, 0, true, 0, 0, [], none, some 0, none, []⟩
    [50, 250, 320, 500].map (fun t : Nat => ({ State.reset with regions := [r], mtime := BitVec.ofNat 64 (t * 16000) } : State).queueEff r) =
      [2, 4, 5, 7] := by decide +kernel

/-- spec/15, worked address: p is 0x21, so atom 0 belongs to pseudo-channel 66. -/
theorem test_hbm_channel : hbmChannel 0x1234567840 = 0x21 ∧ pseudoOf 0x1234567840 = 66 := by decide +kernel

/-- spec/15, worked limiter: MAX 120, MIN 8, STEP 4 from CUR 120. -/
theorem test_limiter : ([DevLoad.severe, .moderate, .optimal, .light, .severe, .none].foldl (fun (p : Plim × List Nat) l =>
      (p.1.after l, p.2 ++ [(p.1.after l).cur.toNat])) (⟨4, 120, 120, 8⟩, [])).2 = [60, 52, 52, 56, 28, 28] := by decide +kernel

/-- spec/16, worked unit of R401: A, A, B, 0, A, C, 0, 0 takes 30 bytes, F is 0xDA, and the pointer ends at 3. -/
theorem test_compress : let u := encodeUnit ⟨0, true, List.replicate 64 0, 0⟩ [0xA, 0xA, 0xB, 0, 0xA, 0xC, 0, 0]
    u.2.length = 30 ∧ u.2.head? = some 0xDA ∧ u.1.ptr = 3 ∧ u.1.d.take 4 = [0xA, 0xB, 0xC, 0] := by decide +kernel

/-- spec/09, worked QZ block of 512 bytes. -/
def qzBlock : List Byte := (List.replicate 512 0).set 3 7 |>.set 64 0x80 |>.set 65 0xFF |>.set 66 0xFF |>.set 511 1

/-- Its 96 bytes, and COMPRESS-OVERFLOW with P = 64. -/
theorem test_qz : qzEncode 96 qzBlock = some (((List.replicate 64 0).set 0 8 |>.set 8 7 |>.set 63 0x80) ++ [7, 0x80, 0xFF, 0xFF, 1] ++
      List.replicate 27 0) ∧ (qzEncode 96 qzBlock).bind (qzDecode 96) = some qzBlock ∧ qzEncode 64 qzBlock = none := by decide +kernel

/-- spec/13, worked walk: the 64 KiB leaf of 0x0001_2345_6789_ABCD, a fetch through it, and the misaligned leaf. -/
theorem test_walk : let c := { Ctx.blank with root := 1 }
    let zero : Memory := []
    let tables (leaf : W64) : State := { State.reset with mem := ((((zero.write 0x1008 (bytesOf 8 0x2001)).write 0x2230
      (bytesOf 8 0x3001)).write 0x38A8 (bytesOf 8 0x4001)).write 0x49E0 (bytesOf 8 0x5001)).write 0x5048 (bytes64 leaf) }
    ((tables 0x000002000034000F).walk c 0x000123456789ABCD .w).toOption = some (0x2000034ABCD, 0x000002000034000F) ∧
    (match (tables 0x000002000034000F).walk c 0x000123456789ABCD .x with | .error e => some e | .ok _ => none) = some .prot ∧
    (match (tables 0x000002000034100F).walk c 0x000123456789ABCD .r with | .error e => some e | .ok _ => none) = some .pteInvalid := by
  decide +kernel

/-! ### Witnesses for the hypotheses of the statements -/

theorem witness_ScalarSumsAndProducts : Runs base on [.s 1, .s 2] ∧ Runs base on [.s 1] := by
  simp only [Runs, NotEarly]; decide +kernel

/-- A divisor of 0, −2^63 by −1, and −7 by 2. -/
theorem witness_DivisionFollowsR148 : Runs base on [.s 1, .s 2] ∧ base.me.settle.readS 2 = 0 ∧
    (let s := with_ (sregs [(1, BitVec.intMin 64), (2, BitVec.allOnes 64)]);
      Runs s on [.s 1, .s 2] ∧ s.me.settle.readS 1 = BitVec.intMin 64 ∧ s.me.settle.readS 2 = BitVec.allOnes 64) ∧
    (let s := with_ (sregs [(1, -7), (2, 2)]);
      Runs s on [.s 1, .s 2] ∧ s.me.settle.readS 1 = -7 ∧ s.me.settle.readS 2 = 2) := by
  simp only [Runs, NotEarly]; decide +kernel

theorem witness_ScalarLogicAndMoves : Runs base on [.s 1, .s 2, .q 3] ∧ Runs base on [] ∧ Runs base on [.s 1] ∧
    (base.ctx base.me.settle.ctx).cur.isSome = true := by simp only [Runs, NotEarly]; decide +kernel

theorem witness_ScalarShiftsAndRotates : Runs base on [.s 1, .s 2] ∧ Runs base on [.s 1] := by
  simp only [Runs, NotEarly]; decide +kernel

theorem witness_ScalarBitCountsAndFields : Runs base on [.s 3, .s 1] ∧ base.me.settle.readS 1 = 0 ∧
    (let s := with_ (sregs [(1, 8)]); Runs s on [.s 1] ∧ s.me.settle.readS 1 = 8) := by simp only [Runs, NotEarly]; decide +kernel

/-- A strand with level 0 pipelined in two stages, so that Q8 and Q9 are stage predicates. -/
def piped : State := with_ fun m => { m with l0 := ⟨3, 8, 4, 2, true, false, 1⟩ }

theorem witness_PredicatePairsOfR149 : NotEarly base on [.s 1, .s 2] ∧ base.me.settle.guard on = true ∧
    base.me.settle.laneGuard on ≠ 0 ∧ StageFree base.me.settle [1, 2] ∧ StageFree piped.me.settle [10, 7] ∧
    ¬ StageFree piped.me.settle [9, 2] ∧ ¬ StageFree piped.me.settle [2, 8] ∧ Runs piped on [.q 1, .q 2, .q 3] ∧
    Runs piped on [.s 1, .s 2] ∧ NotEarly base on [.m 1] ∧ NotEarly piped on [.m 1] ∧ piped.me.settle.laneGuard on ≠ 0 := by
  simp only [Runs, NotEarly, StageFree]
  refine ⟨?_, ?_, ?_, ?_, ?_, ?_, ?_, ?_, ?_, ?_, ?_, ?_⟩ <;> decide +kernel

theorem witness_PreparedTransfers : Runs base on [.s 1] ∧ Runs base on [] ∧ Runs base on [.b 2] ∧ Straight base.me.settle ∧
    chainNext base.me.settle.pc base.me.settle.link = some 9 ∧
    ((settled base).seq base.me.settle 1).toOption = some 9 ∧ ((settled base).seq base.me.settle 4).toOption = some 12 ∧
    (Runs piped on [.b 2] ∧ piped.me.settle.xfer.valid = false ∧ piped.me.settle.l0.act = true) := by
  simp only [Runs, NotEarly, Straight]; decide +kernel

theorem witness_DelayWindowEndsAtTarget : ∀ d : Nat, d = 1 ∨ d = 2 ∨ d = 3 →
    let m := (with_ fun m => { m with xfer := ⟨true, 0x50, BitVec.ofNat 2 d⟩ }).me;
    m.xfer.valid = true ∧ m.xfer.rem.toNat = d ∧ fieldN m.pc 0 3 + d ≤ linkNslot m.link ∧ m.pc.toNat + d < 2 ^ 32 := by
  rintro d (rfl | rfl | rfl) <;> decide +kernel

/-- A strand inside the delay window of a taken transfer. -/
def inWindow : State := with_ fun m => { m with xfer := ⟨true, 0x50, 2⟩ }

theorem witness_TransferClassInsideWindow : Runs inWindow on [.b 2, .s 1] ∧ inWindow.me.settle.xfer.valid = true ∧
    inWindow.ended inWindow.me.settle.ctx = false ∧ (inWindow.ctx inWindow.me.settle.ctx).cur.isSome = true ∧ inWindow.me.id ≠ 0 := by
  simp only [Runs, NotEarly]; decide +kernel

/-- A strand before the last slot of a LAST line. -/
def lastLine : State := with_ fun m => { m with pc := 0x4B, link := 0xB0 }

/-- A count of 0, with the chain going on and ending; the greatest count for ST 8; a nested loop whose body ends with the outer one; and
each way in which no level may open. -/
theorem witness_LoopOpensLevel :
    (Runs base on [.s 1] ∧ base.me.settle.xfer.valid = false ∧ base.me.settle.step = false ∧ base.me.settle.l0.act = false ∧
      base.me.settle.readS 1 = 0 ∧ ((settled base).seq base.me.settle 4).toOption = some 12) ∧
    (Runs lastLine on [.s 1] ∧ lastLine.me.settle.readS 1 = 0 ∧ ((settled lastLine).seq lastLine.me.settle 2).toOption = some 0) ∧
    (let s := with_ (sregs [(1, BitVec.ofNat 64 (2 ^ 64 - 8))]);
      Runs s on [.s 1] ∧ (s.me.settle.readS 1).toNat ≤ 2 ^ 64 - 8 ∧ s.me.settle.readS 1 ≠ 0 ∧
        chainNext s.me.settle.pc s.me.settle.link = some 9 ∧ 2 ^ 64 - 9 < (s.me.settle.readS 1).toNat) ∧
    (let s := with_ fun m => sregs [(1, 5)] { m with l0 := ⟨3, 8, 4, 1, true, false, 1⟩ };
      Runs s on [.s 1] ∧ s.me.settle.l0.act = true ∧ s.me.settle.l1.act = false ∧ s.me.settle.l0.st.toNat ≤ 1 ∧
        s.me.settle.l0.pos + 3 ≤ s.me.settle.l0.len.toNat ∧ s.me.settle.l0.pos + 2 ≠ s.me.settle.l0.len.toNat ∧
        s.me.settle.l0.len.toNat < s.me.settle.l0.pos + 4) ∧
    (Runs piped on [.s 1] ∧ piped.me.settle.xfer.valid = false ∧ piped.me.settle.l0.act = true ∧ 1 < piped.me.settle.l0.st.toNat) ∧
    (let s := with_ fun m => { m with l0 := ⟨3, 8, 4, 1, true, false, 1⟩, l1 := ⟨3, 8, 4, 1, true, false, 3⟩ };
      Runs s on [.s 1] ∧ s.me.settle.l0.act = true ∧ s.me.settle.l1.act = true) := by
  simp only [Runs, NotEarly]; decide +kernel

/-- No level; two levels of which the outer one goes on; one whose body ends with the chain; two that end at the same word. -/
theorem witness_LbrkClosesLevel : Runs base on [] ∧ base.me.settle.l0.act = false ∧
    (let s := lastLine.setMe { lastLine.me with l0 := ⟨3, 0x4B, 2, 1, true, false, 1⟩ };
      Runs s on [] ∧ s.me.settle.xfer.valid = false ∧ s.me.settle.l0.act = true ∧ s.me.settle.l1.act = false ∧
        ((settled s).seq s.me.settle (s.me.settle.l0.len.toNat - s.me.settle.l0.pos + 1)).toOption = some 0) ∧
    (let s := with_ fun m => { m with l0 := ⟨3, 8, 2, 1, true, false, 1⟩, l1 := ⟨3, 8, 4, 1, true, false, 4⟩ };
      s.me.settle.l1.act = true ∧ s.me.settle.l1.pos = s.me.settle.l1.len.toNat ∧ 0 < s.me.settle.l1.count.toNat ∧
        s.me.settle.l1.st.toNat ≤ 1) ∧
    (let s := with_ fun m => { m with l0 := ⟨3, 8, 2, 1, true, false, 1⟩, l1 := ⟨3, 8, 4, 1, true, false, 3⟩ };
      Runs s on [] ∧ s.me.settle.xfer.valid = false ∧ s.me.settle.l0.act = true ∧ s.me.settle.l1.pos ≠ s.me.settle.l1.len.toNat ∧
        ((settled s).seq s.me.settle (s.me.settle.l0.len.toNat - s.me.settle.l0.pos + 1)).toOption = some 10) := by
  simp only [Runs, NotEarly]; decide +kernel

/-- A transfer that owes one word and two, a slot inside and at the end of a line, a LAST line, and a loop's last word. -/
theorem witness_RetirementMovesThePc :
    (let m := (with_ fun m => { m with xfer := ⟨true, 0x50, 1⟩ }).me;
      m.xfer.valid = true ∧ m.xfer.rem.toNat ≤ 1) ∧
    (inWindow.me.xfer.valid = true ∧ 1 < inWindow.me.xfer.rem.toNat ∧ chainNext inWindow.me.pc inWindow.me.link = some 9) ∧
    (base.me.xfer.valid = false ∧ base.me.l0.act = false ∧ fieldN base.me.pc 0 3 + 1 < linkNslot base.me.link) ∧
    (let m := (with_ fun m => { m with pc := 0x2A, link := 0x960 }).me;
      linkNslot m.link ≤ fieldN m.pc 0 3 + 1 ∧ linkLast m.link = false) ∧
    (let m := (with_ fun m => { m with pc := 0x4C, link := 0xB0 }).me;
      linkNslot m.link ≤ fieldN m.pc 0 3 + 1 ∧ linkLast m.link = true) ∧
    (let m := (with_ fun m => { m with l0 := ⟨3, 8, 2, 1, true, false, 2⟩ }).me;
      m.l0.act = true ∧ m.l0.pos = m.l0.len.toNat ∧ 0 < m.l0.count.toNat ∧ m.l0.st.toNat ≤ 1) ∧
    (let m := (with_ fun m => { m with l0 := ⟨0, 8, 2, 1, true, false, 2⟩ }).me;
      m.l0.act = true ∧ m.l0.pos = m.l0.len.toNat ∧ m.l0.count = 0 ∧ m.l1.act = false ∧ chainNext m.pc m.link = some 9) ∧
    (let m := (with_ fun m => { m with pc := 0x4C, link := 0xB0, l0 := ⟨0, 8, 2, 1, true, false, 2⟩ }).me;
      m.l0.pos = m.l0.len.toNat ∧ m.l0.count = 0 ∧ chainNext m.pc m.link = none) ∧
    (let m (n : W64) := (with_ fun m => { m with l0 := ⟨0, 8, 2, 1, true, false, 2⟩, l1 := ⟨n, 8, 4, 1, true, false, 4⟩ }).me;
      (m 0).l0.count = 0 ∧ (m 0).l1.act = true ∧ (m 0).l1.pos = (m 0).l1.len.toNat ∧ (m 0).l1.st.toNat ≤ 1 ∧ (m 0).l1.count = 0 ∧
        0 < (m 3).l1.count.toNat) := by decide +kernel

/-- The end of a body of level 0 with ST 3, asked to save or not, with a stage predicate 1 or not. -/
def ending (q : Option Why) (b : Bool) : Strand :=
  { base.me with saveReq := q, qRegs := base.me.qRegs.set 8 b, l0 := ⟨3, 8, 2, 3, true, q.isSome, 2⟩ }

theorem witness_stages : ∀ q ∈ [none, some Why.swap], ∀ b ∈ [true, false],
    (ending q b).l0.pos = (ending q b).l0.len.toNat ∧ 0 < (ending q b).l0.count.toNat ∧ 1 < (ending q b).l0.st.toNat ∧
      (ending q b).l0.st.toNat ≤ 8 ∧ (([8, 9] : List QReg).any fun k => ((ending q b).clock 0).settle.readQ k) = b := by decide +kernel

theorem witness_SpecialRegisters : Runs base on [] ∧ Runs base on [.s 1] ∧ ∃ l, (base.ctx base.me.settle.ctx).cur = some l ∧
    1 ≤ l.rec_.npkg ∧ l.rec_.npkg ≤ 8 ∧ l.rec_.ngrp < 8 ∧ 1 ≤ l.rec_.nstr ∧ l.rec_.nstr ≤ 256 ∧ l.rec_.varcnt < 8 := by
  refine ⟨?_, ?_, _, rfl, ?_⟩ <;> simp only [Runs, NotEarly] <;> decide +kernel

/-- TRAPH 0, a handler whose trap record can be written, each way to be refused, and a return. -/
theorem witness_TrapAndReturn : Runs base on [] ∧ Straight base.me.settle ∧ base.me.settle.hvalid = false ∧ base.me.settle.traph = 0 ∧
    (let s := with_ fun m => { m with traph := 0x10 }
      let m := s.me.settle
      let r := (afterSeq s 1).mkRec { m with hrpc := 9, tnum := 5, hvalid := true } .trap { pc := m.pc };
      Straight m ∧ m.step = false ∧ ((settled s).seq m 1).toOption = some 9 ∧
        ((afterSeq s 1).writeTrapRec { m with hrpc := 9, tnum := 5, hvalid := true, trap := r }).isSome = true) ∧
    (let m := (with_ fun m => { m with hvalid := true, hrpc := 0x10 }).me.settle;
      Straight m ∧ m.hvalid = true) ∧ ¬ Straight inWindow.me.settle := by
  simp only [Runs, NotEarly, Straight]; decide +kernel

/-- A second strand of tile 0 in slot 1 that may issue. -/
def twoStrands : State := { base with others := [{ base.me with id := 2, slot := 1, index := 1 }] }

theorem witness_LivenessWaitsAndSwitches : Runs base on [.s 1, .s 2] ∧ Runs base on [] ∧ base.me.settle.xfer.valid = false ∧
    (∀ k, k < 3 → (settled base).slotStrand base.me.settle.tile ((base.me.settle.slot + 1 + k) % 4) = none) ∧
    ((settled twoStrands).slotStrand 0 1).isSome = true ∧ Runs twoStrands on [] ∧
    (base.me.settle.readS 1).toNat ≤ base.mtime.toNat ∧
    (let s := with_ (sregs [(1, 1)]); Runs s on [.s 1] ∧ s.mtime.toNat < (s.me.settle.readS 1).toNat) ∧
    (settled base).checkAll (base.ctx base.me.settle.ctx) .r [⟨none, (base.me.settle.readS 1).toNat, 8, 8⟩] = .fine ∧
    (settled base).slogOf base.me.settle.id = [] := by
  simp only [Runs, NotEarly]; decide +kernel

/-- The one strand of a gang, whose boundary releases at once; one whose boundary was released; and one of two, which waits. -/
theorem witness_HaltAndPhase : Runs base on [] ∧ base.me.settle.xfer.valid = false ∧ base.me.settle.phaseGo = false ∧
    ((settled base).setMe { base.me.settle with atPhase := true, phaseAt := base.cycles }).phaseDone 0 = true ∧
    (with_ fun m => { m with phaseGo := true }).me.settle.phaseGo = true ∧ Runs (with_ fun m => { m with phaseGo := true }) on [] ∧
    ((settled twoStrands).setMe { twoStrands.me.settle with atPhase := true, phaseAt := twoStrands.cycles }).phaseDone 0 = false := by
  simp only [Runs, NotEarly]; decide +kernel

/-- The last word of a body whose level closes, at a place in its line. -/
def atBodyEnd (pc : W32) : State := with_ fun m => { m with pc := pc, link := 0xB0, l0 := ⟨0, 8, 2, 1, true, false, 2⟩ }

/-- The strand has a word to go on with. -/
def goesOn (a : Adv) : Bool :=
  match a with
  | .to _ => true
  | .chainEnd _ => false

/-- A save area that can be written, and one that no page maps. -/
theorem witness_BreakpointStops : Runs base on [] ∧ base.ended base.me.settle.ctx = false ∧ base.me.settle.l0.act = false ∧
    ((settled base).seq base.me.settle 1).toOption = some 9 ∧ (base.writeTrapRec base.me).isSome = true ∧
    (Runs (atBodyEnd 0x49) on [] ∧ (atBodyEnd 0x49).me.settle.l0.act = true ∧
      (atBodyEnd 0x49).me.settle.l0.pos = (atBodyEnd 0x49).me.settle.l0.len.toNat ∧
      goesOn ((atBodyEnd 0x49).me.settle.clock on.stall).endOfBody = true) ∧
    (Runs (atBodyEnd 0x4C) on [] ∧ (atBodyEnd 0x4C).me.settle.l0.act = true ∧
      (atBodyEnd 0x4C).me.settle.l0.pos = (atBodyEnd 0x4C).me.settle.l0.len.toNat ∧
      goesOn ((atBodyEnd 0x4C).me.settle.clock on.stall).endOfBody = false) ∧
    (let s := base.updCtx 0 fun c => { c with save := 0x40000000 };
      s.writeTrapRec s.me = none ∧ s.me.id ≠ 0 ∧ (s.ctx s.me.settle.ctx).cur.isSome = true) := by
  simp only [Runs, NotEarly]; decide +kernel

theorem witness_LaneIntegerArithmetic : RunsLane base on (.v 1 :: (vsReads (.v 2) ++ vsReads (.s 3))) [] ∧
    RunsLane base on (.v 1 :: vsReads (.v 2)) [] := by simp only [RunsLane, NotEarly]; decide +kernel

theorem witness_LaneLogicAndShifts : RunsLane base on (.v 1 :: vsReads (.s 2)) [] ∧ RunsLane base on [.v 1] [] := by
  simp only [RunsLane, NotEarly]; decide +kernel

theorem witness_LaneMovement : RunsLane base on [.v 1] [] ∧ RunsLane base on [.s 1] [] ∧ RunsLane base on [.v 1, .v 2] [] ∧
    RunsLane base on [.v 1, .s 2] [] ∧ RunsLane base on [.v 1, .m 2] [] ∧ ETy.width .n32 = 32 := by
  simp only [RunsLane, NotEarly]; decide +kernel

/-- The first element of a type of 128 elements, and its last. -/
theorem witness_LaneExtraction : RunsLane base on [.v 1, .s 2] [] ∧ 0 = (base.me.settle.readS 2).toNat % (2048 / ETy.width .i16) ∧
    (let s := with_ (sregs [(2, 127)]);
      RunsLane s on [.v 1, .s 2] [] ∧ 127 = (s.me.settle.readS 2).toNat % (2048 / ETy.width .i16)) ∧
    RunsLane base on [.v 1] [] ∧ RunsLane base on [.m 1] [] := by simp only [RunsLane, NotEarly]; decide +kernel

/-- V sources, a FULL chain source, and a guard that turns every lane off under .U. -/
theorem witness_LanePredicatePairs : (ETy.width .f32 = 32 ∧ ETy.isFloat .f32 = true) ∧ Cond.isInt .ltn = true ∧
    (NotEarly base on (vcReads (.v 1) ++ vscReads (.s 2)) ∧ base.me.settle.laneGuard on ≠ 0 ∧
      (vcChains (.v 1) ++ vscChains (.s 2)).any base.me.settle.spent = false) ∧
    (let s := goto (.vmov on (.c 1) (.v 2) false) base;
      NotEarly s on (vcReads (.c 1) ++ vsReads (.s 2)) ∧ s.me.settle.laneGuard on ≠ 0 ∧ (vcChains (.c 1)).any s.me.settle.spent = false) ∧
    (NotEarly base ⟨0xF0, 17, 0, 0, 0⟩ [.m 1, .m 2, .m 3] ∧ base.me.settle.laneGuard ⟨0xF0, 17, 0, 0, 0⟩ = 0) := by
  simp only [NotEarly]; decide +kernel

theorem witness_LaneFloatingPoint : RunsLane base on (vcReads (.v 1)) (vcChains (.v 1)) ∧
    RunsLane base on (vcReads (.v 1) ++ vscReads (.s 2)) (vcChains (.v 1) ++ vscChains (.s 2)) ∧
    RunsLane base on (vcReads (.v 1) ++ vscReads (.c 2) ++ vscReads (.v 3)) (vcChains (.v 1) ++ vscChains (.c 2) ++ vscChains (.v 3)) := by
  simp only [RunsLane, NotEarly]; decide +kernel

/-- NaN patterns, the infinities, ±0, and 1, −1 and 2 of F32, whose value is a whole number and a power of 2; a type of integers. -/
theorem witness_FloatSpecialValues : ETy.isFl .f32 = true ∧ ETy.isFl .bf16 = true ∧ (0xFFFFFFFF : Nat) < 2 ^ ETy.width .f32 ∧
    IsNan .f32 0x7F800001 ∧ IsNan .bf16 0xFFFF ∧ ¬ IsNan .f32 0xFF800000 ∧ ¬ IsNan .f32 0 ∧
    (∀ x ∈ [0, 0x80000000, 0x3F800000, 0x40000000, 0xBF800000, 0x7F7FFFFF], Finite .f32 x) ∧ ¬ Finite .f32 0x7F800000 ∧
    (0x7F800000 = infPat .f32 false ∧ 0xFF800000 = infPat .f32 true ∧ 0 = zeroPat .f32 false ∧ 0x80000000 = zeroPat .f32 true) ∧
    (valueOf .f32 0 = 0 ∧ valueOf .f32 0xBF800000 < 0 ∧ 0 < valueOf .f32 0x40000000 ∧ valueOf .f32 0x40000000 = pow2 1 ∧
      valueOf .f32 0x40000000 = (valueOf .f32 0x40000000).floor ∧ (1 : Int) - 127 ≤ (valueOf .f32 0x40000000).floor ∧
      (valueOf .f32 0x40000000).floor < 127 ∧ pow2 1 ≤ valueOf .f32 0x40000000 ∧ valueOf .f32 0x40000000 ≤ pow2 2) ∧
    ETy.isInt .i8 = true ∧ (255 : Nat) < 2 ^ ETy.width .i8 := by
  simp only [IsNan, Claims.Finite]; decide +kernel

/-- VCVT to its last part of a narrower type, and to a wider one; VQNT of F32 into its last part; VSEL by M, V and C. -/
theorem witness_LaneConversionAndSelection : RunsLane base on [.v 1] [] ∧
    ((3 : BitVec 3).toNat + 1) * (2048 / max (ETy.width .f32) (ETy.width .i8)) * ETy.width .i8 ≤ 2048 ∧
    ETy.width .bf16 < ETy.width .f32 ∧ 2048 / ETy.width .f32 / 32 ≤ 8 ∧
    4 * (2048 / ETy.width .f32 / 32) * ((7 : BitVec 3).toNat + 1) ≤ 64 ∧ RunsLane base on [.v 1, .s 2] [] ∧
    RunsLane base on (vsReads (.v 1) ++ vsReads (.s 2) ++ selReads (.m 3)) (selChains (.m 3)) ∧
    RunsLane base on (vsReads (.v 1) ++ vsReads (.s 2) ++ selReads (.v 3)) (selChains (.v 3)) ∧
    RunsLane base on (vsReads (.v 1) ++ vsReads (.s 2) ++ selReads (.c 3)) (selChains (.c 3)) := by
  simp only [RunsLane, NotEarly]; decide +kernel

/-- A NaN, an infinity and a finite pattern of float types that have each, integers, and every code and exponent of a 4-bit type. -/
theorem witness_conversions : (ETy.isFloat .e4m3 = true ∧ ETy.isFloat .f32 = true ∧ ETy.isFloat .i8 = false) ∧
    (NanPat .e4m3 0xFF ∧ NanPat .f32 0x7F800001 ∧ InfPat .f32 0xFF800000 ∧ ¬ InfPat .e4m3 0x78 ∧ Claims.Finite .e4m3 0x7E ∧
      Claims.Finite .f32 0x43E80000 ∧ (0xFF800000 : Nat) < 2 ^ ETy.width .f32) ∧ (ETy.f32 ∈ [ETy.f32, .bf16, .f16] ∧ (1 : Nat) < 2048 / ETy.width .f32 / 32) ∧
    ((63 : Nat) < 64 ∧ (15 : Nat) < 16) := by
  simp only [NanPat, InfPat, IsNan, Claims.Finite]; decide +kernel

theorem witness_ReductionsAndScans : RunsLane base on [.v 1, .m 2] [] ∧ (ETy.isFl .bf16 = true ∧ 2 ^ 7 = 2048 / ETy.width .bf16) ∧
    (ETy.isInt .n8 = true ∧ ETy.width .n8 ≤ 32 ∧ 2 ^ 8 = 2048 / ETy.width .n8) := by simp only [RunsLane, NotEarly]; decide +kernel

/-- Each consumer of a source that a .K consumer has spent. -/
def spentSources (s : State) : Bool :=
  (chainConsumers on (.v 1) (.c 1) (.v 2) (.v 3) 4 (.v 2) (.v 3) (.c 1) 1 2 .eq .f32 .rne .n true false).all fun e =>
    !(s.me.settle.early (hdrReads on) || s.me.settle.early e.2.1) && e.2.2.any s.me.settle.spent

/-- A source that a .K consumer has spent, and one that no producer has filled. -/
theorem witness_ChainRegisterLifetime :
    (let s := goto (.vmin on (.v 1) (.c 1) (.v 2) .f32 true false) (goto (.vmov on (.c 1) (.v 2) false) base);
      s.me.settle.laneGuard on ≠ 0 ∧ spentSources s = true) ∧
    base.me.cRegs[2].stat = .empty ∧ (2 : CReg) ≠ 3 := by decide +kernel

/-- Lanes of M1, here lane 0 only. -/
def byM1 : Hdr := ⟨0xF0, 17, 0, 0, 0⟩
def laneZero (m : Strand) : Strand := { m with mRegs := m.mRegs.set 1 1 }

/-- Present bytes for LD across two pages, for 64 lanes, and for a gather with a negative index. -/
theorem witness_Loads : Runs base on [.s 1] ∧ Ready base .r [⟨none, 0x4FFF, 8, 1⟩] ∧ (let s := with_ fun m => sregs [(1, 0x4000)] (vregs [(2, 0xFFFFFFFF)] (laneZero m));
      RunsLane s byM1 [.s 1, .v 2] [] ∧ laneAddr s.me.settle 1 (0 : BitVec 24) 2 4 0 = 0x3FFC ∧
        Ready s .r ((onLanes (s.me.settle.laneGuard byM1)).map fun i => ⟨some i, 0x4000 + 4 * i, 4, 1⟩) ∧
        Ready s .r ((onLanes (s.me.settle.laneGuard byM1)).map fun i => ⟨some i, laneAddr s.me.settle 1 (0 : BitVec 24) 2 4 i, 4, 1⟩)) := by
  simp only [Runs, RunsLane, NotEarly, Ready, NoOwn, Released]; decide +kernel

theorem witness_Stores : Runs base on [.s 1, .s 2] ∧ Ready base .w [⟨none, 0x4FFF, 8, 1⟩] ∧ (let s := with_ fun m => sregs [(1, 0x4000)] (laneZero m);
      RunsLane s byM1 [.s 1, .v 2, .v 3] [] ∧
        Ready s .w ((onLanes (s.me.settle.laneGuard byM1)).map fun i => ⟨some i, 0x4000 + 4 * i, 4, 1⟩) ∧
        Ready s .w ((onLanes (s.me.settle.laneGuard byM1)).map fun i => ⟨some i, laneAddr s.me.settle 1 (0 : BitVec 24) 3 4 i, 4, 1⟩)) := by
  simp only [Runs, RunsLane, NotEarly, Ready, NoOwn, Released]; decide +kernel

/-- Eight bytes at the end of a page past the 1 GiB that the leaf maps. -/
theorem witness_StoresToAbsentPagesAreLogged :
    let s := with_ (sregs [(1, 0x40000FF8)]);
    Runs s on [.s 1, .s 2] ∧ 0 < ETy.width .i64 / 8 ∧ (s.me.settle.readS 1).toNat % 4096 + ETy.width .i64 / 8 ≤ 4096 ∧
      (settled s).slogOf s.me.settle.id = [] ∧
      (settled s).checkAll (ctxOf s) .w [⟨none, 0x40000FF8, 8, 1⟩] = .absent [(none, ⟨0x40000FF8, 8⟩)] ∧
      (((settled s).faultPages s.me.settle.ctx 4 s.me.settle.index 0 false [0x40000FF8]).map fun r => r.2) = some true ∧
      (settled s).tileLog s.me.settle.tile = 0 := by
  simp only [Runs, NotEarly]; decide +kernel

/-- The last doubleword of the window, one byte past it, and a misaligned one; 256 bytes at its end. -/
theorem witness_ScratchpadAccesses :
    (let s := with_ (sregs [(1, 0x8FF8)]);
      Runs s on [.s 1, .s 2] ∧ 0x8FF8 % (ETy.width .i64 / 8) = 0 ∧ 0x8FF8 + 8 ≤ s.me.settle.winSize ∧ s.sram.wf = true ∧
        ((List.range 8).all fun i => !tget false s.sramPoison (s.me.settle.winAddr (0x8FF8 + i) / 8)) = true) ∧
    (let s := with_ (sregs [(1, 0x9000)]);
      Runs s on [.s 1, .s 2] ∧ 0x9000 % 8 = 0 ∧ s.me.settle.winSize < 0x9000 + 8) ∧ (0x8FFC % (ETy.width .i64 / 8) ≠ 0) ∧
    (let s := with_ (sregs [(1, 0x8F00)]);
      RunsLane s on [.s 1, .v 2] [] ∧ 0x8F00 % 4 = 0 ∧ 0x8F00 + 256 ≤ s.me.settle.winSize ∧
        ((List.range 256).all fun i => !tget false s.sramPoison (s.me.settle.winAddr (0x8F00 + i) / 8)) = true) ∧
    (let s := { with_ (laneZero ∘ sregs [(1, 0x100), (3, 0x102), (4, 0x9000)]) with sramPoison := [(0x20, true)] };
      Runs s on [.s 1] ∧ RunsLane s byM1 [.s 1] [] ∧ (s.me.settle.laneGuard byM1).getLsbD 0 = true ∧ 0x100 + 8 ≤ s.me.settle.winSize ∧
        tget false s.sramPoison (s.me.settle.winAddr 0x100 / 8) = true ∧ Runs s on [.s 3] ∧ RunsLane s byM1 [.s 4, .v 2] [] ∧
        s.me.settle.winSize < (s.me.settle.readS 4).toNat + 4 ∧
        (∀ j < 64, (1 : W64).getLsbD j = ((s.me.settle.laneGuard byM1).getLsbD j && decide (j = 0)))) := by
  simp only [Runs, RunsLane, NotEarly]; decide +kernel

theorem witness_Atomics :
    (let s := with_ (laneZero ∘ sregs [(1, 0x4002)]);
      Runs s on [.s 1, .s 2] ∧ Runs s on [.s 1, .s 2, .s 3] ∧ (s.me.settle.readS 1).toNat % (ETy.width .i32 / 8) ≠ 0 ∧
        RunsLane s byM1 [.s 1, .v 2, .v 3] [] ∧ 0 ∈ onLanes (s.me.settle.laneGuard byM1) ∧
        laneAddr s.me.settle 1 (0 : BitVec 21) 3 4 0 % 4 ≠ 0 ∧ ∀ j < 64, (1 : W64).getLsbD j =
          ((s.me.settle.laneGuard byM1).getLsbD j && decide (laneAddr s.me.settle 1 (0 : BitVec 21) 3 4 j % 4 ≠ 0))) ∧
    (let s := with_ fun m => sregs [(1, 0x4FF8)] (laneZero m);
      Runs s on [.s 1, .s 2, .s 3] ∧ (s.me.settle.readS 1).toNat % (ETy.width .i64 / 8) = 0 ∧ 0 < ETy.width .i64 / 8 ∧
        ETy.width .i64 / 8 ≤ 8 ∧ Ready s .rw [⟨none, 0x4FF8, 8, 8⟩] ∧ RunsLane s byM1 [.s 1, .v 2, .v 3] [] ∧
        Ready s .rw ((onLanes (s.me.settle.laneGuard byM1)).map fun i => ⟨some i, laneAddr s.me.settle 1 (0 : BitVec 21) 3 4 i, 4, 4⟩)) ∧
    (let s := with_ (sregs [(1, 0x4FF8), (2, 5)]);
      Ready s .rw [⟨none, 0x4FF8, 8, 8⟩] ∧ (match (settled s).walk (ctxOf s) 0x4FF8 .none with | .ok r => r.1 == 0x4FF8 | .error _ => false) = true ∧
        s.hostRejects = [] ∧ s.mem.wf = true ∧ rmwVal .i64 .add (bytesAt s .rw [⟨none, 0x4FF8, 8, 8⟩] 0x4FF8 8) 5 = some 5 ∧
        rmwVal .i64 (.cas 1) (bytesAt s .rw [⟨none, 0x4FF8, 8, 8⟩] 0x4FF8 8) 5 = none) ∧
    ETy.isInt .n32 = true ∧ (0xFFFFFFFF : Nat) < 2 ^ ETy.width .n32 ∧ ETy.isFloat .f32 = true := by
  refine ⟨?_, ?_, ?_, by decide⟩ <;> simp only [Runs, RunsLane, NotEarly, Ready, NoOwn] <;> decide +kernel

/-- Root 6 maps 0x1000 by a 4 KiB leaf of TIER 1 to an object without a copy; S1 is that address, and S2 one that is not canonical. -/
def objPage : State :=
  { (stored [(0x6000, 0x7001), (0x7000, 0x8001), (0x8000, 0x9001), (0x9000, 0xA001), (0xA000, 0xB001), (0xB008, BitVec.ofNat 64 (objWindow + 0x5000000000000F))]
      (with_ (sregs [(1, 0x1000), (2, 0x800000000000000)]))).updCtx 0 (fun c => { c with root := 6 }) with
    objs := [⟨objWindow, 4096, 0x200000, 0, 0, 1, false, none, none, 0x40000000⟩]
    eph := { base.eph with en := true, ocbase := 0x4000, oclim := 0x7FFF } }

/-- A strand with a side-log entry of its own. -/
def logged : State := { base with slog := [⟨1, 0, 1, 0, 0x40000, 0, [.store 0x40000000 [1]]⟩] }

theorem witness_WordsWithoutEffect : Runs base on [] ∧ (settled base).slogOf base.me.settle.id = [] ∧ Runs logged on [] ∧
    (settled logged).slogOf logged.me.settle.id ≠ [] ∧ Runs base on [.s 1] ∧ Runs objPage on [.s 1] ∧ Runs objPage on [.s 2] ∧
    noncanonAt (objPage.me.settle.readS 2).toNat 1 ≠ none ∧ noncanonAt (objPage.me.settle.readS 1).toNat 1 = none ∧
    ((touched objPage .none [⟨none, 0x1000, 64, 1⟩]).objs.map fun o => o.moveTo) = [some 1] := by
  simp only [Runs, NotEarly]; decide +kernel

/-- A word that meets EQ against 0 and one that does not, in memory and in the scratchpad, and a wait in progress. -/
theorem witness_WatchedWaits :
    (let s := with_ (sregs [(1, 0x4FF8), (3, 1)]);
      Runs s on [.s 1, .s 2] ∧ Runs s on [.s 1, .s 3] ∧ Ready s .r [⟨none, 0x4FF8, 8, 8⟩] ∧
        condInt .eq 64 (bytesAt s .r [⟨none, 0x4FF8, 8, 8⟩] 0x4FF8 8) (s.me.settle.readS 2).toNat = true ∧
        condInt .eq 64 (bytesAt s .r [⟨none, 0x4FF8, 8, 8⟩] 0x4FF8 8) (s.me.settle.readS 3).toNat = false) ∧
    (let s := with_ (sregs [(1, 0x8FF8)]);
      Runs s on [.s 1, .s 2] ∧ (s.me.settle.readS 1).toNat % 8 = 0 ∧ (s.me.settle.readS 1).toNat + 8 ≤ s.me.settle.winSize ∧
        condInt .ne 64 (natOf (s.sram.read (s.me.settle.winAddr 0x8FF8) 8)) (s.me.settle.readS 2).toNat = false) ∧
    (let s := with_ fun m => { m with wait := .waita 4 0x4FF8 0 .eq .d 5 };
      s.me.id ≠ 0 ∧ s.waits s.me = true ∧ s.checkAll s.myCtx .r [⟨none, 0x4FF8, 8, 8⟩] = .fine ∧ s.slogOf s.me.id = [] ∧
        condInt .eq 64 (numberAt (s.touchAll s.myCtx .r [⟨none, 0x4FF8, 8, 8⟩])
          (s.touchAll s.myCtx .r [⟨none, 0x4FF8, 8, 8⟩]).myCtx 0x4FF8 8) 0 = true) := by
  simp only [Runs, NotEarly, Ready, NoOwn, Released]; decide +kernel

/-- E of 0, of 2 (one arrival is not enough), and of 1; an arrival that is open, and one with the resume mark. -/
theorem witness_Barriers : Runs base on [.s 1] ∧ (base.me.settle.readS 1).toNat = 0 ∧
    (base.me.settle.barRec 3 .pk).open_ = false ∧ (base.me.settle.barRec 3 .pk).mark = false ∧
    (settled base).slogOf base.me.settle.id = [] ∧ ((settled base).barrier base.me.settle 3 .pk).arrivals = 0 ∧
    (settled base).barRoom .pk base.me.settle.tile = true ∧
    (let s := with_ (sregs [(1, 1), (2, 256)]);
      Runs s on [.s 1] ∧ (s.me.settle.readS 1).toNat = 1 ∧ Runs s on [.s 2] ∧ (s.me.settle.readS 2).toNat ≤ barLimit .pk ∧
        s.me.settle.id ≠ 0 ∧ s.others = [] ∧ ((goto (.barSync on 3 1 .pk 5) s).me.barRec 3 .pk).open_ = false) ∧
    (let s := with_ fun m => m.setBar { m.barRec 3 .pk with open_ := true };
      Runs s on [] ∧ (s.me.settle.barRec 3 .pk).open_ = true) ∧
    (let s := with_ fun m => m.setBar { m.barRec 3 .pk with mark := true };
      Runs s on [.s 1] ∧ (s.me.settle.barRec 3 .pk).open_ = false ∧ (s.me.settle.barRec 3 .pk).mark = true) := by
  simp only [Runs, NotEarly]; decide +kernel

/-- The first and the last entry of the table. -/
theorem witness_TensorIdentifierEntries : Runs base on (([1, 2, 3, 4] : List SReg).map Dest.s) ∧
    Ready base .w [⟨none, (ctxOf base).tidbase.toNat, 32, 1⟩] ∧ Ready base .w [⟨none, (ctxOf base).tidbase.toNat + 32 * 255, 32, 1⟩] ∧
    Runs base on (.s 5 :: ([1, 2, 3, 4] : List SReg).map Dest.s) ∧ Runs base on [] ∧ Runs base on [.s 5] := by
  simp only [Runs, NotEarly, Ready, NoOwn, Released]; decide +kernel

/-- An interlocked write behind one with a latency, and a side-log entry whose page is present by now. -/
theorem witness_CompletionsAndDrains :
    (let m := (base.me.writeAt 3 (.s 1) 1 5).writeIl (.s 2) 1 7;
      m.pend.map (fun w => w.il) = [false, true]) ∧
    (let s := { base with slog := [⟨1, 0, 1, 0, 4, 0, [.store 0x4000 [1]]⟩] };
      s.slog[0]? = some ⟨1, 0, 1, 0, 4, 0, [.store 0x4000 [1]]⟩ ∧ s.drainTurn 0 ⟨1, 0, 1, 0, 4, 0, [.store 0x4000 [1]]⟩ = true ∧
        s.checkAll (s.ctx 0) .w [⟨none, 0x4000, 1, 1⟩] = .fine) := by decide +kernel

/-- A store of eight bytes at the end of a page, with its translation; and a write that the host rejects. -/
theorem witness_StoresChangeOnlyTheirBytes : base.hostRejects = [] ∧ base.plat.cxlMem = true ∧
    (({ base with extents := [⟨0x10000000000, 4096, false⟩] } : State).revokedAt 0x10000000000 = true ∧ base.revokedAt 0x10000000000 = false) ∧
    (let s := with_ (sregs [(1, 0x4FF8)]);
      Runs s on [.s 1, .s 2] ∧ s.mem.wf = true ∧ 0x4FF8 % 4096 + 8 ≤ 4096 ∧ Ready s .w [⟨none, 0x4FF8, 8, 1⟩] ∧
        ((settled s).walk (ctxOf s) 0x4FF8 .none).toOption.map Prod.fst = some 0x4FF8) ∧
    (let s := { base with hostRejects := [2 ^ 40 + 3] };
      s.place (2 ^ 40) ≤ 2 ^ 40 + 3 ∧ 2 ^ 40 + 3 < s.place (2 ^ 40) + 4 ∧ s.isHost (2 ^ 40 + 3) = true) := by
  simp only [Runs, NotEarly, Ready, NoOwn, Released]; decide +kernel

/-! Engine commands. -/

/-- A tensor entry of R62: base, rows, columns, stride, ETYPE, SPACE, BPT. -/
def tid (b r c st ty sp bpt : Nat) : TidEntry :=
  BitVec.ofNat 256 (b + r * 2 ^ 64 + c * 2 ^ 96 + st * 2 ^ 128 + ty * 2 ^ 176 + sp * 2 ^ 185 + bpt * 2 ^ 186 + 2 ^ 187)

/-- The tensors of the worked tile product (spec/09) as entries 1 to 3, the arrays of a sparse operand as 4 to 6, and an
F32 tensor of memory as 7. -/
def tensors : List (Nat × TidEntry) :=
  [(1, tid 0 32 48 48 3 1 1), (2, tid 0x600 32 48 48 3 1 0), (3, tid 0 32 32 64 1 1 0), (4, tid 0 1 33 0 10 1 0),
    (5, tid 0 1 8 0 10 1 0), (6, tid 0 1 8 0 3 1 0), (7, tid 0x4000 32 32 128 0 0 0), (8, tid 0 32 32 128 0 1 0)]

/-- The small machine with those tensors, an XRUN whose counters exist, and one command behind it. -/
def engines (l : List (Fin 64 × W64)) : State :=
  (base.setMe { sregs l base.me with njour := 1, jhead := 1, jdone := 1, evs := [⟨0, [0, 0, 0, 0], [0, 0, 0, 0]⟩] }).updCtx 0
    fun c => { c with tids := tensors.foldl (fun v p => v.setIfInBounds p.1 p.2) c.tids }

/-- The hypotheses of EngineCommandsAreJournaled: command `i` with its captured registers `o` and tensor entries `raw`. -/
def Journals (i : Instr) (l : List (Fin 64 × W64)) (e : EnH) (rs : List SReg) (o : List W64) (raw : List TidEntry) : Prop :=
  command i = some (on, e, rs) ∧ (Runs (engines l) on ((rs ++ [e.at_]).map Dest.s) ∧
    ((engines l).me.settle.jhead - (engines l).me.settle.jdone).toNat < 256 ∧
    (∀ k ∈ [e.k0, e.k1, e.k2], k.toNat ≤ (engines l).me.settle.njour) ∧ rs.map (engines l).me.settle.readS = o ∧
    (tidNames i o).map (fun t => (ctxOf (engines l)).tids.getD t.toNat 0) = raw ∧ (raw.all fun x => (tidFields x).ok) = true) ∧
    Accepts (settled (engines l)) i o (raw.map tidFields)

/-- No token, and the token of the command before. -/
def free : EnH := ⟨0, 0, 0, 0, 0⟩
def behind : EnH := ⟨1, 0, 0, 9, 0⟩

theorem witness_matrix : Journals (.mma on behind 0 1 2 40 false false) [] behind [40, 41] [0, 0] [tid 0 32 48 48 3 1 1, tid 0x600 32 48 48 3 1 0] ∧
    Journals (.mmas on free 0 1 40 false false) [(42, 0x040506)] free [40, 41, 42] [0, 0, 0x040506] [tid 0 32 48 48 3 1 1, tid 0 1 33 0 10 1 0, tid 0 1 8 0 10 1 0, tid 0 1 8 0 3 1 0] ∧
    Journals (.mmat on free 0 1 2 40 false) [] free [40, 41, 42] [0, 0, 0] [tid 0 32 48 48 3 1 1, tid 0x600 32 48 48 3 1 0] ∧
    Journals (.aclr on free 1) [] free [] [] [] ∧
    Journals (.amov on free 0 1) [] free [] [] [] := by
  refine ⟨⟨rfl, ?_, ?_⟩, ⟨rfl, ?_, ?_⟩, ⟨rfl, ?_, ?_⟩, ⟨rfl, ?_, ?_⟩, ⟨rfl, ?_, ?_⟩⟩ <;>
    simp only [Runs, NotEarly, Accepts] <;> decide +kernel

theorem witness_tensor_commands : Journals (.acvt on free 3 0 40 false false .rne false) [] free [40] [0] [tid 0 32 32 64 1 1 0] ∧
    Journals (.amovTid on free 0 7 40) [] free [40] [0] [tid 0x4000 32 32 128 0 0 0] ∧
    Journals (.gthr on free 7 7 40) [] free [40, 41] [0, 0] [tid 0x4000 32 32 128 0 0 0, tid 0x4000 32 32 128 0 0 0] ∧
    Journals (.gidx on free 4 40) [] free [40, 41] [0, 0] [tid 0 1 33 0 10 1 0] ∧
    Journals (.xrun on free 40 0) [] free [40, 41, 42, 43] [0, 0, 0, 0] [] ∧
    Journals (.attn on free 3 3 40 false false) [] free [40, 41, 42] [0, 0, 0] [tid 0 32 32 64 1 1 0, tid 0 32 32 64 1 1 0] := by
  refine ⟨⟨rfl, ?_, ?_, _, rfl, ?_⟩, ⟨rfl, ?_, ?_, _, rfl, ?_⟩, ⟨rfl, ?_, _, _, rfl, ?_⟩, ⟨rfl, ?_, _, rfl, ?_⟩, ⟨rfl, ?_, _, rfl, ?_⟩, ⟨rfl, ?_, _, _, rfl, ?_⟩⟩ <;>
    (try simp only [Runs, NotEarly]) <;> decide +kernel

theorem witness_other_commands : Journals (.cpy on free 40 .sm .tl false 0x8FF) [] free [40, 41, 42, 43] [0, 0, 0, 0] [] ∧
    Journals (.xpost on free 3) [] free [] [] [] ∧
    Journals (.xwait on free 40 5 3) [] free [40] [0] [] ∧
    Journals (.waitk on behind 5) [] behind [] [] [] ∧
    Journals (.launch on free 40) [] free [40, 41] [0, 0] [] ∧
    Journals (.csnd on free 40 0 7) [] free [40, 41] [0, 0] [] ∧
    Journals (.crcv on free 40 0 7) [] free [40, 41, 42] [0, 0, 0] [] ∧
    Journals (.cgth on free 40 7) [] free [40, 41, 42, 43] [0, 0, 0, 0] [] ∧
    Journals (.cred on free 40 .sum .f32 7) [(42, 0x0000000100000001)] free [40, 41, 42] [0, 0, 0x0000000100000001] [] := by
  refine ⟨⟨rfl, ?_, ?_⟩, ⟨rfl, ?_, ?_⟩, ⟨rfl, ?_, ?_⟩, ⟨rfl, ?_, ?_⟩, ⟨rfl, ?_, ?_⟩, ⟨rfl, ?_, ?_⟩, ⟨rfl, ?_, ?_⟩, ⟨rfl, ?_, ?_⟩, ⟨rfl, ?_, ?_⟩⟩ <;>
    simp only [Runs, NotEarly, Accepts, Ranges] <;> decide +kernel

/-- Ranges that end with the 36 KiB window, where a range is asked for, and 256 records of KVPIN. -/
theorem witness_kv_commands : Journals (.kvh on free 40) [(40, 0x0000000100008FC0)] free [40, 41, 42] [0x0000000100008FC0, 0, 0] [] ∧
    Journals (.kvlk on free 40) [(40, 0x0000000100008FF0), (41, 0x8FF0)] free [40, 41] [0x0000000100008FF0, 0x8FF0] [] ∧
    Journals (.kvins on free 40) [(40, 0x0000000100000000)] free [40, 41] [0x0000000100000000, 0] [] ∧
    Journals (.kvpin on free 40) [(40, 0x0000010000000000)] free [40, 41] [0x0000010000000000, 0] [] ∧
    Journals (.kvunp on free 40) [(40, 0x0000000100000000)] free [40, 41] [0x0000000100000000, 0] [] ∧
    Journals (.kvmap on free 40) [(41, 0x8FE8)] free [40, 41] [0, 0x8FE8] [] ∧
    Journals (.kvmapRel on free 40) [] free [40, 41] [0, 0] [] ∧
    Journals (.kvpub on free 40) [] free [40, 41, 42, 43] [0, 0, 0, 0] [] := by
  refine ⟨⟨rfl, ?_, ?_⟩, ⟨rfl, ?_, ?_⟩, ⟨rfl, ?_, ?_⟩, ⟨rfl, ?_, ?_⟩, ⟨rfl, ?_, ?_⟩, ⟨rfl, ?_, ?_⟩, ⟨rfl, ?_, ?_⟩, ⟨rfl, ?_, ?_⟩⟩ <;>
    simp only [Runs, NotEarly, Accepts, Ranges] <;> decide +kernel

/-- One of the 28 commands (the others stand in the four theorems above). -/
theorem witness_EngineCommandsAreJournaled : ∃ l o raw, Journals (.mma on behind 0 1 2 40 false false) l behind [40, 41] o raw :=
  ⟨_, _, _, witness_matrix.1⟩

/-- A journaled ACLR, started; and a byte copy between scratchpad places, started. -/
def cleared : State := goto (.aclr on free 1) (engines [])
def clearing : State := goto (.commandStart 1 1) cleared
def copying : State := goto (.commandStart 1 1) (goto (.cpy on free 40 .ss .off false 0) (engines [(40, 0x100), (41, 0x200), (42, 1)]))

/-- A WAITK behind the ACLR of `cleared`, and that ACLR gone; two ACLRs; an XWAIT behind an XRUN, and its event at `n`. -/
def waitingTwice : State := goto (.waitk on behind 5) cleared
def finished (s : State) : State := s.setMe { s.me with journal := s.me.journal.filter fun e => e.seq != 1 }
def twoClears : State := goto (.aclr on free 2) cleared
def waitingEvent : State := goto (.xwait on free 40 0 3) (goto (.xpost on free 3) (goto (.xrun on free 40 0) (engines [(40, 5)])))
def raisedTo (n : W32) (s : State) : State := s.setMe { s.me with evs := s.me.evs.map fun v => { v with up := [n, n, n, n] } }

/-- Does the journal of the strand in focus hold command 1, and what does it say of it. -/
def entry1 (s : State) (p : Strand → JEntry → Bool) : Bool :=
  s.strand s.me.id == some s.me && (match s.me.jfind 1 with | some e => p s.me e | none => false)

theorem witness_EngineSteps : entry1 cleared (fun m e => cleared.startable m e && (cleared.engineFree m e.cmd).isSome &&
      decide (engineOf e.cmd ∈ [1, 3, 4, 6, 7, 8])) = true ∧
    entry1 clearing (fun m e => clearing.engineLive m e && e.eng != 0 &&
      (match lastStep m e clearing with | .ok (b, _) => b | .error _ => false)) = true ∧
    entry1 copying (fun m e => copying.engineLive m e && e.eng != 0 &&
      (match microStep m e copying with | .ok _ => true | .error _ => false)) = true ∧
    entry1 (goto (.cpy on ⟨0, 0, 0, 0, 3⟩ 40 .ss .off false 0) (engines [])) (fun m e => e.live && e.atWait && !m.saved &&
      decide (e.upc.toNat ≤ base.mtime.toNat) && m.id != 0 && m.wait == .none) = true ∧
    (let s := finished waitingTwice;
      s.strand 1 = some s.me ∧ s.me.id ≠ 0 ∧ s.me.saved = false ∧ s.ended s.me.ctx = false ∧ (match s.me.wait, s.me.jfind 2 with
        | .waitk q _, some e => q == 2 && e.live && s.engineLive s.me e && e.eng == 0 && e.tokens.all s.me.tokenMet
        | _, _ => false) = true) := by decide +kernel

/-- Entry 3 is an XWAIT for count 5 of event 3 that its strand waits in, live and without tokens, and EVU3 is `n`. -/
def awaits (s : State) (n : W32) : Bool :=
  s.strand 1 == some s.me && !s.me.saved && !s.ended s.me.ctx && match s.me.wait, s.me.jfind 3 with
    | .xwait q _ _, some e => q == 3 && s.engineLive s.me e && e.eng == 0 && e.tokens.all s.me.tokenMet && e.lo 0 == 5 &&
        (s.me.events e.xrun).upOf 3 == n
    | _, _ => false

/-- The same WAITK while the ACLR is at work; an XWAIT that has not reached its count, and one that has; an ACLR behind another; a note
before READY; and a row of ATTN of two positions. -/
theorem witness_waits :
    (match waitingTwice.me.wait, waitingTwice.me.jfind 2 with
      | .waitk q _, some e => q == 2 && e.live && !e.tokens.all waitingTwice.me.tokenMet | _, _ => false) = true ∧
    awaits (raisedTo 4 waitingEvent) 4 = true ∧ awaits (raisedTo 5 waitingEvent) 5 = true ∧
    (match twoClears.me.jfind 1, twoClears.me.jfind 2 with
      | some f, some e => engineOf e.cmd == 1 && engineOf f.cmd == 1 && twoClears.startable twoClears.me e && twoClears.startable twoClears.me f &&
          e.ready == f.ready && decide (f.seq.toNat < e.seq.toNat)
      | _, _ => false) = true ∧ State.reset.plat.ready = false ∧ base.plat.ready = true := by decide +kernel

theorem witness_attention : ([[FV.fin false 0 0], [.fin false 0 0]]).length = ([[FV.fin false 1 0], [.fin false 3 0]]).length ∧
    IsFin (.fin false 1 0) ∧ IsFin (.fin false 0 0) ∧ Claims.Finite .f32 0 := by
  exact ⟨rfl, ⟨_, _, _, rfl⟩, ⟨_, _, _, rfl⟩, by simp only [Claims.Finite]; decide⟩

/-- R276: two scores of 0 give the mean of 1 and 3; a NaN value gives NaN, and no position +0. -/
theorem test_attention : let q := [FV.fin false 1 0]
    let keys := [[FV.fin false 0 0], [.fin false 0 0]]
    attnOut (.fin false 1 0) q keys [[.fin false 1 0], [.fin false 3 0]] 1 = [0x40000000] ∧
    attnOut .nan q keys [[.fin false 1 0], [.fin false 3 0]] 1 = [0x7FC00000] ∧ attnOut (.fin false 1 0) q [] [] 1 = [0] := by decide +kernel

/-- A slice of a gang of two packages, and arrivals of the other slice at its .SY barrier 3. -/
def slice2 : State := base.updLaunch 0 fun l => { l with rec_ := { l.rec_ with npkg := 2, notbefore := 5 } }
def far (e : Nat) : CollMsg := ⟨0, 5, 1, 0, 0, 0, .barrier 3 e, []⟩

/-- R219, R373: the first of two arrivals counts once, and the only one of E 1 releases the generation. -/
theorem test_far_arrival : ((slice2.farArrive (far 2) 3 2).barriers.map fun b => (b.gen, b.e, b.arrivals)) = [(0, 2, 1)] ∧
    ((slice2.farArrive (far 1) 3 1).barriers.map fun b => (b.gen, b.e, b.arrivals)) = [(1, 0, 0)] ∧
    far 2 ∉ slice2.inbox ∧ (far 2).kind = .barrier 3 2 := by decide +kernel

/-- The transform sequencer of tile 0 with registers. -/
def xsAt (l : List (Fin 16 × W64)) : State :=
  let s := State.reset.placeWord 0xFF00001C0000000000000000;
  match s.xrun s.me with
  | some r => s.setXrun s.me { r with x := l.foldl (fun v p => v.set p.1.val p.2 p.1.isLt) r.x }
  | none => s

/-- The run of the strand in focus, if there is one that `p` holds of. -/
def ofRun (s : State) (p : XRunning → Bool) : Bool := match s.xrun s.me with | some r => p r | none => false

/-- What `blocks` ended with, and whether the run is still there. -/
def blocksGo (r : State × Except EngErr XMove) : Bool :=
  (match r.2 with | .ok .next => true | _ => false) && (r.1.xrun r.1.me).isSome

theorem witness_TransformWords : ofRun (xsAt [(1, 0x8FF8)]) (fun r => decide (r.x[1].toNat % 8 = 0) && decide (r.x[1].toNat + 8 ≤ 0x9000) &&
      !r.broke && (List.range 8).all fun i => !r.srcs.contains ((xsAt []).byteKey (xsAt []).me true (0x8FF8 + i))) = true ∧
    (xsAt []).me.winSize = 0x9000 ∧
    ofRun (xsAt [(1, 2)]) (fun r => r.x[1] != 0 && r.levels == [] && r.chain.isSome) = true ∧
    ofRun (xsAt []) (fun r => r.x[1] == 0 && r.levels == [] && (r.steps 3).isSome) = true ∧
    ofRun (xsAt [(1, 1)]) (fun r => decide (((((xsAt []).me.events r.seq).downOf 0).toNat < (r.x[1].extractLsb' 0 32).toNat) ∧
      (r.x[2].extractLsb' 0 32).toNat ≤ (((xsAt []).me.events r.seq).downOf 0).toNat)) = true := by decide +kernel

/-- An XRUN of the line at 0x10080 that is about to start, at a good PC and at one past the last slot; an XPOST with an XWAIT of the
program at count `n`; and a program in focus with its counters. -/
def xrunAt (entry : BitVec 23) : State := stored [(0x10080, 0x100000B0)] (goto (.xrun on free 40 entry) (engines [(40, 7)]))
def posting (w : Option (Fin 4 × W64 × BitVec 6)) : State :=
  { goto (.xpost on free 3) (engines []) with xs := [(0, some ⟨1, 0, 8, Vector.replicate 16 0, [], [], [0, 0, 0, 0], w, 4, [], [], false⟩)] }
def counting : State := (xsAt []).setMe { (xsAt []).me with evs := [⟨0, [1, 2, 3, 4], [5, 6, 7, 8]⟩] }

def starts (s : State) : Bool := entry1 s fun m e => s.startable m e && s.firstStart m e && s.engineFree m e.cmd == some 5
def posts (w : Option (Fin 4 × W64 × BitVec 6)) : Bool :=
  entry1 (posting w) (fun m e => (posting w).startable m e && !e.once && e.xrun == 0 && m.evs == [⟨0, [0, 0, 0, 0], [0, 0, 0, 0]⟩]) &&
    ofRun (posting w) fun r => r.waiting == w && r.seq == 0

theorem witness_starts :
    starts (xrunAt 0x10) = true ∧ starts (xrunAt 0x15) = true ∧
    (match (xrunAt 0x10).fetchLine (xrunAt 0x10).me 2 with
      | .ok l => linkOwner (lineLink l) == 1 && linkNslot (lineLink l) == 5 && linkRsv (lineLink l) == 0 && linkLast (lineLink l)
      | .error _ => false) = true ∧
    posts none = true ∧ posts (some (3, 1, 5)) = true ∧ posts (some (3, 2, 5)) = true ∧
    (ofRun counting (fun r => r.seq == 0) = true ∧ counting.me.wait = .none ∧ counting.others = [] ∧
      counting.me.events 0 = ⟨0, [1, 2, 3, 4], [5, 6, 7, 8]⟩) := by decide +kernel

/-- R251: the first XPOST of event 2 leaves EVU2 at the larger value, 7, and one of event 0 in a run of count 5 raises it from 5 to 6. -/
theorem test_xpost : ((goto (.xsXpost 2) counting).me.evs.map fun v => v.up) = [[5, 6, 7, 8]] ∧
    (match counting.xrun counting.me with
      | some r => (goto (.xsXpost 0) (counting.setXrun counting.me { r with posts := [5, 0, 0, 0] })).me.evs.map fun v => v.up
      | none => []) = [[6, 6, 7, 8]] := by decide +kernel

theorem witness_xdec : blocksGo (blocks (decBlock (xsAt []).me 0 0x4000 64) 1 0 (xsAt [])) = true := by decide +kernel
theorem witness_xenc : blocksGo (blocks (encBlock (xsAt []).me 0x4000 0 64) 1 0 (xsAt [])) = true := by decide +kernel
theorem witness_xqnt : blocksGo (blocks (qntBlock (xsAt []).me 0x1000 0 0x2000 .f32 .e2m1) 1 0 (xsAt [])) = true := by decide +kernel
theorem witness_xbp : blocksGo (blocks (bpBlock (xsAt []).me 0x1000 0 0 .i8) 1 0 (xsAt [])) = true := by decide +kernel

theorem witness_WaitsEndOrReachTheirBound :
    (let s := with_ fun m => { m with wait := .waitt 0 };
      s.strand s.me.id = some s.me ∧ s.me.debug = false ∧ (0 : W64).toNat ≤ s.mtime.toNat) ∧
    (let s := with_ fun m => { m with wait := .csw, wkind := 1, wval := 0 };
      s.strand s.me.id = some s.me ∧ s.me.wval.toNat ≤ s.mtime.toNat ∧ s.me.saved = false ∧ s.me.wretired = false ∧ s.me.step = false ∧
        s.saving s.me.ctx = false) ∧
    (let s : State := twoStrands.setMe { twoStrands.me with wait := .csw };
      let t : State := { s with others := s.others.map fun (m : Strand) => { m with saveReq := some .swap } };
      t.strand t.me.id = some t.me ∧ t.saving t.me.ctx = true ∧ t.me.saved = false) ∧
    (let s := with_ fun m => { m with wait := .csw, wkind := 2, wval := 0x4000, wold := 1 };
      s.strand s.me.id = some s.me ∧ s.watchChanged s.me = true) ∧
    (let s := with_ fun m => { m with wait := .waita 1 0x4000 0 .eq .d 5, stallcnt := 32 };
      s.strand s.me.id = some s.me ∧ s.me.inSlot = true ∧ 2 ^ (5 : BitVec 6).toNat ≤ s.me.stallcnt.toNat ∧
        (s.ctx s.me.ctx).state = .running ∧ tget none s.xs s.me.tile = none ∧ s.me.stallcnt.toNat < 2 ^ (6 : BitVec 6).toNat) ∧
    (([Wait.bar 3 .pk 0, .barSlot 3 .pk 0, .phase].all fun w =>
      let s := with_ fun m => { m with wait := w, stallcnt := BitVec.ofNat 64 (2 ^ 36) };
      decide (s.strand s.me.id = some s.me) && decide (2 ^ 36 ≤ s.me.stallcnt.toNat)) = true) ∧
    (match waitingTwice.me.wait with
      | .waitk q _ => waitingTwice.me.journal.any fun e => e.seq = q && e.cmd = .waitk on behind 5 &&
          waitingTwice.me.journal.any fun y => y.live && y.seq = q - 1
      | _ => false) = true ∧
    (match waitingEvent.me.wait with
      | .xwait q _ _ => waitingEvent.me.journal.any fun e => e.seq = q && waitingEvent.me.journal.any fun r => r.seq = e.xrun
      | _ => false) = true := by decide +kernel

/-! The device. -/

/-- Page 0 holds these arguments. -/
def asks (l : List W64) (s : State) : State := s.setPage 0 { s.pages[0] with args := l }

/-- A region control block of a root that sets every limit (spec/01, R23). -/
def rootBlock : List (Nat × W64) := [(0x100008, 0x000007FFFFFFFFFF), (0x100010, 0xFFFFFFFF01300001), (0x100020, 1)]

/-- A context descriptor (spec/01, R28): region 0x100000, ASID 1, ROOT 1, TIDBASE 0x30000, FREC 0x40000, SAVE 0x50000. -/
def descriptor : List (Nat × W64) :=
  [(0x100040, 0x100000), (0x100048, 0x0001000000000000), (0x100050, 0x1000), (0x100058, 0x30000), (0x100060, 0x40000), (0x100070, 0x50000)]

/-- The small machine with the root block loaded. -/
def rooted : State :=
  let s := stored (rootBlock ++ descriptor) base;
  { s with regions := (((s.physGet 0x100000 64).bind (regionOf 0x100000)).toList) }

/-- The handle of context 0. -/
def handle0 : W64 := (base.handle 0).setWidth 64

/-- Every pseudo-channel enabled, no decoder set, and nothing revoked or marked. -/
abbrev Quiet (s : State) : Prop :=
  (∀ q, q < 512 → s.pcOn q = true) ∧ s.decs = [] ∧ s.extents = [] ∧ s.poison = [] ∧ s.linePoison = [] ∧ s.hostBad = [] ∧
    s.plat.cxlMem = true

/-- A part translates to bytes below the object window. -/
def lies (s : State) (c : Ctx) (k : Acc) (p : Part) : Bool :=
  match s.walk c p.va k with
  | .ok r => decide (r.1 + p.n ≤ objWindow)
  | .error _ => false

/-- No unit of a quiet machine is fenced. -/
theorem unfenced {s : State} (z : Quiet s) (a : Nat) : s.fencedAt a = false := by
  have hc (b : Nat) : hbmChannel b < 256 := by
    unfold hbmChannel bitsAt
    iterate 3 apply Nat.xor_lt_two_pow (n := 8)
    all_goals exact Nat.mod_lt _ (by decide)
  have hb (b : Nat) : bitsAt b 5 1 < 2 := Nat.mod_lt _ (by decide)
  have hd (b : Nat) : s.decoderOf b = none := by
    simp only [State.decoderOf, z.2.1, List.findSome?_eq_none_iff]
    intro x _
    simp [tget, Decoder.blank]
  simp only [State.fencedAt, hd]
  generalize s.unitOf (s.place a) = u
  have := hc u
  have := hb u
  split
  · split
    · simp [z.1 (2 * hbmChannel u) (by omega), z.1 (2 * hbmChannel u + 1) (by omega)]
    · simp [z.1 (2 * hbmChannel u + bitsAt u 5 1) (by omega)]
  · rfl

/-- In a quiet machine the checks of a part below the object window are its translation. -/
theorem checkPart_quiet {s : State} (z : Quiet s) {c : Ctx} {k : Acc} {p : Part} (h : lies s c k p = true) :
    ∃ r, s.checkPart c k p = .ok r := by
  unfold lies at h
  unfold State.checkPart
  cases e : s.walk c p.va k with
  | error y => rw [e] at h; cases h
  | ok r =>
    rw [e] at h
    have h : r.1 + p.n ≤ objWindow := of_decide_eq_true h
    have none_ (f : Nat → Bool) (hf : ∀ i, i < p.n → f i = false) : (upto p.n).find? f = none := by
      simp only [upto, List.find?_eq_none, List.mem_range, Bool.not_eq_true]; exact hf
    refine ⟨r, ?_⟩
    simp only [State.poisonAt]
    rw [none_ _ fun i hi => by simp [State.unboundAt]; omega, none_ _ fun i _ => by simp [State.revokedAt, z.2.2.1],
      none_ _ fun i _ => unfenced z _, none_ _ fun i _ => by
        simp [State.badPlace, z.2.2.2.1, z.2.2.2.2.1, z.2.2.2.2.2.1, z.2.2.2.2.2.2, tget]]
    cases k.reads <;> rfl

/-- An access whose parts all lie there is fine in a quiet machine. -/
theorem fine_quiet {s : State} (z : Quiet s) {c : Ctx} {k : Acc} {a n : Nat} (hn : noncanonAt a n = none)
    (w : (partsOf a n).all (lies s c k) = true) : s.checkAll c k [⟨none, a, n, 1⟩] = .fine := by
  have part (p) (hp : p ∈ partsOf a n) : ∃ r, s.checkPart c k p = .ok r := checkPart_quiet z (List.all_eq_true.1 w p hp)
  have h1 : s.accessCause c k ⟨none, a, n, 1⟩ = none := by
    simp only [State.accessCause, Nat.mod_one, hn]
    refine List.findSome?_eq_none_iff.2 fun p hp => ?_
    obtain ⟨r, e⟩ := part p hp
    simp [e]
  simp [State.checkAll, h1]
  intro p hp
  obtain ⟨r, e⟩ := part p hp
  simp [e]

/-- The checks of CREATE on the descriptor. -/
theorem rooted_descOk : ((rooted.physGet 0x100040 64).bind descOf).any (fun c => rooted.descOk c.1) = true := by
  have z : Quiet rooted := by decide +kernel
  have h : (((rooted.physGet 0x100040 64).bind descOf).any fun c =>
    (rooted.region c.1.region).isSome && !rooted.hasChild c.1.region &&
    (rooted.asidUsers c.1.asid).all (fun k => (rooted.ctx k).root = c.1.root) && !c.1.almen && decide (c.1.frec.toNat = 0x40000) &&
    (partsOf 0x40000 0x4040).all (lies rooted c.1 .w)) = true := by decide +kernel
  rw [Option.any_eq_true] at h ⊢
  obtain ⟨c, hc, h⟩ := h
  refine ⟨c, hc, ?_⟩
  simp only [Bool.and_eq_true] at h
  obtain ⟨⟨⟨⟨⟨h1, h2⟩, h3⟩, h4⟩, h5⟩, w⟩ := h
  have hf : c.1.frec.toNat = 0x40000 := of_decide_eq_true h5
  have hw := fine_quiet z (a := 0x40000) (by decide) w
  simp at h1 h2 h3 h4
  simp [State.descOk, hf, hw, h1, h4]
  exact ⟨h2, h3⟩

/-- The descriptor checks of CREATE are met by `rooted_descOk`. -/
theorem witness_RegionContextAndFaultCommands : (base.plat.ready = true ∧ base.pages[0].pendOp = none) ∧
    (let s := stored rootBlock base;
      ((s.physGet 0x100000 64).bind (regionOf 0x100000)).any (fun r => s.regionOk r && r.parent == 0 && !r.qen) = true ∧
        (s.region 0x100000).isNone = true) ∧ 0x100004 % 64 ≠ 0 ∧
    ((rooted.region 0x100000).isSome = true ∧ rooted.owns 0x100000 = false) ∧
    (let s := rooted.updCtx 0 fun c => { c with region := 0x100000 };
      s.owns 0x100000 = true) ∧
    (rooted.plat.lcs = 2 ∧ ((rooted.physGet 0x100040 64).bind descOf).any (fun c =>
      match rooted.freeCtx with | some n => rooted.almFits n c.1 | none => false) = true) ∧
    (base.current 0 = false ∧ base.current (handle0.setWidth 32) = true ∧ (handle0.setWidth 32 : W32).extractLsb' 0 15 = 0) ∧
    (let s := base.updCtx 0 fun c => { c with cur := none };
      (s.ctx 0).cur.isNone = true ∧ s.queuesOf 0 = [] ∧ (s.ctx 0).wback = none ∧ s.objsOf 0 = [] ∧ s.current (handle0.setWidth 32) = true) ∧
    ((base.ctx 0).cur.any (fun l => l.ending.isNone) = true ∧ (base.ctx 0).state = .running) ∧
    (let s := base.updCtx 0 fun c => { c with state := .parked };
      (s.ctx 0).state = .parked ∧ s.current (handle0.setWidth 32) = true) ∧
    (let s := { base with faults := [⟨0, 0, 0, 5, 0x40000, 1, 0, 8, 0, 0, true, 0x40000000⟩] };
      (s.faults.find? fun f => f.ctx = 0 && f.ftag = 5).isSome = true) ∧
    (let s := with_ fun m => { m with debug := true, dvalid := true };
      (s.named 0 0xFFFF).filter (fun m => m.debug) = [s.me] ∧ s.me.saved = false) := by decide +kernel

/-- The root block with a queue of 16 slots at 0x300000 (spec/14, R355), before it is loaded, and loaded with `l` written after it. -/
def loadable : State := asks [0x100000] (stored (rootBlock ++ [(0x100030, 0x300000), (0x100038, 0x8005000400000000), (0x300000, 3), (0x300008, 1)]) base)
def loaded (l : List (Nat × W64)) : State := asks [0x100000] (stored l ((goto (.regionLoad 0) loadable).setPage 0 base.pages[0]))

/-- A first load with HEAD 1 and TAIL 3, one whose HEAD cannot be read; reloads of the same queue, of another, of none, and under
another parent; and a current launch that DESTROY ends. -/
theorem witness_loads :
    (((loadable.physGet 0x100000 64).bind (regionOf 0x100000)).any (fun r => loadable.regionOk r && r.parent == 0 && r.qen) = true ∧
      (loadable.region 0x100000).isNone = true ∧ loadable.ringRead 0x300000 8 = some 3 ∧ loadable.ringRead 0x300008 8 = some 1 ∧
      ({ loadable with poison := [(0x300008 / 32, true)] } : State).ringRead 0x300008 8 = none) ∧
    ((loaded []).pages[0].pendOp = none ∧ ∀ p ∈ [([], true, true, true), ([(0x100038, (0x8006000400000000 : W64))], true, false, true), ([(0x100038, 0)], true, false, false), ([(0x100000, 0x200000)], false, true, true)],
      (((loaded p.1).physGet 0x100000 64).bind (regionOf 0x100000)).any (fun r => ((loaded p.1).region 0x100000).any fun o =>
        (r.parent == o.parent && (loaded p.1).regionOk r) == p.2.1 && (o.qid == r.qid && o.qen == r.qen) == p.2.2.1 && r.qen == p.2.2.2) = true) ∧
    (match (base.ctx 0).cur with
      | some l => l.ending.isNone && (let f := base.finishLaunch 0 l ⟨.killed, 0, BitVec.allOnes 32, 0, true⟩;
          f.queuesOf 0 == [] && (f.ctx 0).wback.isNone && f.objsOf 0 == [])
      | none => false) = true := by decide +kernel

/-- An image list with one extent of 4 KiB in pool memory that decoder 0 of port 1 serves. -/
def pooled : State :=
  let s := stored [(0x100080, 1), (0x100088, 0x10000000000), (0x100090, 0x1000)] base;
  { s with decs := [(8, ⟨0x1000, 0x1000, true⟩)] }

theorem witness_ObjectTranslationAndDeviceCommands : (base.plat.ready = true ∧ base.pages[0].pendOp = none) ∧
    ((base.liveCtxs.any fun j => (base.ctx j).asid == 0) = true ∧ tget 0 base.asgens 0 = 0) ∧
    (∀ p ∈ [(objWindow, 65536), (2 ^ 52 - 4096, 4096)], base.current (handle0.setWidth 32) = true ∧ p.2 ∈ [4096, 65536] ∧
      objWindow ≤ p.1 ∧ p.1 + p.2 ≤ 2 ^ 52 ∧ p.1 % p.2 = 0 ∧ base.objs.length < 2 ^ 24) ∧
    (let s := base.updCtx 0 fun c => { c with almen := true, almsz := 65536 };
      (s.ctx 0).almen = true ∧ ((((s.objsOf 0).filter fun x => x.alm).map fun x => x.size).foldl (· + ·) 0) + 65536 ≤ (s.ctx 0).almsz.toNat) ∧
    (let s : State := { base with objs := [⟨objWindow, 4096, 0x200000, 0, 0, 0, false, none, none, 0⟩] };
      (s.objs.find? fun x => x.ctx = 0 && x.addr = objWindow).isSome = true) ∧
    (let s := (stored [(0x6000, 0x7001), (0x7000, 0x8001), (0x8000, 0x9001), (0x9000, 0xA001), (0xA000, 0xB001), (0xB000, 0x20000F)] base).updCtx 0
        (fun c => { c with root := 6 });
      canonical 0 = true ∧ s.leafAt 0 5 ((s.ctx 0).root.toNat * 4096) = some 0xB000 ∧ s.malformed 0x30000F 0 = false ∧
        (0x30000F : W64).getLsbD 0 = true ∧ (0x30000F : W64).getLsbD 1 = true ∧ natOf (s.physRead 0xB000 8) = 0x20000F ∧
        tget 0 s.asgens (s.ctx 0).asid.toNat ≠ BitVec.allOnes 48) ∧
    (pooled.targetList 0x100080 = some [(0x10000000000, 0x1000)] ∧ pooled.ckpt = none) ∧
    (unitOk 1 255 = true ∧ unitOk 4 12 = true) ∧ (base.plat.deviceKey = true ∧ (base.physGet 0x100000 32).isSome = true) ∧
    ((0 : BitVec 16) = 0 ∧ 19 < (20 : BitVec 16).toNat) ∧ (posted 0 11 [0, 0, 0, 0, 0] base 1).commandDone 0 11 [0, 0, 0, 0, 0] = true ∧
    (let s := { (with_ fun m => { m with inSlot := false, halted := true }) with ckpt := some ⟨0, [], 0, false⟩ };
      s.allOut = true) := by decide +kernel

/-- A part that came out of a cold reset, with an image of no bytes under its list: RESTORE accepts it; and with no image it does not. -/
theorem witness_restore :
    let s : State := { pooled with ctxs := [] }
    let x : CkptImage := { s.snapshot [(0x10000000000, 0x1000)] [] with strands := [] };
    ({ s with images := [x] } : State).restorable_ 0x100080 = some x ∧ s.restorable_ 0x100080 = none ∧ x.copies.wf = true ∧ s.mem.wf = true := by
  decide +kernel

theorem witness_RegisterWrites : State.reset.plat.ready = false ∧ base.plat.ready = true ∧
    (let x := base.ret 0 0;
      ((x.lim.toNat < x.base.toNat ∨ 8 < ((0x8000000000000001 : W64).extractLsb' 8 4).toNat ∨
        ((0x8000000000000001 : W64).extractLsb' 0 5).toNat = 0 ∨ 12 < ((0x8000000000000001 : W64).extractLsb' 0 5).toNat ∨
        12 < base.waysBut 0 0 + ((0x8000000000000001 : W64).extractLsb' 0 5).toNat) → False) ∧
      12 < ((0x800000000000000D : W64).extractLsb' 0 5).toNat) ∧
    6 < ((7 : W64).extractLsb' 0 3).toNat ∧ (¬ 6 < ((6 : W64).extractLsb' 0 3).toNat ∧
      ¬ ∃ m ∈ base.strands, m.tile = 1 ∧ ((m.inSlot = true ∧ m.halted = false) ∨ m.winSize ≠ 0)) ∧
    ((base.eph.oclim.toNat < base.eph.ocbase.toNat ∨ hbmEnd < (base.eph.oclim.toNat + 1) * 65536) → False) ∧
    (let s := { base with eph := { base.eph with ocbase := 1 } };
      s.eph.oclim.toNat < s.eph.ocbase.toNat) ∧
    (1024 < ((1025 : W64).extractLsb' 0 16).toNat ∧ ((1024 : W64).extractLsb' 0 16).toNat ≤ 1024 ∧ base.almUsed 0 ≤ 1024 * 2 ^ 20) ∧
    (4 < ((5 : W64).extractLsb' 0 4).toNat ∧ ((4 : W64).extractLsb' 0 4).toNat ≤ 4) ∧
    (let v : W64 := 0x0001000000080008;
      (v.extractLsb' 0 8).toNat ≤ (v.extractLsb' 16 8).toNat ∧ (v.extractLsb' 0 8 : BitVec 8) ≠ 0 ∧ (v.extractLsb' 48 8 : BitVec 8) ≠ 0) ∧
    (tget Decoder.blank base.decs 8).en = false ∧ (5 : BitVec 26).toNat % 8 ≠ 0 ∧ (4 : Fin 65).val ≠ 8 := by decide +kernel

theorem witness_ResetsAndFailures :
    (base.liveCtxs = [0] ∧ ((base.ctx 0).cur.any fun l => l.ending.isNone) = true ∧ ((base.ctxStrands 0).any fun m => m.tile = 0 && !m.halted) = true) ∧
    (∀ n ∈ [1, 2, 3], unitOk n 0 = true ∧ base.unitOff n 0 = false) ∧ (unitOk 3 7 = true ∧ (base.fence 3 7).unitOff 3 7 = true) ∧ 880 ≤ (880 : BitVec 12).toNat ∧ (879 : BitVec 12).toNat < 880 ∧ 760 ≤ (760 : BitVec 12).toNat ∧
    (759 : BitVec 12).toNat < 760 ∧ unitOk 9 0 = false ∧ (unitOk 4 12 = true ∧ base.unitOff 4 12 = false) ∧
    (base.fatal = false ∧ ({ base with fatal := true } : State).fatal = true) ∧ (base.events.qlog = 0 ∧ base.events.held.length < 64) ∧
    (let s := { base with events := { base.events with held := List.replicate 64 [] } };
      64 ≤ s.events.held.length) := by decide +kernel

/-- A frame of R402 for 7 s and its CRC (worked by hand with the polynomial 0x1021), 100 ms and 900 ms after an edge. -/
theorem witness_TimeInputs : (∀ t ∈ [1600000000, 14400000000],
      let s := { base with mtime := BitVec.ofNat 64 t, mer := { base.mer with lastEdge := some 0, src := 1 } };
      s.mer.lastEdge = some 0 ∧ 16000000000 / 10 ≤ (s.mtime - 0).toNat ∧ (s.mtime - 0).toNat ≤ 9 * (16000000000 / 10) ∧ s.mer.src ≠ 0 ∧
        (s.mtime - 0).toNat < 3 * 16000000000 / 2) ∧
    base.mer.src = 0 ∧ base.mer.state = 0 ∧
    (∀ n ∈ [2, 3], let m : Meridian := { base.mer with src := n, curLabel := some 7, lastEdge := some 16000000000 };
      m.curLabel = some 7 ∧ m.lastEdge.isSome = true ∧ (m.src = 2 ∨ m.src = 3)) ∧
    (let f : BitVec 96 := BitVec.ofNat 96 (0xD555 + 7 * 2 ^ 16 + 1 * 2 ^ 64 + (crc16 [7, 0, 0, 0, 0, 0, 1, 0]).toNat * 2 ^ 80);
      f.extractLsb' 0 16 = 0xD555 ∧ f.getLsbD 64 = true ∧ f.extractLsb' 72 8 = 0 ∧
        f.extractLsb' 80 16 = crc16 ((List.range 8).map fun k => f.extractLsb' (16 + 8 * k) 8)) ∧
    (∀ st ∈ [1, 2, 3], ({ base.mer with state := st, src := 1, good := 7 } : Meridian).state = st) ∧
    (-128 ≤ (-128 : W64).toInt ∧ (128 : W64).toInt ≤ 128 ∧ ¬ (129 : W64).toInt ≤ 128 ∧ 16000 < (16001 : W64).toInt) ∧
    (let s := { base with mtime := 32000000000, mer := { base.mer with state := 2 } };
      s.mer.state = 2 ∧ 2 * 16000000000 ≤ (s.mtime - s.mer.lastMeas).toNat) := by decide +kernel

/-- Port 0 of the fabric is up, with or without compression. -/
def linked (cmp : Bool) : State := { base with ual := base.ual.set 0 { base.ual[0] with up := true, cmp := cmp } }

theorem witness_LinksPoolAndHost :
    (let s := goto (.dcExtentRelease 0x10000000000 0x10000000) base;
      (0x10000000000 : W64).toNat ≤ s.place 0x1000FFFFFFF ∧ s.place 0x1000FFFFFFF < (0x10000000000 : W64).toNat + (0x10000000 : W64).toNat) ∧
    base.ckpt = none ∧ ({ base with ckpt := some ⟨0, [], 0, false⟩ } : State).ckpt.isSome = true ∧
    (State.reset.plat.ready = false ∧ objWindow < (2 ^ 51 : Nat) + 1) ∧
    (base.plat.ready = true ∧ (BitVec.ofNat 64 (2 ^ 51 - 64)).toNat + 64 ≤ objWindow ∧ (0x7FFFFFFFFF : W64).toNat < hbmEnd ∧ base.mem.wf = true) ∧
    (∀ i, i < 64 → base.fencedAt (0x4000 + i) = false) ∧
    (base.fence 2 0).fencedAt 0 = true ∧
    (let p : UalPort := { base.ual[0] with cmp := true };
      p.streams = [] ∧ (p.stream 1 true).d = (p.stream 0 false).d ∧ (p.stream 1 true).ptr = (p.stream 0 false).ptr ∧ (p.stream 1 true).d.length = 64) ∧
    (let x : CollMsg := ⟨0x8000000000000001, 0, 0, 0, 7, 0, .csnd, [1, 2, 3]⟩;
      base.plat.ualen.getLsbD 0 = true ∧ ({ base with plat := { base.plat with ualen := 0xFE } } : State).plat.ualen.getLsbD 0 = false ∧
        ({ base with outbox := [x] } : State).outbox[0]? = some x ∧ (linked true).ual[0].up = true ∧ base.ual[0].up = false ∧
        ((linked true).ual[0].cmp = true ∧ ((linked true).ual[0].stream 1 true).peer = 1 ∧ ((linked true).ual[0].stream 1 true).out = true) ∧
        (linked false).ual[0].cmp = false ∧ ((linked true).sendOver 0 (1, x)).ual[0].sent = [(1, x)]) ∧
    (base.plat.cxlMem = true ∧ ({ base with plat := { base.plat with cxlMem := false } } : State).plat.cxlMem = false) ∧
    ([1, 2, 3, 4, 5, 6, 7, 8] : List W64).length = 8 ∧ (List.replicate 64 (0 : W64)).length = 64 := by
  decide +kernel

/-! Queues, launches, objects, and the machine as a whole. -/

/-- The launch record of a one-strand gang for handle `h` whose image is at 0x600000 (spec/02, R39). -/
def oneStrand (h tag : Nat) : List (Nat × W64) :=
  [(0x300080, 0x600000), (0x300088, BitVec.ofNat 64 (8 + h * 2 ^ 32)), (0x300090, 0x1002010000), (0x3000A0, 0x20000), (0x3000C8, BitVec.ofNat 64 tag)]

/-- A root whose launch queue has its ring at 0x300000, four entries long, and the record `q` at its head. -/
def queue : Region :=
  { addr := 0x100000, parent := 0, ovr := 0x7FF, slots := 0xFFFF, sram := 0xFFFF, hbm := 0xFFFF, poolsh := 0xFF,
    pdsz := 6, prio := 0, age := 1, fdom := 0, slip := 0, lead := 0, silence := 1, qen := true, ring := 0x300000, qid := 5, logn := 2,
    admlead := 0, qon := true, head := 0, tail := 1, discarded := [], disp := none, waitFrom := none, restFrom := none, dir := [] }

/-- The small machine with no launch, that queue, its stamp, and an image header of version 3 with its entry at slot 8. -/
def waiting (r : Region) (q : List (Nat × W64)) : State :=
  let s := stored (q ++ [(0x300000, 1), (0x300280, 1), (0x600000, 0x53414C5130000010), (0x600008, 0x800000003)])
    (({ base with me := Strand.blank } : State).updCtx 0 fun c => { c with cur := none, region := 0x100000, state := .ready });
  { s with regions := [r] }

/-- A queue whose candidate waits, one that is off, one whose head is discarded, one whose stamp has not come, and ones whose ring, stamp
or record cannot be read. -/
theorem witness_queues :
    (let s := waiting queue (oneStrand 0x8000 7);
      s.queueOf 5 = some queue ∧ queue.qon = true ∧ s.ringRead queue.ring 8 = some 1 ∧ queue.head.toNat < queue.tail.toNat ∧
        queue.head.toNat ∉ queue.discarded ∧ s.ringRead (queue.stampAddr queue.head.toNat) 8 = some (queue.head.toNat + 1) ∧
        (s.ringRead (queue.slotAddr queue.head.toNat) 128).any (fun x => s.current (recOf (bytesOf 128 x)).ctxh) = true ∧
        s.region queue.addr = some queue ∧ queue.ring + 16 ≤ objWindow ∧ s.hostRejects = [] ∧ s.plat.cxlMem = true ∧ s.mem.wf = true ∧
        s.ckpt = none ∧ ∀ i < 8, s.revokedAt (queue.ring + 8 + i) = false) ∧
    (let s : State := { waiting queue (oneStrand 0x8000 7) with poison := [(0x300280 / 32, true)] };
      s.ringRead queue.ring 8 = some 1 ∧ s.ringRead (queue.stampAddr 0) 8 = none) ∧
    (let s : State := { waiting queue (oneStrand 0x8000 7) with poison := [(0x300080 / 32, true)] };
      s.ringRead (queue.stampAddr 0) 8 = some 1 ∧ s.ringRead (queue.slotAddr 0) 128 = none) ∧
    (let s := waiting queue (oneStrand 0 7);
      s.queueOf 5 = some queue ∧ (s.ringRead (queue.slotAddr queue.head.toNat) 128).any
        (fun x => !s.current (recOf (bytesOf 128 x)).ctxh) = true) ∧
    (let r := { queue with qon := false };
      (waiting r []).queueOf 5 = some r) ∧
    (let r := { queue with ring := objWindow };
      (waiting r []).queueOf 5 = some r ∧ (waiting r []).ringRead r.ring 8 = none) ∧
    (let r := { queue with discarded := [0] };
      (waiting r []).queueOf 5 = some r ∧ 0 ∈ r.discarded) ∧
    (let r := { queue with head := 1, tail := 2 };
      (waiting r []).queueOf 5 = some r ∧ (waiting r []).ringRead (r.stampAddr 1) 8 = some 0) := by decide +kernel

/-- No queue that has nothing to restore meets an error at its head. -/
def headsRead (s : State) : Bool :=
  s.regions.all fun x => (s.toRestore x).isSome || (match s.headOf x with | .error => false | _ => true)

/-- Decisions: no candidate, a record refused, a gang admitted at its boundary (one strand on tile 255). -/
theorem witness_decisions :
    (let s := waiting { queue with tail := 0 } [];
      let u := s.markAll s.mtime;
      u.waitingQueues.isEmpty = true ∧ headsRead s = true) ∧
    (let s := waiting queue ((0x300090, 0x1002010001) :: (oneStrand 0x8000 7).filter (fun p => p.1 != 0x300090));
      let u := s.markAll s.mtime;
      (match u.waitingQueues with | [(_, .entry q _)] => !q.ok | _ => false) = true) ∧
    (let s := waiting queue (oneStrand 0x8000 7);
      let u := s.markAll s.mtime;
      (match u.waitingQueues with
        | [(r, .entry q _)] => u.under 0 r.addr && q.ok && !u.dupSlice q && hKey q.ctxh == 0 && (match u.readHeader (u.ctx 0) q.code with
          | .ok (h, tids) => u.couldFit (u.ctx 0).region q h.need && (u.lacking (u.ctx 0).region q.nstr (q.nstr * h.need) true).isEmpty &&
            u.placeable (fun _ => false) q h.need && u.placesOk [⟨255, 3, 0⟩] q h.need && tids.isEmpty
          | .error _ => false)
        | _ => false) = true) := by decide +kernel

/-- Two queues of one priority under a root with one slot: one offers a record, and the other a launch of two saved strands. -/
def crowded : State :=
  let q : Region := { queue with addr := 0x108000, parent := 0x100000, prio := 7 }
  let r : Region := { queue with addr := 0x110000, parent := 0x100000, prio := 7, qid := 6, tail := 0 }
  let s : State := waiting q (oneStrand 0x8000 7)
  let m : Strand := { base.me with ctx := 1, saved := true, inSlot := false }
  let c : Ctx := { base.ctx 0 with region := 0x110000, state := .ready, imagesSaved := true }
  let t : State := (s.updCtx 0 fun c => { c with region := 0x108000 }).setCtx 1 c
  { t with regions := [{ queue with slots := 1, qen := false, qon := false }, q, r], me := m, others := [{ m with id := 2, index := 1 }] }

theorem witness_blocked :
    let u := crowded.markAll crowded.mtime
    headsRead crowded = true ∧
    (match u.waitingQueues with
      | [(r, .entry q _), (r2, .restore j)] => hKey q.ctxh == 0 && r2.addr != r.addr && u.queueEff r2 == 7 && (u.checkRec r q).isOk &&
          (u.path (u.ctx 0).region).any fun (x : Region) => (u.lackOf r2 (.restore j)).contains x.addr
      | _ => false) = true := by decide +kernel

/-- The same machine with a launch of one saved strand, which waits for its slot. -/
def resuming : State :=
  let s := ({ base with me := { base.me with saved := true, inSlot := false }, regions := [{ queue with tail := 0 }] } : State);
  s.updCtx 0 fun c => { c with region := 0x100000, state := .ready, imagesSaved := true }

theorem witness_resume :
    let s := resuming;
    let u := s.markAll s.mtime;
    s.ckpt = none ∧ (match u.waitingQueues with
      | [(_, .restore k)] => k == 0 && (u.lacking (u.ctx k).region (u.toPlace k).length 0 true).isEmpty &&
        u.restorePlaceable (fun _ => false) k && u.restorePlaces [⟨0, 3, 0⟩] k
      | _ => false) = true := by decide +kernel

/-- The device reads what lies in mapped pages of a quiet machine. -/
theorem reads {s : State} {c : Ctx} {k : Acc} {a n : Nat} (z : Quiet s) (hn : noncanonAt a n = none)
    (w : (partsOf a n).all (lies s c k) = true) : ∃ bs, s.devRead c k a n = .ok bs := by
  simp [State.devRead, fine_quiet z hn w]

theorem witness_table : ∃ bs, (base.writeTids (base.ctx 0) []).1.devRead (base.ctx 0) .r (base.ctx 0).tidbase.toNat 8192 = .ok bs :=
  reads (by decide +kernel) (by decide +kernel) (by decide +kernel)

/-- The strand is asked to leave its slot; no vector register is live. -/
def leavingNow : State := base.setMe { base.me with saveReq := some .preempt, plive := 0, vlive := 0 }

/-- Strands that a save is asked of: one free, and one under way that a checkpoint takes over. -/
theorem witness_requests : base.strand 1 = some base.me ∧ base.me.id ≠ 0 ∧ base.me.inSlot = true ∧ base.me.halted = false ∧ base.me.saveReq = none ∧
    leavingNow.strand 1 = some leavingNow.me ∧ leavingNow.me.saveReq ≠ none ∧ Why.preempt ≠ .checkpoint := by decide +kernel

/-- Nothing of it is in flight, so its image is that of the strand itself: one that can be written, and one that cannot. -/
theorem witness_saves :
    (let s := leavingNow;
      let m := s.me;
      s.strand 1 = some m ∧ m.saveReq = some .preempt ∧ m.saveNow = true ∧ s.ended m.ctx = false ∧ m.wait ≠ .csw ∧
        (s.stopXs m).2 = false ∧ (s.stopXs m).1.xs = s.xs ∧ (match m.quiesce false with | .to x => x == m | .chainEnd _ => false) = true) ∧
    (let s := leavingNow.updCtx 0 fun c => { c with root := 0 };
      (s.writeImage (s.ctx 0) (s.imageBase s.me) (s.imageChunks s.me .preempt)).isNone = true) := by decide +kernel

theorem witness_saved_image :
    (leavingNow.writeImage (leavingNow.ctx 0) (leavingNow.imageBase leavingNow.me) (leavingNow.imageChunks leavingNow.me .preempt)).isSome = true := by
  decide +kernel

/-- A saved strand whose image, written by hand, holds the words that R73 checks and zeros; one that has none. -/
def imaged : State :=
  stored [(0x50000, 0x0000000153565349), (0x50008, 0x8000), (0x50030, 3)] (base.setMe { base.me with saved := true, inSlot := false })
def imageAt (s : State) (off n : Nat) : Nat := natOf (s.readVa (s.ctx 0) ((s.imageBase s.me + off) % 2 ^ 64) n)

/-- The same image at the start of a pipelined level of two stages whose stage predicates are all 0, with COUNT 3 and with DRAIN too. -/
def imagedLoop (drain : Bool) : State :=
  stored [(0x50340, 3), (0x50348, (if drain then 0x3200200000008 else 0x1200200000008)), (0x50380, 8)] imaged
def restarts (drain : Bool) : Bool :=
  ((imagedLoop drain).readStrand (imagedLoop drain).me (imageAt (imagedLoop drain))).any fun m =>
    m.emptyStart && (imageAt (imagedLoop drain) 0x348 8).testBit 49 == drain
theorem witness_restarts : restarts false = true ∧ restarts true = true := by decide +kernel

theorem witness_image : imaged.strand imaged.me.id = some imaged.me ∧ (imaged.readStrand imaged.me (imageAt imaged)).isSome = true ∧
    imageAt base 0 8 % 2 ^ 32 ≠ 0x53565349 ∧
    ∃ bs, imaged.devRead (imaged.ctx 0) .r (imaged.imageBase imaged.me) 0x10000 = .ok bs :=
  ⟨by decide +kernel, by decide +kernel, by decide +kernel, reads (by decide +kernel) (by decide +kernel) (by decide +kernel)⟩

theorem witness_starts_and_ends :
    (let s := ({ base with mtime := 16 } : State).updLaunch 0 fun l => { l with started := false, rec_ := { l.rec_ with notbefore := 16 } };
      (s.ctx 0).cur.any (fun l => !l.started && decide (l.rec_.notbefore.toNat ≤ s.mtime.toNat)) = true ∧
        ((s.ctxStrands 0).all fun m => m.inSlot && m.saveReq.isNone) = true ∧
        ((s.setMe { s.me with saveReq := some .swap }).ctxStrands 0).any (fun m => m.saveReq.isSome) = true ∧
        ((({ s with me := { s.me with inSlot := false } } : State).ctxStrands 0).any fun m => !m.inSlot) = true ∧
        (({ s with mtime := 15 } : State).ctx 0).cur.any (fun l => !l.started && decide ((15 : W64).toNat < l.rec_.notbefore.toNat)) = true) ∧
    (let s := { base with sels := [(0, ⟨3, 4096⟩)] };
      4096 ≤ (tget ⟨0, 0⟩ s.sels 0).cycles ∧ s.slotStrand 0 (((tget ⟨0, 0⟩ s.sels 0).slot + 1 + 0) % 4) = some s.me) ∧
    ((tget ⟨0, 0⟩ base.sels 0).cycles < 4096 ∧ base.slotStrand 0 ((tget ⟨0, 0⟩ base.sels 0).slot % 4) = some base.me) ∧ (base.updCtx 0 (fun c => { c with cur := none }) |>.ctx 0).cur.isNone = true ∧
    ((base.ctx 0).cur.any (fun l => l.ending.isNone) = true ∧ (base.ctxStrands 0).any (fun m => !m.halted) = true) ∧
    (let s := base.updLaunch 0 fun l => { l with ending := some ⟨.killed, 0, BitVec.allOnes 32, 0, true⟩ };
      (s.ctx 0).cur.any (fun l => l.ending.any fun e => e.discard) = true) ∧
    (let s := base.setMe { base.me with halted := true };
      (s.ctx 0).cur.any (fun l => l.ending.isNone && l.started) = true ∧
        (s.ctxStrands 0).all (fun m => m.halted && m.journal.isEmpty) = true ∧ s.slog = []) := by decide +kernel

/-! Commands at work. -/

/-- The command, journaled by the machine that `f` prepares, and taken by its engine; and one micro-step on. -/
def startedIn (f : State → State) (i : Instr) (l : List (Fin 64 × W64)) : State := goto (.commandStart 1 1) (goto i (f (engines l)))
def again (s : State) : State := goto (.engineMicroStep 1 1) s

/-- A region with a queue and a directory; a map descriptor at 0x100000 (of version 1 with a table at 0x200000) before it. -/
def regioned (q : Region) (l : List (Nat × W64)) (s : State) : State :=
  let t : State := s.updCtx 0 fun c => { c with region := 0x100000 }
  stored l { t with regions := [q] }
def mapAt (d : MapDesc) (s : State) : State := regioned queue [] { s with mem := s.mem.write 0x100000 d.bytes }
def map1 : MapDesc := ⟨1, 0x200000, 2, 4, 0, 0, 0, 0, 0, 0⟩

/-- The operands of a command, ready in the window or in memory. -/
def padOk (s : State) (m : Strand) (a n : Nat) : Bool :=
  decide (a + n ≤ m.winSize) && (List.range n).all fun i => !tget false s.sramPoison (m.winAddr (a + i) / 8)
def memOk (s : State) (m : Strand) (k : Acc) (a n : Nat) : Bool := decide (s.checkAll (s.ctx m.ctx) k [⟨none, a, n, 1⟩] = .fine)

theorem padOk_onPad {s : State} {m : Strand} {a n : Nat} (h : padOk s m a n = true) : OnPad s m a n := by
  simpa [padOk, OnPad, Within, List.all_eq_true] using h

theorem memOk_iff {s : State} {m : Strand} {k : Acc} {a n : Nat} : memOk s m k a n = true ↔ MemOk s m k a n := by simp [memOk, MemOk]

/-- One of each command with its operands, for the machine of `map1`. -/
def commands : List (Instr × List (Fin 64 × W64)) :=
  [(.mma on free 0 1 2 40 false false, []), (.mmas on free 0 1 40 false false, [(42, 0x040506)]),
    (.aclr on free 1, []), (.amov on free 0 0, []), (.amovTid on free 0 8 40, []), (.acvt on free 3 0 40 false false .rne false, []),
    (.cpy on free 40 .ss .off false 0, []), (.cpy on free 40 .ms .off false 0, []), (.cpy on free 40 .sm .off false 0, []),
    (.cpy on free 40 .mm .off false 0, []), (.gthr on free 3 3 40, []), (.gidx on free 4 40, [])]
def prefixCommands : List (Instr × List (Fin 64 × W64)) :=
  [(.kvh on free 40, [(40, 0x0000000100000000)]), (.kvlk on free 40, [(40, 0x0000000100000000), (41, 0x100)]),
    (.kvins on free 40, [(40, 0x0000000100000000), (41, 0x100)]), (.kvpin on free 40, [(40, 0x0000000100000000), (41, 0x100)]),
    (.kvunp on free 40, [(40, 0x0000000100000000), (41, 0x100)]), (.kvmap on free 40, [(40, 0x100000), (41, 0x100)]),
    (.kvmapRel on free 40, [(40, 0x100000), (41, 1)]), (.kvpub on free 40, [(40, 0x100000), (41, 2)]),
    (.attn on free 8 8 40 false false, [(40, 0x100000), (41, 1), (42, 0x0000000100000000)]),
    (.cred on free 40 .sum .f32 7, [(42, 0x0000000100000001)]), (.cgth on free 40 7, []), (.csnd on free 40 0 7, []),
    (.crcv on free 40 0 7, []), (.launch on free 40, [])]
def worksIn (p : Instr × List (Fin 64 × W64)) : Bool :=
  let s := startedIn (mapAt map1) p.1 p.2
  entry1 s fun m e => s.engineLive m e && e.eng != 0 && e.cmd == p.1 && decide (s.npkg m ≤ 1)

theorem witness_works : commands.all worksIn = true := by decide +kernel
theorem witness_works_prefix : prefixCommands.all worksIn = true := by decide +kernel

/-- Values: a finite pattern, a B4 code and its scale byte, integers with all and with some planes, and one product of value 1. -/
theorem witness_elements : Finite .f32 0x3F800000 ∧ IsFin (.fin false 1 0) ∧ (ratOf (.fin false 1 0) = 1 ∧ pow2 0 = 1 ∧ pow2 1 = 2) ∧
    (tidFields (tid 0 32 48 48 5 1 1)).ty.isInt = true ∧ (tidFields (tid 0 32 48 48 5 1 1)).planes = 0 ∧
    (let t := tidFields (tid 0 32 48 48 5 1 1 + BitVec.ofNat 256 (4 * 2 ^ 180)); t.planes ≠ 0 ∧ t.planes ≤ t.w) ∧
    (infPat .f32 true < 2 ^ 32 ∧ FV.nan ∈ [FV.nan] ∧ FV.inf false ∉ [FV.inf true]) :=
  ⟨by simp only [Claims.Finite]; decide +kernel, ⟨_, _, _, rfl⟩, by decide +kernel, by decide +kernel, by decide +kernel, by decide +kernel, by decide +kernel⟩

/-- Tiles of one row in the window: A and B dense; and B sparse with one entry in its first row. -/
def tileOf (f : State → Except EngErr (List Nat × State)) (s : State) : Bool := match f s with | .ok (_, u) => u == s | .error _ => false
def sparse : State := { engines [] with sram := Memory.write [] 0x1004 ((List.range 32).flatMap fun _ => bytesOf 4 1) }

theorem witness_tile : tileOf (fun s => mmaStep s.me (tidFields (tid 0 1 48 48 3 1 1)) (tidFields (tid 0x600 1 48 48 3 1 0)) 0 0 0
    true false (accs s s.me 0) s) (engines []) = true := by decide +kernel

theorem witness_sparse : let s := sparse
    let a := tidFields (tid 0 32 48 48 3 1 1)
    let b := tidFields (tid 0x600 32 48 48 3 1 0)
    let p := tidFields (tid 0x1000 1 33 0 10 1 0)
    let x := tidFields (tid 0x2000 1 8 0 10 1 0)
    (a.pad && b.pad && p.pad && x.pad && decide (a.w = 8 ∧ b.w = 8 ∧ a.prec ≤ 8 ∧ 0 < a.rows ∧ 0 < a.cols ∧ 0 < b.rows ∧ 0 < b.cols ∧
      p.ty = .n32 ∧ x.ty = .n32 ∧ p.planes = 0 ∧ x.planes = 0 ∧ a.ty ≠ .b4) && padOk s s.me a.base 1536 &&
      ((List.range 32).all fun c => padOk s s.me (b.base + c * b.stride) 48) && padOk s s.me p.base 132 && padOk s s.me x.base 4 &&
      decide (padNat s s.me p.base 4 = 0) && decide (padNat s s.me x.base 4 < a.cols) &&
      ((List.range 32).all fun c => padNat s s.me (p.base + 4 * (c + 1)) 4 == 1)) = true := by decide +kernel

/-- An MMA before and after its one K step; the operands of MMAT, ACLR, AMOV and ACVT on AC0, and of AMOV from a tensor. -/
theorem witness_matrix_commands :
    (let s := startedIn id (.mma on free 0 1 2 40 false false) [];
      entry1 s fun m e => decide (e.upc.toNat ≤ e.hi 1) && padOk s m (accAt s m 0) 4096) = true ∧
    (let s := goto (.mmat on free 0 1 2 40 false) (engines []);
      entry1 s fun m e => s.startable m e && (s.engineFree m e.cmd).isSome && padOk s m (accAt s m 0) 4096) = true ∧
    (let s := startedIn id (.amovTid on free 0 8 40) [];
      entry1 s fun m e => (e.tid 0).pad && decide ((e.tid 0).w = 32 ∧ (e.tid 0).planes = 0 ∧ 0 < (e.tid 0).rows ∧ 0 < (e.tid 0).cols) &&
        (List.range 32).all fun r => padOk s m ((e.tid 0).base + r * (e.tid 0).stride) 128) = true ∧
    (let s := startedIn id (.acvt on free 3 0 40 false false .rne false) [];
      entry1 s fun _ e => (e.tid 0).pad && decide ((e.tid 0).ty ≠ .b4 ∧ 0 < (e.tid 0).rows ∧ 0 < (e.tid 0).cols ∧
        32 * ((e.tid 0).w / 8) ≤ (e.tid 0).stride ∧ (e.tid 0).base + 31 * (e.tid 0).stride + 64 ≤ 0x9000)) = true := by decide +kernel

/-- Copies of eight bytes in each direction, and one that is at its end. -/
def cpyIn (d : CpyDir) (l : List (Fin 64 × W64)) : State := startedIn id (.cpy on free 40 d .off false 1) l
theorem witness_copies :
    (let s := cpyIn .ss [(40, 0x100), (41, 0x200), (42, 8)];
      entry1 s fun m e => e.upc == 0 && e.lo 2 == 8 && padOk s m (e.op 1) 8 && decide (e.op 0 + 8 ≤ m.winSize)) = true ∧
    (entry1 (again (cpyIn .ss [(40, 0x100), (41, 0x200), (42, 8)])) fun m e => decide (1 ≤ e.upc.toNat / 2 ^ 32 ∧ 16 + 8 ≤ m.winSize)) = true ∧
    (let s := cpyIn .mm [(40, 0x4000), (41, 0x4100), (42, 8)];
      entry1 s fun m e => memOk s m .r (e.op 1) 8 && memOk s m .w (e.op 0) 8 &&
        (List.range 8).all fun a => (List.range 8).all fun b => s.byteKey m false (e.op 1 + a) != s.byteKey m false (e.op 0 + b)) = true := by
  decide +kernel

/-- A gather of row 0 to row 1, one to a row that is not there, and one at its end; an expansion of two rows at its second and end. -/
def gather (d : W64) : State := startedIn id (.gthr on free 3 3 40) [(40, 0x0000000100001000), (41, d)]
def expand : State := startedIn id (.gidx on free 4 40) [(40, 0x0000000200000000), (41, 0x2000)]
theorem witness_gathers :
    (let s := gather 1;
      entry1 s fun m e => padOk s m (e.lo 0) 4 && padNat s m (e.lo 0) 4 == 0 && (e.tid 0).pad && decide ((e.tid 0).planes = 0 ∧
        e.upc = 0 ∧ e.hi 0 = 1 ∧ (e.tid 0).rows = 32 ∧ (e.tid 0).stride = 64 ∧ ((e.tid 0).cols * (e.tid 0).w + 7) / 8 = 64 ∧
        (e.tid 0).base + 64 + 64 ≤ m.winSize) && padOk s m (e.tid 1).base 64) = true ∧
    (entry1 (gather 32) fun _ e => decide ((e.tid 0).rows ≤ e.lo 1)) = true ∧
    (entry1 (again (gather 1)) fun _ e => decide (e.hi 0 ≤ e.upc.toNat)) = true ∧
    (let s := again expand;
      entry1 s fun m e => (e.tid 0).pad && decide (e.upc = 1 ∧ e.hi 0 = 2 ∧ (e.tid 0).w = 32 ∧ (e.tid 0).planes = 0 ∧ e.lo 1 ≤ m.winSize) &&
        padOk s m (e.tid 0).base 12 && padNat s m ((e.tid 0).base + 8) 4 == 0) = true ∧
    (entry1 (again (again expand)) fun _ e => decide (e.hi 0 ≤ e.upc.toNat)) = true := by decide +kernel

/-- A hash of one block with no previous hash and with one, of the second block, and at its end; KVINS before and after its step; a
directory that is empty, and ones whose eight slots hold a tag each with pin 0, 3 or all ones. -/
def hashes (o0 o2 : W64) : State := startedIn id (.kvh on free 40) [(40, o0), (42, o2)]
def inserts : State := startedIn (mapAt map1) (.kvins on free 40) [(40, 0x0000000100000000), (41, 0x100)]
def dirOf8 (pin : BitVec 16) : Region := (List.range 8).foldl (fun r k => r.setSlot k ⟨true, BitVec.ofNat 128 (64 * (k + 1)), 5, pin⟩) queue
theorem witness_prefixes :
    (entry1 (hashes 0x0000000100000000 0x4000) fun m e => e.upc == 0 && e.op 2 / 2 ^ 63 % 2 == 0 && padOk base m (e.lo 0) 64 &&
      decide (e.lo 2 + 16 ≤ m.winSize)) = true ∧
    (entry1 (hashes 0x0000000100000000 0x8000000000004000) fun m e => e.op 2 / 2 ^ 63 % 2 == 1 && padOk base m (e.op 2 / 2 ^ 32 % 2 ^ 23) 16) = true ∧
    (entry1 (again (hashes 0x0000000200000000 0x4000)) fun m e => e.upc == 1 && padOk base m (e.lo 2) 16) = true ∧
    (entry1 (again (hashes 0x0000000100000000 0x4000)) fun _ e => decide (e.hi 0 ≤ e.upc.toNat)) = true ∧
    (entry1 inserts fun m e => (inserts.dirOf m).isSome && !e.once && padOk inserts m (e.lo 0) 32 &&
      decide (padNat inserts m (e.lo 0 + 24) 8 < 2 ∧ e.lo 1 + 9 ≤ m.winSize)) = true ∧
    (entry1 (again inserts) fun _ e => e.once) = true ∧ presentIn queue 7 = none ∧ presentIn (dirOf8 3) 64 = some 0 ∧
    presentIn (dirOf8 3) 0 = none ∧ ((List.range 8).all fun k => ((dirOf8 3).slot k).valid) = true ∧ ((dirOf8 0).slot 0).pin = 0 ∧
    ((dirOf8 0xFFFF).slot 0).pin = 0xFFFF := by decide +kernel

/-- A map with readers of its current version, and of its previous one; a publisher; attention over one position. -/
def attending : State := startedIn (mapAt map1) (.attn on free 8 8 40 false false) [(40, 0x100000), (41, 1), (42, 0x0000000100000000)]
theorem witness_maps :
    (let s := startedIn (mapAt map1) (.kvmapRel on free 40) [(40, 0x100000), (41, 1)];
      entry1 s fun m e => memOk s m .r (e.op 0) 64 && memOk s m .w (e.op 0) 64 &&
        (match s.walk (s.ctx m.ctx) (e.op 0) .none with | .ok r => pteOrd r.2 != 2 | .error _ => false) &&
        (let d := mapOf (memNat s m (e.op 0) 64); decide (d.cver = 1 ∧ d.crd = 2 ∧ e.op 1 = 1))) = true ∧
    (let s := startedIn (mapAt ⟨2, 0, 0, 0, 1, 0x200000, 1, 4, 0, 0⟩) (.kvmapRel on free 40) [(40, 0x100000), (41, 1)];
      entry1 s fun m e => let d := mapOf (memNat s m (e.op 0) 64); decide (d.cver = 2 ∧ d.pver = e.op 1 ∧ d.prd = 1)) = true ∧
    (let s := startedIn (mapAt map1) (.kvpub on free 40) [(40, 0x100000), (41, 2)];
      entry1 s fun m e => s.pubReady m e && e.op 1 != 0 && decide (e.hi 3 + 8 ≤ m.winSize)) = true ∧
    (entry1 attending fun m e => (e.tid 0).pad && decide ((e.tid 0).cols = 32 ∧ (e.tid 0).ty = .f32 ∧ (e.tid 0).planes = 0 ∧
        128 ≤ (e.tid 1).stride ∧ attnTable (mapOf (memNat attending m (e.op 0) 64)) (e.op 1) (e.hi 2) = some 0x200000) &&
      memOk attending m .r (e.op 0) 64 &&
      memOk attending m .r 0x200000 8 && memNat attending m 0x200000 8 == 0 && memOk attending m .r 0 64 && memOk attending m .r 1024 64 &&
      (List.range 32).all fun r => padOk attending m ((e.tid 0).base + r * (e.tid 0).stride) 128) = true := by decide +kernel

/-- A reduction, a gather and a message of a gang of one slice, before its note is sent, after it, and at the end. -/
def note (kind : CollKind) (data : List Byte) : CollMsg := ⟨0x8000000000000001, 0, 0, 0, 7, 0, kind, data⟩
def told (x : CollMsg) (s : State) : State := { s with inbox := [x] }
def ownCall (x : CollMsg) : Bool := match x.kind with
  | .cred .. => true | .cgth => true | .csnd => false | .written => false | .barrier .. => false
def kinds (s : State) (k : CollKind) : Bool := entry1 s fun m e => (s.message m (s.slice m) 7 e.ord ownCall).isSome &&
  (match s.calls m 7 e.ord with | some l => l.all fun x => x.kind == k | none => false)
def sum1 : State := startedIn id (.cred on free 40 .sum .f32 7) [(40, 0x4000), (41, 0x4100), (42, 0x0000000100000001)]
def gath : State := startedIn id (.cgth on free 40 7) [(40, 0x4000), (41, 0x4100), (42, 0x0000000800000008), (43, 0x100)]
def send : State := startedIn id (.csnd on free 40 0 7) [(40, 0x4000), (41, 8)]
def recv : State := startedIn (told (note .csnd [1, 2, 3])) (.crcv on free 40 0 7) [(40, 0x4000), (41, 8), (42, 0x100)]
theorem witness_gangs :
    (entry1 sum1 fun m e => (sum1.message m (sum1.slice m) 7 e.ord ownCall).isNone && memOk sum1 m .r (e.op 1) 4 && e.hi 2 == 1) = true ∧
    kinds (again sum1) (.cred .sum .f32 1) = true ∧
    (entry1 (again sum1) fun m e => e.upc == 0 && e.lo 2 == 1 && memOk (again sum1) m .w (e.op 0) 4) = true ∧
    (entry1 (again (again sum1)) fun _ e => decide (e.lo 2 ≤ e.upc.toNat / 4)) = true ∧
    (entry1 gath fun m e => (gath.message m (gath.slice m) 7 e.ord ownCall).isNone && memOk gath m .r (e.op 1) 8 && e.lo 2 == 8) = true ∧
    kinds (again gath) .cgth = true ∧
    (entry1 (again gath) fun m e => e.upc == 0 && e.hi 2 == 8 && memOk (again gath) m .w (e.op 0) 8) = true ∧
    (entry1 (again (again gath)) fun m e => e.upc == 8 && decide (e.lo 3 + 8 ≤ m.winSize)) = true := by decide +kernel

theorem witness_messages :
    (entry1 send fun m e => (send.message m (send.slice m) 7 e.ord fun x => x.kind = .csnd && x.dst = 0).isNone && memOk send m .r (e.op 0) 8 &&
      e.lo 1 == 8) = true ∧
    (let s := told (note .written []) (again send);
      entry1 s fun m e => (s.message m (s.slice m) 7 e.ord fun x => x.kind = .csnd && x.dst = 0).isSome &&
        (s.message m 0 7 e.ord fun x => x.kind = .written && x.dst = s.slice m).isSome) = true ∧
    (entry1 recv fun m e => (recv.payload m e 0 7).any (fun x => x.data.length == 3) && e.lo 1 == 8 && e.upc == 0 && memOk recv m .w (e.op 0) 3) = true ∧
    (let s := again recv; entry1 s fun m e => (s.payload m e 0 7).isSome && e.upc == 3 && decide (e.lo 2 + 8 ≤ m.winSize)) = true ∧
    (let x := note .csnd []; base.inbox = [] ∧ (x.gang, x.start, x.dst) ∉ base.gone ∧
      (x.gang, x.start, x.dst) ∈ ({ base with gone := [(x.gang, x.start, 0)] } : State).gone) := by decide +kernel

/-- A LAUNCH into a queue with room, into one that is full, into one that is off, and one that has had its effect. -/
def telling (l : List (Nat × W64)) (q : Region) : State := goto (.launch on free 40) (regioned q l (engines [(40, 0x4000), (41, 0x100)]))
theorem witness_launches :
    (let s := telling [] queue;
      entry1 s fun m e => s.startable m e && (s.engineFree m e.cmd).isSome && !e.once && memOk s m .r (e.op 0) 128 &&
        decide (e.lo 1 + 8 ≤ m.winSize) && (s.region (s.ctx m.ctx).region).any (fun r => r.qen && r.qon) &&
        !s.current (BitVec.ofNat 32 (memNat s m (e.op 0 + 12) 4)) &&
        (match microStep m { e with eng := 1 } s with | .ok (x, _) => x.once | .error _ => false)) = true ∧
    ((telling [] queue).ringRead (queue.ring + 16) 8 = some 0 ∧ (telling [] queue).ringRead queue.ring 8 = some 0 ∧
      (BitVec.ofNat 64 0 - queue.head).toNat < 2 ^ queue.logn) ∧
    ((telling [(0x300010, 4)] queue).ringRead (queue.ring + 16) 8 = some 4 ∧ 2 ^ queue.logn ≤ (BitVec.ofNat 64 4 - queue.head).toNat) ∧
    ((telling [] { queue with qon := false }).region 0x100000).any (fun r => !(r.qen && r.qon)) = true ∧
    (entry1 (goto (.commandStart 1 1) (telling [] queue)) fun _ e => e.once && e.eng != 0) = true := by decide +kernel

/-- An object of 4 KiB of context 0 in tier 0, with a wish to move to tier 1, and Ephemeris on with an area of 1 GiB. -/
def owned (tier : Nat) (move : Option Nat) : State :=
  { (base.updCtx 0 fun c => { c with wake := 500, root := 0 }) with
    mtime := 500
    objs := [⟨objWindow, 4096, 0x200000, 0, tier, 1, false, move, some 400, 0x40000000⟩]
    eph := { base.eph with en := true, ocbase := 0x4000, oclim := 0x7FFF } }

theorem witness_objects :
    (let s := owned 0 none;
      s.eph.en = true ∧ (s.ctx 0).state ≠ .free ∧ s.wakeTime 0 ≠ 0 ∧ (s.ctx 0).wokeFor.toNat ≠ s.wakeTime 0 ∧
        s.wakeTime 0 ≤ s.mtime.toNat + s.effAt (s.ctx 0).region 9 Region.lead * 16000 ∧ (s.objs.find? fun x => x.addr = objWindow).isSome = true) ∧
    (base.eph.en = false ∨ base.wakeTime 0 = 0) ∧
    (let s : State := { owned 0 (some 1) with ctxs := [] };
      let x := s.objs.headD ⟨0, 0, 0, 0, 0, 0, false, none, none, 0⟩;
      s.objs.find? (fun y => y.addr = objWindow) = some x ∧ x.moveTo = some 1 ∧ (s.objs.all fun y => decide (x.addr ≤ y.addr)) = true ∧
        s.eph.en = true ∧ s.backingGone x = false ∧ s.pinMapped x = false ∧ x.tier = 0 ∧ s.fits x = true ∧ s.mem.wf = true) ∧
    (let s : State := { owned 1 (some 2) with ctxs := [] };
      let x := s.objs.headD ⟨0, 0, 0, 0, 0, 0, false, none, none, 0⟩;
      s.eph.en = true ∧ s.pinMapped x = false ∧ x.tier ≠ 0) ∧
    (let s : State := { owned 0 (some 1) with ctxs := [], extents := [⟨0x200000, 4096, false⟩] };
      let x := s.objs.headD ⟨0, 0, 0, 0, 0, 0, false, none, none, 0⟩;
      x.tier = 0 ∧ s.backingGone x = true) ∧
    (let s := owned 0 (some 1);
      let t : State := { s with objs := s.objs ++ [PObj.mk (objWindow + 4096) 4096 0x201000 0 0 0 false (some 1) none 0] };
      (t.objs.find? fun y => y.addr = objWindow + 4096).isSome = true ∧ (t.objs.any fun y => y.ctx = 0 && decide (y.addr < objWindow + 4096) && y.moveTo.isSome) = true) ∧
    (let s := base.updCtx 0 fun c => { c with cur := none, state := .ready, silent := false, wback := none, silFrom := 0 };
      let c := s.ctx 0;
      c.state ≠ .free ∧ c.cur = none ∧ c.silent = false ∧ c.wback = none ∧ c.silFrom.toNat + s.effAt c.region 10 Region.silence * 16000 ≤ s.mtime.toNat ∧
        c.almen = false ∧ ((s.updCtx 0 fun c => { c with almen := true }).ctx 0).almen = true) ∧
    (owned 0 none).queuesOf 0 = [] ∧
    (let s := base.updCtx 0 fun c => { c with wback := some 0 };
      (s.ctx 0).wback = some 0 ∧ (s.ctx 0).state ≠ .free) ∧
    (let s := { base with hbm := { base.hbm with scren := true } };
      s.hbm.scren = true ∧ 0x7FFFFFFFE0 < hbmEnd ∧ ([0x7FFFFFFFE0 / 32].filter fun n => !tget false s.hbm.scrubbed n) ≠ [] ∧
        ([3].filter fun n => !tget false ({ s with hbm := { s.hbm with scrubbed := [(3, true)] } } : State).hbm.scrubbed n) = [] ∧ s.fencedAt 0x7FFFFFFFE0 = false ∧ s.ganged 0x7FFFFFFFE0 = false ∧
        ({ s with hbmgang := 1, hbm := { s.hbm with hgbase := List.replicate 16 0, hglim := List.replicate 16 0x7FFFFF } } : State).ganged 0x7FFFFFFFE0 = true) := by
  decide +kernel

/-! The machine as a whole. -/

/-- The S register 2 of the small machine is in flight, with STALLCHK on. -/
def hasty : State := with_ fun m => { m with stallchk := true, pend := [⟨.s 2, allLanes, 7, 5, false, 0⟩] }

/-- An ADD under a false guard, an engine command under one, and an ADD and a HALT that read an operand in flight. -/
theorem witness_suppressed :
    (let h : Hdr := ⟨0, 0, 0, 0, 0⟩;
      let m := base.me.settle;
      (Instr.add h 1 2 3).hdr = some h ∧ m.early (hdrReads h) = false ∧ command (.add h 1 2 3) = none ∧ m.guard h = false ∧
        command (.waitk h ⟨0, 0, 0, 0, 0⟩ 5) = some (h, ⟨0, 0, 0, 0, 0⟩, []) ∧ (m.jhead - m.jdone).toNat < 256) ∧
    (let m := hasty.me.settle;
      (Instr.add on 1 2 3).hdr = some on ∧ m.guard on = true ∧ m.early [.s 2, .s 3] = true) ∧
    (let m := (hasty.setMe { hasty.me with pend := [⟨.q 3, allLanes, 1, 5, false, 0⟩] }).me.settle;
      (Instr.halt ⟨0, 3, 3, 3, 0⟩).hdr = some ⟨0, 3, 3, 3, 0⟩ ∧ m.early (hdrReads ⟨0, 3, 3, 3, 0⟩) = true) := by decide +kernel

/-- A step in each of its cases: the package stopped, an event, time, and a strand whose next word is HALT. -/
theorem witness_steps :
    (let s := { base with fatal := true, agenda := [.event .reset] };
      s.fatal = true ∧ s.agenda = .event .reset :: []) ∧
    (base.fatal = false ∧ isEvent .reset = true) ∧
    (let s := { with_ (fun m => { m with halted := true }) with agenda := [] };
      s.fatal = false ∧ s.eligible s.me = false) ∧
    (let s := { State.reset.placeWord (encode (.halt on)) with agenda := [] };
      let m := s.me;
      let s1 := s.select m.tile m.slot;
      m.id = 1 ∧ s.eligible m = true ∧ s.selected m.tile = some m ∧ m.stopReq = false ∧ m.xfer.valid = false ∧ m.pc.toNat < 2 ^ 23 ∧
        m.pc.toNat % 8 < 5 ∧
        (match s1.devRead (s1.ctx m.ctx) .x ((s1.codeBase m + 64 * (m.pc.toNat / 8)) % 2 ^ 64) 64 with
          | .ok bs => let k := BitVec.ofNat 32 (natOf bs);
            seqLinkOk k && decide (0 < linkNslot k) && (decode (s1.version m) 0 (BitVec.ofNat 96 (natOf bs / 2 ^ 32))).isOk
          | .error _ => false) = true) ∧
    (let s := State.reset.placeWord (encode .xend);
      s.agenda = .xs 0 :: [] ∧ (match tget none s.xs 0 with
        | some r => r.waiting.isNone && (r.imem.find? (fun (p : Nat × Line) => p.1 = r.pc.toNat / 8)).any (fun (p : Nat × Line) =>
          decide (r.pc.toNat % 8 < linkNslot (lineLink p.2)) &&
            (decode (s.version s.me) 1 (((p.2 : Line) >>> (32 + 96 * (r.pc.toNat % 8))).setWidth 96)).isOk)
        | none => false) = true ∧ s.me.id = 1 ∧ s.ended s.me.ctx = false) := by decide +kernel

/-- Two strands of two tiles whose next words read absent pages; the one in focus has the higher index and page. -/
def twoTiles : State :=
  let t := State.reset.placeWord (encode (.ld on 3 1 0 .i64 .plain .st));
  { t with me := sregs [(1, 0x40001000)] { t.me with index := 1 }, others := [sregs [(1, 0x40000000)] { t.me with id := 2, tile := 1 }], agenda := [] }

/-- A strand before its last HALT, and the handle of its context in page 0. -/
def lastHalt : State := { asks [handle0] (State.reset.placeWord (encode (.halt on))) with agenda := [] }

/-- R312: the two entries are allocated in page order, and both strands wait. R35: DESTROY comes before the end of the launch. -/
theorem test_joint_faults : (match step { twoTiles with agenda := [.issue 1, .issue 2] } with
      | .next (t : State) => (t.faults.map fun f => (f.page, f.strand)) == [(0x40000, 0), (0x40001, 1)] && t.strands.all fun m => m.wait == .fault
      | _ => false) = true ∧
    lastHalt.turn (.issue 1) [.event (.destroy 0)] = (.event (.destroy 0), [], [.issue 1]) := by decide +kernel

/-- The classes of DESTROY and of a last HALT, and what two actions raise together. -/
theorem witness_cycles : (classOf lastHalt (.event (.destroy 0)) 0 = 0 ∧ classOf lastHalt (.issue 1) 0 = 1 ∧
      0 ∈ lastHalt.liveCtxs ∧ (Action.issue 1).isTime = false) ∧
    twoTiles.turn (.issue 1) [.issue 2] = (.issue 1, [.issue 2], []) ∧ twoTiles.raises (.issue 1) ≠ [] := by decide +kernel

/-- Fetches that meet an absent page, a page without X, and a line whose link word is 0; two events of one cycle out of order. -/
theorem witness_fetches :
    (let s := base.updCtx 0 fun c => { c with root := 0 };
      let s1 := s.select 0 0;
      s.eligible s.me = true ∧ (match s1.devRead (s1.ctx 0) .x ((s1.codeBase s.me + 64) % 2 ^ 64) 64 with
        | .error (c, _) => c == .pageAbsent | .ok _ => false) = true) ∧
    (let s : State := { base with mem := base.mem.write 0x3000 (bytesOf 8 0x80000000000007) };
      let s1 := s.select 0 0;
      (match s1.devRead (s1.ctx 0) .x ((s1.codeBase s.me + 64) % 2 ^ 64) 64 with
        | .error (c, _) => c == .prot | .ok _ => false) = true) ∧
    seqLinkOk 0 = false ∧ (let s : State := { base with agenda := [] }; s.turn (.issue 1) [] = (.issue 1, [], [])) ∧
    (let s : State := { asks [handle0] (with_ fun m => { m with wait := .csw, wkind := 1 }) with agenda := [] };
      s.turn (.event (.timedWaitExpiry 1)) [.event (.kill 0)] = (.event (.kill 0), [], [.event (.timedWaitExpiry 1)])) ∧
    (({ base with fatal := true, agenda := [.issue 1] } : State).agenda = [.issue 1] ∧ (Action.issue 1) ≠ .event .reset) := by decide +kernel

/-- Tables: a table entry, a leaf that grants and one that does not, an entry that is absent, malformed, revoked, fenced, or poisoned. -/
theorem witness_tables :
    let leaf : W64 := 0x8000000000001F
    (leaf.getLsbD 0 = true ∧ leaf.getLsbD 1 = true ∧ Granted .w leaf ∧ ¬ Granted .x (leaf - 0x10) ∧ (0x2001 : W64).getLsbD 1 = false ∧
      (0 : W64).getLsbD 0 = false) ∧
    Malformed base leaf 4 ∧ (natOf ((List.range 8).map fun i => base.mem.byte (base.place (0x1000 + i))) = 0x2001 ∧ (0x1000 : Nat) < 2 ^ 51 ∧
      base.revokedAt 0x1000 = false ∧ base.fencedAt 0x1000 = false ∧ ∀ i < 8, base.badPlace (base.place (0x1000 + i)) = false) ∧
    ({ base with extents := [⟨0x1000, 4096, false⟩] } : State).revokedAt 0x1000 = true ∧ (base.fence 2 (hbmChannel 0x1000)).fencedAt 0x1000 = true ∧
    ({ base with poison := [(0x1000 / 32, true)] } : State).badPlace (base.place 0x1000) = true := by
  refine ⟨by simp only [Granted]; decide +kernel, .inl (by decide +kernel), ?_⟩
  decide +kernel

theorem witness_not_malformed : ¬ Malformed base 0x2001 5 ∧ ¬ Malformed base 0x8000000000001F 3 := by
  simp only [Malformed]; decide +kernel

/-- LD of a doubleword of an absent page: its record can be written, and its fault has an entry. -/
def absentAt : State := with_ (sregs [(1, 0x40000FF8)])
def absentRec : TrapRec := (settled absentAt).mkRec absentAt.me.settle .pageAbsent { pc := absentAt.me.settle.pc, lmask := BitVec.allOnes 64, addr := 0x40000FF8 }

/-- Two objects side by side, one with a copy. -/
def neighbours : List PObj := [⟨objWindow, 4096, 0x200000, 0, 0, 0, false, none, none, 0⟩, ⟨objWindow + 4096, 65536, 0x300000, 0, 1, 0, false, none, none, 0⟩]

theorem witness_objects_apart : neighbours.Pairwise (fun x y => x.addr + x.size ≤ y.addr ∨ y.addr + y.size ≤ x.addr) ∧
    (∀ o ∈ neighbours, 2 ^ 51 ≤ o.addr ∧ 4095 < o.size) ∧ ∀ o ∈ neighbours, o.addr + o.size ≤ objWindow + 69632 := by decide

/-- Atomics and TIDSET of an absent page: what its checks meet. -/
theorem witness_parks_more : Runs absentAt on [.s 1, .s 2] ∧ Runs absentAt on [.s 5, .s 1, .s 2, .s 3, .s 4] ∧
    (settled absentAt).checkAll (ctxOf absentAt) .rw [⟨none, 0x40000FF8, 8, 8⟩] = .absent [(none, ⟨0x40000FF8, 8⟩)] ∧
    (let s := absentAt.updCtx 0 fun c => { c with tidbase := 0x40000000 };
      (settled s).checkAll (ctxOf s) .w [⟨none, 0x40000000 + 32 * 255, 32, 1⟩] = .absent [(none, ⟨0x40001FE0, 32⟩)]) := by
  simp only [Runs, NotEarly]; decide +kernel

theorem witness_parks :
    Runs absentAt on [.s 1, .s 2] ∧ (settled absentAt).slogOf absentAt.me.settle.id = [] ∧ absentAt.ended absentAt.me.settle.ctx = false ∧
    (settled absentAt).checkAll (ctxOf absentAt) .r [⟨none, 0x40000FF8, 8, 1⟩] = .absent [(none, ⟨0x40000FF8, 8⟩)] ∧
    (((settled absentAt).writeTrapRec { absentAt.me.settle with trap := absentRec }).any fun (u : State) =>
      ((u.updStrand 1 fun w => { w with trap := absentRec }).faultPages 0 1 absentAt.me.settle.index absentAt.me.settle.pc true
        (absentPages [0x40000FF8])).any fun r => r.2) = true := by
  simp only [Runs, NotEarly]; decide +kernel

/-! Side log, commands, resets, variants, images, records and logs. -/

/-- A store at the end of an absent page, one to the page of an entry of its strand, a full log, an SO page beside an entry. -/
def soPage : State := { (stored [(0x6000, 0x7001), (0x7000, 0x8001), (0x8000, 0x9001), (0x9000, 0xA001), (0xA000, 0xB001), (0xB008, 0x402F)]
  (with_ (sregs [(1, 0x1000)]))).updCtx 0 (fun c => { c with root := 6 }) with slog := logged.slog }
def lateFor (s : State) (q : Part) : Bool :=
  (match (settled s).checkPart (ctxOf s) .w q with | .error (.pageAbsent, _) => true | _ => false) ||
    s.slog.any fun e => e.sid == s.me.settle.id && e.page == pageOf q.va
def noEnd : AccRes → Bool
  | .ends .. => false
  | _ => true
def stAt (a : W64) : State := { with_ (sregs [(1, a)]) with slog := logged.slog }
theorem witness_side_log :
    (Runs (stAt 0x4000) on [.s 1, .s 2] ∧ (stAt 0x4000).slog.any (fun e => e.sid = (stAt 0x4000).me.settle.id) = true ∧
      noEnd ((settled (stAt 0x4000)).checkAll (ctxOf (stAt 0x4000)) .w [⟨none, 0x4000, 8, 1⟩]) = true ∧ lateFor (stAt 0x4000) ⟨0x4000, 8⟩ = false) ∧
    (let s := stAt 0x40000FF8;
      Runs s on [.s 1] ∧ noEnd ((settled s).checkAll (ctxOf s) .w [⟨none, 0x40000FF8, 8, 1⟩]) = true ∧ lateFor s ⟨0x40000FF8, 8⟩ = true ∧
        0x40000 ∈ ([⟨none, 0x40000FF8, 8, 1⟩] : List Access).flatMap (fun y => (partsOf y.ea y.n).map fun p => pageOf p.va) ∧
        (settled s).tileLog 0 + 1 ≤ Config.slogEntries) ∧
    (let s : State := { stAt 0x40000FF8 with slog := List.replicate 64 ⟨2, 0, 1, 0, 0x40000, 0, []⟩ };
      Runs s on [.s 1, .s 2] ∧ lateFor s ⟨0x40000FF8, 8⟩ = true ∧ Config.slogEntries < (settled s).tileLog s.me.settle.tile + 1) ∧
    (Runs soPage on [.s 1] ∧ noEnd ((settled soPage).checkAll (ctxOf soPage) .r [⟨none, 0x1000, 8, 1⟩]) = true ∧
      (((settled soPage).leaves (ctxOf soPage) .r [⟨none, 0x1000, 8, 1⟩]).any fun e => pteOrd e = 1) = true ∧
      (soPage.slog.any fun e => (settled soPage).slogHoldsSo e) = true) := by
  simp only [Runs, NotEarly]; decide +kernel

/-- An object with a copy, its backing there and taken back; LC-CHANGE refused, and a device with a context and with none. -/
def copied : State := owned 1 none
def copiedObj : PObj := ⟨objWindow, 4096, 0x200000, 0, 1, 1, false, none, some 400, 0x40000000⟩
theorem witness_device_commands :
    (copied.current (handle0.setWidth 32) = true ∧ copied.objs.find? (fun x => x.ctx = 0 && x.addr = objWindow) = some copiedObj ∧
      copied.mem.wf = true ∧ 0x200000 + 4096 ≤ objWindow ∧ copied.backingGone copiedObj = false ∧ copied.hostRejects = [] ∧ copied.plat.cxlMem = true) ∧
    ({ copied with extents := [⟨0x200000, 4096, false⟩] } : State).backingGone copiedObj = true ∧
    (base.lcAccept 0 (2 ^ 52) 0).isNone = true ∧ base.liveCtxs ≠ [] ∧ ({ base with ctxs := [] } : State).liveCtxs = [] := by decide +kernel

/-- Tile 5 holds nothing, and the strand runs on tile 0; the second UALink port is still there when the first is fenced. -/
theorem witness_failures : (base.usesTile 0 5 = false ∧ base.usesTile 0 0 = true ∧ base.effAt (base.ctx 0).region 7 Region.fdom ≠ 1) ∧
    (base.strands.map fun m => m.id).Nodup ∧ base.hostRejects = [] ∧ base.plat.cxlMem = true ∧ (base.fence 3 0).plat.ualen ≠ 0 := by decide +kernel

/-- Two variants of two groups; the two strands of one launch, one of which has halted. -/
theorem witness_variants : ([1, 2] : List Nat).length ≠ 0 ∧ 1 < ([[1, 2], [2, 1]] : List (List Nat)).length ∧
    ((List.range 2).all fun v => decide (2 ≤ (([[1, 2], [2, 1]] : List (List Nat)).getD v []).length)) = true ∧
    ((List.range 2).all fun g => decide ((([[1, 2], [2, 1]] : List (List Nat)).getD 1 []).getD g 0 ≠ 0)) = true ∧
    pickVariant [1, 2] [[1, 2], [2, 1]] 1 = 1 ∧ pickVariant [2, 1] [[1, 1], [1, 1]] 1 = 0 ∧ (twoStrands.ctx 0).cur.isSome = true ∧
    (twoStrands.strands.map fun m => m.id).Nodup ∧ (twoStrands.ctxStrands 0).any (fun m => m.halted = false && m.wait != .phase) = true ∧
    ((twoStrands.setMe { twoStrands.me with wait := .phase }).ctxStrands 0).any (fun m => m.wait == .phase) = true := by decide +kernel

/-- The queue of the launch: one that has waited since time 0 and one whose candidate to restore has. -/
theorem witness_age : (let s := ({ base with regions := [{ queue with waitFrom := some 0 }], mtime := 100 } : State).updLaunch 0 fun l => { l with qid := 5 };
      Runs s on [] ∧ (s.ctx 0).cur.map (fun l => s.regions.filter fun r => r.qen && r.qid = l.qid) = some [{ queue with waitFrom := some 0 }] ∧
        s.effAt queue.addr 5 Region.prio < 8) ∧
    ({ queue with waitFrom := none, restFrom := some 3 } : Region).restFrom.isSome = true := by
  simp only [Runs, NotEarly]; decide +kernel

/-- A launch without OPEN entries, one with a slice, and one whose record cannot be written; a strand that has nothing in flight. -/
theorem witness_completion_records : base.openOf 0 = [] ∧ slice2.openOf 0 = [] ∧ (slice2.ctx 0).cur.any (fun l => decide (1 < l.rec_.npkg)) = true ∧
    (writesAll ((base.updCtx 0 fun c => { c with root := 0 }).ctx 0) 0x1000 (base.updCtx 0 fun c => { c with root := 0 }) [(0, [1])]).2.isSome = true ∧
    (writesAll (base.ctx 0) 0x1000 base [(0, [1])]).2.isNone = true := by decide +kernel

theorem witness_images_hold : (LevelInRange false base.me.l0 ∧ LevelInRange true base.me.l1) ∧ (base.slogOf base.me.id).length ≤ 64 ∧
    base.me.journal = [] ∧ base.me.jdone = base.me.jhead ∧ base.me.pend = [] ∧ (∀ n : CReg, base.me.cRegs[n].stat = .empty) ∧
    base.handle base.me.ctx = handle0.setWidth 32 ∧ LevelInRange false ⟨3, 1, 2, 8, true, true, 0⟩ := by
  simp only [LevelInRange]; decide +kernel

/-- An object of Almanac that a PIN leaf maps, without a copy: its move to tier 1 is not barred (R333, R350). -/
theorem witness_pinned :
    let s : State := { ({ objPage with mem := objPage.mem.write 0xB008 (bytes64 (BitVec.ofNat 64 (objWindow + 0xD000000000000F))) } : State).updCtx 0
      (fun c => { c with almen := true, almsz := 65536 }) with objs := [⟨objWindow, 4096, 0x200000, 0, 0, 1, true, some 2, none, 0⟩] };
    s.objs.all (fun x => s.pinMapped x && s.fits x && !s.backingGone x && x.alm) = true ∧ (s.ctx 0).silent = false ∧ s.eph.en = true := by
  decide +kernel

/-- A row that the log holds, one that it does not, and a full table; a threshold of 2 met and not met. -/
def rowsOf (n : Nat) : State :=
  { base with hbm := { base.hbm with rows := (List.range n).map fun i => (i, ⟨true, 0, 0, 1, BitVec.ofNat 18 i, 1, 0⟩), cethr := 2, cecnt := [(0, 1)] } }
theorem witness_rows : ((tget RowEnt.blank (rowsOf 3).hbm.rows 2).valid = true ∧ (tget RowEnt.blank (rowsOf 3).hbm.rows 2).row = 2) ∧
    (tget RowEnt.blank (rowsOf 3).hbm.rows 3).valid = false ∧
    ((List.range 64).all fun j => (tget RowEnt.blank (rowsOf 64).hbm.rows j).valid) = true ∧ (rowsOf 3).hbm.cethr = 2 ∧
    (tget 0 (rowsOf 3).hbm.cecnt 0).toNat = 1 ∧ (tget 0 (rowsOf 3).hbm.cecnt 1).toNat = 0 := by decide +kernel

/-- A first fault of a page, one that joins it, and one that makes its entry waited for; no room; a ring of the host. -/
def faulted (waits : Bool) : State := match base.faultPage 0 0x40000000 1 0 0 waits with | .ok u => u | _ => base
theorem witness_fault_records :
    (base.ctx 0).cur.isSome = true ∧ (faulted false).faults.map (fun f => (f.page, f.idx, f.slot, f.waited)) = [(0x40000, 0, 0, false)] ∧
    (faulted true).faults.map (fun f => f.waited) = [true] ∧
    (match (faulted false).faultPage 0 0x40000008 1 0 0 true with | .ok u => u.faults.map (fun f => f.waited) == [true] | _ => false) = true ∧
    (let s : State := { base with faults := List.replicate 4096 ⟨1, 0, 0, 0, 0, 0, 0, 0, 0, 0, false, 0⟩ };
      4096 ≤ s.faults.length) ∧
    base.faultQs[(0 : Fin 4)].held = [] ∧ base.events.held = [] ∧
    (let q : EvQueue := { base.events with qlog := 2, qbase := 0x100000 };
      q.qlog ≠ 0 ∧ q.qtail.toNat - q.qhead.toNat < 2 ^ q.qlog.toNat) ∧ absentPages [0x2FFF, 0x1000, 0x2000] = [0x1000, 0x2FFF] := by decide +kernel

/-- An entry on another page holds back nothing. -/
def noOwn (s : State) (k : Acc) (l : List Access) : Bool :=
  let own := (settled s).slogOf s.me.settle.id
  own.all (fun e => l.all fun x => (partsOf x.ea x.n).all fun p => e.page != pageOf p.va) &&
    (!(own.any fun e => (settled s).slogHoldsSo e) || ((settled s).leaves (ctxOf s) k l).all fun e => pteOrd e != 1)
theorem noOwn_holds {s : State} {k : Acc} {l : List Access} (h : noOwn s k l = true) : NoOwn s k l := by
  simp [noOwn] at h
  exact ⟨h.1, fun ⟨e, he, hs⟩ => h.2.resolve_left fun n => by simp [n e he] at hs⟩
theorem witness_nothing_of_its_own : NoOwn absentAt .r [⟨none, 0x40000FF8, 8, 1⟩] ∧ Released absentAt .rel ∧
    Ready (stAt 0x4000) .r [⟨none, 0x4000, 8, 1⟩] :=
  ⟨noOwn_holds (by decide +kernel), fun _ => by decide +kernel, by decide +kernel, noOwn_holds (by decide +kernel)⟩

theorem witness_encoded : isEvent (.add on 1 2 3) = false ∧ (Instr.add on 1 2 3).wf = true ∧
    ((fld (encode (.add on 1 2 3)) 66 3).toNat ≠ 6 ∨ (fld (encode (.add on 1 2 3)) 60 6).toNat ∉ v3Cells) ∧
    (Instr.add on 1 2 3).usesChain = false ∧ fld (encode (.add on 1 2 3)) 72 1 = 0 := by decide +kernel

/-- Retirement with no loop open, and at the end of a body of one word. -/
theorem witness_retirement : (∃ x, (base.me.clock 15).advance = .to x) ∧
    ∃ x, (({ base.me with l0 := { base.me.l0 with act := true, st := 3, count := 5, len := 1, pos := 1, start := 8 } } : Strand).clock 0).advance = .to x :=
  ⟨⟨_, rfl⟩, ⟨_, rfl⟩⟩

theorem witness_canonical : Canonical base ∧ (match step { base with agenda := [] } with | .next _ => true | _ => false) = true := by
  simp only [Canonical]
  decide +kernel

end Sys2Proof.Tests
end

section
/-!
The settled obligations of the scope: the worked words of the spec (O55), and that every step keeps every memory in canonical
form (O57). For O57 there is a lemma for each operation of the model that answers a state, in the order of the model's
definitions, then one for every instruction and event, and at the end the step.
-/

namespace Sys2Proof.Proofs

/-- The reason for which a word is refused. -/
def refusal {α : Type} : Except Reject α → Option Reject
  | .ok _ => none
  | .error r => some r

theorem eq_ok_of_toOption {ε α : Type} {x : Except ε α} {a : α} (h : x.toOption = some a) : x = .ok a := by
  cases x with
  | error e => cases h
  | ok b => exact congrArg _ (Option.some.inj h)

theorem eq_error_of_refusal {α : Type} {x : Except Reject α} {r : Reject} (h : refusal x = some r) : x = .error r := by
  cases x with
  | error e => exact congrArg _ (Option.some.inj h)
  | ok b => cases h

/-- Settles O55: the decoder evaluates each of the spec's worked words to its statement, and refuses the others. -/
theorem workedWordsDecode : Obligations.WorkedWordsDecode := by
  unfold Obligations.WorkedWordsDecode
  intro hd on
  and_intros
  iterate 13
    · exact eq_ok_of_toOption (by decide +kernel)
  iterate 4
    · exact eq_error_of_refusal (by decide +kernel)

end Sys2Proof.Proofs
end

section
namespace Sys2Proof.Proofs

open Sys2Proof.Machine Sys2Proof.Claims Sys2Proof.Laws

variable {s t : State}

/-! ### What keeping means -/

/-- Whatever state a body of a word hands on is canonical. -/
def CanonicalEff : Eff → Prop
  | .ok t => Canonical t
  | .stay t => Canonical t
  | .goto t _ => Canonical t
  | .trap t .. => Canonical t
  | .absent t .. => Canonical t

/-- The state of an outcome, if it has one, is canonical. -/
def CanonicalOut (o : Out) : Prop := ∀ t, o = .next t → Canonical t

theorem canonicalOut_next (h : Canonical s) : CanonicalOut (.next s) := fun _ e => by
  cases e
  exact h

theorem canonical_ite {c : Prop} {_ : Decidable c} (hs : Canonical s) (ht : Canonical t) : Canonical (if c then s else t) := by
  split
  · exact hs
  · exact ht

theorem canonicalEff_ite {c : Prop} {_ : Decidable c} {e f : Eff} (he : CanonicalEff e) (hf : CanonicalEff f) :
    CanonicalEff (if c then e else f) := by
  split
  · exact he
  · exact hf

theorem canonical_foldl {β : Type} {f : State → β → State} (h : Canonical s) (l : List β)
    (hf : ∀ t b, Canonical t → Canonical (f t b)) : Canonical (l.foldl f s) := by
  induction l generalizing s with
  | nil => exact h
  | cons b l ih => exact ih (hf s b h)

theorem canonical_foldl_fst {β γ : Type} {f : State × γ → β → State × γ} {x : State × γ} (h : Canonical x.1) (l : List β)
    (hf : ∀ y b, Canonical y.1 → Canonical (f y b).1) : Canonical (l.foldl f x).1 := by
  induction l generalizing x with
  | nil => exact h
  | cons b l ih => exact ih (hf x b h)

theorem canonical_getD {o : Option State} (h : Canonical s) (ho : ∀ t, o = some t → Canonical t) : Canonical (o.getD s) := by
  cases o with
  | none => exact h
  | some t => exact ho t rfl

/-! ### Updates of other fields -/

theorem canonical_setMe (h : Canonical s) {m : Strand} : Canonical (s.setMe m) := h
theorem canonical_mapStrands (h : Canonical s) {f : Strand → Strand} : Canonical (s.mapStrands f) := h
theorem canonical_updStrand (h : Canonical s) {k : Nat} {f : Strand → Strand} : Canonical (s.updStrand k f) := h
theorem canonical_setCtx (h : Canonical s) {k : Nat} {c : Ctx} : Canonical (s.setCtx k c) := h
theorem canonical_updCtx (h : Canonical s) {k : Nat} {f : Ctx → Ctx} : Canonical (s.updCtx k f) := h
theorem canonical_updLaunch (h : Canonical s) {k : Nat} {f : Launch → Launch} : Canonical (s.updLaunch k f) := h
theorem canonical_updRegion (h : Canonical s) {k : Nat} {f : Region → Region} : Canonical (s.updRegion k f) := h
theorem canonical_setPage (h : Canonical s) {pg : Fin 16} {p : CmdPage} : Canonical (s.setPage pg p) := h
theorem canonical_setXrun (h : Canonical s) {m : Strand} {r : XRunning} : Canonical (s.setXrun m r) := h
theorem canonical_setBarrier (h : Canonical s) {m : Strand} {n : Fin 32} {sc : Scope} {b : Barrier} :
    Canonical (s.setBarrier m n sc b) := h
theorem canonical_setEntry (h : Canonical s) {sid : Nat} {e : JEntry} : Canonical (s.setEntry sid e) := h
theorem canonical_requestSave (h : Canonical s) {k : Nat} {w : Why} : Canonical (s.requestSave k w) := h
theorem canonical_updObj (h : Canonical s) {a : Nat} {f : PObj → PObj} : Canonical (s.updObj a f) := h

theorem canonical_setAsgens (h : Canonical s) {l : Tbl (BitVec 48)} : Canonical { s with asgens := l } := h
theorem canonical_setHeld (h : Canonical s) {l : List HeldWrite} : Canonical { s with hostHeld := l } := h
theorem canonical_setLog (h : Canonical s) {l : List Meas} {b : List Byte} : Canonical { s with measLog := l, logHash := b } := h

theorem canonical_focus (h : Canonical s) {sid : Nat} : Canonical (s.focus sid) := by
  simp only [State.focus]
  split
  · exact h
  · split <;> exact h

/-! ### Traps and the end of a launch (spec/12) -/

theorem canonical_endLaunch (h : Canonical s) {k : Nat} {e : Ending} : Canonical (s.endLaunch k e) := by
  simp only [State.endLaunch]
  split
  · exact h
  · split
    · split
      · exact h
      · exact canonical_foldl (canonical_updLaunch h) _ fun _ _ h1 => canonical_updLaunch h1
    · exact h

theorem canonical_writeTrapRec (h : Canonical s) {m : Strand} (e : s.writeTrapRec m = some t) : Canonical t :=
  canonical_saveWrite h e

theorem canonical_endTrap (h : Canonical s) {m : Strand} {c : Cause} {i : TrapInfo} : Canonical (s.endTrap m c i) := by
  simp only [State.endTrap]
  split
  · exact h
  · refine canonical_endLaunch (canonical_getD ?_ fun _ e => canonical_writeTrapRec ?_ e) <;> exact h

theorem canonical_recordThen (h : Canonical s) {m : Strand} {c : Cause} {i : TrapInfo} {k : State → State}
    (hk : ∀ t, Canonical t → Canonical (k t)) : Canonical (s.recordThen m c i k) := by
  simp only [State.recordThen]
  split
  · exact hk _ (canonical_updStrand (canonical_writeTrapRec h ‹_›))
  · exact canonical_endTrap h

/-! ### Fault records (spec/12, R312 to R315) -/

theorem canonical_writeFHeader (h : Canonical s) {k : Nat} (e : s.writeFHeader k = some t) : Canonical t := by
  simp only [State.writeFHeader] at e
  split at e
  · cases e
    exact canonical_devWrite h ‹_›
  · cases e

theorem canonical_writeFEntry (h : Canonical s) {f : FaultEntry} {st : Nat} (e : s.writeFEntry f st = some t) : Canonical t := by
  simp only [State.writeFEntry] at e
  split at e
  · cases e
    exact canonical_devWrite h ‹_›
  · cases e

theorem canonical_faultPage (h : Canonical s) {k a kind strand : Nat} {pc : W32} {waits : Bool}
    (e : s.faultPage k a kind strand pc waits = .ok t) : Canonical t := by
  simp only [State.faultPage] at e
  split at e
  · split at e
    · cases e
      exact h
    · split at e
      · cases e
        refine canonical_writeFHeader ?_ ‹_›
        exact h
      · cases e
  · split at e
    · cases e
    · split at e
      · cases e
      · rename_i s2 e2
        split at e
        · cases e
        · rename_i s3 e3
          cases e
          refine canonical_pushFault (canonical_writeFHeader (canonical_writeFEntry ?_ e2) e3) _ _
          exact h

theorem canonical_faultPages (h : Canonical s) {k kind strand : Nat} {pc : W32} {waits : Bool} {l : List Nat} {b : Bool}
    (e : s.faultPages k kind strand pc waits l = some (t, b)) : Canonical t := by
  induction l generalizing s b with
  | nil =>
    cases e
    exact h
  | cons a l ih =>
    rw [State.faultPages] at e
    split at e
    · cases e
    · obtain ⟨⟨u, c⟩, hq, hr⟩ := Option.map_eq_some_iff.1 e
      cases hr
      exact ih h hq
    · exact ih (canonical_faultPage h ‹_›) e

/-! ### Waits (spec/01, R30 to R35) -/

theorem canonical_reconsider (h : Canonical s) {k : Nat} : Canonical (s.reconsider k) := by
  simp only [State.reconsider]
  split
  · exact h
  · exact h
  · split <;> exact h
  · exact h
  · exact h

theorem canonical_refresh (h : Canonical s) : Canonical s.refresh := by
  simp only [State.refresh]
  exact canonical_foldl (canonical_mapStrands (canonical_mapStrands h)) _ fun _ _ h1 => canonical_reconsider h1

theorem canonical_waitFor (h : Canonical s) {m : Strand} {w : Wait} : Canonical (s.waitFor m w) := by
  rw [State.waitFor]
  exact canonical_reconsider (canonical_updStrand h)

theorem canonical_park (h : Canonical s) {m : Strand} {kind : Nat} {l : List Nat} {i : TrapInfo} :
    Canonical (s.park m kind l i) := by
  simp only [State.park]
  split
  · exact h
  · refine canonical_recordThen h fun s1 h1 => ?_
    split
    · exact canonical_endTrap h1
    · exact canonical_waitFor (canonical_faultPages h1 ‹_›)
    · exact canonical_waitFor (canonical_faultPages h1 ‹_›)

theorem canonical_debugStop (h : Canonical s) {m : Strand} {c : Cause} {pc drpc : W32} {w : Bool} :
    Canonical (s.debugStop m c pc drpc w) := by
  simp only [State.debugStop]
  split
  · exact h
  · exact canonical_recordThen (canonical_updStrand h) fun _ h1 => canonical_reconsider h1

/-! ### Fetch, retirement and what a word does -/

theorem canonical_touchVa (h : Canonical s) {c : Ctx} {k : Acc} {va n : Nat} : Canonical (s.touchVa c k va n) :=
  canonical_touchAll h _ _ _

theorem canonical_touchLine (h : Canonical s) {m : Strand} {n : Nat} : Canonical (s.touchLine m n) := canonical_touchVa h

theorem canonical_seqTouch (h : Canonical s) {m : Strand} {n : Nat} {pc k : W32} : Canonical (s.seqTouch m n pc k) := by
  induction n generalizing s pc k with
  | zero => exact h
  | succ n ih =>
    rw [State.seqTouch]
    split
    · exact h
    · split
      · exact ih h
      · split
        · exact h
        · exact ih (canonical_touchLine h)

theorem canonical_land (h : Canonical s) {pc : W32} {w stp : Bool} {a : Adv} {chn : Option CReg} :
    Canonical (s.land pc w stp a chn) := by
  simp only [State.land]
  split
  · exact canonical_endTrap (canonical_setMe h)
  · split
    · exact canonical_debugStop (canonical_setMe h)
    · exact h

theorem canonical_retire (h : Canonical s) {n : Fin 16} {stp : Bool} {chn : Option CReg} : Canonical (s.retire n stp chn) :=
  canonical_land h

theorem canonical_retireWait (h : Canonical s) : Canonical s.retireWait := canonical_retire h

theorem canonical_onStrand (h : Canonical s) {sid : Nat} {f : State → State} (hf : ∀ t, Canonical t → Canonical (f t)) :
    Canonical (s.onStrand sid f) := by
  simp only [State.onStrand]
  split
  · exact hf s h
  · split
    · exact canonical_focus (hf _ (canonical_focus h))
    · exact h

theorem canonical_finish {e : Eff} (h : CanonicalEff e) {pc : W32} {n : Fin 16} {stp : Bool} {chn : Option CReg} :
    Canonical (State.finish pc n stp chn e) := by
  cases e with
  | ok t => exact canonical_retire h
  | stay t => exact h
  | goto t f => exact canonical_land h
  | trap t c lm a => exact canonical_endTrap h
  | absent t kind lm l => exact canonical_park h

theorem canonicalEff_ok (h : Canonical s) : CanonicalEff (.ok s) := h
theorem canonicalEff_stay (h : Canonical s) : CanonicalEff (.stay s) := h
theorem canonicalEff_raise (h : Canonical s) {c : Cause} : CanonicalEff (.raise s c) := h

theorem canonicalEff_ofFetch (h : Canonical s) {e : Cause × Nat} : CanonicalEff (.ofFetch s e) := by
  simp only [Eff.ofFetch]
  split <;> exact h

theorem canonicalEff_withSeq (h : Canonical s) {n : Nat} {go : State → W32 → Eff}
    (hg : ∀ t p, Canonical t → CanonicalEff (go t p)) : CanonicalEff (s.withSeq n go) := by
  simp only [State.withSeq]
  split
  · exact canonicalEff_ofFetch h
  · exact hg _ _ (canonical_seqTouch h)

theorem canonicalEff_enterHandler (h : Canonical s) {n : Byte} {p : W32} : CanonicalEff (s.enterHandler n p) := by
  simp only [State.enterHandler]
  split
  · exact canonical_setMe (canonical_writeTrapRec h ‹_›)
  · exact canonical_endTrap h

theorem canonical_stopXs (h : Canonical s) {m : Strand} : Canonical (s.stopXs m).1 := by
  simp only [State.stopXs]
  split
  · split <;> exact h
  · exact h

/-! ### The shapes of words -/

theorem canonicalOut_seqWord (h : Canonical s) {hd : Hdr} {rs : List Dest} {body : State → Eff}
    (hb : ∀ t, Canonical t → CanonicalEff (body t)) : CanonicalOut (Machine.seqWord hd rs body s) := by
  refine canonicalOut_next (canonical_finish ?_)
  split
  · exact h
  · split
    · split
      · exact h
      · exact hb _ (canonical_setMe h)
    · exact h

theorem canonicalOut_laneWord (h : Canonical s) {hd : Hdr} {rs : List Dest} {cs : List CReg} {body : W64 → State → Eff}
    (hb : ∀ g t, Canonical t → CanonicalEff (body g t)) : CanonicalOut (Machine.laneWord hd rs cs body s) := by
  refine canonicalOut_next (canonical_finish ?_)
  split
  · exact h
  · split
    · exact h
    · split
      · exact h
      · split
        · exact h
        · exact hb _ _ (canonical_setMe h)

theorem canonicalOut_pairWord (h : Canonical s) {hd : Hdr} {pt pf : QReg} {mode : PMode} {rs : List Dest} {l : Nat}
    {c : Strand → Bool} : CanonicalOut (Machine.pairWord hd pt pf mode rs l c s) := by
  refine canonicalOut_next (canonical_finish ?_)
  repeat' split
  all_goals exact h

theorem canonicalOut_maskWord (h : Canonical s) {hd : Hdr} {pt pf : QReg} {a : MReg} {mode : PMode} {c : W64 → W64 → Bool} :
    CanonicalOut (Machine.maskWord hd pt pf a mode c s) := by
  refine canonicalOut_next (canonical_finish ?_)
  repeat' split
  all_goals exact h

theorem canonicalOut_maskPairWord (h : Canonical s) {hd : Hdr} {mt mf : MReg} {mode : PMode} {rs : List Dest} {cs : List CReg}
    {k : Bool} {c : Strand → Nat → Bool} : CanonicalOut (Machine.maskPairWord hd mt mf mode rs cs k c s) := by
  refine canonicalOut_next (canonical_finish ?_)
  repeat' split
  all_goals exact h

theorem canonicalOut_elemWord (h : Canonical s) {hd : Hdr} {i : Instr} {l : Nat} {d : OpVC} {z : Bool} {w : Nat} {rs : List Dest}
    {cs : List CReg} {k : Bool} {ops : Strand → Opnds} {f : Nat → Nat → Nat → Nat} :
    CanonicalOut (Machine.elemWord hd i l d z w rs cs k ops f s) := canonicalOut_laneWord h fun _ _ h1 => canonical_setMe h1

theorem canonicalOut_vecWord (h : Canonical s) {hd : Hdr} {l : Nat} {d : VReg} {z : Bool} {w : Nat} {rs : List Dest}
    {f : Strand → Lanes} : CanonicalOut (Machine.vecWord hd l d z w rs f s) :=
  canonicalOut_laneWord h fun _ _ h1 => canonical_setMe h1

theorem canonicalOut_scalWord (h : Canonical s) {hd : Hdr} {l : Nat} {d : SReg} {rs : List Dest}
    {f : W64 → Strand → Option W64} : CanonicalOut (Machine.scalWord hd l d rs f s) := by
  refine canonicalOut_laneWord h fun _ _ h1 => ?_
  split <;> exact h1

theorem canonicalOut_aluWord (h : Canonical s) {hd : Hdr} {l : Nat} {d : SReg} {rs : List Dest} {f : State → W64} :
    CanonicalOut (Machine.aluWord hd l d rs f s) := canonicalOut_seqWord h fun _ h1 => canonical_setMe h1

end Sys2Proof.Proofs
end

section
namespace Sys2Proof.Proofs

open Sys2Proof.Machine Sys2Proof.Claims Sys2Proof.Laws

variable {s t : State}

/-! ### Transfers and loops (spec/06, R154 to R163) -/

theorem canonicalEff_takeXfer (h : Canonical s) {d : Fin 4} {p : W32} : CanonicalEff (takeXfer d p s) := by
  simp only [takeXfer]
  split
  · exact h
  · split <;> exact h

theorem canonicalOut_execXfer (h : Canonical s) {hd : Hdr} {b : BReg} {d : Fin 4} : CanonicalOut (execXfer hd b d s) := by
  refine canonicalOut_seqWord h fun t ht => ?_
  split
  · exact ht
  · exact canonicalEff_takeXfer ht

theorem canonicalOut_execXferL (h : Canonical s) {hd : Hdr} {l : OpLink} {b : BReg} {d : Fin 4} :
    CanonicalOut (execXferL hd l b d s) := by
  refine canonicalOut_seqWord h fun t ht => ?_
  split
  · exact ht
  · exact canonicalEff_withSeq ht fun _ _ h2 => canonicalEff_takeXfer (canonical_setMe h2)

theorem canonicalEff_leaveBody (h : Canonical s) {m : Strand} {n : Nat} : CanonicalEff (leaveBody s m n) := by
  simp only [leaveBody]
  split
  · exact h
  · refine canonicalEff_withSeq h fun t p ht => ?_
    split <;> exact ht

theorem canonicalOut_execLoop (h : Canonical s) {hd : Hdr} {c : SReg} {l : BitVec 12} {st : BitVec 4} :
    CanonicalOut (execLoop hd c l st s) := by
  refine canonicalOut_seqWord h fun t ht => ?_
  iterate 5
    refine canonicalEff_ite ht ?_
  refine canonicalEff_ite (canonicalEff_ite (canonicalEff_leaveBody ht) ?_) ?_
  · exact canonicalEff_withSeq ht fun _ _ h2 => canonicalEff_ite h2 h2
  · split <;> exact ht

theorem canonicalOut_execLbrk (h : Canonical s) {hd : Hdr} : CanonicalOut (execLbrk hd s) :=
  canonicalOut_seqWord h fun _ ht => canonicalEff_ite ht (canonicalEff_leaveBody ht)

/-! ### System words (spec/06, R164 to R174) -/

theorem canonical_setSpr (h : Canonical s) {n : Fin 21} {v : W64} : Canonical (s.setSpr n v) := by
  simp only [State.setSpr]
  split <;> exact h

theorem canonical_select (h : Canonical s) {tile slot : Nat} : Canonical (s.select tile slot) := by
  simp only [State.select]
  split <;> exact h

theorem canonicalOut_execTrap (h : Canonical s) {hd : Hdr} {n : Byte} : CanonicalOut (execTrap hd n s) := by
  refine canonicalOut_seqWord h fun t ht => ?_
  split
  · exact ht
  · split
    · exact ht
    · exact canonicalEff_withSeq ht fun _ _ h2 => canonicalEff_enterHandler h2

theorem canonicalOut_execRft (h : Canonical s) {hd : Hdr} : CanonicalOut (execRft hd s) := by
  refine canonicalOut_seqWord h fun t ht => ?_
  split <;> exact ht

theorem canonicalOut_execCswYield (h : Canonical s) {hd : Hdr} : CanonicalOut (execCswYield hd s) := by
  refine canonicalOut_seqWord h fun t ht => ?_
  split
  · exact ht
  · simp only
    split
    · exact canonical_select ht
    · exact ht

theorem canonical_stopIn (h : Canonical s) {hd : Hdr} {w : Wait} : Canonical (s.stopIn hd w) :=
  canonical_waitFor (canonical_setMe h)

theorem canonicalOut_execCswParkt (h : Canonical s) {hd : Hdr} {a : SReg} : CanonicalOut (execCswParkt hd a s) := by
  refine canonicalOut_seqWord h fun t ht => ?_
  split
  · exact ht
  · simp only
    split
    · exact ht
    · exact canonical_stopIn (canonical_setMe ht)

theorem canonicalEff_beforeLoad (h : Canonical s) {kind : Nat} {k : Acc} {l : List Access} {go : State → Eff}
    (hg : ∀ t, Canonical t → CanonicalEff (go t)) : CanonicalEff (s.beforeLoad kind k l go) := by
  simp only [State.beforeLoad]
  split
  · exact h
  · split
    · exact canonical_waitFor h
    · exact h
  · split
    · exact canonical_waitFor h
    · exact hg _ (canonical_touchAll h _ _ _)

theorem canonicalOut_execCswParka (h : Canonical s) {hd : Hdr} {a : SReg} : CanonicalOut (execCswParka hd a s) := by
  refine canonicalOut_seqWord h fun t ht => ?_
  split
  · exact ht
  · exact canonicalEff_beforeLoad ht fun _ h2 => canonical_stopIn (canonical_setMe h2)

theorem canonical_phaseRelease (h : Canonical s) {k self : Nat} : Canonical (s.phaseRelease k self) := by
  simp only [State.phaseRelease]
  split
  · exact h
  · exact canonical_foldl (canonical_mapStrands (canonical_updLaunch h)) _ fun _ _ h1 =>
      canonical_onStrand h1 fun _ h2 => canonical_retireWait h2

theorem canonicalOut_execPhase (h : Canonical s) {hd : Hdr} : CanonicalOut (execPhase hd s) := by
  refine canonicalOut_seqWord h fun t ht => canonicalEff_ite ht (canonicalEff_ite ht (canonicalEff_ite ?_ ?_))
  · exact canonical_phaseRelease (canonical_setMe ht)
  · exact canonical_stopIn (canonical_setMe ht)

theorem canonical_stopHalted (h : Canonical s) {k : Nat} : Canonical (s.stopHalted k) :=
  canonical_foldl h _ fun _ _ h1 => canonical_updStrand (canonical_stopXs h1)

theorem canonical_lateWaits (h : Canonical s) {k : Nat} : Canonical (s.lateWaits k) := h

theorem canonical_afterSaves (h : Canonical s) {k : Nat} : Canonical (s.afterSaves k) := by
  simp only [State.afterSaves]
  split
  · exact h
  · exact canonical_updCtx (canonical_lateWaits (canonical_stopHalted h))

theorem canonicalOut_execHalt (h : Canonical s) {hd : Hdr} : CanonicalOut (execHalt hd s) := by
  refine canonicalOut_seqWord h fun t ht => canonicalEff_ite ht ?_
  refine canonical_ite (canonical_afterSaves ?_) ?_ <;>
    exact canonical_reconsider (canonical_ite (canonical_phaseRelease (canonical_setMe ht)) (canonical_setMe ht))

theorem canonicalOut_execWaitt (h : Canonical s) {hd : Hdr} {a : SReg} : CanonicalOut (execWaitt hd a s) := by
  refine canonicalOut_seqWord h fun t ht => ?_
  split
  · exact ht
  · simp only
    split
    · exact ht
    · exact canonical_stopIn ht

theorem canonicalOut_execBkpt (h : Canonical s) {hd : Hdr} : CanonicalOut (execBkpt hd s) := by
  refine canonicalOut_seqWord h fun t ht => ?_
  simp only
  split
  · split
    · exact canonical_debugStop (canonical_setMe ht)
    · exact canonical_debugStop (canonical_setMe ht)
  · exact canonicalEff_withSeq ht fun _ _ h2 => canonical_debugStop (canonical_setMe h2)

/-! ### Ends of waits and bounds (spec/12, R326 to R328) -/

theorem canonical_wakeCsw (h : Canonical s) {sid : Nat} : Canonical (s.wakeCsw sid) := by
  refine canonical_onStrand h fun t ht => canonical_reconsider (canonical_ite (canonical_ite ?_ (canonical_setMe ht)) ?_)
  · exact canonical_debugStop (canonical_setMe ht)
  · exact canonical_retireWait (canonical_setMe ht)

theorem canonicalOut_execTimedWaitExpiry (h : Canonical s) {sid : Nat} : CanonicalOut (execTimedWaitExpiry sid s) := by
  refine canonicalOut_next ?_
  split
  · exact h
  · rename_i m _
    refine canonical_ite h ?_
    cases m.wait with
    | waitt t => exact canonical_ite (canonical_updStrand h) h
    | csw =>
      refine canonical_ite (canonical_ite ?_ (canonical_ite h (canonical_wakeCsw h))) h
      exact canonical_reconsider (canonical_updStrand h)
    | _ => exact h

theorem canonicalOut_execParkaWake (h : Canonical s) {sid : Nat} : CanonicalOut (execParkaWake sid s) := by
  refine canonicalOut_next ?_
  split
  · exact h
  · split
    · split
      · exact canonical_reconsider (canonical_updStrand h)
      · split
        · exact h
        · exact canonical_wakeCsw h
    · exact h

theorem canonicalOut_execStallBound (h : Canonical s) {sid : Nat} : CanonicalOut (execStallBound sid s) := by
  refine canonicalOut_next ?_
  simp only [State.boundTrap]
  split
  · exact h
  · split
    · exact canonical_endTrap h
    · exact h

/-! ### Loads and stores (spec/08) -/

theorem canonicalEff_scratchDo (h : Canonical s) {reads : Bool} {l : List Access} {go : State → Eff}
    (hg : ∀ t, Canonical t → CanonicalEff (go t)) : CanonicalEff (s.scratchDo reads l go) := by
  simp only [State.scratchDo]
  split
  · exact h
  · exact hg _ h

theorem canonicalEff_releaseFirst (h : Canonical s) {rel : Bool} {go : State → Eff}
    (hg : ∀ t, Canonical t → CanonicalEff (go t)) : CanonicalEff (s.releaseFirst rel go) := by
  simp only [State.releaseFirst]
  split
  · exact canonical_waitFor h
  · exact hg _ h

theorem canonical_applyActs (h : Canonical s) {c : Ctx} {l : List LogAct} : Canonical (s.applyActs c l) :=
  canonical_congr (canonical_foldl h l fun _ a h1 => canonical_applyAct h1 c a) rfl rfl rfl

theorem canonical_recordLost (h : Canonical s) {m : Strand} {pc : W32} : Canonical (s.recordLost m pc) := canonical_endTrap h

theorem canonicalEff_storeOut (h : Canonical s) {k : Acc} {l : List (Access × (Part → LogAct))} :
    CanonicalEff (s.storeOut k l) := by
  simp only [State.storeOut]
  split
  · exact h
  all_goals
    refine canonicalEff_ite (canonical_waitFor h) (canonicalEff_ite ?_ (canonicalEff_ite (canonical_waitFor h) ?_))
    · exact canonical_applyActs (canonical_touchAll h _ _ _)
    · split
      · exact canonical_recordLost h
      · exact canonical_waitFor h
      · exact canonical_applyActs (canonical_touchAll (canonical_faultPages h ‹_›) _ _ _)

theorem canonicalOut_execLd (h : Canonical s) {hd : Hdr} {d a : SReg} {off : BitVec 24} {ty : ETy} {sem : Sem} {sc : Scope} :
    CanonicalOut (execLd hd d a off ty sem sc s) :=
  canonicalOut_seqWord h fun _ ht => canonicalEff_beforeLoad ht fun _ h2 => canonical_setMe h2

theorem canonicalOut_laneLoad (h : Canonical s) {hd : Hdr} {d : VReg} {rs : List Dest} {z : Bool}
    {accs : W64 → Strand → List Access} {ext : Nat → Nat} : CanonicalOut (laneLoad hd d rs z accs ext s) :=
  canonicalOut_laneWord h fun _ _ ht => canonicalEff_beforeLoad ht fun _ h2 => canonical_setMe h2

theorem canonicalOut_execSt (h : Canonical s) {hd : Hdr} {d a : SReg} {off : BitVec 24} {ty : ETy} {sem : Sem} {sc : Scope} :
    CanonicalOut (execSt hd d a off ty sem sc s) :=
  canonicalOut_seqWord h fun _ ht => canonicalEff_releaseFirst ht fun _ h2 => canonicalEff_storeOut h2

theorem canonicalOut_execStv (h : Canonical s) {hd : Hdr} {d : VReg} {a : SReg} {off : BitVec 24} {sem : Sem} {sc : Scope} :
    CanonicalOut (execStv hd d a off sem sc s) :=
  canonicalOut_laneWord h fun _ _ ht => canonicalEff_releaseFirst ht fun _ h2 => canonicalEff_storeOut h2

theorem canonicalOut_execStg (h : Canonical s) {hd : Hdr} {d : VReg} {a : SReg} {off : BitVec 24} {b : VReg} {ty : ETy} :
    CanonicalOut (execStg hd d a off b ty s) :=
  canonicalOut_laneWord h fun _ _ ht => canonicalEff_storeOut ht

theorem canonicalOut_execLdl (h : Canonical s) {hd : Hdr} {d a : SReg} {off : BitVec 24} {ty : ETy} :
    CanonicalOut (execLdl hd d a off ty s) :=
  canonicalOut_seqWord h fun _ ht => canonicalEff_scratchDo ht fun _ h2 => canonical_setMe h2

theorem canonicalOut_execStl (h : Canonical s) {hd : Hdr} {d a : SReg} {off : BitVec 24} {ty : ETy} :
    CanonicalOut (execStl hd d a off ty s) :=
  canonicalOut_seqWord h fun _ ht => canonicalEff_scratchDo ht fun _ h2 => canonical_scratchWrite h2 _ _

theorem canonicalOut_execVldl (h : Canonical s) {hd : Hdr} {d : VReg} {a : SReg} {off : BitVec 24} {z : Bool} :
    CanonicalOut (execVldl hd d a off z s) :=
  canonicalOut_laneWord h fun _ _ ht => canonicalEff_scratchDo ht fun _ h2 => canonical_setMe h2

theorem canonicalOut_execVstl (h : Canonical s) {hd : Hdr} {d : VReg} {a : SReg} {off : BitVec 24} :
    CanonicalOut (execVstl hd d a off s) :=
  canonicalOut_laneWord h fun _ _ ht => canonicalEff_scratchDo ht fun _ h2 => canonical_scratchWrite h2 _ _

theorem canonicalOut_execSideLogDrain (h : Canonical s) {k : Nat} : CanonicalOut (execSideLogDrain k s) := by
  refine canonicalOut_next ?_
  split
  · exact h
  · rename_i e _
    have rest : Canonical { s with slog := s.slog.eraseIdx k } := h
    split
    · exact h
    · simp only
      split
      · refine canonical_refresh ?_
        split
        · exact rest
        · exact canonical_endTrap rest
      · split
        · exact h
        · split
          · exact canonical_faultPages h ‹_›
          · exact canonical_recordLost h
      · exact canonical_refresh (canonical_applyActs (canonical_touchAll rest _ _ _))

/-! ### Atomics, WAITA, fences, barriers and tensor descriptors (spec/08) -/

theorem canonicalOut_atomicWord (h : Canonical s) {hd : Hdr} {rs : List Dest} {d a : SReg} {off : BitVec 24} {b : SReg} {ty : ETy}
    {sem : Sem} {sc : Scope} {ret : Bool} {op : Strand → Rmw} :
    CanonicalOut (Machine.atomicWord hd rs d a off b ty sem sc ret op s) := by
  refine canonicalOut_seqWord h fun t ht => canonicalEff_ite ht (canonicalEff_releaseFirst ht fun u hu => ?_)
  refine canonicalEff_ite (canonicalEff_beforeLoad hu fun _ h3 => ?_) (canonicalEff_storeOut hu)
  exact canonical_setMe (canonical_applyAct h3 _ _)

theorem canonicalOut_execVared (h : Canonical s) {hd : Hdr} {d : VReg} {a : SReg} {off : BitVec 21} {b : VReg} {op : VaOp} {ty : ETy}
    {sc : Scope} : CanonicalOut (execVared hd d a off b op ty sc s) :=
  canonicalOut_laneWord h fun _ _ ht => canonicalEff_storeOut ht

theorem canonicalOut_execFenceRel (h : Canonical s) {hd : Hdr} {sc : Scope} : CanonicalOut (execFenceRel hd sc s) :=
  canonicalOut_seqWord h fun _ ht => canonicalEff_releaseFirst ht fun _ h2 => h2

theorem canonicalEff_waitaTry (h : Canonical s) {d : SReg} {a cmp : W64} {cc : Cond} {form : WForm} {again : State → Eff}
    (ha : ∀ t, Canonical t → CanonicalEff (again t)) : CanonicalEff (s.waitaTry d a cmp cc form again) := by
  cases form <;> simp only [State.waitaTry]
  case l =>
    refine canonicalEff_scratchDo h fun t ht => canonicalEff_ite ?_ (ha t ht)
    exact canonical_setMe ht
  all_goals
    refine canonicalEff_beforeLoad h fun t ht => canonicalEff_ite ?_ (ha t ht)
    exact canonical_setMe ht

theorem canonicalOut_execWaita (h : Canonical s) {hd : Hdr} {d a b : SReg} {cc : Cond} {form : WForm} {sc : Scope}
    {bound : BitVec 6} : CanonicalOut (execWaita hd d a b cc form sc bound s) :=
  canonicalOut_seqWord h fun _ ht => canonicalEff_waitaTry ht fun _ h2 => canonical_stopIn h2

theorem canonicalOut_execWaitaSatisfied (h : Canonical s) {sid : Nat} : CanonicalOut (execWaitaSatisfied sid s) := by
  refine canonicalOut_next ?_
  split
  · exact h
  · split
    · split
      · exact canonical_onStrand h fun t ht => canonical_finish (canonicalEff_waitaTry ht fun _ _ => canonicalEff_stay ht)
      · exact h
    · exact h

theorem canonical_announce (h : Canonical s) {m : Strand} {n : Fin 32} {sc : Scope} {e g : Nat} :
    Canonical (s.announce m n sc e g) := by
  simp only [State.announce]
  split <;> exact h

theorem canonical_barRelease (h : Canonical s) {m : Strand} {n : Fin 32} {sc : Scope} : Canonical (s.barRelease m n sc) :=
  canonical_refresh (canonical_foldl (canonical_mapStrands (canonical_setBarrier h)) _ fun _ _ h1 =>
    canonical_onStrand h1 fun _ h2 => canonical_retireWait (canonical_setMe h2))

theorem canonicalEff_arrive (h : Canonical s) {n : Fin 32} {e : W64} {sc : Scope} {mark : Bool} {bound : BitVec 6}
    {go : State → Eff} (hg : ∀ t, Canonical t → CanonicalEff (go t)) : CanonicalEff (s.arrive n e sc mark bound go) := by
  simp only [State.arrive]
  split
  · exact hg _ h
  · split
    · exact h
    · refine canonicalEff_releaseFirst h fun t ht => canonicalEff_ite (canonicalEff_stay (canonical_waitFor ht)) (hg _ ?_)
      refine canonical_ite (canonical_barRelease ?_) ?_ <;>
        exact canonical_announce (canonical_setBarrier (canonical_setMe ht))

theorem canonicalEff_awaitBar (h : Canonical s) {hd : Hdr} {n : Fin 32} {sc : Scope} {bound : BitVec 6} :
    CanonicalEff (s.awaitBar hd n sc bound) := by
  simp only [State.awaitBar]
  split
  · exact canonical_stopIn h
  · exact h

theorem canonicalOut_execBarSync (h : Canonical s) {hd : Hdr} {n : Fin 32} {b : SReg} {sc : Scope} {bound : BitVec 6} :
    CanonicalOut (execBarSync hd n b sc bound s) :=
  canonicalOut_seqWord h fun _ ht => canonicalEff_arrive ht fun _ h2 => canonicalEff_awaitBar h2

theorem canonicalOut_execBarArv (h : Canonical s) {hd : Hdr} {n : Fin 32} {b : SReg} {sc : Scope} :
    CanonicalOut (execBarArv hd n b sc s) :=
  canonicalOut_seqWord h fun _ ht => canonicalEff_arrive ht fun _ h2 => h2

theorem canonicalOut_execBarWait (h : Canonical s) {hd : Hdr} {n : Fin 32} {sc : Scope} {bound : BitVec 6} :
    CanonicalOut (execBarWait hd n sc bound s) :=
  canonicalOut_seqWord h fun _ ht => canonicalEff_awaitBar ht

theorem canonical_lineAccess (h : Canonical s) {ea : Nat} : Canonical (s.lineAccess ea) := by
  simp only [State.lineAccess]
  split
  · exact h
  · exact canonical_touchVa h

theorem canonical_seeLine (h : Canonical s) {p : Nat} : Canonical (s.seeLine p) := ⟨wf_putAll h.1 _, h.2⟩

theorem canonical_dropLine (h : Canonical s) {ea : Nat} : Canonical (s.dropLine ea) := by
  simp only [State.dropLine]
  split
  · exact h
  · split
    · exact canonical_seeLine h
    · exact h

theorem canonicalOut_execCinv (h : Canonical s) {hd : Hdr} {a : SReg} {off : BitVec 24} {sc : Scope} :
    CanonicalOut (execCinv hd a off sc s) :=
  canonicalOut_seqWord h fun _ ht =>
    canonical_ite (canonical_dropLine (canonical_lineAccess ht)) (canonical_lineAccess ht)

theorem canonicalOut_execCwb (h : Canonical s) {hd : Hdr} {a : SReg} {off : BitVec 24} {sc : Scope} :
    CanonicalOut (execCwb hd a off sc s) := canonicalOut_seqWord h fun _ ht => canonical_lineAccess ht

theorem canonicalOut_execPref (h : Canonical s) {hd : Hdr} {a : SReg} {off : BitVec 24} {sc : Scope} :
    CanonicalOut (execPref hd a off sc s) := canonicalOut_seqWord h fun _ ht => canonical_lineAccess ht

theorem canonicalOut_tidsetWord (h : Canonical s) {hd : Hdr} {rs : List Dest} {f : Strand → Byte} {a : SReg} :
    CanonicalOut (tidsetWord hd rs f a s) :=
  canonicalOut_seqWord h fun _ ht => canonicalEff_beforeLoad ht fun _ h2 => canonical_updCtx (canonical_writeVa h2 _ _ _)

theorem canonicalOut_tidgetWord (h : Canonical s) {hd : Hdr} {rs : List Dest} {d : SReg} {f : Strand → Byte} :
    CanonicalOut (tidgetWord hd rs d f s) := canonicalOut_seqWord h fun _ ht => canonical_setMe ht

end Sys2Proof.Proofs
end

section
namespace Sys2Proof.Proofs

open Sys2Proof.Machine Sys2Proof.Claims Sys2Proof.Laws

/-! ### Steps of engines (spec/09) -/

/-- A step of an engine that is made leaves a canonical state canonical. -/
def Keeps {α : Type} (f : EM α) : Prop := ∀ s a t, Canonical s → f s = .ok (a, t) → Canonical t

section Monad

variable {α β : Type}

theorem keeps_pure {a : α} : Keeps (pure a) := fun s b t h e => by
  cases e
  exact h

theorem keeps_bind {f : EM α} {g : α → EM β} (hf : Keeps f) (hg : ∀ a, Keeps (g a)) : Keeps (f >>= g) := fun s b u h e => by
  change (f s >>= fun p => g p.1 p.2) = _ at e
  cases hp : f s with
  | error x =>
    rw [hp] at e
    cases e
  | ok p =>
    rw [hp] at e
    exact hg p.1 p.2 b u (hf s p.1 p.2 h hp) e

theorem keeps_get_bind {g : State → EM β} (hg : ∀ s, Canonical s → Keeps (g s)) : Keeps (get >>= g) :=
  fun s b u h e => hg s h s b u h e

theorem keeps_set (h : Canonical s) : Keeps (set s : EM PUnit) := fun _ _ _ _ e => by
  cases e
  exact h

theorem keeps_modify {f : State → State} (hf : ∀ s, Canonical s → Canonical (f s)) : Keeps (modify f) := fun s _ _ h e => by
  cases e
  exact hf s h

theorem keeps_ite {c : Prop} {_ : Decidable c} {f g : EM α} (hf : Keeps f) (hg : Keeps g) : Keeps (if c then f else g) := by
  split
  · exact hf
  · exact hg

theorem keeps_eTrap {c : Cause} {a : Nat} : Keeps (eTrap c a : EM α) := fun _ _ _ _ e => by cases e

theorem keeps_eTrap_bind {c : Cause} {a : Nat} {g : α → EM β} : Keeps (eTrap c a >>= g) := fun _ _ _ _ e => by cases e

theorem keeps_asGu {f : EM α} (hf : Keeps f) : Keeps (asGu f) := fun s a t h e => by
  simp only [asGu] at e
  split at e
  · cases e
    exact hf s a t h ‹_›
  · cases e
  · cases e

theorem keeps_eBoth {f : EM α} {g : EM β} (hf : Keeps f) (hg : Keeps g) : Keeps (eBoth f g) := fun s a t h e => by
  simp only [eBoth] at e
  split at e
  · split at e
    · cases e
      exact hg _ _ t (hf s _ _ h ‹_›) ‹_›
    · cases e
  · cases e
  · split at e <;> cases e

theorem keeps_eAll {l : List (EM α)} (hl : ∀ f ∈ l, Keeps f) : Keeps (eAll l) := by
  induction l with
  | nil => exact keeps_pure
  | cons f l ih =>
    refine keeps_bind (keeps_eBoth (hl f (by simp)) (ih fun g hg => hl g (by simp [hg]))) fun _ => keeps_pure

theorem keeps_eEach {l : List α} {f : α → EM β} (hf : ∀ a, Keeps (f a)) : Keeps (eEach l f) :=
  keeps_eAll fun g hg => by
    obtain ⟨a, _, rfl⟩ := List.mem_map.1 hg
    exact hf a

end Monad

variable {s t : State} {m : Strand} {e : JEntry}

theorem keeps_eCheck {w sp : Bool} {a n : Nat} : Keeps (eCheck m w sp a n) := fun s x t h e => by
  simp only [eCheck] at e
  split at e
  · cases e
    exact h
  · split at e
    · split at e
      · cases e
      · split at e
        · cases e
          exact h
        · split at e
          · cases e
          · cases e
            exact h
    · split at e
      · cases e
      · cases e
      · cases e
        exact canonical_touchAll h _ _ _

theorem canonical_engPut (h : Canonical s) {sp : Bool} {a : Nat} {bs : List Byte} : Canonical (s.engPut m sp a bs) := by
  simp only [State.engPut]
  split
  · exact canonical_scratchWrite h _ _
  · exact canonical_writeVa h _ _ _

theorem keeps_eRead {sp : Bool} {a n : Nat} : Keeps (eRead m sp a n) :=
  keeps_bind keeps_eCheck fun _ => keeps_get_bind fun _ _ => keeps_pure

theorem keeps_eNat {sp : Bool} {a n : Nat} : Keeps (eNat m sp a n) := keeps_bind keeps_eRead fun _ => keeps_pure

theorem keeps_eWrites {l : List (Bool × Nat × List Byte)} : Keeps (eWrites m l) :=
  keeps_bind (keeps_eEach fun _ => keeps_eCheck) fun _ => keeps_modify fun _ h =>
    canonical_foldl h l fun _ _ h1 => canonical_engPut h1

theorem keeps_eWrite {sp : Bool} {a : Nat} {bs : List Byte} : Keeps (eWrite m sp a bs) := keeps_eWrites

theorem keeps_eMoves {l : List Move} : Keeps (eMoves m l) :=
  keeps_bind (keeps_eEach fun _ => keeps_eBoth keeps_eCheck keeps_eCheck) fun _ => keeps_modify fun _ h =>
    canonical_foldl h l fun _ _ h1 => canonical_engPut h1

/-! ### Matrix engine (spec/09) -/

theorem keeps_rowScales {d : Tid} {r c n : Nat} : Keeps (rowScales m d r c n) :=
  keeps_ite (keeps_bind keeps_eRead fun _ => keeps_pure) keeps_pure

theorem keeps_rowsA {d : Tid} {i k : Nat} : Keeps (rowsA m d i k) :=
  keeps_bind (keeps_eEach fun _ => keeps_eEach fun _ => keeps_eNat) fun _ =>
    keeps_bind (keeps_eEach fun _ => keeps_rowScales) fun _ => keeps_pure

theorem keeps_elemA {d : Tid} {i k r x : Nat} : Keeps (elemA m d i k r x) :=
  keeps_ite keeps_pure (keeps_bind (keeps_eEach fun _ => keeps_eNat) fun _ => keeps_pure)

theorem keeps_rowRaw {d : Tid} {r c n : Nat} : Keeps (rowRaw m d r c n) := keeps_bind keeps_eNat fun _ => keeps_pure

theorem keeps_rowB {d : Tid} {j k c : Nat} : Keeps (rowB m d j k c) :=
  keeps_ite keeps_pure (keeps_bind keeps_rowRaw fun _ => keeps_bind keeps_rowScales fun _ => keeps_pure)

theorem keeps_tileIn {d : Tid} {r c : Nat} : Keeps (tileIn d r c) := keeps_ite keeps_eTrap keeps_pure

theorem keeps_readAcc {n : Nat} : Keeps (readAcc m n) :=
  keeps_get_bind fun _ _ => keeps_bind keeps_eNat fun _ => keeps_pure

theorem keeps_writeAcc {n : Nat} {v : List Nat} : Keeps (writeAcc m n v) := keeps_get_bind fun _ _ => keeps_eWrite

theorem keeps_mmaStep {a b : Tid} {i j k : Nat} {acct sat : Bool} {acc : List Nat} : Keeps (mmaStep m a b i j k acct sat acc) :=
  keeps_bind keeps_tileIn fun _ => keeps_bind keeps_tileIn fun _ => keeps_bind keeps_rowsA fun _ =>
    keeps_bind (keeps_eEach fun _ => keeps_rowB) fun _ => keeps_pure

theorem keeps_word32 {d : Tid} {q : Nat} : Keeps (word32 m d q) := keeps_bind keeps_eNat fun _ => keeps_pure

theorem keeps_sparseRow {n k kk : Nat} {p i : Tid} {b : Nat} : Keeps (sparseRow m n k kk p i b) :=
  keeps_bind (keeps_eBoth keeps_word32 keeps_word32) fun _ => keeps_ite keeps_eTrap_bind <|
    keeps_bind (keeps_eEach fun _ => keeps_bind keeps_word32 fun _ => keeps_ite keeps_eTrap_bind keeps_pure) fun _ => keeps_pure

theorem keeps_sparseProducts {a p i v : Tid} {j k b : Nat} : Keeps (sparseProducts m a p i v j k b) :=
  keeps_bind (keeps_asGu keeps_sparseRow) fun _ =>
    keeps_bind (keeps_eBoth (keeps_eEach fun _ => keeps_eEach fun _ => keeps_elemA)
      (keeps_asGu (keeps_eEach fun _ => keeps_eNat))) fun _ => keeps_pure

theorem keeps_mmasStep {a p i v : Tid} {x j k : Nat} {acct sat : Bool} {acc : List Nat} :
    Keeps (mmasStep m a p i v x j k acct sat acc) :=
  keeps_bind keeps_tileIn fun _ => keeps_bind (keeps_eEach fun _ => keeps_ite keeps_sparseProducts keeps_pure) fun _ => keeps_pure

theorem keeps_matrixStep : Keeps (matrixStep m e) := by
  refine keeps_ite keeps_pure ?_
  split
  · exact keeps_bind keeps_readAcc fun _ => keeps_bind keeps_mmaStep fun _ => keeps_bind keeps_writeAcc fun _ => keeps_pure
  · exact keeps_bind keeps_readAcc fun _ => keeps_bind keeps_mmasStep fun _ => keeps_bind keeps_writeAcc fun _ => keeps_pure
  · exact keeps_pure

theorem keeps_mmatStart : Keeps (mmatStart m e) := by
  simp only [mmatStart]
  split
  · exact keeps_bind keeps_readAcc fun _ => keeps_pure
  · exact keeps_pure

theorem keeps_mmatSteps {n k : Nat} {acc : List Nat} : Keeps (mmatSteps m e n k acc) := by
  induction n generalizing k acc with
  | zero => exact keeps_pure
  | succ n ih => exact keeps_bind keeps_mmaStep fun _ => ih

end Sys2Proof.Proofs
end

section
namespace Sys2Proof.Proofs

open Sys2Proof.Machine Sys2Proof.Claims Sys2Proof.Laws

variable {s t : State} {m : Strand} {e : JEntry}

theorem keeps_forIn {α β : Type} {l : List α} {b : β} {f : α → β → EM (ForInStep β)} (hf : ∀ a b, Keeps (f a b)) :
    Keeps (forIn l b f) := by
  induction l generalizing b with
  | nil => exact keeps_pure
  | cons a l ih =>
    rw [List.forIn_cons]
    refine keeps_bind (hf a b) fun r => ?_
    cases r with
    | done b => exact keeps_pure
    | yield b => exact ih

theorem keeps_matrixDone : Keeps (matrixDone m e) := by
  simp only [matrixDone]
  split
  · exact keeps_bind keeps_mmatSteps fun _ => keeps_bind keeps_writeAcc fun _ => keeps_pure
  · refine keeps_bind (keeps_forIn fun _ _ => ?_) fun _ => keeps_pure
    exact keeps_ite (keeps_bind keeps_writeAcc fun _ => keeps_pure) keeps_pure
  · exact keeps_bind keeps_tileIn fun _ => keeps_bind keeps_readAcc fun _ => keeps_bind keeps_eWrites fun _ => keeps_pure
  · exact keeps_bind keeps_readAcc fun _ => keeps_bind keeps_writeAcc fun _ => keeps_pure
  · refine keeps_bind keeps_tileIn fun _ => keeps_bind (keeps_eEach fun _ => ?_) fun _ =>
      keeps_bind keeps_writeAcc fun _ => keeps_pure
    exact keeps_ite (keeps_bind keeps_rowRaw fun _ => keeps_pure) keeps_pure
  · exact keeps_pure

/-! ### Copy engine and gather unit (spec/09) -/

theorem keeps_cpyStep : Keeps (cpyStep m e) := by
  simp only [cpyStep]
  split
  · exact keeps_ite keeps_pure (keeps_bind keeps_eMoves fun _ => keeps_pure)
  · exact keeps_pure

theorem keeps_cpyDone : Keeps (cpyDone m e) := by
  simp only [cpyDone]
  split
  · exact keeps_ite (keeps_ite (keeps_bind keeps_eWrite fun _ => keeps_pure) keeps_pure) keeps_pure
  · exact keeps_pure

theorem keeps_gthrStep : Keeps (gthrStep m e) :=
  keeps_ite keeps_pure <| keeps_ite keeps_eTrap_bind <| keeps_bind keeps_eNat fun _ =>
    keeps_ite keeps_eTrap_bind <| keeps_bind keeps_eMoves fun _ => keeps_pure

theorem keeps_gidxPairs {d : Tid} {n b : Nat} : Keeps (gidxPairs m d n b) :=
  keeps_bind (keeps_eEach fun _ => keeps_bind (keeps_eBoth keeps_word32 keeps_word32) fun _ =>
    keeps_ite keeps_eTrap keeps_pure) fun _ => keeps_pure

theorem keeps_gidxCheck : Keeps (gidxCheck m e) :=
  keeps_ite keeps_eTrap_bind <| keeps_bind keeps_gidxPairs fun _ =>
    keeps_bind (keeps_eBoth keeps_word32 keeps_word32) fun _ => keeps_ite keeps_eTrap_bind <| keeps_ite keeps_eTrap keeps_pure

theorem keeps_gidxStep : Keeps (gidxStep m e) := by
  have rest : ∀ k : Nat, Keeps (do
      let (base, lo, hi) ← eBoth (word32 m (e.tid 0) (e.lo 0)) (eBoth (word32 m (e.tid 0) k) (word32 m (e.tid 0) (k + 1)))
      eWrite m true (e.lo 1 + 4 * (lo - base)) ((upto (hi - lo)).flatMap fun _ => bytesOf 4 k)
      return e.upc + 1) := fun k =>
    keeps_bind (keeps_eBoth keeps_word32 (keeps_eBoth keeps_word32 keeps_word32)) fun _ =>
      keeps_bind keeps_eWrite fun _ => keeps_pure
  exact keeps_ite keeps_pure (keeps_ite (keeps_bind keeps_gidxCheck fun _ => rest _) (rest _))

theorem keeps_gatherDone : Keeps (gatherDone m e) := by
  simp only [gatherDone]
  split
  · exact keeps_ite (keeps_bind keeps_gidxCheck fun _ => keeps_pure) keeps_pure
  · exact keeps_pure

/-! ### KV engines (spec/10) -/

theorem keeps_kvhStep : Keeps (kvhStep m e) := by
  have rest : ∀ h : Nat, Keeps (do
      let ids ← eNat m true (e.lo 0 + 64 * e.upc.toNat) 64
      let t := (upto 16).map fun k => ids / 2 ^ (32 * k) % 2 ^ 32
      eWrite m true (e.lo 2 + 16 * e.upc.toNat)
        (bytesOf 16 (blockHash (BitVec.ofNat 128 h) (e.opv.getD 1 0) t).toNat)
      return e.upc + 1) := fun h =>
    keeps_bind keeps_eNat fun _ => keeps_bind keeps_eWrite fun _ => keeps_pure
  exact keeps_ite keeps_pure <| keeps_ite (keeps_bind keeps_eNat fun _ => rest _) <|
    keeps_ite (keeps_bind keeps_eNat fun _ => rest _) (keeps_bind keeps_pure fun _ => rest _)

theorem keeps_hashes : Keeps (hashes m e) := keeps_eEach fun _ => keeps_eNat

theorem keeps_onDir {f : Region → Region × List Byte} {l : List Byte} : Keeps (onDir m f l) := by
  refine keeps_get_bind fun s _ => ?_
  split
  · exact keeps_pure
  · exact keeps_bind (keeps_modify fun _ h => canonical_updRegion h) fun _ => keeps_pure

theorem keeps_dirStep : Keeps (dirStep m e) := by
  simp only [dirStep]
  split
  · exact keeps_bind keeps_hashes fun _ => keeps_bind keeps_onDir fun _ => keeps_eWrite
  · exact keeps_bind keeps_hashes fun _ => keeps_bind keeps_onDir fun _ => keeps_eWrite
  · refine keeps_bind (keeps_eEach fun _ => ?_) fun _ => keeps_bind keeps_onDir fun _ => keeps_eWrite
    exact keeps_bind keeps_eNat fun _ => keeps_ite keeps_eTrap_bind keeps_pure
  · exact keeps_pure

theorem keeps_kvlkDone : Keeps (kvlkDone m e) :=
  keeps_bind keeps_hashes fun _ => keeps_get_bind fun _ _ => keeps_bind keeps_eWrite fun _ => keeps_pure

theorem keeps_readDesc {a : Nat} : Keeps (readDesc m a) := by
  refine keeps_bind keeps_eNat fun _ => keeps_bind keeps_eCheck fun _ => keeps_get_bind fun s _ => ?_
  simp only
  split
  · exact keeps_ite keeps_eTrap_bind keeps_pure
  · exact keeps_pure

theorem keeps_mapStep : Keeps (mapStep m e) := by
  refine keeps_ite keeps_eTrap_bind (keeps_bind keeps_readDesc fun d => ?_)
  split
  · exact keeps_ite keeps_eTrap_bind (keeps_ite (keeps_bind keeps_eWrite fun _ => keeps_eWrite) keeps_eWrite)
  · split
    · exact keeps_eWrite
    · exact keeps_eTrap
  · exact keeps_get_bind fun _ _ => keeps_ite (keeps_bind keeps_eWrite fun _ => keeps_eWrite) keeps_eWrite
  · exact keeps_pure

theorem keeps_attnRow {b4 : Bool} {d a r : Nat} : Keeps (attnRow m b4 d a r) :=
  keeps_ite (keeps_bind (keeps_eBoth keeps_eNat keeps_eRead) fun _ => keeps_pure) (keeps_bind keeps_eNat fun _ => keeps_pure)

theorem keeps_attnBlock {x p : Nat} : Keeps (attnBlock m x p) :=
  keeps_bind keeps_eNat fun _ => keeps_ite keeps_eTrap_bind keeps_pure

theorem keeps_attnDone : Keeps (attnDone m e) := by
  simp only [attnDone]
  split
  · refine keeps_bind keeps_eNat fun _ => ?_
    split
    · refine keeps_bind keeps_pure fun _ => keeps_bind (keeps_eEach fun _ => ?_) fun _ =>
        keeps_bind (keeps_eEach fun _ => ?_) fun _ => keeps_bind keeps_eWrites fun _ => keeps_pure
      · exact keeps_bind keeps_attnBlock fun _ => keeps_eBoth keeps_attnRow keeps_attnRow
      · exact keeps_bind keeps_rowRaw fun _ => keeps_pure
    · exact keeps_eTrap_bind
  · exact keeps_pure

/-! ### Collective engine and LAUNCH (spec/10) -/

theorem keeps_post {d : Nat} {tag : BitVec 16} {o : Nat} {k : CollKind} {l : List Byte} : Keeps (post m d tag o k l) :=
  keeps_modify fun _ h => h

theorem keeps_sameAs0 {tag : BitVec 16} {o : Nat} {k : CollKind} : Keeps (sameAs0 m tag o k) := by
  refine keeps_get_bind fun s _ => ?_
  split
  · exact keeps_ite keeps_eTrap keeps_pure
  · exact keeps_pure

theorem keeps_credStep {op : CrOp} {ty : ETy} {tag : BitVec 16} : Keeps (credStep m e op ty tag) := by
  refine keeps_get_bind fun s _ => ?_
  split
  · exact keeps_bind keeps_eRead fun _ => keeps_bind keeps_post fun _ => keeps_pure
  · refine keeps_bind keeps_sameAs0 fun _ => ?_
    split
    · exact keeps_pure
    · exact keeps_ite keeps_pure (keeps_bind keeps_eWrite fun _ => keeps_pure)

theorem keeps_cgthStep {tag : BitVec 16} : Keeps (cgthStep m e tag) := by
  refine keeps_get_bind fun s _ => ?_
  split
  · exact keeps_bind keeps_eRead fun _ => keeps_bind keeps_post fun _ => keeps_pure
  · refine keeps_bind keeps_sameAs0 fun _ => ?_
    split
    · exact keeps_pure
    · exact keeps_ite keeps_pure (keeps_ite keeps_eTrap_bind (keeps_bind keeps_eWrite fun _ => keeps_pure))

theorem keeps_csndStep {p : Fin 8} {tag : BitVec 16} : Keeps (csndStep m e p tag) := by
  refine keeps_get_bind fun s _ => ?_
  split
  · exact keeps_pure
  · exact keeps_bind keeps_eRead fun _ => keeps_bind keeps_post fun _ => keeps_pure

theorem keeps_crcvStep {p : Fin 8} {tag : BitVec 16} : Keeps (crcvStep m e p tag) := by
  refine keeps_get_bind fun s _ => ?_
  split
  · exact keeps_pure
  · exact keeps_ite keeps_eTrap_bind (keeps_bind keeps_eWrite fun _ => keeps_pure)

theorem keeps_collDone : Keeps (collDone m e) := by
  refine keeps_get_bind fun s _ => ?_
  split
  · exact keeps_bind keeps_sameAs0 fun _ => keeps_pure
  · refine keeps_bind keeps_sameAs0 fun _ => ?_
    split
    · exact keeps_pure
    · exact keeps_ite keeps_pure <| keeps_ite keeps_eTrap_bind <| keeps_ite keeps_pure <|
        keeps_bind keeps_eWrite fun _ => keeps_pure
  · exact keeps_pure
  · split
    · exact keeps_pure
    · exact keeps_ite keeps_eTrap_bind <| keeps_ite keeps_pure <| keeps_bind keeps_eWrite fun _ =>
        keeps_bind keeps_post fun _ => keeps_pure
  · exact keeps_pure

theorem canonical_queueError (h : Canonical s) {r : Region} : Canonical (s.queueError r) :=
  canonical_pushEvent (canonical_updRegion h) _ _ _ _

theorem canonical_append (h : Canonical s) {r : Region} {l : List Byte} : Canonical (s.append r l).1 := by
  simp only [State.append]
  split
  · exact h
  · split
    · split
      · exact h
      · exact canonical_ite (canonical_physWrite (canonical_physWrite (canonical_physWrite (canonical_physWrite h _ _) _ _) _ _) _ _)
          (canonical_physWrite (canonical_physWrite (canonical_physWrite h _ _) _ _) _ _)
    · exact canonical_queueError h

theorem keeps_launchStep : Keeps (launchStep m e) := by
  refine keeps_bind keeps_eRead fun _ => keeps_get_bind fun s h => keeps_ite keeps_eTrap_bind ?_
  split
  · exact keeps_eWrite
  · exact keeps_bind (keeps_set (canonical_append h)) fun _ => keeps_eWrite

end Sys2Proof.Proofs
end

section
namespace Sys2Proof.Proofs

open Sys2Proof.Machine Sys2Proof.Claims Sys2Proof.Laws

variable {s t : State} {m : Strand} {e : JEntry}

/-! ### The journal (spec/09, R223 to R227) -/

theorem canonical_finishEntry (h : Canonical s) {sid : Nat} {q : W32} : Canonical (s.finishEntry sid q) := by
  simp only [State.finishEntry]
  split
  · exact h
  · split
    · exact canonical_ite (canonical_debugStop (canonical_updStrand h)) (canonical_updStrand h)
    · exact canonical_updStrand h

theorem canonical_endWait (h : Canonical s) {sid : Nat} : Canonical (s.endWait sid) := by
  simp only [State.endWait]
  split
  · exact canonical_finishEntry h
  · exact h

theorem canonical_completeEntry (h : Canonical s) {sid : Nat} {q : W32} : Canonical (s.completeEntry sid q) :=
  canonical_endWait (canonical_finishEntry h)

theorem canonical_faultKinds (h : Canonical s) {k strand : Nat} {pc : W32} {l : List (Nat × Nat)} {b : Bool}
    (e : s.faultKinds k strand pc l = some (t, b)) : Canonical t := by
  induction l generalizing s b with
  | nil =>
    cases e
    exact h
  | cons p l ih =>
    rw [State.faultKinds] at e
    split at e
    · cases e
    · obtain ⟨⟨u, c⟩, hq, hr⟩ := Option.map_eq_some_iff.1 e
      cases hr
      exact ih (canonical_faultPages h ‹_›) hq

theorem canonical_engFail (h : Canonical s) {err : EngErr} : Canonical (s.engFail m e err) := by
  cases err with
  | ends c a gu => exact canonical_endTrap h
  | absent as gu =>
    refine canonical_ite h (canonical_recordThen h fun s1 h1 => ?_)
    split
    · exact canonical_recordLost h1
    · have h2 := canonical_faultKinds h1 ‹_›
      refine canonical_reconsider (canonical_setEntry ?_)
      cases e.cmd
      case xrun => exact canonical_stopXs h2
      all_goals exact h2

theorem canonical_journalIn (h : Canonical s) {en : EnH} {i : Instr} {k : CmdSpec} (e : s.journalIn en i k = .ok t) :
    Canonical t := by
  simp only [State.journalIn] at e
  split at e
  · cases e
  · split at e
    · cases e
    · split at e
      · cases e
      · cases e
        split
        · exact canonical_updLaunch (canonical_setMe h)
        · exact canonical_setMe h

theorem canonical_waitAfter (h : Canonical s) {sid : Nat} {pc : W32} {win : Bool} {w : Wait} :
    Canonical (s.waitAfter sid pc win w) := canonical_ite h (canonical_updStrand h)

theorem canonicalOut_engWord (h : Canonical s) {hd : Hdr} {en : EnH} {i : Instr} {k : CmdSpec} {after : W32 → Wait} :
    CanonicalOut (engWord hd en i k after s) := by
  have h1 : Canonical (s.setMe s.me.settle) := h
  refine canonicalOut_next (canonical_ite (canonical_endTrap h1) <| canonical_ite (canonical_waitFor h1) <|
    canonical_ite (canonical_finish (canonicalEff_ok (canonical_setMe h1))) <| canonical_ite (canonical_endTrap h1) ?_)
  split
  · exact canonical_endTrap h1
  · exact canonical_endWait (canonical_waitAfter (canonical_finish (canonicalEff_ok (canonical_journalIn h1 ‹_›))))

/-! ### Messages of other packages (spec/10) -/

theorem canonical_farArrive (h : Canonical s) {x : CollMsg} {n : Fin 32} {e : Nat} : Canonical (s.farArrive x n e) := by
  simp only [State.farArrive]
  split
  · exact h
  · refine canonical_ite h (canonical_ite (canonical_barRelease (canonical_setBarrier ?_)) (canonical_setBarrier ?_)) <;> exact h

theorem canonical_discardPayload (h : Canonical s) {x : CollMsg} : Canonical (s.discardPayload x) := canonical_ite h h

theorem canonical_takeMessage (h : Canonical s) {x : CollMsg} : Canonical (s.takeMessage x) := by
  refine canonical_ite h ?_
  split
  · exact canonical_farArrive h
  · exact h
  · exact h
  · exact canonical_ite (canonical_discardPayload h) h
  · exact h

theorem canonicalOut_execCollectiveMessage (h : Canonical s) {x : CollMsg} : CanonicalOut (execCollectiveMessage x s) :=
  canonicalOut_next (canonical_ite (canonical_takeMessage h) h)

/-! ### The transform sequencer (spec/09, R251 to R262) -/

theorem canonical_xsChainEnd (h : Canonical s) {r : XRunning} : Canonical (s.xsChainEnd m r) := canonical_engFail h

theorem canonical_xsLand (h : Canonical s) {r : XRunning} {x : Option XRunning} : Canonical (s.xsLand m r x) := by
  cases x with
  | none => exact canonical_xsChainEnd h
  | some y => exact canonical_setXrun h

theorem canonicalOut_xsWord (h : Canonical s) {body : Strand → XRunning → State → State × Except EngErr XMove}
    (hb : ∀ m r, Canonical (body m r s).1) : CanonicalOut (Machine.xsWord body s) := by
  refine canonicalOut_next ?_
  split
  · exact h
  · rename_i r _
    have h1 := hb s.me r
    simp only
    split
    · exact h1
    · split
      · exact canonical_engFail h1
      · exact canonical_xsLand h1
      · exact canonical_setXrun h1
      · exact canonical_xsLand h1
      · exact h1
      · exact canonical_xsChainEnd h1
      · refine canonical_completeEntry ?_
        exact h1

theorem canonical_whole (h : Canonical s) {f : EM XMove} (hf : Keeps f) : Canonical (whole f s).1 := by
  simp only [whole]
  split
  · exact hf s _ _ h ‹_›
  · exact h

theorem canonical_blocks (h : Canonical s) {f : Nat → EM Unit} (hf : ∀ q, Keeps (f q)) {n q : Nat} :
    Canonical (blocks f n q s).1 := by
  induction n generalizing s q with
  | zero => exact h
  | succ n ih =>
    rw [blocks]
    split
    · exact ih (hf q s _ _ h ‹_›)
    · exact h

theorem keeps_xSet {n : XReg} {v : W64} : Keeps (xSet m n v) := keeps_modify fun s h => by
  split
  · exact h
  · exact canonical_setXrun h

theorem keeps_xRead {sp : Bool} {a n al : Nat} : Keeps (xRead m sp a n al) := by
  refine keeps_ite keeps_eTrap_bind <| keeps_bind keeps_eRead fun _ => keeps_bind (keeps_modify fun s h => ?_) fun _ => keeps_pure
  split
  · exact h
  · exact canonical_setXrun h

theorem canonical_putKey (h : Canonical s) {k : Nat} {b : Byte} : Canonical (s.putKey k b) :=
  canonical_ite ⟨h.1, wf_put h.2.1 _ _, h.2.2⟩ ⟨wf_put h.1 _ _, h.2⟩

theorem canonical_scramble (h : Canonical s) {ks : List Nat} : Canonical (s.scramble ks) :=
  canonical_congr (canonical_foldl h (ks.zip (upto ks.length)) fun _ p h1 =>
    canonical_putKey h1 (k := p.1) (b := Config.xformByte s.fresh p.2)) rfl rfl rfl

theorem keeps_xWrite {sp : Bool} {a al : Nat} {bs : List Byte} : Keeps (xWrite m sp a al bs) := by
  refine keeps_ite keeps_eTrap_bind <| keeps_bind keeps_eCheck fun _ => keeps_modify fun s h => ?_
  split
  · exact h
  · exact canonical_ite (canonical_scramble (canonical_engPut (canonical_setXrun h))) (canonical_engPut (canonical_setXrun h))

theorem canonicalOut_execXld (h : Canonical s) {d a : XReg} {imm : W32} : CanonicalOut (execXld d a imm s) :=
  canonicalOut_xsWord h fun _ _ => canonical_whole h <| keeps_bind keeps_xRead fun _ => keeps_bind keeps_xSet fun _ => keeps_pure

theorem canonicalOut_execXst (h : Canonical s) {a b : XReg} {imm : W32} : CanonicalOut (execXst a b imm s) :=
  canonicalOut_xsWord h fun _ _ => canonical_whole h <| keeps_bind keeps_xWrite fun _ => keeps_pure

theorem canonicalOut_xMove (h : Canonical s) {d : XReg} {v : XRunning → W64} : CanonicalOut (xMove d v s) :=
  canonicalOut_xsWord h fun _ _ => canonical_whole h <| keeps_bind keeps_xSet fun _ => keeps_pure

theorem canonicalOut_execXdec (h : Canonical s) {d a : XReg} {n : BitVec 22} {p : BitVec 10} :
    CanonicalOut (execXdec d a n p s) := by
  refine canonicalOut_xsWord h fun _ _ => canonical_blocks h fun _ => keeps_bind keeps_xRead fun _ => ?_
  split
  · exact keeps_eTrap
  · exact keeps_xWrite

theorem canonicalOut_execXenc (h : Canonical s) {d a : XReg} {n : BitVec 22} {p : BitVec 10} :
    CanonicalOut (execXenc d a n p s) := by
  refine canonicalOut_xsWord h fun _ _ => canonical_blocks h fun _ => keeps_ite keeps_eTrap_bind <|
    keeps_ite keeps_eTrap_bind <| keeps_bind keeps_xRead fun _ => ?_
  split
  · exact keeps_eTrap
  · exact keeps_xWrite

theorem canonicalOut_execXqnt (h : Canonical s) {d a b : XReg} {src : ETy} {q : B4Ty} {n : W32} :
    CanonicalOut (execXqnt d a b src q n s) :=
  canonicalOut_xsWord h fun _ _ => canonical_blocks h fun _ => keeps_bind keeps_xRead fun _ =>
    keeps_bind keeps_xWrite fun _ => keeps_xWrite

theorem canonicalOut_execXbp (h : Canonical s) {d a b : XReg} {ty : ETy} {n : W32} : CanonicalOut (execXbp d a b ty n s) :=
  canonicalOut_xsWord h fun _ _ => canonical_blocks h fun _ => keeps_ite keeps_eTrap_bind <|
    keeps_bind (keeps_eEach fun _ => keeps_bind keeps_xRead fun _ => keeps_pure) fun _ => keeps_xWrite

theorem canonicalOut_execXloop (h : Canonical s) {a : XReg} {l : BitVec 12} : CanonicalOut (execXloop a l s) := by
  refine canonicalOut_xsWord h fun _ r => ?_
  simp only
  repeat' split
  all_goals exact h

theorem canonicalOut_execXsXpost (h : Canonical s) {ev : Fin 4} : CanonicalOut (execXsXpost ev s) :=
  canonicalOut_xsWord h fun _ _ => canonical_endWait (canonical_updStrand (canonical_setXrun h))

theorem canonicalOut_execXsXwait (h : Canonical s) {ev : Fin 4} {c : XReg} {b : BitVec 6} :
    CanonicalOut (execXsXwait ev c b s) := by
  refine canonicalOut_xsWord h fun _ _ => ?_
  simp only
  split <;> exact h

theorem canonicalOut_execXend (h : Canonical s) : CanonicalOut (execXend s) := canonicalOut_xsWord h fun _ _ => h

theorem canonical_wakeXs (h : Canonical s) : Canonical (s.wakeXs m) := by
  simp only [State.wakeXs]
  split
  · exact h
  · split
    · exact h
    · exact canonical_ite (canonical_xsLand h) h

theorem canonical_startXrun (h : Canonical s) {p : W32} : Canonical (s.startXrun m e p) := by
  simp only [State.startXrun]
  split
  · exact canonical_engFail h
  · refine canonical_ite (canonical_engFail h) (canonical_setXrun ?_)
    exact canonical_foldl h _ fun _ _ h1 => canonical_touchLine h1

/-! ### Steps of commands (spec/09, R225 to R227) -/

theorem canonical_onEntry (h : Canonical s) {sid : Nat} {q : W32} {f : Strand → JEntry → State}
    (hf : ∀ m e, Canonical (f m e)) : Canonical (s.onEntry sid q f) := by
  simp only [State.onEntry]
  split
  · exact h
  · split
    · exact h
    · exact hf _ _

theorem canonicalOut_execAtTimeReached (h : Canonical s) {sid : Nat} {q : W32} : CanonicalOut (execAtTimeReached sid q s) :=
  canonicalOut_next (canonical_onEntry h fun _ _ => canonical_ite (canonical_setEntry h) h)

theorem canonical_runStep (h : Canonical s) {f : EM JEntry} (hf : Keeps f) : Canonical (s.runStep m e f) := by
  simp only [State.runStep]
  split
  · exact canonical_setEntry (hf s _ _ h ‹_›)
  · exact canonical_engFail h

theorem keeps_onceStep : Keeps (onceStep m e) := by
  simp only [onceStep]
  split
  iterate 3
    · exact keeps_bind keeps_dirStep fun _ => keeps_pure
  · exact keeps_bind keeps_launchStep fun _ => keeps_pure
  · exact keeps_bind keeps_mapStep fun _ => keeps_pure

theorem canonicalOut_execCommandStart (h : Canonical s) {sid : Nat} {q : W32} : CanonicalOut (execCommandStart sid q s) := by
  refine canonicalOut_next (canonical_onEntry h fun m e => canonical_ite h ?_)
  split
  · exact h
  · simp only
    split
    · refine canonical_ite (canonical_completeEntry h) (canonical_completeEntry (canonical_wakeXs ?_))
      exact canonical_setEntry (canonical_updStrand h)
    · exact canonical_runStep (canonical_setEntry h) keeps_mmatStart
    · exact h
    · exact h
    · exact canonical_startXrun (canonical_setEntry h)
    · exact canonical_ite (canonical_setEntry h) (canonical_runStep (canonical_setEntry h) keeps_onceStep)
    · exact canonical_setEntry h

theorem keeps_reach : Keeps (reach m e) := keeps_get_bind fun _ _ => keeps_ite keeps_eTrap keeps_pure

theorem keeps_microStep : Keeps (microStep m e) := by
  refine keeps_bind keeps_reach fun _ => ?_
  have go {f : EM W64} (hf : Keeps f) : Keeps (do return { e with upc := ← f }) := keeps_bind hf fun _ => keeps_pure
  have once : Keeps (if e.once then return e else onceStep m e) := keeps_ite keeps_pure keeps_onceStep
  simp only
  split
  · exact go keeps_matrixStep
  · exact go keeps_matrixStep
  · exact go keeps_cpyStep
  · exact go keeps_gthrStep
  · exact go keeps_gidxStep
  · exact go keeps_kvhStep
  · exact go keeps_credStep
  · exact go keeps_cgthStep
  · exact go keeps_csndStep
  · exact go keeps_crcvStep
  iterate 5
    · exact once
  · exact keeps_get_bind fun _ _ => keeps_ite keeps_pure keeps_onceStep
  · exact once
  · exact keeps_pure

theorem canonicalOut_execEngineMicroStep (h : Canonical s) {sid : Nat} {q : W32} :
    CanonicalOut (execEngineMicroStep sid q s) :=
  canonicalOut_next (canonical_onEntry h fun _ _ => canonical_ite (canonical_runStep h keeps_microStep) h)

theorem keeps_lastStep : Keeps (lastStep m e) := by
  refine keeps_bind keeps_reach fun _ => ?_
  split
  · exact keeps_matrixDone
  · exact keeps_cpyDone
  · exact keeps_gatherDone
  · exact keeps_collDone
  · split
    · exact keeps_pure
    · exact keeps_kvlkDone
    · exact keeps_pure
  · exact keeps_attnDone
  · exact keeps_pure
  · exact keeps_pure

theorem canonicalOut_execEngineCommandComplete (h : Canonical s) {sid : Nat} {q : W32} :
    CanonicalOut (execEngineCommandComplete sid q s) := by
  refine canonicalOut_next (canonical_onEntry h fun m e => canonical_ite h (canonical_ite ?_ ?_))
  · exact canonical_ite (canonical_completeEntry h) h
  · split
    · exact canonical_completeEntry (keeps_lastStep s _ _ h ‹_›)
    · exact h
    · exact canonical_engFail h

end Sys2Proof.Proofs
end

section
namespace Sys2Proof.Proofs

open Sys2Proof.Machine Sys2Proof.Claims Sys2Proof.Laws

variable {s t : State}

/-! ### Saves and restores of strands (spec/12, R321 to R324) -/

theorem canonicalOut_execStrandSaveComplete (h : Canonical s) {sid : Nat} : CanonicalOut (execStrandSaveComplete sid s) := by
  refine canonicalOut_next ?_
  split
  · exact h
  · split
    · exact h
    · refine canonical_ite h ?_
      simp only
      have h1 {m : Strand} : Canonical (s.stopXs m).1 := canonical_stopXs h
      split
      · exact canonical_endTrap (canonical_updStrand h1)
      · split
        · exact canonical_endTrap h1
        · rename_i s2 e
          have h2 : Canonical s2 := canonical_writeImage h1 e
          refine canonical_afterSaves ?_
          exact h2

theorem canonical_restoreStrand (h : Canonical s) {m : Strand} {slot : Nat} : Canonical (s.restoreStrand m slot) := by
  simp only [State.restoreStrand]
  split
  · exact canonical_endTrap h
  · split
    · exact canonical_endTrap h
    · exact canonical_endWait (canonical_updStrand (canonical_touchVa h))

/-! ### Launches (spec/01, R39 to R50) -/

theorem canonical_touchLines (h : Canonical s) {c : Ctx} {code : W64} {l : List Nat} : Canonical (s.touchLines c code l) :=
  canonical_foldl h l fun _ _ h1 => canonical_touchVa h1

theorem canonical_touchHeader (h : Canonical s) {c : Ctx} {code : W64} : Canonical (s.touchHeader c code) := by
  simp only [State.touchHeader]
  split
  · exact canonical_touchLines h
  · split <;> exact canonical_touchLines h

theorem canonical_measure (h : Canonical s) {k : Nat} {r : LRec} {hd : Header} {p : W32} : Canonical (s.measure k r hd p) := by
  simp only [State.measure]
  split
  · exact h
  · exact canonical_setLog (canonical_touchLines h)

theorem canonical_startLaunch (h : Canonical s) {k : Nat} : Canonical (s.startLaunch k) := by
  simp only [State.startLaunch]
  split
  · exact h
  · split
    · exact h
    · split <;> split
      · exact canonical_pushEvent (canonical_updLaunch h) _ _ _ _
      · exact canonical_updLaunch h
      · exact canonical_pushEvent (canonical_updLaunch h) _ _ _ _
      · exact canonical_updLaunch h

theorem canonicalOut_execNotbeforeReached (h : Canonical s) {k : Nat} : CanonicalOut (execNotbeforeReached k s) :=
  canonicalOut_next (canonical_startLaunch h)

theorem canonical_writeCompletion (h : Canonical s) {k : Nat} {r : LRec} {e : Ending} {l : Option (List Byte)} :
    Canonical (s.writeCompletion k r e l) := by
  unfold State.writeCompletion
  extract_lets c a fields step
  generalize hx : fields.foldl step (s, none) = x
  have h1 : Canonical x.1 := by
    rw [← hx]
    refine canonical_foldl_fst h _ fun y p hy => ?_
    simp only [step]
    split
    · exact hy
    · split
      · exact canonical_devWrite hy ‹_›
      · exact hy
  split
  · exact h1
  · exact canonical_pushEvent h1 _ _ _ _

theorem canonical_dropLaunch (h : Canonical s) {k : Nat} {l : Launch} : Canonical (s.dropLaunch k l) := h

theorem canonical_finishLaunch (h : Canonical s) {k : Nat} {l : Launch} {e : Ending} : Canonical (s.finishLaunch k l e) := by
  have h1 {f : Ctx → Ctx} {x : Option (List Byte)} :
      Canonical (((s.writeCompletion k l.rec_ e x).dropLaunch k l).updCtx k f) :=
    canonical_updCtx (canonical_dropLaunch (canonical_writeCompletion h))
  exact canonical_refresh (canonical_ite h1 (canonical_getD h1 fun _ e => canonical_writeFHeader h1 e))

theorem canonicalOut_execLaunchComplete (h : Canonical s) {k : Nat} : CanonicalOut (execLaunchComplete k s) := by
  refine canonicalOut_next ?_
  split
  · exact h
  · split
    · exact h
    · exact canonical_ite (canonical_finishLaunch h) h

/-! ### Residency (spec/13, R344 to R352) -/

theorem canonical_storeFrame (h : Canonical s) {o : PObj} : Canonical (s.storeFrame o) := by
  refine canonical_ite (canonical_foldl h _ fun t i ht => ?_) (canonical_copyBytes h _ _ _)
  exact canonical_ite (canonical_placeWrite ht _ _) (canonical_copyBytes ht _ _ _)

theorem canonical_writeBack (h : Canonical s) {o : PObj} : Canonical (s.writeBack o) :=
  canonical_ite h (canonical_eraseBytes (canonical_ite h (canonical_storeFrame h)) _ _)

theorem canonical_demote (h : Canonical s) {o : PObj} : Canonical (s.demote o) :=
  canonical_ite h (canonical_congr (canonical_writeBack h) rfl rfl rfl)

theorem canonical_unbind (h : Canonical s) {o : PObj} : Canonical (s.unbind o) := canonical_writeBack h

theorem canonical_makeRoom (h : Canonical s) {o : PObj} {n : Nat} (e : s.makeRoom o n = some t) : Canonical t := by
  induction n generalizing s with
  | zero =>
    rw [State.makeRoom] at e
    split at e
    · cases e
      exact h
    · cases e
  | succ n ih =>
    simp only [State.makeRoom] at e
    split at e
    · cases e
      exact h
    · split at e
      · cases e
      · exact ih (canonical_demote h) e

theorem canonical_settle (h : Canonical s) {n : Nat} : Canonical (s.settle n) := by
  induction n generalizing s with
  | zero => exact h
  | succ n ih =>
    rw [State.settle]
    split
    · exact h
    · exact ih (canonical_demote h)

theorem canonical_keepAlm (h : Canonical s) : Canonical s.keepAlm := canonical_ite h h

theorem canonicalOut_execEphemerisPromotion (h : Canonical s) {k : Nat} : CanonicalOut (execEphemerisPromotion k s) := by
  refine canonicalOut_next (canonical_ite h (canonical_settle (canonical_updCtx ?_)))
  exact h

theorem canonical_promote (h : Canonical s) {o : PObj} {n : Nat} : Canonical (s.promote o n) := by
  have h1 : Canonical (if o.tier = 0 then { s.copyBytes o.backing o.addr o.size with fresh := s.fresh + 1 } else s) :=
    canonical_ite (canonical_copyBytes h _ _ _) h
  exact canonical_congr h1 rfl rfl rfl

theorem canonicalOut_execMoveCommit (h : Canonical s) {o : W64} : CanonicalOut (execMoveCommit o s) := by
  refine canonicalOut_next ?_
  split
  · exact h
  · split
    · exact h
    · refine canonical_ite h <| canonical_ite (canonical_updObj h) <| canonical_ite (canonical_promote h) <|
        canonical_ite (canonical_updObj h) ?_
      split
      · exact canonical_updObj h
      · exact canonical_settle (canonical_promote (canonical_makeRoom h ‹_›))

theorem canonicalOut_execSilence (h : Canonical s) {k : Nat} : CanonicalOut (execSilence k s) :=
  canonicalOut_next (canonical_ite h (canonical_ite h (canonical_updCtx h)))

theorem canonicalOut_execSilenceWritebackComplete (h : Canonical s) {k : Nat} :
    CanonicalOut (execSilenceWritebackComplete k s) := by
  refine canonicalOut_next ?_
  split
  · exact h
  · refine canonical_keepAlm (canonical_updCtx ?_)
    exact h

/-! ### The scheduler (spec/14, R358 to R365) -/

theorem canonicalOut_execTailRead (h : Canonical s) {q : BitVec 15} : CanonicalOut (execTailRead q s) := by
  refine canonicalOut_next ?_
  split
  · exact h
  · refine canonical_ite h ?_
    split
    · exact canonical_queueError h
    · exact canonical_updRegion h

theorem canonical_takeEntry (h : Canonical s) {r : Region} : Canonical (s.takeEntry r) :=
  canonical_physWrite (canonical_updRegion h) _ _

theorem canonical_staleLost (h : Canonical s) {q : LRec} : Canonical (s.staleLost q) := canonical_pushEvent h _ _ _ _

theorem canonical_markWaiting (h : Canonical s) {w : W64} {r : Region} : Canonical (s.markWaiting w r) := canonical_updRegion h

theorem canonical_markAll (h : Canonical s) {w : W64} : Canonical (s.markAll w) :=
  canonical_foldl h _ fun _ _ h1 => canonical_markWaiting h1

theorem canonicalOut_execQueueCandidate (h : Canonical s) {q : BitVec 15} : CanonicalOut (execQueueCandidate q s) := by
  refine canonicalOut_next ?_
  split
  · exact h
  · split
    · exact canonical_queueError h
    · exact canonical_takeEntry h
    · exact canonical_markWaiting h
    · exact canonical_ite (canonical_markWaiting h) (canonical_staleLost (canonical_takeEntry h))

theorem canonical_rejectEntry (h : Canonical s) {r : Region} {k : Nat} {q : LRec} {st : LStatus} {c : Option Cause} :
    Canonical (s.rejectEntry r k q st c) := canonical_writeCompletion (canonical_takeEntry h)

theorem canonical_writeTids (h : Canonical s) {c : Ctx} {l : List (Nat × List Byte)} : Canonical (s.writeTids c l).1 := by
  induction l generalizing s with
  | nil => exact h
  | cons p l ih =>
    rw [State.writeTids]
    split
    · exact h
    · exact ih (canonical_devWrite h ‹_›)

theorem canonical_zeroAccs (h : Canonical s) {hd : Header} {ms : List Strand} : Canonical (s.zeroAccs hd ms) :=
  canonical_ite h (canonical_foldl h _ fun _ _ h1 => canonical_scratchWrite h1 _ _)

theorem canonical_admitRec (h : Canonical s) {r : Region} {k : Nat} {q : LRec} {hd : Header} {tids : List (Nat × List Byte)}
    {pl : List Place} : Canonical (s.admitRec r k q hd tids pl) := by
  have hw : Canonical (s.writeTids (s.ctx k) tids).1 := canonical_writeTids h
  simp only [State.admitRec]
  split <;> rename_i e <;> rw [e] at hw
  · exact canonical_rejectEntry hw
  · split
    · exact canonical_rejectEntry hw
    · refine canonical_startLaunch (canonical_keepAlm (canonical_zeroAccs ?_))
      exact canonical_takeEntry (canonical_measure (canonical_touchVa hw))

theorem canonical_restoreLaunch (h : Canonical s) {k : Nat} {d : Bool} {pl : List Place} : Canonical (s.restoreLaunch k d pl) := by
  refine canonical_startLaunch (canonical_refresh (canonical_updCtx ?_))
  exact canonical_foldl h _ fun _ _ h1 => canonical_ite h1 (canonical_restoreStrand h1)

theorem canonical_displace (h : Canonical s) {r : Region} {c : Cand} {n : Nat} {f : (Strand → Bool) → Bool} :
    Canonical (s.displace r c n f) := by
  simp only [State.displace]
  split
  · exact h
  · exact h
  · exact canonical_updRegion (canonical_foldl h _ fun _ _ h1 => canonical_requestSave h1)

theorem canonical_served (h : Canonical s) {r : Region} : Canonical (s.served r) := by
  simp only [State.served]
  split
  · exact h
  · exact h

/-- Whatever the consideration of a candidate gives is canonical. -/
def CanonicalConsider : Consider → Prop
  | .done t => Canonical t
  | .pass t => Canonical t
  | .rejected t => Canonical t

theorem canonicalConsider_ite {c : Prop} {_ : Decidable c} {x y : Consider} (hx : CanonicalConsider x) (hy : CanonicalConsider y) :
    CanonicalConsider (if c then x else y) := by
  split
  · exact hx
  · exact hy

theorem canonicalConsider_consider (h : Canonical s) {pl : List Place} {ws : List (Region × Cand)} {r : Region} {c : Cand} :
    CanonicalConsider (s.consider pl ws r c) := by
  cases c with
  | restore k =>
    exact canonicalConsider_ite h <| canonicalConsider_ite
      (canonicalConsider_ite (canonical_served (canonical_restoreLaunch h)) h) (canonical_displace h)
  | entry q x =>
    have h1 {c : Ctx} : Canonical (s.touchHeader c q.code) := canonical_touchHeader h
    simp only [State.consider]
    split
    · exact canonical_rejectEntry h
    · exact canonical_rejectEntry h1
    · exact canonicalConsider_ite h1 <| canonicalConsider_ite
        (canonicalConsider_ite (canonical_served (canonical_admitRec h1)) h1) (canonical_displace h1)

theorem canonical_decideOver (h : Canonical s) {pl : List Place} {l ws : List (Region × Cand)} :
    Canonical (decideOver pl l ws s) := by
  induction l generalizing s ws with
  | nil => exact h
  | cons p l ih =>
    have hc : CanonicalConsider (s.consider pl ws p.1 p.2) := canonicalConsider_consider h
    rw [decideOver]
    split <;> rename_i e <;> rw [e] at hc
    · exact hc
    · exact ih hc
    · exact ih hc

theorem canonical_headError (h : Canonical s) {r : Region} : Canonical (s.headError r) := by
  simp only [State.headError]
  split
  · exact canonical_queueError h
  · exact h

theorem canonicalOut_execAdmissionDecision (h : Canonical s) {pl : List Place} : CanonicalOut (execAdmissionDecision pl s) :=
  canonicalOut_next (canonical_ite h (canonical_decideOver (canonical_markAll
    (canonical_foldl h _ fun _ _ h1 => canonical_headError h1))))

theorem canonicalOut_execQuantumExpiry (h : Canonical s) {tile : Fin 256} : CanonicalOut (execQuantumExpiry tile s) := by
  refine canonicalOut_next (canonical_ite h ?_)
  split
  · exact canonical_select h
  · exact h

end Sys2Proof.Proofs
end

section
namespace Sys2Proof.Proofs

open Sys2Proof.Machine Sys2Proof.Claims Sys2Proof.Laws

variable {s t : State}

/-! ### Commands of the supervisor (spec/16, R394, R395) -/

/-- A command of the supervisor leaves a canonical state canonical. -/
def KeepsCmd (c : Cmd) : Prop := ∀ a s, Canonical s → Canonical (c a s).1

theorem canonical_postCommand (h : Canonical s) {pg : Fin 16} {op : BitVec 16} {c : Cmd} (hc : KeepsCmd c) :
    Canonical (postCommand pg op c s) :=
  canonical_ite h (canonical_ite (canonical_setPage h) (canonical_setPage (hc _ s h)))

theorem keepsCmd_onHandle {f : Nat → Cmd} (hf : ∀ k, KeepsCmd (f k)) : KeepsCmd (onHandle f) := fun a s h => by
  simp only [onHandle]
  split
  · exact hf _ a s h
  · exact h

theorem canonical_putParts (h : Canonical s) {l : List Part} {bs : List Byte} : Canonical (s.putParts l bs) := by
  induction l generalizing s bs with
  | nil => exact h
  | cons p l ih => exact ih (canonical_physWrite h _ _)

theorem canonical_putPhys (h : Canonical s) {a : Nat} {bs : List Byte} : Canonical (s.putPhys a bs) := canonical_putParts h

theorem canonical_setupQueue (h : Canonical s) {r : Region} : Canonical (s.setupQueue r) := by
  refine canonical_ite h ?_
  split
  · exact canonical_updRegion h
  · exact canonical_queueError h

theorem keepsCmd_loadRegion : KeepsCmd loadRegion := fun a s h => by
  simp only [loadRegion]
  split
  · exact h
  · split
    · split
      · exact h
      · exact canonical_ite (canonical_updRegion h) (canonical_setupQueue (canonical_updRegion h))
    · split
      · exact h
      · split
        · exact h
        · refine canonical_setupQueue ?_
          exact h

theorem keepsCmd_unloadRegion : KeepsCmd unloadRegion := fun a s h => by
  simp only [unloadRegion]
  split
  · exact h
  · split <;> exact h

theorem keepsCmd_createContext {pg : Fin 16} : KeepsCmd (createContext pg) := fun a s h => by
  simp only [createContext]
  split
  · exact h
  · split
    · exact h
    · split
      · exact h
      · split
        · exact h
        · split
          · exact h
          · refine canonical_setPage (canonical_setCtx ?_)
            exact canonical_setAsgens (canonical_writeVa h _ _ _)

theorem canonical_discardIn (h : Canonical s) {k : Nat} {r : Region} : Canonical (s.discardIn k r) := by
  unfold State.discardIn
  extract_lets hd es s1 s2
  have h2 : Canonical s2 := canonical_updRegion (canonical_foldl h es fun _ _ h1 => canonical_writeCompletion h1)
  exact canonical_ite (canonical_queueError h2) h2

theorem keepsCmd_destroyContext {k : Nat} : KeepsCmd (destroyContext k) := fun a s h => by
  unfold destroyContext
  extract_lets s1 s2 s3 s4 s5
  have h1 : Canonical s1 := by
    simp only [s1]
    split
    · exact canonical_finishLaunch h
    · exact h
  have h2 : Canonical s2 := canonical_foldl h1 _ fun _ _ h => canonical_discardIn h
  have h3 : Canonical s3 := by
    simp only [s3]
    split <;> exact h2
  have h4 : Canonical s4 := canonical_foldl h3 _ fun _ _ h => canonical_unbind h
  refine canonical_refresh (canonical_setCtx ?_)
  exact h4

theorem keepsCmd_killLaunch {k : Nat} : KeepsCmd (killLaunch k) := fun a s h => by
  simp only [killLaunch]
  split <;> exact h

theorem keepsCmd_swapContext {k : Nat} : KeepsCmd (swapContext k) := fun a s h => by
  simp only [swapContext]
  split <;> exact h

theorem keepsCmd_setWake {k : Nat} :
    KeepsCmd fun a s => (s.updCtx k fun c => { c with wake := arg a 1, wokeFor := 0 }, .done) := fun _ _ h => h

theorem canonical_reply (h : Canonical s) {f : FaultEntry} {bad : Bool} : Canonical (s.reply f bad) := by
  unfold State.reply
  extract_lets k mine s1 s2 s3
  have h1 : Canonical s1 := h
  have h2 : Canonical s2 := by
    refine canonical_ite (canonical_endLaunch ?_) h1
    exact h1
  refine canonical_refresh ?_
  simp only [s3]
  split
  · obtain ⟨u, hu, ht⟩ := Option.bind_eq_some_iff.1 ‹_›
    exact canonical_writeFHeader (canonical_writeFEntry h2 hu) ht
  · exact canonical_endLaunch h2

theorem keepsCmd_faultReply : KeepsCmd faultReply := fun a s h => by
  simp only [faultReply]
  split
  · exact h
  · simp only [onHandle]
    split
    · split
      · exact h
      · exact canonical_reply h
    · exact h

theorem canonical_stopStrand (h : Canonical s) {m : Strand} : Canonical (s.stopStrand m) := by
  have at_ {x : Strand} : Canonical ((s.updStrand m.id fun _ => x).debugStop x .step x.pc x.pc x.inWindow) :=
    canonical_debugStop (canonical_updStrand h)
  refine canonical_ite h (canonical_ite (canonical_updStrand h) ?_)
  cases m.wait
  case fault => exact canonical_updStrand h
  case stepLaunch => exact h
  case csw => exact canonical_ite at_ at_
  all_goals exact at_

theorem keepsCmd_debugStopCmd {k : Nat} : KeepsCmd (debugStopCmd k) := fun a s h => by
  simp only [debugStopCmd]
  split
  · exact h
  · exact canonical_foldl h _ fun _ _ h1 => canonical_stopStrand h1

theorem canonical_resumeImage (h : Canonical s) {m : Strand} {stp : Bool} : Canonical (s.resumeImage m stp) := by
  unfold State.resumeImage
  extract_lets c base lost
  split
  · refine canonical_ite h ?_
    extract_lets ctl1
    split
    · exact canonical_endTrap h
    · exact canonical_updStrand (canonical_writeImage h ‹_›)
  · exact canonical_endTrap h

theorem keepsCmd_debugResume {k : Nat} : KeepsCmd (debugResume k) := fun a s h => by
  simp only [debugResume]
  split
  · exact h
  · refine canonical_startLaunch (canonical_refresh (canonical_foldl h _ fun t m ht => ?_))
    exact canonical_ite (canonical_resumeImage ht) (canonical_updStrand ht)

theorem keepsCmd_setAsgen : KeepsCmd setAsgen := fun a s h => by
  simp only [setAsgen]
  split
  · exact h
  · split <;> exact h

theorem keepsCmd_pswap {k : Nat} : KeepsCmd (pswap k) := fun a s h => by
  simp only [pswap]
  split
  · exact h
  · split
    · exact h
    · split
      · exact h
      · split
        · exact h
        · exact canonical_setAsgens (canonical_physWrite h _ _)

theorem keepsCmd_objBind {k : Nat} : KeepsCmd (objBind k) := fun a s h => by
  simp only [objBind]
  split
  · exact h
  · split
    · exact h
    · refine canonical_keepAlm ?_
      exact h

theorem keepsCmd_objUnbind {k : Nat} : KeepsCmd (objUnbind k) := fun a s h => by
  simp only [objUnbind]
  split
  · exact h
  · exact canonical_unbind h

/-! ### Fences, failures and resets (spec/16, R397, R405, R408) -/

theorem canonical_fenceLaunch (h : Canonical s) {n k : Nat} : Canonical (s.fenceLaunch n k) := by
  refine canonical_ite h ?_
  split
  · exact canonical_endTrap h
  · exact canonical_endLaunch h

theorem canonical_fenceColl (h : Canonical s) {m : Strand} : Canonical (s.fenceColl m) := by
  simp only [State.fenceColl]
  split
  · exact canonical_ite (canonical_endTrap h) h
  · exact h

theorem canonical_fence (h : Canonical s) {kind idx : Nat} : Canonical (s.fence kind idx) := by
  refine canonical_ite h ?_
  extract_lets p p1 s1 s2
  have h1 : Canonical s1 := by
    refine canonical_pushEvent ?_ _ _ _ _
    exact h
  refine canonical_refresh ?_
  simp only [s2]
  split
  · exact canonical_foldl h1 _ fun _ _ h => canonical_fenceLaunch h
  · exact canonical_foldl h1 _ fun _ _ h => canonical_fenceColl h
  · exact h1

theorem keepsCmd_fenceCmd : KeepsCmd fenceCmd := fun a s h => by
  simp only [fenceCmd]
  split
  · exact canonical_fence h
  · exact h

theorem canonical_dropLink (h : Canonical s) {ual : Bool} {n : Nat} : Canonical (s.dropLink ual n) := by
  simp only [State.dropLink]
  repeat' split
  all_goals exact h

theorem canonicalOut_execUnitFailure (h : Canonical s) {k i : W64} : CanonicalOut (execUnitFailure k i s) :=
  canonicalOut_next (canonical_fence (canonical_ite (canonical_dropLink h) h))

theorem canonicalOut_execWipeComplete (h : Canonical s) : CanonicalOut (execWipeComplete s) :=
  canonicalOut_next (canonical_ite h h)

theorem canonical_fatalStop (h : Canonical s) {n : Nat} : Canonical (s.fatalStop n) :=
  canonical_congr (canonical_pushEvent h _ _ _ _) rfl rfl rfl

theorem canonicalOut_execThermal (h : Canonical s) {die : Fin 4} {x : BitVec 12} : CanonicalOut (execThermal die x s) :=
  canonicalOut_next (canonical_ite (canonical_pushEvent h _ _ _ _) h)

theorem canonicalOut_execThermalTrip (h : Canonical s) {die : Fin 4} {x : BitVec 12} :
    CanonicalOut (execThermalTrip die x s) := canonicalOut_next (canonical_ite (canonical_fatalStop h) h)

/-! ### Links and host memory (spec/15, spec/16) -/

theorem canonical_sendPayload (h : Canonical s) {u : Fin 8} {p : Nat} {l : List Byte} : Canonical (s.sendPayload u p l) :=
  canonical_ite h h

theorem canonical_recvPayload (h : Canonical s) {u : Fin 8} {p n : Nat} {l : List Byte} : Canonical (s.recvPayload u p n l) :=
  canonical_ite h h

theorem canonical_sendOver (h : Canonical s) {u : Fin 8} {p : Nat × CollMsg} : Canonical (s.sendOver u p) :=
  canonical_congr (canonical_sendPayload h) rfl rfl rfl

theorem canonical_sendMessage (h : Canonical s) {u : Fin 8} {p n : Nat} : Canonical (s.sendMessage u p n) := by
  simp only [State.sendMessage]
  split
  · exact canonical_ite (canonical_sendOver h) h
  · exact h

theorem canonical_ackMessage (h : Canonical s) {u : Fin 8} {p : Nat} {x : CollMsg} : Canonical (s.ackMessage u p x) :=
  canonical_ite h h

theorem canonical_resend (h : Canonical s) {u : Fin 8} : Canonical (s.resend u) := by
  refine canonical_foldl ?_ _ fun _ _ h1 => canonical_sendOver h1
  exact h

theorem canonical_recvMessage (h : Canonical s) {u : Fin 8} {p n : Nat} {x : CollMsg} {l : List Byte} :
    Canonical (s.recvMessage u p n x l) :=
  canonical_ite (canonical_ite (canonical_takeMessage (canonical_recvPayload h)) (canonical_recvPayload h)) h

theorem canonicalOut_execLinkUp (h : Canonical s) {ual : Bool} {n : Fin 13} {cmp : Bool} {w : BitVec 5} {v : BitVec 3} :
    CanonicalOut (execLinkUp ual n cmp w v s) := by
  refine canonicalOut_next (canonical_ite ?_ (canonical_ite h h))
  split
  · refine canonical_ite (canonical_resend ?_) h
    exact h
  · exact h

theorem canonical_hostWrite (h : Canonical s) {w : HeldWrite} : Canonical (s.hostWrite w) :=
  canonical_ite h (canonical_rawWrite h _ _)

theorem canonicalOut_execHostMemoryRequest (h : Canonical s) {w : Bool} {pa : W64} {n : Fin 65} {d : Line} :
    CanonicalOut (execHostMemoryRequest w pa n d s) :=
  canonicalOut_next <| canonical_ite h <| canonical_ite (canonical_ite h h) <| canonical_ite (canonical_hostWrite h) h

theorem canonicalOut_execDevloadInterval (h : Canonical s) {p : Fin 12} {d : Fin 8} {l : DevLoad} :
    CanonicalOut (execDevloadInterval p d l s) := canonicalOut_next (canonical_ite h h)

theorem canonical_logRow (h : Canonical s) {pa : Nat} {b : BitVec 5} {r : BitVec 18} : Canonical (s.logRow pa b r) := by
  simp only [State.logRow]
  split <;> exact h

theorem canonical_countCe (h : Canonical s) {q : Nat} : Canonical (s.countCe q) := by
  refine canonical_ite (canonical_pushEvent ?_ _ _ _ _) ?_ <;> exact h

theorem canonical_eccFound (h : Canonical s) {a : Nat} {x : EccResult} {b : BitVec 5} {r : BitVec 18} :
    Canonical (s.eccFound a x b r) := by
  cases x with
  | clean => exact h
  | correctable => exact canonical_logRow (canonical_countCe h)
  | uncorrectable =>
    refine canonical_pushEvent ?_ _ _ _ _
    exact h

theorem canonicalOut_execScrubAtom (h : Canonical s) {pa : W64} {x : EccResult} {b : BitVec 5} {r : BitVec 18} :
    CanonicalOut (execScrubAtom pa x b r s) := by
  refine canonicalOut_next (canonical_ite h (canonical_ite ?_ (canonical_eccFound ?_))) <;> exact h

/-! ### Time-keeping (spec/14, R367 to R371) -/

theorem canonicalOut_execTodFrame (h : Canonical s) {f : BitVec 96} : CanonicalOut (execTodFrame f s) := by
  refine canonicalOut_next ?_
  simp only
  split
  · exact h
  · exact canonical_ite h h

theorem canonicalOut_execPpsTimeout (h : Canonical s) : CanonicalOut (execPpsTimeout s) := by
  refine canonicalOut_next ?_
  split
  · exact h
  · exact canonical_ite h h

theorem canonicalOut_execReferenceMeasurement (h : Canonical s) {o r : W64} :
    CanonicalOut (execReferenceMeasurement o r s) := canonicalOut_next (canonical_ite h h)

theorem canonicalOut_execHoldover (h : Canonical s) : CanonicalOut (execHoldover s) := canonicalOut_next (canonical_ite h h)

/-! ### Checkpoint, restore, life cycle and attestation (spec/15, R391; spec/16, R404, R405) -/

theorem canonical_layImage (h : Canonical s) {l : List (Nat × Nat)} {bs : List Byte} : Canonical (s.layImage l bs) := by
  induction l generalizing s bs with
  | nil => exact h
  | cons p l ih => exact ih (canonical_putPhys h)

theorem keepsCmd_startCheckpoint {pg : Fin 16} : KeepsCmd (startCheckpoint pg) := fun a s h => by
  simp only [startCheckpoint]
  split
  · exact h
  · split
    · exact h
    · split
      · exact h
      · refine canonical_foldl ?_ _ fun _ _ h1 => canonical_requestSave h1
        exact h

theorem canonical_recordImage (h : Canonical s) {c : Ckpt} {l : List (Nat × Nat)} {head : List Byte} :
    Canonical { s with
      ckpt := none, fresh := s.fresh + 1, images := if c.fenced then s.images else s.images ++ [s.snapshot l head] } := by
  refine ⟨h.1, h.2.1, ?_⟩
  simp only
  split
  · exact h.2.2
  · intro x hx
    rcases List.mem_append.1 hx with hx | hx
    · exact h.2.2 x hx
    · rw [List.mem_singleton.1 hx]
      exact wf_snapshot h _ _

theorem canonicalOut_execCheckpointComplete (h : Canonical s) : CanonicalOut (execCheckpointComplete s) := by
  unfold execCheckpointComplete
  refine canonicalOut_next ?_
  cases s.ckpt with
  | none => exact h
  | some c =>
    refine canonical_ite h ?_
    extract_lets head images s1 s2 pg p
    have laid : Canonical s1 := canonical_layImage (canonical_recordImage h)
    clear_value s1
    have heldDone : Canonical s2 := canonical_foldl (canonical_setHeld laid) _ fun _ _ h1 => canonical_hostWrite h1
    exact canonical_setPage heldDone

theorem keepsCmd_restoreCmd : KeepsCmd restoreCmd := fun a _ h => canonical_restoreCmd h a

theorem keepsCmd_lcChange {pg : Fin 16} : KeepsCmd (lcChange pg) := by
  intro a s h
  unfold lcChange
  extract_lets target p
  split
  · exact h
  · split
    · exact h
    · extract_lets t
      have fused : Canonical t := h
      clear_value t
      exact canonical_setPage (canonical_wipe fused true)

theorem keepsCmd_attest : KeepsCmd attest := fun a s h => by
  simp only [attest]
  split
  · exact h
  · split
    · exact h
    · split
      · exact h
      · exact canonical_putPhys h

theorem canonicalOut_execBadcmd (h : Canonical s) {pg : Fin 16} {op : BitVec 16} : CanonicalOut (execBadcmd pg op s) :=
  canonicalOut_next (canonical_ite h (canonical_postCommand h fun _ _ h => h))

theorem canonicalOut_execSupervisorCommandComplete (h : Canonical s) {pg : Fin 16} :
    CanonicalOut (execSupervisorCommandComplete pg s) := by
  refine canonicalOut_next ?_
  simp only
  split
  · exact h
  · exact canonical_ite (canonical_setPage h) h

end Sys2Proof.Proofs
end

section
namespace Sys2Proof.Proofs

open Sys2Proof.Machine Sys2Proof.Claims Sys2Proof.Laws

variable {s t : State}

/-! ### Registers (spec/16, R392) -/

theorem canonicalOut_regWrite (h : Canonical s) {f : State → State} (hf : ∀ t, Canonical t → Canonical (f t)) :
    CanonicalOut (regWrite f s) := canonicalOut_next (canonical_ite (hf s h) h)

theorem canonical_writeRetctl (h : Canonical s) {die : Fin 4} {n : Fin 8} {v : W64} : Canonical (s.writeRetctl die n v) :=
  canonical_ite (canonical_ite h h) h

theorem canonical_writeL1cfg (h : Canonical s) {tile : Nat} {v : W64} : Canonical (s.writeL1cfg tile v) := h

theorem canonical_writeEphctl (h : Canonical s) {v : W64} : Canonical (s.writeEphctl v) := by
  have demoted : Canonical (if s.eph.en then s.objs.foldl State.demote s else s) :=
    canonical_ite (canonical_foldl h _ fun _ _ h1 => canonical_demote h1) h
  refine canonical_ite (canonical_ite ?_ ?_) ?_
  · exact h
  · exact h
  · exact demoted

theorem canonical_writeAlmcap (h : Canonical s) {die : Nat} {v : W64} : Canonical (s.writeAlmcap die v) := canonical_ite h h

theorem canonical_writeMctl (h : Canonical s) {v : W64} : Canonical (s.writeMctl v) := canonical_ite h h

theorem canonical_writeMepoch (h : Canonical s) {v : W64} : Canonical (s.writeMepoch v) := canonical_ite h h

theorem canonical_writeMslew (h : Canonical s) {v : W64} : Canonical (s.writeMslew v) := canonical_ite h h

theorem canonical_writeScrctl (h : Canonical s) {v : W64} : Canonical (s.writeScrctl v) := canonical_ite h h

theorem canonical_writeMiss (h : Canonical s) {r : Nat} {v : W64} : Canonical (s.writeMiss r v) := canonical_ite h h

theorem canonical_writeRowLog (h : Canonical s) {k : Nat} {v : W64} : Canonical (s.writeRowLog k v) := canonical_ite h h

theorem canonical_writePlim (h : Canonical s) {k : Nat} {v : W64} : Canonical (s.writePlim k v) := canonical_ite h h

theorem canonical_writeDbase (h : Canonical s) {p d : Nat} {v : W64} : Canonical (s.writeDbase p d v) := canonical_ite h h

theorem canonical_writeDlim (h : Canonical s) {p d : Nat} {v : W64} : Canonical (s.writeDlim p d v) := canonical_ite h h

theorem canonical_onQueue (h : Canonical s) {q : Fin 5} {f : EvQueue → EvQueue} : Canonical (s.onQueue q f) := by
  refine canonical_ite (canonical_flushEvents ?_) (canonical_flushFaults ?_ _)
  · exact h
  · exact h

theorem canonical_writeQbase (h : Canonical s) {q : Fin 5} {v : W64} : Canonical (s.writeQbase q v) := canonical_onQueue h

theorem canonical_writeQlog (h : Canonical s) {q : Fin 5} {v : W64} : Canonical (s.writeQlog q v) :=
  canonical_ite h (canonical_onQueue h)

theorem canonical_writeQhead (h : Canonical s) {q : Fin 5} {v : W64} : Canonical (s.writeQhead q v) :=
  canonical_ite h (canonical_onQueue h)

theorem canonical_writePkgnum (h : Canonical s) {v : W64} : Canonical (s.writePkgnum v) := canonical_ite h h

theorem canonical_writePcap (h : Canonical s) {v : W64} : Canonical (s.writePcap v) := canonical_ite h h

theorem canonical_writeCmd (h : Canonical s) {pg : Fin 16} {v : W64} : Canonical (s.writeCmd pg v) := by
  refine canonical_postCommand h ?_
  split
  · exact keepsCmd_loadRegion
  · exact keepsCmd_unloadRegion
  · exact keepsCmd_createContext
  · exact keepsCmd_onHandle fun _ => keepsCmd_destroyContext
  · exact keepsCmd_onHandle fun _ => keepsCmd_killLaunch
  · exact keepsCmd_onHandle fun _ => keepsCmd_swapContext
  · exact keepsCmd_onHandle fun _ => keepsCmd_setWake
  · exact keepsCmd_faultReply
  · exact keepsCmd_onHandle fun _ => keepsCmd_debugStopCmd
  · exact keepsCmd_onHandle fun _ => keepsCmd_debugResume
  · exact keepsCmd_setAsgen
  · exact keepsCmd_onHandle fun _ => keepsCmd_objBind
  · exact keepsCmd_onHandle fun _ => keepsCmd_objUnbind
  · exact keepsCmd_onHandle fun _ => keepsCmd_pswap
  · exact keepsCmd_startCheckpoint
  · exact keepsCmd_restoreCmd
  · exact keepsCmd_fenceCmd
  · exact keepsCmd_lcChange
  · exact keepsCmd_attest
  · exact fun _ _ h => h

theorem canonical_writePage (h : Canonical s) {pg : Fin 16} {o : Nat} {v : W64} : Canonical (s.writePage pg o v) :=
  canonical_ite h (canonical_ite (canonical_writeCmd h) h)

theorem canonical_writeQueue (h : Canonical s) {q : Fin 5} {o : Nat} {v : W64} : Canonical (s.writeQueue q o v) := by
  unfold State.writeQueue
  split
  · exact canonical_writeQbase h
  · exact canonical_writeQlog h
  · exact canonical_writeQhead h
  · exact h

theorem canonical_writeMeridian (h : Canonical s) {o : Nat} {v : W64} : Canonical (s.writeMeridian o v) := by
  unfold State.writeMeridian
  split
  · exact canonical_writeMctl h
  · exact canonical_writeMepoch h
  · exact canonical_writeMslew h
  · exact h

theorem canonical_writeEphemeris (h : Canonical s) {o : Nat} {v : W64} : Canonical (s.writeEphemeris o v) := by
  unfold State.writeEphemeris
  split
  · exact canonical_ite h h
  · exact canonical_ite h h
  · exact canonical_writeEphctl h
  · exact canonical_writeAlmcap h
  · exact canonical_writeAlmcap h
  · exact canonical_writeAlmcap h
  · exact canonical_writeAlmcap h
  · exact h

theorem canonical_writeHbm (h : Canonical s) {o : Nat} {v : W64} : Canonical (s.writeHbm o v) :=
  canonical_ite (canonical_writeScrctl h) <| canonical_ite h <| canonical_ite h <| canonical_ite h <|
    canonical_ite (canonical_ite h h) <| canonical_ite (canonical_writeMiss h) <| canonical_ite (canonical_writeRowLog h) h

theorem canonical_writeResidency (h : Canonical s) {die : Fin 4} {o : Nat} {v : W64} :
    Canonical (s.writeResidency die o v) := by
  refine canonical_ite h ?_
  extract_lets n r unit
  split
  · exact canonical_ite h h
  · exact canonical_ite h h
  · exact canonical_writeRetctl h
  · exact h

theorem canonical_writeCxl (h : Canonical s) {n o : Nat} {v : W64} : Canonical (s.writeCxl n o v) :=
  canonical_ite h (canonical_ite (canonical_writeDbase h) (canonical_writeDlim h))

theorem canonical_writePlatform (h : Canonical s) {o : Nat} {v : W64} : Canonical (s.writePlatform o v) := by
  unfold State.writePlatform
  split
  · exact canonical_writePcap h
  · exact h
  · exact h

theorem canonical_writeReg (h : Canonical s) {off : Nat} {v : W64} : Canonical (s.writeReg off v) := by
  refine canonical_ite h (canonical_ite (canonical_writePkgnum h) ?_)
  split
  · exact canonical_writePage h
  split
  · exact canonical_writeQueue h
  split
  · exact canonical_writeQueue h
  split
  · exact canonical_writeMeridian h
  split
  · exact canonical_writeEphemeris h
  split
  · exact canonical_writeHbm h
  split
  · exact canonical_writePlim h
  split
  · exact canonical_writeResidency h
  split
  · exact canonical_ite (canonical_writeL1cfg h) h
  split
  · exact canonical_writeCxl h
  split
  · exact canonical_writePlatform h
  · exact h

theorem canonical_hostRegWrite (h : Canonical s) {off n : Nat} {v : W64} : Canonical (s.hostRegWrite off n v) :=
  canonical_ite (canonical_writeReg h) h

/-! ### Inputs and the passing of time (log 80; spec/14, R367) -/

theorem canonical_sramDouble (h : Canonical s) {tile : Fin 256} {off : Nat} {held : Option W64} :
    Canonical (s.sramDouble tile off held) := by
  refine canonical_ite h (canonical_ite ?_ ?_)
  · exact h
  · split <;> exact h

theorem canonical_readError (h : Canonical s) {pa : Nat} {r : EccResult} {bank : BitVec 5} {row : BitVec 18} :
    Canonical (s.readError pa r bank row) := canonical_ite h (canonical_eccFound h)

theorem canonical_cxlDown (h : Canonical s) {n : Fin 13} : Canonical (s.cxlDown n) :=
  canonical_ite (canonical_dropLink h) (canonical_fence (canonical_dropLink h))

theorem canonical_input (h : Canonical s) {x : Input} : Canonical (s.input x) := by
  cases x with
  | sramCorrected tile => exact h
  | sramDouble tile off held => exact canonical_sramDouble h
  | llcDouble pa => exact h
  | readError pa r bank row => exact canonical_readError h
  | hostRead pa bad => exact h
  | peerGm on => exact h
  | retained die n => exact canonical_ite h h
  | miss r => exact h
  | replay u => exact h
  | cxlMode on => exact h
  | linkDown n => exact canonical_cxlDown h
  | ptm sec => exact h
  | fabricSend u peer payload => exact canonical_sendPayload h
  | fabricRecv u peer len bs => exact canonical_recvPayload h
  | collSend u peer n => exact canonical_sendMessage h
  | collAck u peer x => exact canonical_ackMessage h
  | collRecv u peer len head bs => exact canonical_recvMessage h
  | windowWrite off n v => exact canonical_hostRegWrite h
  | outsideWrite pa n data => exact canonical_ite h h

theorem canonical_pass (h : Canonical s) {units cycles : Nat} : Canonical (s.pass units cycles) := by
  have ticked : Canonical ((s.stamp.markAll s.mtime).tick units cycles) := canonical_markAll (s := s.stamp) h
  exact canonical_settle (canonical_keepAlm (canonical_markAll ticked))

end Sys2Proof.Proofs
end

section
namespace Sys2Proof.Proofs

open Sys2Proof.Machine Sys2Proof.Claims Sys2Proof.Laws

variable {s t : State}

/-! ### Every instruction and every event, by the lemma of what it does -/

theorem canonicalOut_alu1 (h : Canonical s) {hd : Hdr} {l : Nat} {d a : SReg} {f : W64 → W64} :
    CanonicalOut (alu1 hd l d a f s) := canonicalOut_aluWord h

theorem canonicalOut_alu2 (h : Canonical s) {hd : Hdr} {l : Nat} {d a b : SReg} {f : W64 → W64 → W64} :
    CanonicalOut (alu2 hd l d a b f s) := canonicalOut_aluWord h

theorem canonicalOut_intWord (h : Canonical s) {hd : Hdr} {i : Instr} {l : Nat} {d a : VReg} {b : OpVS} {ty : ETy} {sat z : Bool}
    {f : Int → Int → Int} : CanonicalOut (intWord hd i l d a b ty sat z f s) := canonicalOut_elemWord h

theorem canonicalOut_bitWord (h : Canonical s) {hd : Hdr} {i : Instr} {d a : VReg} {b : OpVS} {ty : ETy} {z : Bool}
    {f : Nat → Nat → Nat} : CanonicalOut (bitWord hd i d a b ty z f s) := canonicalOut_elemWord h

theorem canonicalOut_shiftIWord (h : Canonical s) {hd : Hdr} {i : Instr} {d a : VReg} {n : Fin 64} {ty : ETy} {z : Bool}
    {f : Nat → Nat → Nat → Nat} : CanonicalOut (shiftIWord hd i d a n ty z f s) := canonicalOut_elemWord h

theorem canonicalOut_fp1 (h : Canonical s) {hd : Hdr} {i : Instr} {l : Nat} {d a : OpVC} {ty : ETy} {z : Bool} :
    CanonicalOut (fp1 hd i l d a ty z s) := canonicalOut_elemWord h

theorem canonicalOut_fp2 (h : Canonical s) {hd : Hdr} {i : Instr} {l : Nat} {d a : OpVC} {b : OpVSC} {ty : ETy} {k z : Bool} :
    CanonicalOut (fp2 hd i l d a b ty k z s) := canonicalOut_elemWord h

theorem canonicalOut_fp3 (h : Canonical s) {hd : Hdr} {i : Instr} {d a : OpVC} {b c : OpVSC} {ty : ETy} {z : Bool} :
    CanonicalOut (fp3 hd i d a b c ty z s) := canonicalOut_elemWord h

theorem canonicalOut_exec (h : Canonical s) (i : Instr) : CanonicalOut (exec i s) := by
  cases i with
  | sel | movi | movih | lea | bfi =>
    simp only [exec_sel, exec_movi, exec_movih, exec_lea, exec_bfi]
    exact canonicalOut_aluWord h
  | addi | andi | ori | xori | shlI | shrI | sarI | rolI | clz | ctz | popc | mov | bfx =>
    simp only [exec_addi, exec_andi, exec_ori, exec_xori, exec_shlI, exec_shrI, exec_sarI, exec_rolI, exec_clz,
      exec_ctz, exec_popc, exec_mov, exec_bfx]
    exact canonicalOut_alu1 h
  | add | sub | mul | mulh | mulhn | div | divn | rem | remn | and | or | xor | andn | shl | shr | sar | rol | min
  | max | minn | maxn =>
    simp only [exec_add, exec_sub, exec_mul, exec_mulh, exec_mulhn, exec_div, exec_divn, exec_rem, exec_remn,
      exec_and, exec_or, exec_xor, exec_andn, exec_shl, exec_shr, exec_sar, exec_rol, exec_min, exec_max, exec_minn,
      exec_maxn]
    exact canonicalOut_alu2 h
  | cmp | cmpi | tstb | plop =>
    simp only [exec_cmp, exec_cmpi, exec_tstb, exec_plop]
    exact canonicalOut_pairWord h
  | vany | vall =>
    simp only [exec_vany, exec_vall]
    exact canonicalOut_maskWord h
  | vbtst | mlop | vcmp | vthr =>
    simp only [exec_vbtst, exec_mlop, exec_vcmp, exec_vthr]
    exact canonicalOut_maskPairWord h
  | vimad | vmov =>
    simp only [exec_vimad, exec_vmov]
    exact canonicalOut_elemWord h
  | viadd | visub | vimul =>
    simp only [exec_viadd, exec_visub, exec_vimul]
    exact canonicalOut_intWord h
  | vand | vor | vxor | vshl | vshr | vsar =>
    simp only [exec_vand, exec_vor, exec_vxor, exec_vshl, exec_vshr, exec_vsar]
    exact canonicalOut_bitWord h
  | vshlI | vshrI | vsarI =>
    simp only [exec_vshlI, exec_vshrI, exec_vsarI]
    exact canonicalOut_shiftIWord h
  | vabs | vneg | vsqrt | vrcp | vrsq | vexp2 | vlog2 =>
    simp only [exec_vabs, exec_vneg, exec_vsqrt, exec_vrcp, exec_vrsq, exec_vexp2, exec_vlog2]
    exact canonicalOut_fp1 h
  | vadd | vsub | vmul | vmin | vmax | vdiv =>
    simp only [exec_vadd, exec_vsub, exec_vmul, exec_vmin, exec_vmax, exec_vdiv]
    exact canonicalOut_fp2 h
  | vfma | vfms =>
    simp only [exec_vfma, exec_vfms]
    exact canonicalOut_fp3 h
  | vbcast | vbcastI | viota | vperm | vrot | vrotI | vdqt =>
    simp only [exec_vbcast, exec_vbcastI, exec_viota, exec_vperm, exec_vrot, exec_vrotI, exec_vdqt]
    exact canonicalOut_vecWord h
  | vextr | vextrI | mcnt | mfirst | vred =>
    simp only [exec_vextr, exec_vextrI, exec_mcnt, exec_mfirst, exec_vred]
    exact canonicalOut_scalWord h
  | vcomp | mfirstM | vcvt | vqnt | vsel =>
    simp only [exec_vcomp, exec_mfirstM, exec_vcvt, exec_vqnt, exec_vsel]
    exact canonicalOut_laneWord h fun _ _ h1 => h1
  | vscan => rw [exec_vscan]; exact canonicalOut_laneWord h fun _ _ h1 => h1
  | prep | prepReg | mfsr | live | liveP | liveVl | liveVh | nop | fenceAcq =>
    simp only [exec_prep, exec_prepReg, exec_mfsr, exec_live, exec_liveP, exec_liveVl, exec_liveVh, exec_nop,
      exec_fenceAcq]
    exact canonicalOut_seqWord h fun _ h1 => h1
  | mtsr => rw [exec_mtsr]; exact canonicalOut_seqWord h fun _ h1 => canonical_setSpr h1
  | fenceFull =>
    rw [exec_fenceFull]
    exact canonicalOut_seqWord h fun _ h1 => canonicalEff_releaseFirst h1 fun _ h2 => h2
  | ldv | ldg =>
    simp only [exec_ldv, exec_ldg]
    exact canonicalOut_laneLoad h
  | aadd | amax | amin | aand | aor | axor | axchg | acas =>
    simp only [exec_aadd, exec_amax, exec_amin, exec_aand, exec_aor, exec_axor, exec_axchg, exec_acas]
    exact canonicalOut_atomicWord h
  | tidset | tidsetReg =>
    simp only [exec_tidset, exec_tidsetReg]
    exact canonicalOut_tidsetWord h
  | tidget | tidgetReg =>
    simp only [exec_tidget, exec_tidgetReg]
    exact canonicalOut_tidgetWord h
  | mma | mmas | mmat | aclr | acvt | amov | amovTid | cpy | gthr | gidx | xrun | xpost | xwait | waitk | kvh
  | kvlk | kvins | kvpin | kvunp | kvmap | kvmapRel | kvpub | attn | cred | cgth | csnd | crcv | launch =>
    simp only [exec_mma, exec_mmas, exec_mmat, exec_aclr, exec_acvt, exec_amov, exec_amovTid, exec_cpy, exec_gthr,
      exec_gidx, exec_xrun, exec_xpost, exec_xwait, exec_waitk, exec_kvh, exec_kvlk, exec_kvins, exec_kvpin,
      exec_kvunp, exec_kvmap, exec_kvmapRel, exec_kvpub, exec_attn, exec_cred, exec_cgth, exec_csnd, exec_crcv,
      exec_launch]
    exact canonicalOut_engWord h
  | xmov | xmovA | xmovR | xmovH =>
    simp only [exec_xmov, exec_xmovA, exec_xmovR, exec_xmovH]
    exact canonicalOut_xMove h
  | xfer => rw [exec_xfer]; exact canonicalOut_execXfer h
  | xferL => rw [exec_xferL]; exact canonicalOut_execXferL h
  | loop => rw [exec_loop]; exact canonicalOut_execLoop h
  | lbrk => rw [exec_lbrk]; exact canonicalOut_execLbrk h
  | trap => rw [exec_trap]; exact canonicalOut_execTrap h
  | rft => rw [exec_rft]; exact canonicalOut_execRft h
  | cswYield => rw [exec_cswYield]; exact canonicalOut_execCswYield h
  | cswParkt => rw [exec_cswParkt]; exact canonicalOut_execCswParkt h
  | cswParka => rw [exec_cswParka]; exact canonicalOut_execCswParka h
  | halt => rw [exec_halt]; exact canonicalOut_execHalt h
  | waitt => rw [exec_waitt]; exact canonicalOut_execWaitt h
  | phase => rw [exec_phase]; exact canonicalOut_execPhase h
  | bkpt => rw [exec_bkpt]; exact canonicalOut_execBkpt h
  | ld => rw [exec_ld]; exact canonicalOut_execLd h
  | st => rw [exec_st]; exact canonicalOut_execSt h
  | stv => rw [exec_stv]; exact canonicalOut_execStv h
  | stg => rw [exec_stg]; exact canonicalOut_execStg h
  | ldl => rw [exec_ldl]; exact canonicalOut_execLdl h
  | stl => rw [exec_stl]; exact canonicalOut_execStl h
  | vldl => rw [exec_vldl]; exact canonicalOut_execVldl h
  | vstl => rw [exec_vstl]; exact canonicalOut_execVstl h
  | sideLogDrain => rw [exec_sideLogDrain]; exact canonicalOut_execSideLogDrain h
  | vared => rw [exec_vared]; exact canonicalOut_execVared h
  | fenceRel => rw [exec_fenceRel]; exact canonicalOut_execFenceRel h
  | waita => rw [exec_waita]; exact canonicalOut_execWaita h
  | waitaSatisfied => rw [exec_waitaSatisfied]; exact canonicalOut_execWaitaSatisfied h
  | barSync => rw [exec_barSync]; exact canonicalOut_execBarSync h
  | barArv => rw [exec_barArv]; exact canonicalOut_execBarArv h
  | barWait => rw [exec_barWait]; exact canonicalOut_execBarWait h
  | cinv => rw [exec_cinv]; exact canonicalOut_execCinv h
  | cwb => rw [exec_cwb]; exact canonicalOut_execCwb h
  | pref => rw [exec_pref]; exact canonicalOut_execPref h
  | atTimeReached => rw [exec_atTimeReached]; exact canonicalOut_execAtTimeReached h
  | commandStart => rw [exec_commandStart]; exact canonicalOut_execCommandStart h
  | engineMicroStep => rw [exec_engineMicroStep]; exact canonicalOut_execEngineMicroStep h
  | engineCommandComplete => rw [exec_engineCommandComplete]; exact canonicalOut_execEngineCommandComplete h
  | collectiveMessage => rw [exec_collectiveMessage]; exact canonicalOut_execCollectiveMessage h
  | xld => rw [exec_xld]; exact canonicalOut_execXld h
  | xst => rw [exec_xst]; exact canonicalOut_execXst h
  | xdec => rw [exec_xdec]; exact canonicalOut_execXdec h
  | xenc => rw [exec_xenc]; exact canonicalOut_execXenc h
  | xqnt => rw [exec_xqnt]; exact canonicalOut_execXqnt h
  | xbp => rw [exec_xbp]; exact canonicalOut_execXbp h
  | xloop => rw [exec_xloop]; exact canonicalOut_execXloop h
  | xsXpost => rw [exec_xsXpost]; exact canonicalOut_execXsXpost h
  | xsXwait => rw [exec_xsXwait]; exact canonicalOut_execXsXwait h
  | xend => rw [exec_xend]; exact canonicalOut_execXend h
  | stallBound => rw [exec_stallBound]; exact canonicalOut_execStallBound h
  | timedWaitExpiry => rw [exec_timedWaitExpiry]; exact canonicalOut_execTimedWaitExpiry h
  | parkaWake => rw [exec_parkaWake]; exact canonicalOut_execParkaWake h
  | checkpointComplete => rw [exec_checkpointComplete]; exact canonicalOut_execCheckpointComplete h
  | badcmd => rw [exec_badcmd]; exact canonicalOut_execBadcmd h
  | supervisorCommandComplete => rw [exec_supervisorCommandComplete]; exact canonicalOut_execSupervisorCommandComplete h
  | wipeComplete => rw [exec_wipeComplete]; exact canonicalOut_execWipeComplete h
  | todFrame => rw [exec_todFrame]; exact canonicalOut_execTodFrame h
  | referenceMeasurement => rw [exec_referenceMeasurement]; exact canonicalOut_execReferenceMeasurement h
  | holdover => rw [exec_holdover]; exact canonicalOut_execHoldover h
  | thermal => rw [exec_thermal]; exact canonicalOut_execThermal h
  | thermalTrip => rw [exec_thermalTrip]; exact canonicalOut_execThermalTrip h
  | unitFailure => rw [exec_unitFailure]; exact canonicalOut_execUnitFailure h
  | devloadInterval => rw [exec_devloadInterval]; exact canonicalOut_execDevloadInterval h
  | hostMemoryRequest => rw [exec_hostMemoryRequest]; exact canonicalOut_execHostMemoryRequest h
  | tailRead => rw [exec_tailRead]; exact canonicalOut_execTailRead h
  | queueCandidate => rw [exec_queueCandidate]; exact canonicalOut_execQueueCandidate h
  | admissionDecision => rw [exec_admissionDecision]; exact canonicalOut_execAdmissionDecision h
  | strandSaveComplete => rw [exec_strandSaveComplete]; exact canonicalOut_execStrandSaveComplete h
  | notbeforeReached => rw [exec_notbeforeReached]; exact canonicalOut_execNotbeforeReached h
  | quantumExpiry => rw [exec_quantumExpiry]; exact canonicalOut_execQuantumExpiry h
  | launchComplete => rw [exec_launchComplete]; exact canonicalOut_execLaunchComplete h
  | ephemerisPromotion => rw [exec_ephemerisPromotion]; exact canonicalOut_execEphemerisPromotion h
  | silence => rw [exec_silence]; exact canonicalOut_execSilence h
  | silenceWritebackComplete => rw [exec_silenceWritebackComplete]; exact canonicalOut_execSilenceWritebackComplete h
  | scrubAtom => rw [exec_scrubAtom]; exact canonicalOut_execScrubAtom h
  | ppsTimeout => rw [exec_ppsTimeout]; exact canonicalOut_execPpsTimeout h
  | linkUp => rw [exec_linkUp]; exact canonicalOut_execLinkUp h
  | moveCommit => rw [exec_moveCommit]; exact canonicalOut_execMoveCommit h
  | regionLoad => rw [exec_regionLoad]; exact canonicalOut_next (canonical_postCommand h keepsCmd_loadRegion)
  | regionUnload => rw [exec_regionUnload]; exact canonicalOut_next (canonical_postCommand h keepsCmd_unloadRegion)
  | create => rw [exec_create]; exact canonicalOut_next (canonical_postCommand h keepsCmd_createContext)
  | destroy =>
    rw [exec_destroy]
    exact canonicalOut_next (canonical_postCommand h (keepsCmd_onHandle fun _ => keepsCmd_destroyContext))
  | kill =>
    rw [exec_kill]
    exact canonicalOut_next (canonical_postCommand h (keepsCmd_onHandle fun _ => keepsCmd_killLaunch))
  | swapout =>
    rw [exec_swapout]
    exact canonicalOut_next (canonical_postCommand h (keepsCmd_onHandle fun _ => keepsCmd_swapContext))
  | setwake =>
    rw [exec_setwake]
    exact canonicalOut_next (canonical_postCommand h (keepsCmd_onHandle fun _ => keepsCmd_setWake))
  | faultReply => rw [exec_faultReply]; exact canonicalOut_next (canonical_postCommand h keepsCmd_faultReply)
  | debugStop =>
    rw [exec_debugStop]
    exact canonicalOut_next (canonical_postCommand h (keepsCmd_onHandle fun _ => keepsCmd_debugStopCmd))
  | debugResume =>
    rw [exec_debugResume]
    exact canonicalOut_next (canonical_postCommand h (keepsCmd_onHandle fun _ => keepsCmd_debugResume))
  | setasgen => rw [exec_setasgen]; exact canonicalOut_next (canonical_postCommand h keepsCmd_setAsgen)
  | objBind =>
    rw [exec_objBind]
    exact canonicalOut_next (canonical_postCommand h (keepsCmd_onHandle fun _ => keepsCmd_objBind))
  | objUnbind =>
    rw [exec_objUnbind]
    exact canonicalOut_next (canonical_postCommand h (keepsCmd_onHandle fun _ => keepsCmd_objUnbind))
  | pswap =>
    rw [exec_pswap]
    exact canonicalOut_next (canonical_postCommand h (keepsCmd_onHandle fun _ => keepsCmd_pswap))
  | checkpoint => rw [exec_checkpoint]; exact canonicalOut_next (canonical_postCommand h keepsCmd_startCheckpoint)
  | restore => rw [exec_restore]; exact canonicalOut_next (canonical_postCommand h keepsCmd_restoreCmd)
  | fenceUnit => rw [exec_fenceUnit]; exact canonicalOut_next (canonical_postCommand h keepsCmd_fenceCmd)
  | lcChange => rw [exec_lcChange]; exact canonicalOut_next (canonical_postCommand h keepsCmd_lcChange)
  | attest => rw [exec_attest]; exact canonicalOut_next (canonical_postCommand h keepsCmd_attest)
  | retctlWrite => rw [exec_retctlWrite]; exact canonicalOut_regWrite h fun _ h1 => canonical_writeRetctl h1
  | l1cfgWrite => rw [exec_l1cfgWrite]; exact canonicalOut_regWrite h fun _ h1 => canonical_writeL1cfg h1
  | ephctlWrite => rw [exec_ephctlWrite]; exact canonicalOut_regWrite h fun _ h1 => canonical_writeEphctl h1
  | almcapWrite => rw [exec_almcapWrite]; exact canonicalOut_regWrite h fun _ h1 => canonical_writeAlmcap h1
  | mctlWrite => rw [exec_mctlWrite]; exact canonicalOut_regWrite h fun _ h1 => canonical_writeMctl h1
  | mepochWrite => rw [exec_mepochWrite]; exact canonicalOut_regWrite h fun _ h1 => canonical_writeMepoch h1
  | mslewWrite => rw [exec_mslewWrite]; exact canonicalOut_regWrite h fun _ h1 => canonical_writeMslew h1
  | scrctlWrite => rw [exec_scrctlWrite]; exact canonicalOut_regWrite h fun _ h1 => canonical_writeScrctl h1
  | missWrite => rw [exec_missWrite]; exact canonicalOut_regWrite h fun _ h1 => canonical_writeMiss h1
  | rowLogWrite => rw [exec_rowLogWrite]; exact canonicalOut_regWrite h fun _ h1 => canonical_writeRowLog h1
  | plimWrite => rw [exec_plimWrite]; exact canonicalOut_regWrite h fun _ h1 => canonical_writePlim h1
  | dlimWrite => rw [exec_dlimWrite]; exact canonicalOut_regWrite h fun _ h1 => canonical_writeDlim h1
  | qbaseWrite => rw [exec_qbaseWrite]; exact canonicalOut_regWrite h fun _ h1 => canonical_writeQbase h1
  | qlogWrite => rw [exec_qlogWrite]; exact canonicalOut_regWrite h fun _ h1 => canonical_writeQlog h1
  | qheadWrite => rw [exec_qheadWrite]; exact canonicalOut_regWrite h fun _ h1 => canonical_writeQhead h1
  | pkgnumWrite => rw [exec_pkgnumWrite]; exact canonicalOut_regWrite h fun _ h1 => canonical_writePkgnum h1
  | pcapWrite => rw [exec_pcapWrite]; exact canonicalOut_regWrite h fun _ h1 => canonical_writePcap h1
  | registerWrite => rw [exec_registerWrite]; exact canonicalOut_regWrite h fun _ h1 => canonical_writeReg h1
  | coldReset | reset =>
    simp only [exec_coldReset, exec_reset]
    exact canonicalOut_next (canonical_wipe h _)
  | ucieFailure => rw [exec_ucieFailure]; exact canonicalOut_next (canonical_fatalStop h)
  | chainFull | memoryAccessComplete | ppsEdge | ualinkLinkReset | dcExtentRelease | extentReleaseResponse
  | hostWriteRejected =>
    simp only [exec_chainFull, exec_memoryAccessComplete, exec_ppsEdge, exec_ualinkLinkReset, exec_dcExtentRelease,
      exec_extentReleaseResponse, exec_hostWriteRejected]
    exact canonicalOut_next h

end Sys2Proof.Proofs
end

section
namespace Sys2Proof.Proofs

open Sys2Proof.Machine Sys2Proof.Claims Sys2Proof.Laws

variable {s t : State}

/-! ### Issue, the agenda and the turn (spec/01, R35; spec/05, R118; spec/12, R308, R320) -/

theorem canonical_fetch (h : Canonical s) : Canonical s.fetch.1 := by
  unfold State.fetch
  extract_lets m0 m s0
  have h0 : Canonical s0 := canonical_setMe h
  split
  · split
    · exact canonical_park h0
    · exact canonical_endTrap h0
  · have touched {n : Nat} : Canonical (s0.touchLine m n) := canonical_touchLine h0
    split
    · exact canonical_endTrap touched
    · exact canonical_setMe touched

theorem canonical_issue (h : Canonical s) {sid : Nat} : Canonical (s.issue sid).1 := by
  have hf : Canonical (s.focus sid) := canonical_focus h
  unfold State.issue
  extract_lets s0 m
  split
  · exact h
  · split
    · exact h
    · have turned : Canonical (s0.select m.tile m.slot) := canonical_select hf
      split
      · exact canonical_debugStop (canonical_setMe turned)
      · exact canonical_fetch turned

theorem canonical_issueXs (h : Canonical s) {tile : Nat} : Canonical (s.issueXs tile).1 := by
  unfold State.issueXs
  split
  · exact h
  · rename_i r _
    have hf : Canonical (s.focus r.sid) := canonical_focus h
    extract_lets s0 m trapped
    have ht (c : Cause) : Canonical (trapped c) := canonical_endTrap hf
    split
    · exact h
    · split
      · exact ht _
      · split
        · exact ht _
        · split
          · exact ht _
          · exact hf

theorem canonicalOut_runIssue {r : State × Option Instr} (h : Canonical r.1) : CanonicalOut (runIssue r) := by
  unfold runIssue
  split
  · exact canonicalOut_next h
  · exact canonicalOut_exec h _

theorem canonicalOut_act (h : Canonical s) {a : Action} : CanonicalOut (act a s) := by
  cases a with
  | issue sid => exact canonicalOut_runIssue (canonical_issue h)
  | xs tile => exact canonicalOut_runIssue (canonical_issueXs h)
  | event i =>
    simp only [act]
    split
    · exact canonicalOut_exec h i
    · exact canonicalOut_next h
  | input x => exact canonicalOut_next (canonical_input h)
  | time units cycles => exact canonicalOut_next (canonical_pass h)

theorem canonical_after (h : Canonical s) {a : Action} : Canonical (s.after a) := by
  unfold State.after
  split
  · exact canonicalOut_act h _ ‹_›
  · exact h
  · exact h

theorem canonical_turnTo (h : Canonical s) {a : Action} : Canonical (s.turnTo a) := by
  unfold State.turnTo
  split
  · split <;> exact h
  · exact h

theorem canonical_asRunning (h : Canonical t) : Canonical (s.asRunning t) :=
  canonical_foldl h _ fun _ _ h1 => canonical_ite (canonical_updCtx h1) h1

theorem canonical_allTogether (h : Canonical s) {l : List Action} : Canonical (s.allTogether l) := by
  refine canonical_foldl (canonical_foldl (canonical_foldl h _ ?_) _ ?_) _ fun _ _ h1 => canonical_reconsider h1
  · intro t f ht
    split
    · exact canonical_faultPage ht ‹_›
    · exact ht
    · exact ht
  · exact fun _ _ ht => canonical_after (canonical_turnTo (canonical_asRunning ht))

theorem canonicalOut_play (h : Canonical s) {a : Action} {more : List Action} : CanonicalOut (s.play a more) := by
  cases more with
  | nil => exact canonicalOut_act h
  | cons b l => exact canonicalOut_next (canonical_allTogether h)

theorem canonicalOut_step (h : Canonical s) : CanonicalOut (step s) := by
  have queue {l : List Action} : Canonical { s with agenda := l } := h
  unfold step
  split
  · split
    · exact canonicalOut_next h
    · split
      · exact canonicalOut_act h
      · split
        · exact canonicalOut_runIssue (canonical_issue h)
        · exact canonicalOut_next (canonical_pass h)
  · split
    · split
      · exact canonicalOut_act queue
      · exact canonicalOut_next queue
    · exact canonicalOut_play queue

/-- Settles O57: whatever a step does is built of writes that keep the three memories canonical. -/
theorem memoryStaysCanonical : Obligations.MemoryStaysCanonical := by
  intro s t hs ht
  exact canonicalOut_step hs t ht

end Sys2Proof.Proofs
end

section
/-!
The writes of a strand that are not yet in their registers (spec/04, R104): what a register reads after one of them has gone
into its file, after all that are due have (O51), and which of them are still pending then.
-/

namespace Sys2Proof.Proofs

open Sys2Proof.Machine Sys2Proof.Claims Sys2Proof.Laws

/-! ### A register after one write into its file (spec/02, R52) -/

theorem laneAt_mergeLanes (mask : W64) (new old : Lanes) {i : Nat} (hi : i < 64) :
    laneAt (mergeLanes mask new old) i = if mask.getLsbD i then laneAt new i else laneAt old i := by
  refine Nat.eq_of_testBit_eq fun j => ?_
  simp only [laneAt, apply_ite (Nat.testBit · j), elemAt_testBit]
  by_cases hj : j < 32
  · have lane : (laneMask mask).getLsbD (32 * i + j) = mask.getLsbD i := by
      rw [getLsbD_laneMask, show (32 * i + j) / 32 = i by omega]
      simp [show 32 * i + j < 2048 by omega]
    simp only [mergeLanes, BitVec.getLsbD_or, BitVec.getLsbD_and, BitVec.getLsbD_not, lane]
    cases mask.getLsbD i <;> simp [show 32 * i + j < 2048 by omega]
  · simp [hj]

variable {m : Strand} {d : Dest} {mask : W64} {val : Lanes}

theorem readS_store {n : SReg} (hn : n ≠ 0) :
    (m.store d mask val).readS n = if d = .s n ∧ mask.getLsbD 0 = true then val.setWidth 64 else m.readS n := by
  cases d
  case s k =>
    by_cases hk : k = n
    · subst hk
      cases h : mask[0] <;> simp [Strand.store, Strand.readS, hn, h]
    · have : k.val ≠ n.val := fun e => hk (Fin.ext e)
      simp [Strand.store, Strand.readS, apply_ite Strand.sRegs, apply_ite (fun x : Vector W64 64 => x[n]), hk, this]
  all_goals simp [Strand.store, Strand.readS, apply_ite Strand.sRegs]

theorem readQ_store {n : QReg} (hn : n ≠ 0) :
    (m.store d mask val).readQ n = if d = .q n ∧ mask.getLsbD 0 = true then val.getLsbD 0 else m.readQ n := by
  cases d
  case q k =>
    by_cases hk : k = n
    · subst hk
      cases h : mask[0] <;> simp [Strand.store, Strand.readQ, hn, h]
    · have : k.val ≠ n.val := fun e => hk (Fin.ext e)
      simp [Strand.store, Strand.readQ, apply_ite Strand.qRegs, apply_ite (fun x : Vector Bool 16 => x[n]), hk, this]
  all_goals simp [Strand.store, Strand.readQ, apply_ite Strand.qRegs]

theorem readB_store {n : BReg} :
    (m.store d mask val).readB n = if d = .b n ∧ mask.getLsbD 0 = true then val.setWidth 32 else m.readB n := by
  cases d
  case b k =>
    by_cases hk : k = n
    · subst hk
      cases h : mask[0] <;> simp [Strand.store, Strand.readB, h]
    · have : k.val ≠ n.val := fun e => hk (Fin.ext e)
      simp [Strand.store, Strand.readB, apply_ite Strand.bRegs, apply_ite (fun x : Vector W32 8 => x[n]), hk, this]
  all_goals simp [Strand.store, Strand.readB, apply_ite Strand.bRegs]

theorem laneAt_readV_store {n : VReg} {i : Nat} (hi : i < 64) :
    laneAt ((m.store d mask val).readV n) i =
      if d = .v n ∧ mask.getLsbD i = true then laneAt val i else laneAt (m.readV n) i := by
  cases d
  case v k =>
    by_cases hk : k = n
    · subst hk
      simp [Strand.store, Strand.readV, laneAt_mergeLanes _ _ _ hi]
    · have : k.val ≠ n.val := fun e => hk (Fin.ext e)
      simp [Strand.store, Strand.readV, hk, this]
  all_goals simp [Strand.store, Strand.readV, apply_ite Strand.vRegs]

theorem getLsbD_readM_store {n : MReg} (hn : n ≠ 0) {i : Nat} (hi : i < 64) :
    ((m.store d mask val).readM n).getLsbD i =
      if d = .m n ∧ mask.getLsbD i = true then val.getLsbD i else (m.readM n).getLsbD i := by
  cases d
  case m k =>
    by_cases hk : k = n
    · subst hk
      cases h : mask[i] <;> simp [Strand.store, Strand.readM, hn, h, hi]
    · have : k.val ≠ n.val := fun e => hk (Fin.ext e)
      simp [Strand.store, Strand.readM, apply_ite Strand.mRegs, apply_ite (fun x : Vector W64 16 => x[n]), hk, this]
  all_goals simp [Strand.store, Strand.readM, apply_ite Strand.mRegs]


/-! ### A register after all due writes (spec/04, R104) -/

/-- The write is to lane `i` of register `d`. -/
def writesLane (d : Dest) (i : Nat) (w : PWrite) : Bool := decide (w.dest = d) && w.mask.getLsbD i

@[simp] theorem writesLane_iff {d : Dest} {i : Nat} {w : PWrite} :
    writesLane d i w = true ↔ w.dest = d ∧ w.mask.getLsbD i = true := by
  simp [writesLane]

section committed

variable {m : Strand} {t : Nat} {w : PWrite} {ws keep : List PWrite}

theorem commitFrom_due (h : w.dueAt t = true) :
    commitFrom t (w :: ws) keep m = commitFrom t ws (dropLanes w.dest w.mask keep) (m.store w.dest w.mask w.val) :=
  if_pos h

theorem commitFrom_not_due (h : w.dueAt t = false) : commitFrom t (w :: ws) keep m = commitFrom t ws (keep ++ [w]) m :=
  if_neg (by simp [h])

section view

variable {α : Type} {view : Strand → α} {shown : PWrite → α} {d : Dest} {i : Nat}
  (hstore : ∀ m w, view (m.store w.dest w.mask w.val) = if w.dest = d ∧ w.mask.getLsbD i = true then shown w else view m)
  (hpend : ∀ (m : Strand) l, view { m with pend := l } = view m)

include hstore hpend

/-- A view of lane `i` of register `d`, which a store to the lane sets and nothing else changes, shows after the due writes
the youngest of them to the lane. -/
theorem commitFrom_lane : view (commitFrom t ws keep m) =
    ((ws.filter fun w => writesLane d i w && w.dueAt t).getLast?).elim (view m) shown := by
  induction ws generalizing keep m with
  | nil => exact hpend m keep
  | cons w ws ih =>
    cases hdue : w.dueAt t with
    | false => rw [commitFrom_not_due hdue, ih, List.filter_cons_of_neg (by simp [hdue])]
    | true =>
      rw [commitFrom_due hdue, ih, hstore]
      by_cases hw : w.dest = d ∧ w.mask.getLsbD i = true
      · rw [if_pos hw, List.filter_cons_of_pos (by simp [hdue, hw]), List.getLast?_cons]
        cases (ws.filter fun w => writesLane d i w && w.dueAt t).getLast? <;> rfl
      · rw [if_neg hw, List.filter_cons_of_neg (by simpa [hdue] using hw)]

theorem settle_lane : view m.settle =
    ((m.pend.filter fun w => writesLane d i w && w.dueAt m.tick).getLast?).elim (view m) shown :=
  commitFrom_lane hstore hpend

end view

end committed

/-! ### The writes that stay pending (R104) -/

theorem writesLane_dropped_iff {d e : Dest} {mask : W64} {i : Nat} {w : PWrite} :
    writesLane d i (if w.dest = e then { w with mask := w.mask &&& ~~~mask } else w) = true ↔
      writesLane d i w = true ∧ ¬ (e = d ∧ mask.getLsbD i = true) := by
  by_cases he : w.dest = e
  · subst he
    have inRange : w.mask.getLsbD i = true → i < 64 := BitVec.lt_of_getLsbD
    simp only [↓reduceIte, writesLane_iff, BitVec.getLsbD_and, BitVec.getLsbD_not]
    grind
  · have other : w.dest = d → e ≠ d := fun h h' => he (h.trans h'.symm)
    rw [if_neg he, writesLane_iff]
    grind

theorem mask_ne_zero_of_writesLane {d : Dest} {i : Nat} {w : PWrite} (hw : writesLane d i w = true) : w.mask ≠ 0 := by
  intro h0
  simp [h0] at hw

theorem exists_dropLanes_iff {d e : Dest} {mask : W64} {i : Nat} {l : List PWrite} :
    (∃ w ∈ dropLanes e mask l, writesLane d i w = true) ↔
      (∃ w ∈ l, writesLane d i w = true) ∧ ¬ (e = d ∧ mask.getLsbD i = true) := by
  simp only [dropLanes, List.mem_filter, List.mem_map, bne_iff_ne]
  constructor
  · rintro ⟨_, ⟨⟨w, hw, rfl⟩, -⟩, hl⟩
    obtain ⟨hl, hd⟩ := writesLane_dropped_iff.mp hl
    exact ⟨⟨w, hw, hl⟩, hd⟩
  · rintro ⟨⟨w, hw, hl⟩, hd⟩
    have hl := writesLane_dropped_iff.mpr ⟨hl, hd⟩
    exact ⟨_, ⟨⟨w, hw, rfl⟩, mask_ne_zero_of_writesLane hl⟩, hl⟩

/-- Some write of the list to lane `i` of `d` is not yet due, and no younger one of the list to the lane is due. -/
def StaysPending (t : Nat) (d : Dest) (i : Nat) (l : List PWrite) : Prop :=
  ∃ l1 w l2, l = l1 ++ w :: l2 ∧ writesLane d i w = true ∧ w.dueAt t = false ∧
    ∀ x ∈ l2, writesLane d i x = true → x.dueAt t = false

theorem staysPending_cons {t : Nat} {d : Dest} {i : Nat} {w : PWrite} {l : List PWrite} :
    StaysPending t d i (w :: l) ↔ StaysPending t d i l ∨
      (writesLane d i w = true ∧ w.dueAt t = false ∧ ∀ x ∈ l, writesLane d i x = true → x.dueAt t = false) := by
  constructor
  · rintro ⟨l1, x, l2, hl, hx⟩
    cases l1 with
    | nil =>
      obtain ⟨rfl, rfl⟩ := List.cons.inj hl
      exact .inr hx
    | cons y l1 =>
      obtain ⟨rfl, rfl⟩ := List.cons.inj hl
      exact .inl ⟨l1, x, l2, rfl, hx⟩
  · rintro (⟨l1, x, l2, rfl, hx⟩ | hw)
    · exact ⟨w :: l1, x, l2, rfl, hx⟩
    · exact ⟨[], w, l, rfl, hw⟩

theorem exists_pend_commitFrom_iff {t : Nat} {d : Dest} {i : Nat} {m : Strand} {ws keep : List PWrite} :
    (∃ w ∈ (commitFrom t ws keep m).pend, writesLane d i w = true) ↔
      ((∃ w ∈ keep, writesLane d i w = true) ∧ ∀ x ∈ ws, writesLane d i x = true → x.dueAt t = false) ∨
      StaysPending t d i ws := by
  induction ws generalizing keep m with
  | nil => simp [commitFrom, StaysPending]
  | cons w ws ih =>
    cases hdue : w.dueAt t with
    | false =>
      rw [commitFrom_not_due hdue, ih, staysPending_cons]
      simp only [List.mem_append, List.mem_singleton, List.forall_mem_cons, or_and_right, exists_or, exists_eq_left, hdue]
      grind
    | true =>
      rw [commitFrom_due hdue, ih, staysPending_cons, exists_dropLanes_iff, ← writesLane_iff]
      simp only [List.forall_mem_cons, hdue]
      grind

theorem exists_pend_settle_iff {d : Dest} {i : Nat} {m : Strand} :
    (∃ w ∈ m.settle.pend, writesLane d i w = true) ↔ StaysPending m.tick d i m.pend := by
  simpa [Strand.settle] using exists_pend_commitFrom_iff (t := m.tick) (d := d) (i := i) (m := m) (ws := m.pend) (keep := [])

/-! ### What settling leaves as it was -/

/-- The strand with the register files and pending writes of another. -/
def withFiles (m n : Strand) : Strand :=
  { m with sRegs := n.sRegs, qRegs := n.qRegs, vRegs := n.vRegs, mRegs := n.mRegs, bRegs := n.bRegs, pend := n.pend }

theorem store_eq_withFiles (m : Strand) (d : Dest) (mask : W64) (val : Lanes) :
    m.store d mask val = withFiles m (m.store d mask val) := by
  unfold Strand.store
  split
  case h_3 => rfl
  all_goals split <;> rfl

theorem withFiles_store (m : Strand) (d : Dest) (mask : W64) (val : Lanes) (n : Strand) :
    withFiles (m.store d mask val) n = withFiles m n := by
  rw [store_eq_withFiles]
  rfl

theorem commitFrom_eq_withFiles (t : Nat) (ws keep : List PWrite) (m : Strand) :
    commitFrom t ws keep m = withFiles m (commitFrom t ws keep m) := by
  induction ws generalizing keep m with
  | nil => rfl
  | cons w ws ih =>
    cases hdue : w.dueAt t with
    | false =>
      rw [commitFrom_not_due hdue]
      exact ih _ m
    | true =>
      rw [commitFrom_due hdue]
      exact (ih _ _).trans (withFiles_store m w.dest w.mask w.val _)

theorem settle_eq_withFiles (m : Strand) : m.settle = withFiles m m.settle := commitFrom_eq_withFiles _ _ _ m

/-! ### Constant registers (R52) -/

theorem writeAt_const {m : Strand} {l : Nat} {d : Dest} {mask : W64} {val : Lanes} (h : d.const = true) :
    m.writeAt l d mask val = m := by
  simp [Strand.writeAt, h]

theorem writeIl_const {m : Strand} {d : Dest} {mask : W64} {val : Lanes} (h : d.const = true) : m.writeIl d mask val = m := by
  simp [Strand.writeIl, h]

/-- Settles O51: the lanes of the registers, the writes that stay, the constant registers, and what settling leaves. -/
theorem readersSeeTheYoungestDueWrite : Obligations.ReadersSeeTheYoungestDueWrite := by
  unfold Obligations.ReadersSeeTheYoungestDueWrite
  intro m due last
  have seen {α : Type} {view : Strand → α} {shown : PWrite → α} (d : Dest) (i : Nat) (hstore) (hpend) :
    view m.settle = (last d i).elim (view m) shown := settle_lane hstore hpend
  refine ⟨fun n hn => ?_, fun n hn => ?_, fun n => ?_, fun n i hi => ?_, fun n i hn hi => ?_, ⟨rfl, rfl, rfl⟩, ?_, ?_,
    settle_eq_withFiles m⟩
  · rw [seen (view := (Strand.readS · n)) (.s n) 0 (fun _ _ => readS_store hn) fun _ _ => rfl]
    cases last (.s n) 0 <;> rfl
  · rw [seen (view := (Strand.readQ · n)) (.q n) 0 (fun _ _ => readQ_store hn) fun _ _ => rfl]
    cases last (.q n) 0 <;> rfl
  · rw [seen (view := (Strand.readB · n)) (.b n) 0 (fun _ _ => readB_store) fun _ _ => rfl]
    cases last (.b n) 0 <;> rfl
  · rw [seen (view := fun m => laneAt (m.readV n) i) (.v n) i (fun _ _ => laneAt_readV_store hi) fun _ _ => rfl]
    cases last (.v n) i <;> rfl
  · rw [seen (view := fun m => (m.readM n).getLsbD i) (.m n) i (fun _ _ => getLsbD_readM_store hn hi) fun _ _ => rfl]
    cases last (.m n) i <;> rfl
  · intro l d mask v hd
    have hconst : d.const = true := by
      simp only [List.mem_cons, List.not_mem_nil, or_false] at hd
      obtain rfl | rfl | rfl := hd <;> rfl
    exact ⟨writeAt_const hconst, writeIl_const hconst⟩
  · intro d i
    have stays := exists_pend_settle_iff (m := m) (d := d) (i := i)
    simp only [StaysPending, writesLane_iff, and_assoc, and_imp] at stays
    exact stays

end Sys2Proof.Proofs
end

section
/-!
The arrival of loaded data in their register, and the turn and the drain of a side-log entry (O37).
-/

namespace Sys2Proof.Proofs

open Sys2Proof.Machine Sys2Proof.Claims Sys2Proof.Laws

/-! ### What leaves the side log as it is -/

section slog

variable (s : State) (c : Ctx)

@[simp] theorem flushQueue_slog (dw bit fuel : Nat) (q : EvQueue) : (flushQueue dw bit fuel s q).1.slog = s.slog := by
  induction fuel generalizing s q with
  | zero => rfl
  | succ fuel ih =>
    unfold flushQueue
    split
    · rfl
    · split
      · exact ih _ _
      · rfl

@[simp] theorem pushEvent_slog (code : Nat) (ctxh : W32) (a b : W64) : (s.pushEvent code ctxh a b).slog = s.slog := by
  unfold State.pushEvent
  dsimp only
  split
  · exact flushQueue_slog _ _ _ _ _
  · rfl

@[simp] theorem physWrite_slog (pa : Nat) (bs : List Byte) : (s.physWrite pa bs).slog = s.slog := by
  unfold State.physWrite State.placeWrite
  split
  · rfl
  · split
    · exact pushEvent_slog _ _ _ _ _
    · rfl

@[simp] theorem writeParts_slog (ps : List Part) (bs : List Byte) : (s.writeParts c ps bs).slog = s.slog := by
  induction ps generalizing s bs with
  | nil => rfl
  | cons p ps ih =>
    unfold State.writeParts
    split
    · rw [ih, physWrite_slog]
    · exact ih _ _

@[simp] theorem applyAct_slog (a : LogAct) : (s.applyAct c a).slog = s.slog := by
  unfold State.applyAct
  split
  · exact writeParts_slog _ _ _ _
  · dsimp only
    split
    · exact writeParts_slog _ _ _ _
    · rfl

@[simp] theorem touch_slog (r : Nat × Nat × W64) : (s.touch r).slog = s.slog := by
  unfold State.touch
  dsimp only
  split <;> rfl

theorem foldl_slog {β : Type} {f : State → β → State} (hf : ∀ t b, (f t b).slog = t.slog) (l : List β) :
    (l.foldl f s).slog = s.slog := by
  induction l generalizing s with
  | nil => rfl
  | cons b l ih => exact (ih _).trans (hf s b)

@[simp] theorem touchAll_slog (k : Acc) (l : List Access) : (s.touchAll c k l).slog = s.slog :=
  foldl_slog s touch_slog _

@[simp] theorem applyActs_slog (l : List LogAct) : (s.applyActs c l).slog = s.slog :=
  foldl_slog s (fun t a => applyAct_slog t c a) l

end slog

/-! ### Arrivals and drains (spec/04, R101; spec/08, R212) -/

theorem land_oldest {m : Strand} {older younger : List PWrite} {w : PWrite} (hp : m.pend = older ++ w :: younger)
    (hold : ∀ x ∈ older, x.il = false) (hil : w.il = true) :
    m.land = { m.store w.dest w.mask w.val with pend := dropLanes w.dest w.mask older ++ younger } := by
  have first : m.pend.findIdx? (fun w => w.il) = some older.length := by
    have none_older : older.findIdx? (fun w => w.il) = none := List.findIdx?_eq_none_iff.mpr hold
    simp [hp, List.findIdx?_append, none_older, List.findIdx?_cons, hil]
  have at_ : m.pend[older.length]? = some w := by simp [hp]
  have before : m.pend.take older.length = older := by simp [hp]
  have after : m.pend.drop (older.length + 1) = younger := by simp [hp]
  simp only [Strand.land, first, at_, before, after]

theorem drainTurn_iff {s : State} {k : Nat} {e : SlogEntry} :
    s.drainTurn k e = true ↔ ∀ x ∈ s.slog.take k, ¬ (x.page = e.page ∧ (s.ctx x.ctx).asid = (s.ctx e.ctx).asid) ∧
      ¬ (x.sid = e.sid ∧ s.slogHoldsSo x = true ∧ s.slogHoldsSo e = true) := by
  simp only [State.drainTurn, List.all_eq_true]
  refine forall₂_congr fun x _ => ?_
  simp only [Bool.and_eq_true, Bool.or_eq_true, Bool.not_eq_true', ← Bool.not_eq_true, decide_eq_true_eq, bne_iff_ne, ne_eq,
    Classical.not_and_iff_not_or_not]

/-- The access as which the drain of an entry is checked: that of its first part (R337). -/
def drainAcc (e : SlogEntry) : Acc := e.acts.head?.elim .w LogAct.acc

theorem execSideLogDrain_fine {s : State} {k : Nat} {e : SlogEntry} (he : s.slog[k]? = some e)
    (hturn : s.drainTurn k e = true)
    (hfine : s.checkAll (s.ctx e.ctx) (drainAcc e) (e.acts.map LogAct.access) = .fine) :
    execSideLogDrain k s = .next ((({ s with slog := s.slog.eraseIdx k } : State).touchAll (s.ctx e.ctx) (drainAcc e)
      (e.acts.map LogAct.access)).applyActs (s.ctx e.ctx) e.acts).refresh := by
  unfold drainAcc at hfine ⊢
  cases hhead : e.acts.head? <;>
  · simp only [hhead, Option.elim] at hfine ⊢
    simp only [execSideLogDrain, he, hturn, hhead, hfine, Bool.not_true, Bool.false_eq_true, if_false]

/-- Settles O37: the oldest interlocked write lands, the two orders of R212, and the drain of a present page. -/
theorem completionsAndDrains : Obligations.CompletionsAndDrains := by
  unfold Obligations.CompletionsAndDrains
  intro s k e m older younger w
  refine ⟨land_oldest, fun sid => exec_memoryAccessComplete sid s, drainTurn_iff, fun he hturn => ?_⟩
  intro acc l hfine
  have hacc : acc = drainAcc e := by
    unfold acc drainAcc
    cases e.acts.head? <;> rfl
  rw [hacc] at hfine ⊢
  refine ⟨_, _, (exec_sideLogDrain k s).trans (execSideLogDrain_fine he hturn hfine), ?_, rfl, rfl⟩
  rw [applyActs_slog, touchAll_slog]

end Sys2Proof.Proofs
end
